-- ==== Sys2Proof/Word.lean ====
section
/-! DEFINITION. The word types of the MK4620: a byte of a frame or a page cell, a 16-bit counter or field, a frame number. -/

namespace Sys2Proof

/-- A byte of a frame body (R152), a page cell (R1), a drive level (R24). -/
abbrev Byte := BitVec 8

/-- A 16-bit field: a saturating counter (R39, R166), a change-set id (R54), a check value (R187). -/
abbrev Half := BitVec 16

/-- A 32-bit frame number (R44). -/
abbrev FrameNo := BitVec 32

end Sys2Proof
end

