-- ==== Sys2Proof/Syntax.lean ====
section
/-! DEFINITION. The commands of the block: one constructor of `Instr` per row of spec/opcode_table.json, with its operands. -/

namespace Sys2Proof

/-- The addressing class of a request (R154). -/
inductive AddressClass where
  | unit
  | group (g : Fin 16)
  | allTiles
  deriving DecidableEq, Repr

/-- A request frame as the request queue keeps it: "the frame's body as received and its addressing class as the
Link Interface decided it" (R169). -/
structure Request where
  cls  : AddressClass
  body : List Byte
  deriving DecidableEq, Repr

/-- Operand of a request row: the frame that the executor takes (R171), and the moment, in ns, at which it does (log 2, log 4).
The request's arguments are the payload of the body (R189). -/
structure Take where
  req    : Request
  moment : Nat
  deriving DecidableEq, Repr

/-- A symbol on a line of a link port: a data byte, or one of the three control symbols START, END and IDLE (R152). -/
inductive Symbol where
  | start
  | data (b : Byte)
  | finish
  | idle
  deriving DecidableEq, Repr

/-- How a frame on an input finished (R152): by an END, or cut off by a START or an IDLE. -/
inductive Ending where
  | complete
  | cutOff
  deriving DecidableEq, Repr

/-- A link frame as the receiver of an input delimits it: its body bytes and how it finished (R152). -/
structure LinkFrame where
  body   : List Byte
  ending : Ending
  deriving DecidableEq, Repr

/-- The result of a channel test (R118). -/
inductive TestResult where
  | ok
  | openFault
  | shortFault
  deriving DecidableEq, Repr

/-- Which fuses took a blow that was attempted (R100: "A blow may fail: the fuse is then left blank"). A set bit is a blow
that took; a bit for a fuse that the burn engine does not blow is ignored (log 10). -/
structure Blows where
  index      : BitVec 4
  complement : BitVec 4
  damage     : BitVec 2
  deriving DecidableEq, Repr

/-- What holds the tile at its cold-reset values (R143). -/
inductive ResetCause where
  | powerLost
  | lineAsserted
  deriving DecidableEq, Repr

/-- What ends the hold (R143). -/
inductive StartCause where
  | powerGood
  | lineReleased
  deriving DecidableEq, Repr

/-- The three events of a frame on UP-in for which the row DOWNSTREAM_REPEAT stands (log 12): its destination byte arrives (R154); its third
body byte arrives and its repeat begins (R155); it ends and its repeat with it (R155). -/
inductive RepeatStage where
  | destinationByte
  | repeatBegins
  | frameEnds
  deriving DecidableEq, Repr

/-- The commands. A moment `t` is in ns (log 4). `ys` is the symbols that have arrived on the row's input, UP-in or DOWN-in, since the
last event on that input, up to the one that makes the row's event (log 12). -/
inductive Instr where
  -- chapter 9 and 10: enumeration, identity, groups, restart, notices
  | enumerate (ys : List Symbol)
  | identify (k : Take)
  | status (k : Take)
  | joinGroup (k : Take)
  | leaveGroup (k : Take)
  | restart (k : Take)
  | readNotices (k : Take)
  | ackNotices (k : Take)
  -- chapter 8: mode
  | setMode (k : Take)
  -- chapter 1: frame store
  | setCanvas (k : Take)
  | writePixels (k : Take)
  | fillRect (k : Take)
  | fillComplete
  | readPixels (k : Take)
  | copyFront (k : Take)
  | copyComplete
  -- chapter 4: change sets
  | beginSet (k : Take)
  | stageBands (k : Take)
  | stagePan (k : Take)
  | stagePalette (k : Take)
  | stageLevel (k : Take)
  | commit (k : Take)
  | abandon (k : Take)
  -- chapter 2: the view in force
  | readBands (k : Take)
  | readPalette (k : Take)
  -- chapter 3: frame timing
  | setSync (k : Take)
  | setFrameNumber (k : Take)
  -- chapter 5: repair map
  | readMap (k : Take)
  | repair (k : Take)
  | release (k : Take)
  | markFaulty (k : Take)
  | clearFault (k : Take)
  | setRepairPolicy (k : Take)
  -- chapter 6: fuses
  | burn (k : Take)
  | burnWriteExpiry (b : Blows)
  | burnCheckRead (t : Nat)
  | burnMarkExpiry (b : Blows)
  | burnRecheckRead (t : Nat)
  | readFuses (k : Take)
  -- chapter 7: tests
  | scan (k : Take)
  | scanTestEnd (r : TestResult)
  | scanAbort (k : Take)
  | readScan (k : Take)
  | setPatrol (k : Take)
  | patrolTestEnd (r : TestResult)
  -- chapter 10: a kind that is not defined
  | unknownKind (k : Take)
  -- chapter 3 and 2: edges, timers, blanking
  | syncEdge (t : Nat)
  | seekingTimerExpiry
  | supervisionTimerExpiry
  | holdoverTimerExpiry
  | freeRunTimerExpiry
  | blankingIntervalEnd
  -- chapter 9: link
  | downstreamFrameEnd (ys : List Symbol)
  | downstreamRepeat (stage : RepeatStage) (ys : List Symbol)
  | upstreamFrameEnd (ys : List Symbol)
  | upOutFrameBegin
  | upOutFrameEnd
  -- chapter 8: cold reset and start-up
  | coldReset (c : ResetCause) (b : Blows)
  | startupBegin (c : StartCause)
  | startupEnd (t : Nat)
  -- chapter 10: an ENUMERATE in the request queue
  | queuedEnumerate (k : Take)
  deriving DecidableEq, Repr

end Sys2Proof
end

