-- ==== Sys2Proof/Decode.lean ====
section
/-! DEFINITION. Words that spell commands. spec/opcode_table.json gives no row any bits (every row's "fields" is empty), so no word
spells a command. -/

namespace Sys2Proof

/-- The command that a word of `nbits` bits spells by the table's bits: none, since the table gives none. -/
def decodeTableWord (_nbits _w : Nat) : Option Instr := none

end Sys2Proof
end

