-- ==== Sys2Proof/Config.lean ====
section
/-! DEFINITION. What is fixed for one part, and the free values of the spec. A constant with no body has no value that a proof can see. -/

namespace Sys2Proof

/-- The 48-bit factory-set serial number (R184). The spec gives no value: no body (log 8). -/
opaque Config.serial : BitVec 48

/-- How far a copy that a warm restart aborts has come: "the host cannot learn where that point lies" (R6).
Applied to `State.freeCount`, a fresh value for each aborted copy (log 9). -/
opaque Config.copyProgress : Nat → Nat

/-- Product code (R184). -/
def Config.productCode : Nat := 0x4620

/-- Revision (R184). -/
def Config.revision : Byte := 2

end Sys2Proof
end

