-- ==== Sys2Proof/Machine/State.lean ====
section
/-! DEFINITION. The state of one MK4620 tile: one structure for each of the ten blocks of the block diagram (00_scope), the two
lines that hold the tile, the model's own clock and counter, and the queue of commands; and its value after a cold reset. -/

namespace Sys2Proof.Machine

/-! ## Mode Control (chapter 8) -/

/-- The output mode (R138). -/
inductive Mode where
  | off
  | standby
  | showMode
  | maintenance
  deriving DecidableEq, Repr

/-- The start-up state (R139). -/
inductive StartUp where
  | starting
  | ready
  deriving DecidableEq, Repr

/-- Mode Control's two values. -/
structure ModeControl where
  mode    : Mode
  startUp : StartUp
  deriving DecidableEq, Repr

/-- Cold reset: OFF and STARTING (R139). -/
def ModeControl.cold : ModeControl := { mode := .off, startUp := .starting }

/-! ## Frame Store (chapter 1) -/

/-- The two pages (R1). -/
inductive Page where
  | A
  | B
  deriving DecidableEq, Repr

/-- The other page: the back page of a front page (R2). -/
def Page.other : Page → Page
  | .A => .B
  | .B => .A

/-- A page: cells by page offset, in canonical form (offsets strictly rising, no cell equal to 0, the value of an unlisted cell;
log 22). -/
abbrev Cells := List Host.Cell

/-- The copy engine: IDLE, or COPYING from the source page it chose at acceptance (R13). -/
inductive CopyEngine where
  | idle
  | copying (source : Page)
  deriving DecidableEq, Repr

/-- The Frame Store. -/
structure FrameStore where
  pageA : Cells
  pageB : Cells
  front : Page
  width : Nat
  copy  : CopyEngine
  deriving DecidableEq, Repr

/-- Cold-reset values (R5), the pages cleared as the end of start-up leaves them. -/
def FrameStore.cold : FrameStore := { pageA := [], pageB := [], front := .A, width := 256, copy := .idle }

/-! ## Presentation Unit (chapter 2) -/

/-- A band record (R19). -/
structure Band where
  top  : Nat
  sx   : Nat
  sy   : Nat
  bank : Nat
  deriving DecidableEq, Repr

/-- A palette entry: red, green and blue, each 0-1023 (R23). -/
structure Colour where
  red   : BitVec 10
  green : BitVec 10
  blue  : BitVec 10
  deriving DecidableEq, Repr

/-- The four palette banks: entry `i` of bank `b` under key `256 * b + i`, in canonical form (keys strictly rising, no entry equal
to its default value (4i, 4i, 4i), which is what an unlisted entry reads as; R23). -/
abbrev Palette := List (Nat × Colour)

/-- The view that change sets write: band table, palette banks, drive level (R21, R23, R24). -/
structure View where
  bands   : List Band
  palette : Palette
  level   : Byte
  deriving DecidableEq, Repr

/-- The default band table (R22). -/
def defaultBands : List Band := [{ top := 0, sx := 0, sy := 0, bank := 0 }]

/-- The default view: default table, default palettes, level 128 (R22, R23, R24). -/
def View.default : View := { bands := defaultBands, palette := [], level := 128 }

/-- The output state (R31). -/
inductive Output where
  | blank
  | showing
  deriving DecidableEq, Repr

/-- Where the picture frame stands (R27): no frame start yet since the cold reset, blanking interval, scan passes. -/
inductive FramePhase where
  | none
  | blanking
  | scanning
  deriving DecidableEq, Repr

/-- The Presentation Unit: the view in force, the latched view, the output state. -/
structure Presentation where
  live         : View
  latched      : View
  latchedFront : Page
  output       : Output
  phase        : FramePhase
  deriving DecidableEq, Repr

/-- Cold-reset values (R25). -/
def Presentation.cold : Presentation :=
  { live := View.default, latched := View.default, latchedFront := .A, output := .blank, phase := .none }

/-! ## Frame Timing Unit (chapter 3) -/

/-- The sync state (R36). FREE is the state of an INTERNAL source, the other three of an EXTERNAL one. -/
inductive SyncState where
  | seeking
  | locked
  | holdover
  | free
  deriving DecidableEq, Repr

/-- The sync source (R36). -/
inductive SyncSource where
  | external
  | internal
  deriving DecidableEq, Repr

/-- The source that a sync state belongs to (R36); the source is held nowhere else. -/
def SyncState.source : SyncState → SyncSource
  | .seeking | .locked | .holdover => .external
  | .free => .internal

/-- The Frame Timing Unit. Moments are in ns (log 4); `period` is T in µs. -/
structure FrameTiming where
  syncState     : SyncState
  period        : Nat
  lastEdge      : Nat
  timerStart    : Nat
  frameStart    : Nat
  counter       : FrameNo
  pendingNumber : Option FrameNo
  glitch        : Half
  holdover      : Half
  deriving DecidableEq, Repr

/-- Cold-reset values (R50); the three moments are the model's choice (log 7). -/
def FrameTiming.cold : FrameTiming :=
  { syncState := .seeking, period := 16667, lastEdge := 0, timerStart := 0, frameStart := 0, counter := 0,
    pendingNumber := none, glitch := 0, holdover := 0 }

/-! ## Change-Set Unit (chapter 4) -/

/-- A journal entry: one staged edit, with the values as staged (R54). -/
inductive Edit where
  | bands (table : List Band)
  | pan (band sx sy : Nat)
  | palette (bank first : Nat) (entries : List Colour)
  | level (l : Byte)
  deriving DecidableEq, Repr

/-- A set record being built (R54). -/
structure ChangeSet where
  id        : Half
  journal   : List Edit
  projected : List Band
  deriving DecidableEq, Repr

/-- The target of a sealed set (R54): the next counted frame start, or a frame number. -/
inductive Target where
  | next
  | frame (n : FrameNo)
  deriving DecidableEq, Repr

/-- A sealed set record (R54). -/
structure SealedSet where
  set    : ChangeSet
  target : Target
  flip   : Bool
  notify : Bool
  deriving DecidableEq, Repr

/-- The Change-Set Unit's two slots (R53). -/
structure ChangeSets where
  openSlot   : Option ChangeSet
  sealedSlot : Option SealedSet
  deriving DecidableEq, Repr

/-- Cold-reset values: both slots empty (R56). -/
def ChangeSets.cold : ChangeSets := { openSlot := none, sealedSlot := none }

/-! ## Row Drive Unit (chapter 5) -/

/-- The two spares of a segment: channels 16 and 17 (R77). -/
inductive SpareId where
  | s16
  | s17
  deriving DecidableEq, Repr

/-- The other spare of the segment (R91). -/
def SpareId.other : SpareId → SpareId
  | .s16 => .s17
  | .s17 => .s16

/-- The channel number of a spare (R77). -/
def SpareId.number : SpareId → Nat
  | .s16 => 16
  | .s17 => 17

/-- A value for each of the two spares of a segment. -/
structure SparePair (α : Type) where
  v16 : α
  v17 : α
  deriving DecidableEq, Repr

/-- The value of one spare. -/
def SparePair.get {α : Type} (x : SparePair α) : SpareId → α
  | .s16 => x.v16
  | .s17 => x.v17

/-- The pair with one spare's value replaced. -/
def SparePair.put {α : Type} (x : SparePair α) (k : SpareId) (a : α) : SparePair α :=
  match k with
  | .s16 => { x with v16 := a }
  | .s17 => { x with v17 := a }

/-- A channel within its segment: primary 0-15 or a spare (R77). -/
inductive Channel where
  | primary (p : Fin 16)
  | spare (k : SpareId)
  deriving DecidableEq, Repr

/-- A channel's condition (R78). -/
inductive Condition where
  | sound
  | openFault
  | shortFault
  | marked
  deriving DecidableEq, Repr

/-- A primary's route (R78). -/
inductive Route where
  | direct
  | soft (k : SpareId)
  | hard (k : SpareId)
  deriving DecidableEq, Repr

/-- A spare's use (R79). -/
inductive Use where
  | free
  | soft (p : Fin 16)
  | hard (p : Fin 16)
  | damaged
  deriving DecidableEq, Repr

/-- A primary record (R78). -/
structure Primary where
  condition : Condition
  route     : Route
  deriving DecidableEq, Repr

/-- A spare record (R79). -/
structure Spare where
  condition : Condition
  use       : Use
  deriving DecidableEq, Repr

/-- The 18 channel records of a segment (R77). -/
structure Segment where
  primaries : Vector Primary 16
  spares    : SparePair Spare
  deriving DecidableEq, Repr

/-- A segment with every channel SOUND, every primary DIRECT, both spares FREE. -/
def Segment.fresh : Segment :=
  { primaries := Vector.replicate 16 { condition := .sound, route := .direct },
    spares := { v16 := { condition := .sound, use := .free }, v17 := { condition := .sound, use := .free } } }

/-- The repair policy (R89). -/
inductive Policy where
  | manual
  | auto
  deriving DecidableEq, Repr

/-- The channel that drives a drivable row: its primary, or a spare of its segment (R81). -/
inductive Source where
  | primary
  | spare (k : SpareId)
  deriving DecidableEq, Repr

/-- The Row Drive Unit: the repair map, the policy, the routing latch (a source, or none, for each of the 96 rows; R82). -/
structure RowDrive where
  segments : Vector Segment 6
  policy   : Policy
  latch    : Vector (Option Source) 96
  deriving DecidableEq, Repr

/-- Cold-reset values (R83): MANUAL, no latched source; the map is built at the end of start-up (log 17). -/
def RowDrive.cold : RowDrive :=
  { segments := Vector.replicate 6 Segment.fresh, policy := .manual, latch := Vector.replicate 96 none }

/-! ## Fuse Store (chapter 6) -/

/-- A fuse record: a set bit is a blown fuse (R100). Bit i of a group is the fuse of weight 2^i. -/
structure FuseRecord where
  index      : BitVec 4
  complement : BitVec 4
  damage     : BitVec 2
  deriving DecidableEq, Repr

/-- A record with all ten fuses blank. -/
def FuseRecord.blank : FuseRecord := { index := 0, complement := 0, damage := 0 }

/-- The classification of a fuse record (R102, R103). -/
inductive FuseClass where
  | blank
  | programmed (p : Fin 16)
  | damaged
  | inconsistent
  | writing
  deriving DecidableEq, Repr

/-- The burn subject: segment, primary, spare (R109). -/
structure Subject where
  seg     : Fin 6
  primary : Fin 16
  spare   : SpareId
  deriving DecidableEq, Repr

/-- The burn engine with its subject while it is not IDLE (R110). -/
inductive BurnEngine where
  | idle
  | write (x : Subject)
  | check (x : Subject)
  | mark (x : Subject)
  | recheck (x : Subject)
  deriving DecidableEq, Repr

/-- The Fuse Store: fuses, held classifications, burn engine, and the moment its state was entered (R110, log 4). -/
structure FuseStore where
  fuses   : Vector (SparePair FuseRecord) 6
  held    : Vector (SparePair FuseClass) 6
  burn    : BurnEngine
  entered : Nat
  deriving DecidableEq, Repr

/-- Every record held BLANK. -/
def heldBlank : Vector (SparePair FuseClass) 6 := Vector.replicate 6 { v16 := .blank, v17 := .blank }

/-- A part whose fuses are all blank, after a cold reset (R105; the blank fuses: log 7). -/
def FuseStore.cold : FuseStore :=
  { fuses := Vector.replicate 6 { v16 := FuseRecord.blank, v17 := FuseRecord.blank }, held := heldBlank,
    burn := .idle, entered := 0 }

/-! ## Test Unit (chapter 7) -/

/-- A global channel number, 0-107 (R77). -/
abbrev GlobalChannel := Fin 108

/-- The action of a firing of the fault-handling rule (R92). -/
inductive Action where
  | none
  | repaired (k : SpareId)
  | noSpare
  | routeDropped
  deriving DecidableEq, Repr

/-- A finding (R123). -/
structure Finding where
  channel : GlobalChannel
  result  : TestResult
  action  : Action
  deriving DecidableEq, Repr

/-- The scan engine: IDLE, or RUNNING with the scan channel, whose test is in progress (R122). -/
inductive ScanEngine where
  | idle
  | running (g : GlobalChannel)
  deriving DecidableEq, Repr

/-- The scan outcome (R120, R124). -/
inductive ScanOutcome where
  | none
  | clean
  | repaired
  | unrepaired
  | aborted
  deriving DecidableEq, Repr

/-- The Test Unit. `testStart` is the moment the latest test started (R118, log 4). -/
structure TestUnit where
  scan       : ScanEngine
  tested     : Nat
  findings   : List Finding
  overflow   : Bool
  outcome    : ScanOutcome
  patrolOn   : Bool
  cursor     : GlobalChannel
  patrolTest : Option GlobalChannel
  lapCount   : Half
  testStart  : Nat
  deriving DecidableEq, Repr

/-- Cold-reset values (R120, R131). -/
def TestUnit.cold : TestUnit :=
  { scan := .idle, tested := 0, findings := [], overflow := false, outcome := .none, patrolOn := false, cursor := 0,
    patrolTest := none, lapCount := 0, testStart := 0 }

/-! ## Link Interface (chapter 9) -/

/-- The two sides of the UP-out arbiter (R165). -/
inductive Side where
  | passThrough
  | own
  deriving DecidableEq, Repr

/-- A frame that UP-out is sending: whose side it is, and its body (R163, R165). -/
structure Sending where
  side : Side
  body : List Byte
  deriving DecidableEq, Repr

/-- The receiver of an input (R152): outside a frame, or inside one with the body bytes received so far. -/
abbrev Receiver := Option (List Byte)

/-- The decisions taken for the frame arriving on UP-in: the class under which it is for this tile, or none (R154); whether it stops
at this tile (R155); once its third body byte has arrived, whether it is an ENUMERATE held store-and-forward (R158). -/
structure RxLatch where
  cls   : Option AddressClass
  stops : Bool
  held  : Option Bool
  deriving DecidableEq, Repr

/-- The Link Interface. `upIn` and `downIn` are the receivers of the two inputs (R152). `downOut` is the frames repeated on DOWN-out that
have arrived to their end since the last cold reset, oldest first (R155, R156; log 13). -/
structure LinkInterface where
  unit        : Byte
  groups      : List (Fin 16)
  passThrough : List (List Byte)
  upOut       : Option Sending
  lastSide    : Side
  rxMalformed : Half
  rxBadCheck  : Half
  passDrop    : Half
  upIn        : Receiver
  downIn      : Receiver
  rx          : Option RxLatch
  downOut     : List LinkFrame
  deriving DecidableEq, Repr

/-- Cold-reset values (R167). -/
def LinkInterface.cold : LinkInterface :=
  { unit := 0, groups := [], passThrough := [], upOut := none, lastSide := .own, rxMalformed := 0, rxBadCheck := 0,
    passDrop := 0, upIn := none, downIn := none, rx := none, downOut := [] }

/-! ## Request Unit (chapter 10) -/

/-- The result codes (R173, R186). -/
inductive Result where
  | ok
  | busy
  | badArg
  | badState
  | badLength
  | unknownKind
  | unitOnly
  | queueFull
  | noSet
  | setOpen
  | setFull
  | sealedBusy
  | late
  | far
  | flipPending
  | noSpare
  | alreadyHard
  | notSoft
  | groupFull
  | dupId
  deriving DecidableEq, Repr

/-- An entry of the request queue (R169). The tag tells one joining of the queue from another (log 15). -/
structure Queued where
  req : Request
  tag : Nat
  deriving DecidableEq, Repr

/-- A fill being executed: its page, rectangle and index (R11). -/
structure FillJob where
  page  : Page
  x     : Nat
  y     : Nat
  w     : Nat
  h     : Nat
  index : Byte
  deriving DecidableEq, Repr

/-- The request that is executing: only a FILL_RECT is still executing when its step is over (R171). -/
structure Executing where
  entry : Queued
  job   : FillJob
  deriving DecidableEq, Repr

/-- A reply in the reply queue (R175). `unit` is the source unit at creation (R153); `kind` carries the reply mark (R186).
`tag` names the queue entry it answers; a QUEUE_FULL reply answers none (log 15). -/
structure Reply where
  unit    : Byte
  seq     : Byte
  kind    : Byte
  result  : Result
  payload : List Byte
  tag     : Option Nat
  deriving DecidableEq, Repr

/-- The state of a duplicate-filter entry, with the cached reply once it exists (R177). -/
inductive FilterState where
  | waiting
  | replyQueued (cached : Reply)
  | replySent (cached : Reply)
  deriving DecidableEq, Repr

/-- The duplicate filter's entry (R177). -/
structure FilterEntry where
  seq   : Byte
  check : Half
  tag   : Nat
  state : FilterState
  deriving DecidableEq, Repr

/-- The last broadcast result (R176). -/
structure BroadcastResult where
  seq    : Byte
  kind   : Byte
  result : Result
  deriving DecidableEq, Repr

/-- The details of a notice, by type (R191). -/
inductive Details where
  | started (serial : BitVec 48) (hard damaged : Nat) (unit : Byte)
  | joined (serial : BitVec 48) (unit : Byte)
  | setApplied (id : Half) (frame : FrameNo) (skipped : Nat) (late : Bool)
  | copyDone (source : Page)
  | syncLost (glitch : Half)
  | syncRestored (holdover : Half)
  | channelFault (channel : GlobalChannel) (condition : Condition) (action : Action)
  | scanDone (outcome : ScanOutcome) (tested findings : Nat) (overflow : Bool) (dark : Nat)
  | burnDone (x : Subject) (outcome : FuseClass)
  | linkOverrun (passDrop : Half)
  deriving DecidableEq, Repr

/-- A notice record (R179), with the source unit it was created under (R153) and its send state. -/
structure Notice where
  number  : Byte
  frame   : FrameNo
  lost    : Byte
  details : Details
  unit    : Byte
  sent    : Bool
  deriving DecidableEq, Repr

/-- The Request Unit. -/
structure RequestUnit where
  queue         : List Queued
  executing     : Option Executing
  replies       : List Reply
  filter        : Option FilterEntry
  lastBroadcast : Option BroadcastResult
  log           : List Notice
  nextNotice    : Byte
  lost          : Byte
  reqDrop       : Half
  nextTag       : Nat
  deriving DecidableEq, Repr

/-- Cold-reset values (R169, R174, R176, R177, R179, R185). -/
def RequestUnit.cold : RequestUnit :=
  { queue := [], executing := none, replies := [], filter := none, lastBroadcast := none, log := [], nextNotice := 1,
    lost := 0, reqDrop := 0, nextTag := 0 }

/-! ## The tile -/

/-- No command of the model ends in a fault: the manual answers every refused request with a result code and counts every lost
event (INVENTORY, Faults). The type has no constructor. -/
inductive Fault where
  deriving DecidableEq, Repr

/-- Why a command is refused. -/
inductive Refusal where
  /-- Raised by `exec` for a command that has no meaning in the model yet; safe. No arm raises it: every row has its meaning. -/
  | notModelled (mnemonic : String)
  deriving DecidableEq, Repr

/-- The state of the tile. `now` is the moment, in ns, of the latest event whose moment a rule reads (log 4); `freeCount` is the
counter for free values (log 9); `pending` is the queue of commands, first in, first out (log 1). -/
structure State where
  li        : LinkInterface
  ru        : RequestUnit
  fs        : FrameStore
  pu        : Presentation
  ft        : FrameTiming
  cs        : ChangeSets
  rd        : RowDrive
  fz        : FuseStore
  tu        : TestUnit
  mc        : ModeControl
  powerGood : Bool
  resetLine : Bool
  now       : Nat
  freeCount : Nat
  pending   : List Instr
  deriving DecidableEq, Repr

/-- The tile right after a cold reset: power good, the cold-reset line released, STARTING (R139, R143; log 6), every block at its
cold-reset values, no command waiting. -/
def State.reset : State :=
  { li := LinkInterface.cold, ru := RequestUnit.cold, fs := FrameStore.cold, pu := Presentation.cold, ft := FrameTiming.cold,
    cs := ChangeSets.cold, rd := RowDrive.cold, fz := FuseStore.cold, tu := TestUnit.cold, mc := ModeControl.cold,
    powerGood := true, resetLine := false, now := 0, freeCount := 0, pending := [] }

/-! ## Replacing one block's state -/

def State.withLi (s : State) (x : LinkInterface) : State := { s with li := x }
def State.withRu (s : State) (x : RequestUnit) : State := { s with ru := x }
def State.withFs (s : State) (x : FrameStore) : State := { s with fs := x }
def State.withPu (s : State) (x : Presentation) : State := { s with pu := x }
def State.withFt (s : State) (x : FrameTiming) : State := { s with ft := x }
def State.withCs (s : State) (x : ChangeSets) : State := { s with cs := x }
def State.withRd (s : State) (x : RowDrive) : State := { s with rd := x }
def State.withFz (s : State) (x : FuseStore) : State := { s with fz := x }
def State.withTu (s : State) (x : TestUnit) : State := { s with tu := x }
def State.withMc (s : State) (x : ModeControl) : State := { s with mc := x }

/-- The moment `t` has come: time does not run backward (log 4). -/
def State.tick (s : State) (t : Nat) : State := { s with now := max s.now t }

end Sys2Proof.Machine
end

