-- ==== Sys2Proof/Machine/Map.lean ====
section
/-! DEFINITION. The repair map of the Row Drive Unit: records of a segment, the lit-row rule (R81), soft routes, the
fault-handling rule (R90, R91), test results (R93), the map build (R83). -/

namespace Sys2Proof.Machine

/-! ## Records of one segment -/

/-- The record of a primary. -/
def Segment.primary (g : Segment) (p : Fin 16) : Primary := g.primaries.get p

/-- The record of a spare. -/
def Segment.spare (g : Segment) (k : SpareId) : Spare := g.spares.get k

/-- The segment with one primary's record replaced. -/
def Segment.putPrimary (g : Segment) (p : Fin 16) (x : Primary) : Segment :=
  { g with primaries := g.primaries.set p.val x p.isLt }

/-- The segment with one spare's record replaced. -/
def Segment.putSpare (g : Segment) (k : SpareId) (x : Spare) : Segment := { g with spares := g.spares.put k x }

/-- A channel's condition. -/
def Segment.condition (g : Segment) : Channel → Condition
  | .primary p => (g.primary p).condition
  | .spare k => (g.spare k).condition

/-- The segment with a channel's condition set, routes and uses unchanged. -/
def Segment.setCondition (g : Segment) (ch : Channel) (c : Condition) : Segment :=
  match ch with
  | .primary p => g.putPrimary p { g.primary p with condition := c }
  | .spare k => g.putSpare k { g.spare k with condition := c }

/-- The segment with a primary's route set. -/
def Segment.setRoute (g : Segment) (p : Fin 16) (r : Route) : Segment := g.putPrimary p { g.primary p with route := r }

/-- The segment with a spare's use set. -/
def Segment.setUse (g : Segment) (k : SpareId) (u : Use) : Segment := g.putSpare k { g.spare k with use := u }

/-- Is the spare available for a new soft route: use FREE and condition SOUND (R79)? -/
def Segment.available (g : Segment) (k : SpareId) : Bool := (g.spare k).use == .free && (g.spare k).condition == .sound

/-- The spare a new soft route takes: s.16 if available, else s.17 if that is (R85). -/
def Segment.firstAvailable (g : Segment) : Option SpareId :=
  if g.available .s16 then some .s16 else if g.available .s17 then some .s17 else none

/-- A soft route made: the primary's route and the spare's use together (R80). -/
def Segment.makeSoft (g : Segment) (p : Fin 16) (k : SpareId) : Segment := (g.setRoute p (.soft k)).setUse k (.soft p)

/-- A soft route removed: DIRECT and FREE together (R80). -/
def Segment.dropSoft (g : Segment) (p : Fin 16) (k : SpareId) : Segment := (g.setRoute p .direct).setUse k .free

/-- A hard route: HARD(k) and HARD(p) together (R111). -/
def Segment.makeHard (g : Segment) (p : Fin 16) (k : SpareId) : Segment := (g.setRoute p (.hard k)).setUse k (.hard p)

/-- The end of a failed burn: the use DAMAGED and the route DIRECT together (R112). -/
def Segment.spoil (g : Segment) (p : Fin 16) (k : SpareId) : Segment := (g.setRoute p .direct).setUse k .damaged

/-! ## The lit-row rule (R81) -/

/-- The source of the row of primary `p`: the primary when DIRECT and SOUND, the routed spare when SOUND, else none. -/
def Segment.source (g : Segment) (p : Fin 16) : Option Source :=
  match (g.primary p).route with
  | .direct => if (g.primary p).condition = .sound then some .primary else none
  | .soft k | .hard k => if (g.spare k).condition = .sound then some (.spare k) else none

/-! ## The fault-handling rule (R90, R91) -/

/-- A channel that was SOUND takes a faulty condition and the rule fires: the segment after it and the action (R92). -/
def Segment.fault (g : Segment) (policy : Policy) (ch : Channel) (c : Condition) : Segment × Action :=
  let g := g.setCondition ch c
  match ch with
  | .primary p =>
    match (g.primary p).route with
    | .direct =>
      match policy with
      | .manual => (g, .none)
      | .auto =>
        match g.firstAvailable with
        | some k => (g.makeSoft p k, .repaired k)
        | none => (g, .noSpare)
    | .soft _ | .hard _ => (g, .none)
  | .spare k =>
    match (g.spare k).use with
    | .soft p =>
      let g := g.dropSoft p k
      match policy with
      | .manual => (g, .routeDropped)
      | .auto => if g.available k.other then (g.makeSoft p k.other, .repaired k.other) else (g, .routeDropped)
    | .free | .hard _ | .damaged => (g, .none)

/-- What the Row Drive Unit tells the Test Unit (R93): whether the condition changed, whether the rule fired, and its action. -/
structure TestReport where
  changed : Bool
  fired   : Bool
  action  : Action
  deriving DecidableEq, Repr

/-- The condition that a result finds (R93). -/
def conditionOf : TestResult → Condition
  | .ok => .sound
  | .openFault => .openFault
  | .shortFault => .shortFault

/-- A test result applied to a channel: the table of R93. -/
def Segment.applyTest (g : Segment) (policy : Policy) (ch : Channel) (r : TestResult) : Segment × TestReport :=
  let c := conditionOf r
  match g.condition ch with
  | .marked => (g, { changed := false, fired := false, action := .none })
  | .sound =>
    if c = .sound then (g, { changed := false, fired := false, action := .none })
    else
      let x := g.fault policy ch c
      (x.1, { changed := true, fired := true, action := x.2 })
  | old => (g.setCondition ch c, { changed := decide (c ≠ old), fired := false, action := .none })

/-- MARK_FAULTY on a channel: the table of R87, with the action its reply carries. -/
def Segment.mark (g : Segment) (policy : Policy) (ch : Channel) : Segment × Action :=
  match g.condition ch with
  | .sound => g.fault policy ch .marked
  | .openFault | .shortFault => (g.setCondition ch .marked, .none)
  | .marked => (g, .none)

/-! ## Global channel numbers (R77) -/

/-- The segment of a global channel number. -/
def segmentOf (g : GlobalChannel) : Fin 6 := ⟨g.val / 18, by omega⟩

/-- The channel within its segment. -/
def channelOf (g : GlobalChannel) : Channel :=
  if h : g.val % 18 < 16 then .primary ⟨g.val % 18, h⟩ else if g.val % 18 = 16 then .spare .s16 else .spare .s17

/-- The number 0-17 of a channel within its segment. -/
def Channel.number : Channel → Nat
  | .primary p => p.val
  | .spare k => k.number

/-! ## The whole map -/

/-- One segment of the map. -/
def RowDrive.segment (x : RowDrive) (s : Fin 6) : Segment := x.segments.get s

/-- The map with one segment replaced. -/
def RowDrive.putSegment (x : RowDrive) (s : Fin 6) (g : Segment) : RowDrive :=
  { x with segments := x.segments.set s.val g s.isLt }

/-- The source that the lit-row rule gives panel row `r` = 16·s + p on the map (R81). -/
def RowDrive.source (x : RowDrive) (r : Fin 96) : Option Source :=
  (x.segment ⟨r.val / 16, by omega⟩).source ⟨r.val % 16, by omega⟩

/-- The sources of all 96 rows: what the routing latch takes (R82). -/
@[irreducible] def RowDrive.sources (x : RowDrive) : Vector (Option Source) 96 := Vector.ofFn x.source

/-- Is the channel a spare whose use is DAMAGED, which scan and patrol skip (R122, R134)? -/
def RowDrive.skips (x : RowDrive) (g : GlobalChannel) : Bool :=
  match channelOf g with
  | .primary _ => false
  | .spare k => ((x.segment (segmentOf g)).spare k).use == .damaged

/-- From `g` on, in ascending global number and past 107 to 0, the first channel that is not skipped, and whether the way led past
107; `n` bounds the channels passed. -/
def RowDrive.seek (x : RowDrive) : Nat → GlobalChannel → Bool → GlobalChannel × Bool
  | 0, g, wrapped => (g, wrapped)
  | n + 1, g, wrapped => if x.skips g then x.seek n (g + 1) (wrapped || g == 107) else (g, wrapped)

/-- The first channel that is not a DAMAGED spare from the cursor on, the cursor's own included (R134). -/
def RowDrive.firstFrom (x : RowDrive) (g : GlobalChannel) : GlobalChannel × Bool := x.seek 108 g false

/-- The next such channel after `g` (R135). -/
def RowDrive.nextAfter (x : RowDrive) (g : GlobalChannel) : GlobalChannel × Bool := x.seek 108 (g + 1) (g == 107)

/-- The next channel that a scan tests after `g`; none when no channel is left (R122). -/
def RowDrive.scanNext (x : RowDrive) (g : GlobalChannel) : Option GlobalChannel :=
  let y := x.nextAfter g
  if y.2 then none else some y.1

/-- A test result applied to a channel of the map (R93). -/
def RowDrive.applyTest (x : RowDrive) (g : GlobalChannel) (r : TestResult) : RowDrive × TestReport :=
  let y := (x.segment (segmentOf g)).applyTest x.policy (channelOf g) r
  (x.putSegment (segmentOf g) y.1, y.2)

/-! ## The map build (R83) -/

/-- Step 2 of the build for one spare, by the held classification of its record. -/
def Segment.buildSpare (g : Segment) (k : SpareId) (c : FuseClass) : Segment :=
  match c with
  | .programmed p => g.makeHard p k
  | .damaged | .inconsistent => g.setUse k .damaged
  | .blank | .writing => g

/-- A segment built from the classifications of its two records. -/
def Segment.build (held : SparePair FuseClass) : Segment :=
  (Segment.fresh.buildSpare .s16 held.v16).buildSpare .s17 held.v17

/-- The map built from the held classifications; MANUAL, no latched source (R83). -/
def RowDrive.build (held : Vector (SparePair FuseClass) 6) : RowDrive :=
  { RowDrive.cold with segments := held.map Segment.build }

end Sys2Proof.Machine
end

