-- ==== Sys2Proof/Machine/Store.lean ====
section
/-! DEFINITION. The addressed stores of the tile: lists of (address, value) in canonical form (addresses strictly rising, no entry
equal to what an unlisted address reads as), and on them the page cells and the palette entries. -/

namespace Sys2Proof.Machine

/-! ## Canonical lists -/

/-- The value at `a`; an unlisted address reads as `d a`. -/
def storeRead {β : Type} (d : Nat → β) : List (Nat × β) → Nat → β
  | [], a => d a
  | (b, w) :: m, a => if a = b then w else storeRead d m a

/-- Writes `v` at `a`, keeping the canonical form: writing what an unlisted address reads as removes the entry. -/
def storeWrite {β : Type} [DecidableEq β] (d : Nat → β) : List (Nat × β) → Nat → β → List (Nat × β)
  | [], a, v => if v = d a then [] else [(a, v)]
  | (b, w) :: m, a, v =>
    if a < b then (if v = d a then (b, w) :: m else (a, v) :: (b, w) :: m)
    else if a = b then (if v = d a then m else (a, v) :: m)
    else (b, w) :: storeWrite d m a v

/-- The canonical form, with every address below `bound`. -/
def storeWf {β : Type} [DecidableEq β] (d : Nat → β) (bound : Nat) : List (Nat × β) → Bool
  | [] => true
  | (a, v) :: m => decide (v ≠ d a) && decide (a < bound) && m.all (fun p => decide (a < p.1)) && storeWf d bound m

/-- Writes a run of values at ascending addresses. -/
def storeWriteRun {β : Type} [DecidableEq β] (d : Nat → β) (m : List (Nat × β)) (a : Nat) : List β → List (Nat × β)
  | [] => m
  | v :: vs => storeWriteRun d (storeWrite d m a v) (a + 1) vs

/-! ## Page cells (R1) -/

/-- Cells of a page (R1). -/
def pageCells : Nat := 49152

/-- What an unlisted cell reads as: 0, the value that start-up writes to every cell (R5; log 22). -/
def cellDefault : Nat → Byte := fun _ => 0

/-- The cell at a page offset. -/
def Cells.read (m : Cells) (a : Nat) : Byte := storeRead cellDefault m a

/-- Memory.wf: the page is in canonical form and lists no offset past 49,151. -/
def Cells.wf (m : Cells) : Bool := storeWf cellDefault pageCells m

/-- A run of cells (R10). -/
def Cells.writeRun (m : Cells) (a : Nat) (vs : List Byte) : Cells := storeWriteRun cellDefault m a vs

/-- `h` rows of `w` cells of one index, from canvas position (x, y) of a canvas of width `width` (R11). -/
def Cells.fill (m : Cells) (width x y w : Nat) (index : Byte) : Nat → Cells
  | 0 => m
  | h + 1 => (Cells.fill m width x y w index h).writeRun ((y + h) * width + x) (List.replicate w index)

/-- A target page whose cells below offset `n` have been copied from the source, in ascending offset (R6, R14). -/
def Cells.copiedTo (source target : Cells) (n : Nat) : Cells :=
  source.filter (fun p => decide (p.1 < n)) ++ target.filter (fun p => decide (n ≤ p.1))

/-- `count` cells from offset `a`, in ascending offset (R12). -/
def Cells.run (m : Cells) (a : Nat) : Nat → List Byte
  | 0 => []
  | n + 1 => m.read a :: Cells.run m (a + 1) n

/-- A page of the Frame Store. -/
def FrameStore.page (x : FrameStore) : Page → Cells
  | .A => x.pageA
  | .B => x.pageB

/-- The Frame Store with one page's cells replaced. -/
def FrameStore.putPage (x : FrameStore) (p : Page) (m : Cells) : FrameStore :=
  match p with
  | .A => { x with pageA := m }
  | .B => { x with pageB := m }

/-- The back page: the page that is not front (R2). -/
def FrameStore.back (x : FrameStore) : Page := x.front.other

/-! ## The canvas (R4) -/

/-- Is W one of the 13 canvas widths? -/
def legalWidth (w : Nat) : Bool := 128 ≤ w && w ≤ 512 && w % 32 == 0

/-- H = floor(49,152 / W). -/
def canvasHeight (w : Nat) : Nat := pageCells / w

/-- Does a run of `count` cells from (x, y) stay inside the canvas row (R10, R12)? -/
def runInside (w x y count : Nat) : Bool := y < canvasHeight w && x + count ≤ w

/-- Is the rectangle not empty and inside the canvas (R11)? -/
def rectInside (width x y w h : Nat) : Bool :=
  w ≠ 0 && h ≠ 0 && x + w ≤ width && y + h ≤ canvasHeight width

/-! ## Palette entries (R23) -/

/-- The default value of an entry: (4i, 4i, 4i), in every bank. -/
def colourDefault (key : Nat) : Colour :=
  let v := BitVec.ofNat 10 (4 * (key % 256))
  { red := v, green := v, blue := v }

/-- Key of entry `i` of a bank. -/
def paletteKey (bank i : Nat) : Nat := 256 * bank + i

/-- Entry `i` of a bank. -/
def Palette.entry (m : Palette) (bank i : Nat) : Colour := storeRead colourDefault m (paletteKey bank i)

/-- Memory.wf for the palettes: canonical form, 4 banks of 256 entries. -/
def Palette.wf (m : Palette) : Bool := storeWf colourDefault 1024 m

/-- Entries `first`, `first + 1`, … of a bank take the values (R70). -/
def Palette.writeRun (m : Palette) (bank first : Nat) (vs : List Colour) : Palette :=
  storeWriteRun colourDefault m (paletteKey bank first) vs

/-! ## Band tables (R19, R20) -/

/-- The heights of a table's bands: the next top row minus the own one, 96 minus the top row for the last band (R19). -/
def bandHeights : List Band → List Nat
  | [] => []
  | [b] => [96 - b.top]
  | b :: c :: r => (c.top - b.top) :: bandHeights (c :: r)

/-- Does a source rectangle of the height lie inside the canvas: source x at most W - 128, source y at most H - height (R19)? -/
def sourceInside (w sx sy height : Nat) : Bool := sx + 128 ≤ w && sy + height ≤ canvasHeight w

/-- From a band on: strictly ascending tops at most 95, heights at least 4, banks at most 3, rectangles inside (R20, R60). -/
def bandsLegalFrom (w : Nat) : List Band → Bool
  | [] => true
  | [b] => b.top + 4 ≤ 96 && b.bank ≤ 3 && sourceInside w b.sx b.sy (96 - b.top)
  | b :: c :: r =>
    b.top + 4 ≤ c.top && b.bank ≤ 3 && sourceInside w b.sx b.sy (c.top - b.top) && bandsLegalFrom w (c :: r)

/-- The law of R20, which is also the check of STAGE_BANDS (R60): 1 to 4 bands, the first top row 0, and each band as above. -/
def bandsLegal (w : Nat) (t : List Band) : Bool :=
  1 ≤ t.length && t.length ≤ 4 && (t.map Band.top).head? == some 0 && bandsLegalFrom w t

/-- The check of a pan against a table and the canvas (R61, R71): the band exists and its new rectangle lies inside the canvas. -/
def panFits (w : Nat) (t : List Band) (i sx sy : Nat) : Bool :=
  match (bandHeights t)[i]? with
  | none => false
  | some height => sourceInside w sx sy height

/-- The table with one band's source position replaced; top row and bank kept (R55, R70). -/
def setSource (t : List Band) (i sx sy : Nat) : List Band := t.modify i (fun b => { b with sx := sx, sy := sy })

end Sys2Proof.Machine
end

