-- ==== Sys2Proof/Machine/Flags.lean ====
section
/-! DEFINITION. The flags and counts that the spec derives from other state: running, ready, flip pending, copy busy, burn busy,
patrol active, dark rows, routing update pending, repair counts. -/

namespace Sys2Proof.Machine

/-- The tile is not held at its cold-reset values: power good and the cold-reset line released (R143). -/
def State.running (s : State) : Bool := s.powerGood && !s.resetLine

/-- The tile runs and start-up has ended (R145). -/
def State.ready (s : State) : Bool := s.running && s.mc.startUp == .ready

/-- A flip is pending: the sealed slot holds a set whose flip flag is set (R9). -/
def State.flipPending (s : State) : Bool :=
  match s.cs.sealedSlot with
  | some z => z.flip
  | none => false

/-- The copy-busy flag (R14). -/
def State.copyBusy (s : State) : Bool := s.fs.copy != .idle

/-- Is the burn engine out of IDLE (R114)? -/
def BurnEngine.busy : BurnEngine → Bool
  | .idle => false
  | .write _ | .check _ | .mark _ | .recheck _ => true

/-- The burn subject, while the engine is not IDLE (R109). -/
def BurnEngine.subject : BurnEngine → Option Subject
  | .idle => none
  | .write x | .check x | .mark x | .recheck x => some x

/-- Is a full scan in progress (R122)? -/
def ScanEngine.isRunning : ScanEngine → Bool
  | .idle => false
  | .running _ => true

/-- Is the patrol active: its enable on and the mode STANDBY or SHOW (R131)? -/
def patrolActive (on : Bool) (m : Mode) : Bool := on && (m == .standby || m == .showMode)

/-- The driver enable follows the mode (R138). -/
def State.driversEnabled (s : State) : Bool := s.mc.mode != .off

/-- The dark-row count: rows with no source on the map (R81). -/
def RowDrive.darkRows (x : RowDrive) : Nat := (x.sources.toList.filter (fun o => o == none)).length

/-- The routing-update-pending flag: the map gives at least one row another source than the latch holds (R82). -/
def RowDrive.updatePending (x : RowDrive) : Bool := x.sources != x.latch

/-- The spare records of the map, 0.16, 0.17, 1.16, … -/
def RowDrive.spareRecords (x : RowDrive) : List Spare :=
  x.segments.toList.flatMap (fun g => [g.spares.v16, g.spares.v17])

/-- Is the use HARD? -/
def Use.isHard : Use → Bool
  | .hard _ => true
  | .free | .soft _ | .damaged => false

/-- The hard-repair count: spares in HARD use (R184). -/
def RowDrive.hardCount (x : RowDrive) : Nat := (x.spareRecords.filter (fun y => y.use.isHard)).length

/-- The damaged-spare count: spares in DAMAGED use (R184). -/
def RowDrive.damagedCount (x : RowDrive) : Nat := (x.spareRecords.filter (fun y => y.use == .damaged)).length

/-- T/2 in ns, exact (R36, log 4). -/
def FrameTiming.halfPeriod (x : FrameTiming) : Nat := 500 * x.period

/-- T in ns. -/
def FrameTiming.fullPeriod (x : FrameTiming) : Nat := 1000 * x.period

/-- 3T/2 in ns, exact. -/
def FrameTiming.supervision (x : FrameTiming) : Nat := 1500 * x.period

end Sys2Proof.Machine
end

