-- ==== Sys2Proof/Machine/Formats.lean ====
section
/-! DEFINITION. Frame bodies as bytes (chapter 11): little-endian fields, the check value, the parts of a request body,
the kind codes. Nothing here reads State. -/

namespace Sys2Proof

/-- `v` as `n` bytes, least significant first (R186: multi-byte fields are little-endian). -/
def toLe : Nat → Nat → List Byte
  | 0, _ => []
  | n + 1, v => BitVec.ofNat 8 v :: toLe n (v / 256)

/-- The number that bytes spell, least significant first. -/
def fromLe : List Byte → Nat
  | [] => 0
  | b :: bs => b.toNat + 256 * fromLe bs

/-- Byte `i` of a payload; 0 past its last byte (the length check of R172 comes before every use). -/
def byteAt (p : List Byte) (i : Nat) : Byte := p.getD i 0

/-- The `size`-byte field at offset `off` of a payload (R189). -/
def field (p : List Byte) (off size : Nat) : Nat := fromLe ((p.drop off).take size)

/-- One shift of the check-value register: left by one, and exclusive-or with 0x1021 when a 1 leaves the top (R187). -/
def crcShift (r : Half) : Half := if r.msb then (r <<< 1) ^^^ 0x1021#16 else r <<< 1

/-- One byte taken into the check-value register (R187). -/
def crcByte (r : Half) (b : Byte) : Half :=
  let r := r ^^^ ((b.zeroExtend 16) <<< 8)
  crcShift (crcShift (crcShift (crcShift (crcShift (crcShift (crcShift (crcShift r)))))))

/-- The CRC-16 of R187 over the bytes, register starting at 0xFFFF, no final inversion. -/
def crc16 (bytes : List Byte) : Half := bytes.foldl crcByte 0xFFFF#16

/-- A body with its check value, little-endian, in the last two bytes (R153, R187). -/
def withCheck (bytes : List Byte) : List Byte := bytes ++ toLe 2 (crc16 bytes).toNat

/-- The length test on a downstream body: 5 to 245 bytes (R157). -/
def lengthGood (body : List Byte) : Bool := 5 ≤ body.length && body.length ≤ 245

/-- The check-value test: the CRC over the bytes before the last two equals the value the last two carry (R153). -/
def checkGood (body : List Byte) : Bool :=
  fromLe (body.drop (body.length - 2)) == (crc16 (body.take (body.length - 2))).toNat

/-- The sequence byte of a request body (R186). -/
def Request.seq (r : Request) : Byte := byteAt r.body 1

/-- The kind byte of a request body (R186). -/
def Request.kind (r : Request) : Byte := byteAt r.body 2

/-- The payload of a request body: what stands between the kind and the check value (R186). -/
def Request.payload (r : Request) : List Byte := (r.body.drop 3).take (r.body.length - 5)

/-- The check value that a request body carries (R186). -/
def Request.check (r : Request) : Half := BitVec.ofNat 16 (fromLe (r.body.drop (r.body.length - 2)))

/-- The request kinds (R186). -/
inductive Kind where
  | enumerate | identify | status | joinGroup | leaveGroup | restart | readNotices | ackNotices | setMode
  | setCanvas | writePixels | fillRect | readPixels | copyFront
  | beginSet | stageBands | stagePan | stagePalette | stageLevel | commit | abandon | readBands | readPalette
  | setSync | setFrameNumber
  | readMap | repair | release | markFaulty | clearFault | setRepairPolicy | burn | readFuses
  | scan | scanAbort | readScan | setPatrol
  deriving DecidableEq, Repr

/-- The code of a kind (R186, the table of request kinds). -/
def Kind.code : Kind → Byte
  | .enumerate => 0x01 | .identify => 0x02 | .status => 0x03 | .joinGroup => 0x04 | .leaveGroup => 0x05
  | .restart => 0x06 | .readNotices => 0x07 | .ackNotices => 0x08 | .setMode => 0x09
  | .setCanvas => 0x10 | .writePixels => 0x11 | .fillRect => 0x12 | .readPixels => 0x13 | .copyFront => 0x14
  | .beginSet => 0x20 | .stageBands => 0x21 | .stagePan => 0x22 | .stagePalette => 0x23 | .stageLevel => 0x24
  | .commit => 0x25 | .abandon => 0x26 | .readBands => 0x27 | .readPalette => 0x28
  | .setSync => 0x30 | .setFrameNumber => 0x31
  | .readMap => 0x40 | .repair => 0x41 | .release => 0x42 | .markFaulty => 0x43 | .clearFault => 0x44
  | .setRepairPolicy => 0x45 | .burn => 0x46 | .readFuses => 0x47
  | .scan => 0x50 | .scanAbort => 0x51 | .readScan => 0x52 | .setPatrol => 0x53

/-- Every kind, in the order of the table of R186. -/
def Kind.all : List Kind :=
  [.enumerate, .identify, .status, .joinGroup, .leaveGroup, .restart, .readNotices, .ackNotices, .setMode,
   .setCanvas, .writePixels, .fillRect, .readPixels, .copyFront,
   .beginSet, .stageBands, .stagePan, .stagePalette, .stageLevel, .commit, .abandon, .readBands, .readPalette,
   .setSync, .setFrameNumber,
   .readMap, .repair, .release, .markFaulty, .clearFault, .setRepairPolicy, .burn, .readFuses,
   .scan, .scanAbort, .readScan, .setPatrol]

/-- The kind that a kind byte names, none where R186 defines none. -/
def Kind.ofCode (b : Byte) : Option Kind := Kind.all.find? (fun k => k.code == b)

/-- Does the payload length suit the kind (R189)? -/
def Kind.lengthSuits (p : List Byte) : Kind → Bool
  | .identify | .restart | .readNotices | .copyFront | .readBands | .readFuses | .scan | .scanAbort => p.length == 0
  | .enumerate | .status | .joinGroup | .leaveGroup | .ackNotices | .setMode | .readMap | .setRepairPolicy
  | .setPatrol => p.length == 1
  | .setCanvas | .beginSet | .abandon | .repair | .release | .burn | .markFaulty | .clearFault | .readScan =>
    p.length == 2
  | .stageLevel | .readPalette | .setSync => p.length == 3
  | .setFrameNumber => p.length == 4
  | .readPixels => p.length == 6
  | .stagePan | .commit => p.length == 7
  | .fillRect => p.length == 9
  | .writePixels => 5 ≤ p.length && p.length ≤ 228
  | .stageBands => 3 ≤ p.length && p.length == 3 + 6 * (byteAt p 2).toNat
  | .stagePalette => 5 ≤ p.length && p.length == 5 + 6 * (byteAt p 4).toNat

/-- May a kind be sent under the addressing class (the catalogue of 10.7, R172 check 3)? -/
def Kind.mayBeSent (k : Kind) (c : AddressClass) : Bool :=
  match k with
  | .enumerate => c == .allTiles
  | .identify | .status | .joinGroup | .leaveGroup | .readNotices | .ackNotices | .readPixels | .readBands
  | .readPalette | .readMap | .burn | .readFuses | .readScan => c == .unit
  | .restart | .setMode | .setCanvas | .writePixels | .fillRect | .copyFront | .beginSet | .stageBands | .stagePan
  | .stagePalette | .stageLevel | .commit | .abandon | .setSync | .setFrameNumber | .repair | .release | .markFaulty
  | .clearFault | .setRepairPolicy | .scan | .scanAbort | .setPatrol => true

/-- Is the frame, of whose body at least three bytes are given, an ENUMERATE addressed to all tiles (R158)? -/
def isEnumerateAll (body : List Byte) : Bool :=
  match body with
  | d :: _ :: k :: _ => d == 127 && k == Kind.code .enumerate
  | _ => false

end Sys2Proof
end

