-- ==== Sys2Proof/Machine/Operands.lean ====
section
/-! DEFINITION. The operand forms of a request: the one-byte codes of R188 in both directions, and the records that a payload holds
(R189). -/

namespace Sys2Proof.Machine

/-- A flag as its byte (R188). -/
def flagByte (b : Bool) : Byte := if b then 1 else 0

/-- The byte sent where a field has no value at all (R188). -/
def noValue : Byte := 0xFF

/-- A Nat as one byte. -/
def oneByte (n : Nat) : Byte := BitVec.ofNat 8 n

/-! ## Codes of named values (R188) -/

def Mode.code : Mode → Byte
  | .off => 0 | .standby => 1 | .showMode => 2 | .maintenance => 3

/-- The mode that a request byte names; none for an unknown mode. -/
def Mode.ofCode (b : Byte) : Option Mode :=
  if b = 0 then some .off else if b = 1 then some .standby else if b = 2 then some .showMode
  else if b = 3 then some .maintenance else none

def StartUp.code : StartUp → Byte
  | .starting => 0 | .ready => 1

def SyncSource.ofCode (b : Byte) : Option SyncSource :=
  if b = 0 then some .external else if b = 1 then some .internal else none

def SyncState.code : SyncState → Byte
  | .seeking => 0 | .locked => 1 | .holdover => 2 | .free => 3

def Page.code : Page → Byte
  | .A => 0 | .B => 1

def Condition.code : Condition → Byte
  | .sound => 0 | .openFault => 1 | .shortFault => 2 | .marked => 3

def Policy.code : Policy → Byte
  | .manual => 0 | .auto => 1

def Policy.ofCode (b : Byte) : Option Policy :=
  if b = 0 then some .manual else if b = 1 then some .auto else none

def FuseClass.code : FuseClass → Byte
  | .blank => 0 | .programmed _ => 1 | .damaged => 2 | .inconsistent => 3 | .writing => 4

def BurnEngine.code : BurnEngine → Byte
  | .idle => 0 | .write _ => 1 | .check _ => 2 | .mark _ => 3 | .recheck _ => 4

def ScanEngine.code : ScanEngine → Byte
  | .idle => 0 | .running _ => 1

def ScanOutcome.code : ScanOutcome → Byte
  | .none => 0 | .clean => 1 | .repaired => 2 | .unrepaired => 3 | .aborted => 4

def testResultCode : TestResult → Byte
  | .ok => 0 | .openFault => 1 | .shortFault => 2

def Action.code : Action → Byte
  | .none => 0 | .repaired _ => 1 | .noSpare => 2 | .routeDropped => 3

/-- The spare of an action; 0 for an action other than REPAIRED (R188). -/
def Action.spareByte : Action → Byte
  | .repaired k => oneByte k.number
  | .none | .noSpare | .routeDropped => 0

/-- The code of a route and its spare; 0 where no partner exists (R188). -/
def Route.bytes : Route → List Byte
  | .direct => [0, 0]
  | .soft k => [1, oneByte k.number]
  | .hard k => [2, oneByte k.number]

/-- The code of a use and its primary; 0 where no partner exists (R188). -/
def Use.bytes : Use → List Byte
  | .free => [0, 0]
  | .soft p => [1, oneByte p.val]
  | .hard p => [2, oneByte p.val]
  | .damaged => [3, 0]

/-- The code of a result (R186). -/
def Result.code : Result → Byte
  | .ok => 0 | .busy => 1 | .badArg => 2 | .badState => 3 | .badLength => 4 | .unknownKind => 5 | .unitOnly => 6
  | .queueFull => 7 | .noSet => 8 | .setOpen => 9 | .setFull => 10 | .sealedBusy => 11 | .late => 12 | .far => 13
  | .flipPending => 14 | .noSpare => 15 | .alreadyHard => 16 | .notSoft => 17 | .groupFull => 18 | .dupId => 19

/-! ## Arguments held in a payload (R189) -/

/-- Segment and primary of REPAIR, RELEASE and BURN; none when one is out of range. -/
def primaryArgs (p : List Byte) : Option (Fin 6 × Fin 16) :=
  let s := (byteAt p 0).toNat
  let c := (byteAt p 1).toNat
  if h : s < 6 ∧ c < 16 then some (⟨s, h.1⟩, ⟨c, h.2⟩) else none

/-- Segment and channel of MARK_FAULTY and CLEAR_FAULT, as a global channel number; none when one is out of range. -/
def channelArgs (p : List Byte) : Option GlobalChannel :=
  let s := (byteAt p 0).toNat
  let c := (byteAt p 1).toNat
  if h : s < 6 ∧ c < 18 then some ⟨18 * s + c, by omega⟩ else none

/-- Segment of READ_MAP; none when out of range. -/
def segmentArg (p : List Byte) : Option (Fin 6) :=
  let s := (byteAt p 0).toNat
  if h : s < 6 then some ⟨s, h⟩ else none

/-- Group of JOIN_GROUP and LEAVE_GROUP; none above 15. -/
def groupArg (p : List Byte) : Option (Fin 16) :=
  let g := (byteAt p 0).toNat
  if h : g < 16 then some ⟨g, h⟩ else none

/-- The change-set id at the head of a payload (BEGIN, STAGE_*, COMMIT, ABANDON). -/
def idArg (p : List Byte) : Half := BitVec.ofNat 16 (field p 0 2)

/-- `n` band records of six bytes: top row (1), source x (2), source y (2), palette bank (1) (R189). -/
def bandRecords : Nat → List Byte → List Band
  | 0, _ => []
  | n + 1, p =>
    { top := (byteAt p 0).toNat, sx := field p 1 2, sy := field p 3 2, bank := (byteAt p 5).toNat } ::
      bandRecords n (p.drop 6)

/-- `n` palette entries of six bytes: red (2), green (2), blue (2) (R189). -/
def entryRecords : Nat → List Byte → List (Nat × Nat × Nat)
  | 0, _ => []
  | n + 1, p => (field p 0 2, field p 2 2, field p 4 2) :: entryRecords n (p.drop 6)

/-- Is every value of a palette entry 0-1023 (R62)? -/
def entryInRange (e : Nat × Nat × Nat) : Bool := e.1 ≤ 1023 && e.2.1 ≤ 1023 && e.2.2 ≤ 1023

/-- The colour of an entry whose values are in range. -/
def entryColour (e : Nat × Nat × Nat) : Colour :=
  { red := BitVec.ofNat 10 e.1, green := BitVec.ofNat 10 e.2.1, blue := BitVec.ofNat 10 e.2.2 }

end Sys2Proof.Machine
end

