-- ==== Sys2Proof/Machine/Ops.lean ====
section
/-! DEFINITION. The shared operations of the tile: counters, notices (R179, R180), replies and broadcast results (R175, R176), the arrival
of a request (R170, R178). -/

namespace Sys2Proof.Machine

/-- The outcome of a command. -/
abbrev Outcome := Host.Outcome State Fault Refusal

/-! ## Counters -/

/-- A saturating counter rises by one (R39, R166). -/
def satInc {n : Nat} (c : BitVec n) : BitVec n := if c = BitVec.allOnes n then c else c + 1

/-! ## Notices -/

/-- The number after `n`: from 255 to 1 (R179). -/
def nextNumber (n : Byte) : Byte := if n = 255 then 1 else n + 1

/-- A notice is created: stored at the end of the log, UNSENT, with the next number and the lost count, when the log holds fewer than
8 (R179); otherwise not stored, and the lost count rises (R180). `unit` and `n` are the source unit and N at creation. -/
def RequestUnit.createNotice (x : RequestUnit) (unit : Byte) (n : FrameNo) (d : Details) : RequestUnit :=
  if x.log.length < 8 then
    { x with
      log := x.log ++ [{ number := x.nextNotice, frame := n, lost := x.lost, details := d, unit := unit, sent := false }],
      nextNotice := nextNumber x.nextNotice, lost := 0 }
  else { x with lost := satInc x.lost }

/-- A block creates a notice: its header carries N and its source unit is the unit number, both as they stand (R153, R179). -/
def State.notify (s : State) (d : Details) : State := s.withRu (s.ru.createNotice s.li.unit s.ft.counter d)

/-! ## Reply queue -/

/-- The places reserved for the reply of a unit-addressed request being executed (R171). -/
def RequestUnit.reserved (x : RequestUnit) : Nat :=
  match x.executing with
  | some e => if e.entry.req.cls = .unit then 1 else 0
  | none => 0

/-- Has the reply queue a free place: fewer than 8 of its places filled or reserved (R171)? -/
def RequestUnit.hasPlace (x : RequestUnit) : Bool := decide (x.replies.length + x.reserved < 8)

/-- A kind byte marked as a reply: its most significant bit set (R186). -/
def replyKind (k : Byte) : Byte := k ||| 0x80

/-- The duplicate filter when the reply of the queue entry `tag` is created: the reply is copied into the entry (R177). -/
def cacheReply (tag : Nat) (r : Reply) : Option FilterEntry → Option FilterEntry
  | none => none
  | some e => if e.tag = tag then some { e with state := .replyQueued r } else some e

/-- The duplicate filter when UP-out begins a reply: its entry becomes REPLY_SENT (R177). -/
def markReplySent (r : Reply) : Option FilterEntry → Option FilterEntry
  | none => none
  | some e => if r.tag = some e.tag then some { e with state := .replySent r } else some e

/-- The reply that answers a queue entry (R175). -/
def replyTo (unit : Byte) (q : Queued) (r : Result) (payload : List Byte) : Reply :=
  { unit := unit, seq := q.req.seq, kind := replyKind q.req.kind, result := r, payload := payload, tag := some q.tag }

/-- The outcome of a request is known: a reply for a unit-addressed one (R175), the last broadcast result for the others (R176). -/
def State.answer (s : State) (q : Queued) (r : Result) (payload : List Byte) : State :=
  match q.req.cls with
  | .unit =>
    let y := replyTo s.li.unit q r payload
    s.withRu { s.ru with replies := s.ru.replies ++ [y], filter := cacheReply q.tag y s.ru.filter }
  | .group _ | .allTiles =>
    s.withRu { s.ru with lastBroadcast := some { seq := q.req.seq, kind := q.req.kind, result := r } }

/-! ## Arrival of a request (R170) -/

/-- The Request Unit with REQ_DROP one higher. -/
def RequestUnit.dropOne (x : RequestUnit) : RequestUnit := { x with reqDrop := satInc x.reqDrop }

/-- A reply placed at the end of the reply queue if it has a free place; otherwise dropped with REQ_DROP rising (R170, R178). -/
def RequestUnit.place (x : RequestUnit) (r : Reply) : RequestUnit :=
  if x.hasPlace then { x with replies := x.replies ++ [r] } else x.dropOne

/-- A duplicate, by the state of the filter's entry (R178). -/
def RequestUnit.duplicate (x : RequestUnit) (e : FilterEntry) : RequestUnit :=
  match e.state with
  | .waiting => x
  | .replyQueued _ => x
  | .replySent cached => x.place cached

/-- The filter's entry that makes a frame a duplicate: unit-addressed, same sequence and check value (R170). -/
def RequestUnit.duplicateOf (x : RequestUnit) (r : Request) : Option FilterEntry :=
  match r.cls, x.filter with
  | .unit, some e => if e.seq = r.seq ∧ e.check = r.check then some e else none
  | _, _ => none

/-- A frame joins the request queue at the end; a unit-addressed one becomes the filter's entry (R170, R177). -/
def RequestUnit.join (x : RequestUnit) (r : Request) : RequestUnit :=
  let y := { x with queue := x.queue ++ [{ req := r, tag := x.nextTag }], nextTag := x.nextTag + 1 }
  match r.cls with
  | .unit => { y with filter := some { seq := r.seq, check := r.check, tag := x.nextTag, state := .waiting } }
  | .group _ | .allTiles => y

/-- The QUEUE_FULL reply to a frame: its sequence and kind, no payload (R170). -/
def queueFullReply (unit : Byte) (r : Request) : Reply :=
  { unit := unit, seq := r.seq, kind := replyKind r.kind, result := .queueFull, payload := [], tag := none }

/-- A frame for this tile is handed over: duplicate test, queue test, full queue (R170). -/
def RequestUnit.arrive (x : RequestUnit) (unit : Byte) (r : Request) : RequestUnit :=
  match x.duplicateOf r with
  | some e => x.duplicate e
  | none =>
    if x.queue.length < 8 then x.join r
    else
      match r.cls with
      | .unit => x.place (queueFullReply unit r)
      | .group _ | .allTiles => x.dropOne

/-- The Request Unit deals with a frame handed over (R170). -/
def State.arrive (s : State) (r : Request) : State := s.withRu (s.ru.arrive s.li.unit r)

/-- The duplicate filter and reply cache cleared (R160, R177). -/
def RequestUnit.clearFilter (x : RequestUnit) : RequestUnit := { x with filter := none }

end Sys2Proof.Machine
end

