-- ==== Sys2Proof/Machine/Encode.lean ====
section
/-! DEFINITION. The bytes that the tile sends: reply payload records (R190), notice records (R191), reply and notice frames (R186). -/

namespace Sys2Proof.Machine

/-- A Nat as a field of `size` bytes, little-endian. -/
def natField (size n : Nat) : List Byte := toLe size n

/-- A 16-bit field. -/
def halfField (v : Half) : List Byte := toLe 2 v.toNat

/-- A 32-bit field. -/
def frameField (v : FrameNo) : List Byte := toLe 4 v.toNat

/-- A band record (R189). -/
def bandBytes (b : Band) : List Byte := [oneByte b.top] ++ natField 2 b.sx ++ natField 2 b.sy ++ [oneByte b.bank]

/-- A palette entry (R189). -/
def colourBytes (c : Colour) : List Byte := natField 2 c.red.toNat ++ natField 2 c.green.toNat ++ natField 2 c.blue.toNat

/-- Membership in the group set, in ascending group number (R161). -/
def ascendingGroups (gs : List (Fin 16)) : List (Fin 16) := (List.finRange 16).filter (fun g => decide (g ∈ gs))

/-- The four group places: member groups ascending, then 0xFF (R190). -/
def groupPlaces (gs : List (Fin 16)) : List Byte :=
  let a := (ascendingGroups gs).map (fun g => oneByte g.val)
  (a ++ List.replicate (4 - a.length) noValue).take 4

/-- The group count and places, as JOIN_GROUP and LEAVE_GROUP answer (R190). -/
def groupBytes (gs : List (Fin 16)) : List Byte := [oneByte gs.length] ++ groupPlaces gs

/-- The identity record (R190). -/
def State.identityRecord (s : State) : List Byte :=
  natField 2 Config.productCode ++ [Config.revision] ++ toLe 6 Config.serial.toNat ++ [s.li.unit] ++ groupBytes s.li.groups ++
    [oneByte s.rd.hardCount, oneByte s.rd.damagedCount]

/-- The change-set part of the status record: open id and journal count, sealed id, target and flip (R76, R190). -/
def ChangeSets.statusBytes (x : ChangeSets) : List Byte :=
  (match x.openSlot with
    | none => natField 3 0
    | some o => halfField o.id ++ [oneByte o.journal.length]) ++
  (match x.sealedSlot with
    | none => natField 7 0
    | some z =>
      halfField z.set.id ++
        (match z.target with
          | .next => natField 4 0
          | .frame n => frameField n) ++
        [flagByte z.flip])

/-- The last broadcast result in the status record: presence, sequence, kind, result (R190). -/
def broadcastBytes : Option BroadcastResult → List Byte
  | none => [0, 0, 0, 0]
  | some b => [1, b.seq, b.kind, b.result.code]

/-- The status record, 44 bytes (R185, R190). -/
def State.statusRecord (s : State) : List Byte :=
  [s.mc.mode.code, s.mc.startUp.code, s.ft.syncState.code] ++ frameField s.ft.counter ++
    [flagByte s.ft.pendingNumber.isSome] ++ s.cs.statusBytes ++
    [flagByte s.copyBusy, s.tu.scan.code, s.fz.burn.code, flagByte s.tu.patrolOn, oneByte s.tu.cursor.val] ++
    halfField s.tu.lapCount ++
    [s.rd.policy.code, oneByte s.rd.darkRows, flagByte s.rd.updatePending] ++
    halfField s.li.rxMalformed ++ halfField s.li.rxBadCheck ++ halfField s.li.passDrop ++ halfField s.ru.reqDrop ++
    halfField s.ft.glitch ++ broadcastBytes s.ru.lastBroadcast ++ [oneByte s.ru.log.length, s.ru.lost]

/-- The channel records of a segment, s.0 to s.17 (R95, R190). -/
def Segment.records (g : Segment) : List Byte :=
  g.primaries.toList.flatMap (fun x => x.condition.code :: x.route.bytes) ++
    (g.spares.v16.condition.code :: g.spares.v16.use.bytes) ++ (g.spares.v17.condition.code :: g.spares.v17.use.bytes)

/-- A fuse entry: the class and p, which is the primary for PROGRAMMED and for WRITING and 0 otherwise (R107, R190). -/
def fuseEntry (subject : Option Subject) (c : FuseClass) : List Byte :=
  [c.code,
    match c with
    | .programmed p => oneByte p.val
    | .writing =>
      match subject with
      | some x => oneByte x.primary.val
      | none => 0
    | .blank | .damaged | .inconsistent => 0]

/-- The twelve fuse entries, 0.16 first to 5.17 last (R107). -/
def FuseStore.entries (x : FuseStore) : List Byte :=
  x.held.toList.flatMap (fun y => fuseEntry x.burn.subject y.v16 ++ fuseEntry x.burn.subject y.v17)

/-- Segment and channel number of a global channel, as two bytes. -/
def channelBytes (g : GlobalChannel) : List Byte := [oneByte (segmentOf g).val, oneByte (channelOf g).number]

/-- A finding as READ_SCAN returns it (R190). -/
def findingBytes (f : Finding) : List Byte :=
  channelBytes f.channel ++ [testResultCode f.result, f.action.code, f.action.spareByte]

/-- The READ_SCAN header (R190). -/
def TestUnit.scanHeader (x : TestUnit) : List Byte :=
  [x.scan.code] ++
    (match x.scan with
      | .idle => [noValue, noValue]
      | .running g => channelBytes g) ++
    [oneByte x.tested, oneByte x.findings.length, flagByte x.overflow, x.outcome.code]

/-- The type code of a notice (R191). -/
def Details.code : Details → Byte
  | .started .. => 1 | .joined .. => 2 | .setApplied .. => 3 | .copyDone .. => 4 | .syncLost .. => 5
  | .syncRestored .. => 6 | .channelFault .. => 7 | .scanDone .. => 8 | .burnDone .. => 9 | .linkOverrun .. => 10

/-- The detail bytes that a type uses (R191). -/
def Details.bytes : Details → List Byte
  | .started serial hard damaged unit => toLe 6 serial.toNat ++ [oneByte hard, oneByte damaged, unit]
  | .joined serial unit => toLe 6 serial.toNat ++ [unit]
  | .setApplied id frame skipped late => halfField id ++ frameField frame ++ [oneByte skipped, flagByte late]
  | .copyDone source => [source.code]
  | .syncLost glitch => halfField glitch
  | .syncRestored holdover => halfField holdover
  | .channelFault g c a => channelBytes g ++ [c.code, a.code, a.spareByte]
  | .scanDone o tested findings overflow dark =>
    [o.code, oneByte tested, oneByte findings, flagByte overflow, oneByte dark]
  | .burnDone x o => [oneByte x.seg.val, oneByte x.primary.val, oneByte x.spare.number, o.code]
  | .linkOverrun n => halfField n

/-- A notice record of 16 bytes; detail bytes beyond those a type uses are 0 (R191). -/
def Notice.record (n : Notice) : List Byte :=
  [n.number, n.details.code] ++ frameField n.frame ++ [n.lost] ++
    (n.details.bytes ++ List.replicate (9 - n.details.bytes.length) 0)

/-- The body of a notice frame: source unit, notice number, 0xFF, record bytes 1 to 15, check value (R186, R191). -/
def Notice.frameBody (n : Notice) : List Byte := withCheck ([n.unit, n.number, 0xFF] ++ n.record.drop 1)

/-- The body of a reply frame (R186). -/
def Reply.frameBody (r : Reply) : List Byte := withCheck ([r.unit, r.seq, r.kind, r.result.code] ++ r.payload)

end Sys2Proof.Machine
end

