-- ==== Sys2Proof/Machine/Frames.lean ====
section
/-! DEFINITION. The frame start and what each block does at it: the number a counted one carries (R45), the application of a due
change set (R68-R73), the view latch (R28, R31), the routing latch (R82), the start of a patrol test (R134). -/

namespace Sys2Proof.Machine

/-! ## Application of a sealed set -/

/-- Is the sealed set due at the counted frame start that carries `n` (R68)? -/
def Target.due (t : Target) (n : FrameNo) : Bool :=
  match t with
  | .next => true
  | .frame k => decide ((n - k).toNat < 2 ^ 31)

/-- Did a set apply late: a numbered target other than `n` (R73)? -/
def Target.late (t : Target) (n : FrameNo) : Bool :=
  match t with
  | .next => false
  | .frame k => decide (n ≠ k)

/-- One journal entry applied to the live view of a canvas of width `w`, counting a skipped pan (R70, R71). -/
def applyEdit (w : Nat) (x : View × Nat) (e : Edit) : View × Nat :=
  match e with
  | .bands t => ({ x.1 with bands := t }, x.2)
  | .pan i sx sy =>
    if panFits w x.1.bands i sx sy then ({ x.1 with bands := setSource x.1.bands i sx sy }, x.2) else (x.1, x.2 + 1)
  | .palette b first es => ({ x.1 with palette := Palette.writeRun x.1.palette b first es }, x.2)
  | .level l => ({ x.1 with level := l }, x.2)

/-- A journal applied in order: the view it leaves and the number of pans skipped (R70). -/
def applyJournal (w : Nat) (v : View) (j : List Edit) : View × Nat := j.foldl (applyEdit w) (v, 0)

/-- The Frame Store with the front page swapped (R3). -/
def FrameStore.swapped (x : FrameStore) : FrameStore := { x with front := x.front.other }

/-- The application of a sealed set at the counted frame start N: journal, flip, empty slot, notice (R70-R73). -/
def State.applySet (s : State) (z : SealedSet) : State :=
  let y := applyJournal s.fs.width s.pu.live z.set.journal
  let s := s.withPu { s.pu with live := y.1 }
  let s := if z.flip then s.withFs s.fs.swapped else s
  let s := s.withCs { s.cs with sealedSlot := none }
  if z.notify then s.notify (.setApplied z.set.id s.ft.counter y.2 (z.target.late s.ft.counter)) else s

/-- The Change-Set Unit at a counted frame start: a due set applies, any other waits (R68). -/
def State.applyDue (s : State) : State :=
  match s.cs.sealedSlot with
  | none => s
  | some z => if z.target.due s.ft.counter then s.applySet z else s

/-! ## Latches and patrol -/

/-- The Presentation Unit at a frame start: the view and the front page are latched (R28), the blanking interval begins (R27), and in
SHOW the output becomes SHOWING (R31). -/
def Presentation.latch (x : Presentation) (front : Page) (m : Mode) : Presentation :=
  { x with latched := x.live, latchedFront := front, phase := .blanking,
           output := if m = .showMode then .showing else x.output }

/-- The Row Drive Unit at a frame start: the routing latch takes every row's source (R82). -/
def RowDrive.latched (x : RowDrive) : RowDrive := { x with latch := x.sources }

/-- The Test Unit at a frame start: an active patrol with no test in progress moves past DAMAGED spares and starts the test of the
channel at its cursor (R134). -/
def TestUnit.patrolStart (x : TestUnit) (map : RowDrive) (m : Mode) (now : Nat) : TestUnit :=
  if patrolActive x.patrolOn m ∧ x.patrolTest = none then
    let y := map.firstFrom x.cursor
    { x with cursor := y.1, patrolTest := some y.1, lapCount := if y.2 then satInc x.lapCount else x.lapCount,
             testStart := now }
  else x

/-- The latches and the patrol, after any application at the same frame start (R28, R82, R134). -/
def State.latchFrame (s : State) : State :=
  let s := s.withFt { s.ft with frameStart := s.now }
  let s := s.withPu (s.pu.latch s.fs.front s.mc.mode)
  let s := s.withRd s.rd.latched
  s.withTu (s.tu.patrolStart s.rd s.mc.mode s.now)

/-- N takes the number of a counted frame start: the pending number, which is cleared, or N + 1 (R45). -/
def FrameTiming.takeNumber (x : FrameTiming) : FrameTiming :=
  { x with counter := x.pendingNumber.getD (x.counter + 1), pendingNumber := none }

/-- The frame-start event of a counted frame start whose number N already holds (R37). -/
def State.countedEvent (s : State) : State := s.applyDue.latchFrame

/-- A counted frame start at the moment `now` (R37, R45). -/
def State.countedStart (s : State) : State := (s.withFt s.ft.takeNumber).countedEvent

/-- An uncounted frame start at the moment `now`: no number, no application (R37, R45). -/
def State.uncountedStart (s : State) : State := s.latchFrame

end Sys2Proof.Machine
end

