-- ==== Sys2Proof/Machine/Timers.lean ====
section
/-! DEFINITION. The four frame timers of chapter 3: their expiries, the moment at which the one in use expires, and the passing of time to a
moment, which no frame timer outlasts (R43). -/

namespace Sys2Proof.Machine

/-! ## Expiries, each at the moment its timer gives (R38, R40, R41, R42; log 4) -/

/-- The seeking timer expires: an uncounted frame start, and the next period starts (R38). -/
def State.seekingExpires (s : State) : State :=
  let s := s.tick (s.ft.timerStart + s.ft.fullPeriod)
  (s.withFt { s.ft with timerStart := s.now }).uncountedStart

/-- The free-run timer expires: a counted frame start, and the next period starts (R42). -/
def State.freeRunExpires (s : State) : State :=
  let s := s.tick (s.ft.timerStart + s.ft.fullPeriod)
  (s.withFt { s.ft with timerStart := s.now }).countedStart

/-- The holdover timer expires: an uncounted frame start, the holdover frame count one higher, the next period (R41). -/
def State.holdoverExpires (s : State) : State :=
  let s := s.tick (s.ft.timerStart + s.ft.fullPeriod)
  (s.withFt { s.ft with timerStart := s.now, holdover := satInc s.ft.holdover }).uncountedStart

/-- Supervision expires: HOLDOVER, an uncounted frame start, holdover frame count 1, the holdover timer started, SYNC_LOST with the
glitch count (R40, R49). -/
def State.supervisionExpires (s : State) : State :=
  let s := s.tick (s.ft.lastEdge + s.ft.supervision)
  let s := (s.withFt { s.ft with syncState := .holdover, holdover := 1, timerStart := s.now }).uncountedStart
  s.notify (.syncLost s.ft.glitch)

/-! ## The timer in use (R36, R43) -/

/-- The moment at which the timer in use expires (R38, R40, R41, R42, R48). -/
def FrameTiming.deadline (x : FrameTiming) : Nat :=
  match x.syncState with
  | .locked => x.lastEdge + x.supervision
  | .seeking | .holdover | .free => x.timerStart + x.fullPeriod

/-- The timer in use expires (R36). -/
def State.frameTimerExpires (s : State) : State :=
  match s.ft.syncState with
  | .seeking => s.seekingExpires
  | .locked => s.supervisionExpires
  | .holdover => s.holdoverExpires
  | .free => s.freeRunExpires

/-- The timer in use expires while its moment lies before `t`, at most `n` times. No timer runs before READY (R50). -/
def State.expiries (n t : Nat) (s : State) : State :=
  match n with
  | 0 => s
  | n + 1 => if s.ready ∧ s.ft.deadline < t then State.expiries n t s.frameTimerExpires else s

/-- Every expiry that falls due before the moment `t` has taken place, each at its own moment: the first at the deadline, each further one a
period T later (R38, R40, R41, R42), so the count is (t - deadline) / T + 1 at most. One due at `t` itself is left to its row (R38, R40,
R41: either may be taken first). -/
def State.reach (s : State) (t : Nat) : State := State.expiries ((t - s.ft.deadline) / s.ft.fullPeriod + 1) t s

/-- Time passes to the moment `t`: the expiries due before it, then `t` itself. No frame therefore outlasts its bound (R43). -/
def State.passTo (s : State) (t : Nat) : State := (s.reach t).tick t

end Sys2Proof.Machine
end

