-- ==== Sys2Proof/Machine/Executor.lean ====
section
/-! DEFINITION. The executor's taking of a request and its common checks (R171, R172). -/

namespace Sys2Proof.Machine

/-- May the executor take a request: READY, no request executing, a free place in the reply queue (R171)? -/
def State.executorFree (s : State) : Bool := s.ready && s.ru.executing.isNone && s.ru.hasPlace

/-- The queue entry that the executor takes, when it may take one and `k` names the frame at the head (log 2). -/
def State.taking (s : State) (k : Take) : Option Queued :=
  if s.executorFree then
    match s.ru.queue with
    | [] => none
    | q :: _ => if q.req = k.req then some q else none
  else none

/-- The tile once the executor has taken the head of the request queue at its moment. -/
def State.taken (s : State) (k : Take) : State := (s.tick k.moment).withRu { s.ru with queue := s.ru.queue.tail }

/-- The common checks after the kind: length, then addressing class (R172). -/
def commonRefusal (kind : Kind) (r : Request) : Option Result :=
  if kind.lengthSuits r.payload then (if kind.mayBeSent r.cls then none else some .unitOnly) else some .badLength

/-- What a request's own rule answers: a refusal, which leaves the tile as it was (R172), or the tile after it and the reply payload. -/
abbrev Answered := Except Result (State × List Byte)

/-- The executor takes and executes one request of a kind: common checks, own checks and effect, outcome recorded (R172). A command that
the executor cannot take here and now leaves the tile unchanged (log 2). The frame timers due before the moment of the request expire
first (R43, log 4). -/
def State.serve (s : State) (k : Take) (kind : Kind) (own : State → List Byte → Answered) : Outcome :=
  match s.taking k with
  | none => .next s
  | some q =>
    if k.req.kind = kind.code then
      let u := (s.reach k.moment).taken k
      match commonRefusal kind k.req with
      | some r => .next (u.answer q r [])
      | none =>
        match own u k.req.payload with
        | .error r => .next (u.answer q r [])
        | .ok (t, reply) => .next (t.answer q .ok reply)
    else .next s

end Sys2Proof.Machine
end

