-- ==== Sys2Proof/Machine/ChangeSetRequests.lean ====
section
/-! DEFINITION. Chapter 4: BEGIN, the four staging requests, COMMIT, ABANDON. -/

namespace Sys2Proof.Machine

/-- The id of the sealed set, if any. -/
def ChangeSets.sealedId (x : ChangeSets) : Option Half := x.sealedSlot.map (fun z => z.set.id)

/-- The projected table a new set starts from: the sealed set's final one, else the table in force (R57). -/
def State.projectionBase (s : State) : List Band :=
  match s.cs.sealedSlot with
  | some z => z.set.projected
  | none => s.pu.live.bands

/-- BEGIN(id): the checks of R57, then an empty set in the open slot. -/
def State.beginSet (s : State) (p : List Byte) : Answered :=
  let id := idArg p
  if id = 0 then .error .badArg
  else if s.cs.openSlot.isSome then .error .setOpen
  else if s.cs.sealedId = some id then .error .dupId
  else
    .ok (s.withCs { s.cs with openSlot := some { id := id, journal := [], projected := s.projectionBase } }, [])

def execBeginSet (k : Take) (s : State) : Outcome := s.serve k .beginSet State.beginSet

/-- The checks that every staging request makes first, and the entry it adds (R59): NO_SET, SET_FULL, then `edit`, which answers the
journal entry and the projected table after it, or none for BAD_ARG. The reply is the journal count (R59). -/
def State.stage (s : State) (id : Half) (edit : ChangeSet → Option (Edit × List Band)) : Answered :=
  match s.cs.openSlot with
  | none => .error .noSet
  | some o =>
    if o.id ≠ id then .error .noSet
    else if 48 ≤ o.journal.length then .error .setFull
    else
      match edit o with
      | none => .error .badArg
      | some (e, t) =>
        .ok (s.withCs { s.cs with openSlot := some { o with journal := o.journal ++ [e], projected := t } },
          [oneByte (o.journal.length + 1)])

/-- STAGE_BANDS(id, bands): the checks of R60; the staged table replaces the projected one. -/
def State.stageBands (s : State) (p : List Byte) : Answered :=
  let t := bandRecords (byteAt p 2).toNat (p.drop 3)
  s.stage (idArg p) (fun _ => if bandsLegal s.fs.width t then some (.bands t, t) else none)

def execStageBands (k : Take) (s : State) : Outcome := s.serve k .stageBands State.stageBands

/-- STAGE_PAN(id, band, source x, source y): the checks of R61 against the projected table. -/
def State.stagePan (s : State) (p : List Byte) : Answered :=
  let i := (byteAt p 2).toNat
  let sx := field p 3 2
  let sy := field p 5 2
  s.stage (idArg p) (fun o =>
    if panFits s.fs.width o.projected i sx sy then some (.pan i sx sy, setSource o.projected i sx sy) else none)

def execStagePan (k : Take) (s : State) : Outcome := s.serve k .stagePan State.stagePan

/-- STAGE_PALETTE(id, bank, first, count, entries): the checks of R62. -/
def State.stagePalette (s : State) (p : List Byte) : Answered :=
  let bank := (byteAt p 2).toNat
  let first := (byteAt p 3).toNat
  let count := (byteAt p 4).toNat
  let entries := entryRecords count (p.drop 5)
  s.stage (idArg p) (fun o =>
    if bank ≤ 3 ∧ 1 ≤ count ∧ count ≤ 32 ∧ first + count ≤ 256 ∧ entries.all entryInRange = true then
      some (.palette bank first (entries.map entryColour), o.projected)
    else none)

def execStagePalette (k : Take) (s : State) : Outcome := s.serve k .stagePalette State.stagePalette

/-- STAGE_LEVEL(id, L): no checks of its own (R63). -/
def State.stageLevel (s : State) (p : List Byte) : Answered :=
  s.stage (idArg p) (fun o => some (.level (byteAt p 2), o.projected))

def execStageLevel (k : Take) (s : State) : Outcome := s.serve k .stageLevel State.stageLevel

/-- The target test of COMMIT on d = (target - N) mod 2^32 (R64): none when the target is taken. -/
def targetRefusal (target n : FrameNo) : Option Result :=
  if target = 0 then none
  else
    let d := (target - n).toNat
    if d = 0 ∨ 2 ^ 31 ≤ d then some .late else if d ≤ 65535 then none else some .far

/-- The target of a COMMIT: 0 is NEXT (R64). -/
def targetOf (target : FrameNo) : Target := if target = 0 then .next else .frame target

/-- COMMIT(id, target, flags): the checks of R64, then the open set is sealed (R65). Flags: bit 0 flip, bit 1 notify, the other six
ignored (R188). The reply carries N. -/
def State.commitSet (s : State) (p : List Byte) : Answered :=
  let target := BitVec.ofNat 32 (field p 2 4)
  let flags := byteAt p 6
  match s.cs.openSlot with
  | none => .error .noSet
  | some o =>
    if o.id ≠ idArg p then .error .noSet
    else if s.cs.sealedSlot.isSome then .error .sealedBusy
    else if flags.getLsbD 0 ∧ s.copyBusy then .error .busy
    else
      match targetRefusal target s.ft.counter with
      | some r => .error r
      | none =>
        let z : SealedSet :=
          { set := o, target := targetOf target, flip := flags.getLsbD 0, notify := flags.getLsbD 1 }
        .ok (s.withCs { openSlot := none, sealedSlot := some z }, frameField s.ft.counter)

def execCommit (k : Take) (s : State) : Outcome := s.serve k .commit State.commitSet

/-- ABANDON(id): the open set, else the sealed set, with that id is discarded (R67). The reply names the slot: 0 open, 1 sealed. -/
def State.abandonSet (s : State) (p : List Byte) : Answered :=
  let id := idArg p
  if (s.cs.openSlot.map ChangeSet.id) = some id then .ok (s.withCs { s.cs with openSlot := none }, [0])
  else if s.cs.sealedId = some id then .ok (s.withCs { s.cs with sealedSlot := none }, [1])
  else .error .noSet

def execAbandon (k : Take) (s : State) : Outcome := s.serve k .abandon State.abandonSet

end Sys2Proof.Machine
end

