-- ==== Sys2Proof/Machine/FrameStoreRequests.lean ====
section
/-! DEFINITION. Chapter 1: SET_CANVAS, WRITE_PIXELS, FILL_RECT and its completion, READ_PIXELS, COPY_FRONT and its completion. -/

namespace Sys2Proof.Machine

/-- SET_CANVAS(W): the checks of R7, then the new width and the default band table (R8). The reply carries W and H (R17). -/
def State.setCanvas (s : State) (p : List Byte) : Answered :=
  let w := field p 0 2
  if s.mc.mode ≠ .off ∧ s.mc.mode ≠ .standby then .error .badState
  else if s.cs.openSlot.isSome ∨ s.cs.sealedSlot.isSome then .error .badState
  else if s.copyBusy then .error .busy
  else if legalWidth w then
    .ok ((s.withFs { s.fs with width := w }).withPu { s.pu with live := { s.pu.live with bands := defaultBands } },
      natField 2 w ++ natField 2 (canvasHeight w))
  else .error .badArg

def execSetCanvas (k : Take) (s : State) : Outcome := s.serve k .setCanvas State.setCanvas

/-- WRITE_PIXELS(x, y, indices): the checks of R10, then the run is written to the back page. -/
def State.writePixels (s : State) (p : List Byte) : Answered :=
  let x := field p 0 2
  let y := field p 2 2
  let indices := p.drop 4
  if runInside s.fs.width x y indices.length then
    if s.flipPending then .error .flipPending
    else if s.copyBusy then .error .busy
    else
      .ok (s.withFs (s.fs.putPage s.fs.back ((s.fs.page s.fs.back).writeRun (y * s.fs.width + x) indices)), [])
  else .error .badArg

def execWritePixels (k : Take) (s : State) : Outcome := s.serve k .writePixels State.writePixels

/-- FILL_RECT(x, y, w, h, index): the checks of R11; when taken, the fill of the back page as it is now. -/
def State.fillAnswer (s : State) (p : List Byte) : Except Result FillJob :=
  let x := field p 0 2
  let y := field p 2 2
  let w := field p 4 2
  let h := field p 6 2
  if rectInside s.fs.width x y w h then
    if s.flipPending then .error .flipPending
    else if s.copyBusy then .error .busy
    else .ok { page := s.fs.back, x := x, y := y, w := w, h := h, index := byteAt p 8 }
  else .error .badArg

/-- FILL_RECT: refused as any request; when taken, it executes until the fill completes, and its place in the reply queue stays
reserved (R11, R171). The cells are written at the completion (log 16). -/
def execFillRect (k : Take) (s : State) : Outcome :=
  match s.taking k with
  | none => .next s
  | some q =>
    if k.req.kind = Kind.code .fillRect then
      let u := (s.reach k.moment).taken k
      match commonRefusal .fillRect k.req with
      | some r => .next (u.answer q r [])
      | none =>
        match u.fillAnswer k.req.payload with
        | .error r => .next (u.answer q r [])
        | .ok job => .next (u.withRu { u.ru with executing := some { entry := q, job := job } })
    else .next s

/-- The Frame Store with a fill's rectangle set (R11). -/
def FrameStore.filled (x : FrameStore) (j : FillJob) : FrameStore :=
  x.putPage j.page ((x.page j.page).fill x.width j.x j.y j.w j.index j.h)

/-- A fill completes: its cells are set, the executor is free again, the outcome is recorded (R11, R17, R176). -/
def execFillComplete (s : State) : Outcome :=
  match s.ru.executing with
  | none => .next s
  | some e =>
    .next (((s.withFs (s.fs.filled e.job)).withRu { s.ru with executing := none }).answer e.entry .ok [])

/-- READ_PIXELS(page select, x, y, count): the checks of R12, then the cells in ascending x. -/
def State.readPixels (s : State) (p : List Byte) : Answered :=
  let select := byteAt p 0
  let x := field p 1 2
  let y := field p 3 2
  let count := (byteAt p 5).toNat
  if select ≠ 0 ∧ select ≠ 1 then .error .badArg
  else if count = 0 ∨ 224 < count ∨ runInside s.fs.width x y count = false then .error .badArg
  else if select = 1 ∧ s.copyBusy then .error .busy
  else
    let page := if select = 0 then s.fs.front else s.fs.back
    .ok (s, (s.fs.page page).run (y * s.fs.width + x) count)

def execReadPixels (k : Take) (s : State) : Outcome := s.serve k .readPixels State.readPixels

/-- COPY_FRONT: the checks of R13, then COPYING from the page that is front now. -/
def State.copyFront (s : State) (_ : List Byte) : Answered :=
  if s.copyBusy then .error .busy
  else if s.flipPending then .error .flipPending
  else .ok (s.withFs { s.fs with copy := .copying s.fs.front }, [])

def execCopyFront (k : Take) (s : State) : Outcome := s.serve k .copyFront State.copyFront

/-- The Frame Store when the copy from `source` is complete: every cell of the other page equals the source's, and the engine is IDLE
(R14; the cells: log 16). -/
def FrameStore.copyDone (x : FrameStore) (source : Page) : FrameStore :=
  { x.putPage source.other (x.page source) with copy := .idle }

/-- A copy completes: IDLE, and a COPY_DONE notice with the source page (R14). -/
def execCopyComplete (s : State) : Outcome :=
  match s.fs.copy with
  | .idle => .next s
  | .copying source => .next ((s.withFs (s.fs.copyDone source)).notify (.copyDone source))

end Sys2Proof.Machine
end

