-- ==== Sys2Proof/Machine/Receive.lean ====
section
/-! DEFINITION. The receivers of the two inputs (R152): how the symbols of a line are delimited into frames, and the events that they make on
UP-in (R154, R155) and on DOWN-in (R163). -/

namespace Sys2Proof.Machine

/-- One symbol received: START begins a frame, data bytes form its body, END closes it; a START or an IDLE inside a frame cuts it off; data
bytes and ENDs outside a frame are discarded (R152). The frame that the symbol ends, if it ends one. -/
def Receiver.next (x : Receiver) (y : Symbol) : Receiver × Option LinkFrame :=
  match x, y with
  | none, .start => (some [], none)
  | none, .data _ | none, .finish | none, .idle => (none, none)
  | some b, .start => (some [], some { body := b, ending := .cutOff })
  | some b, .data d => (some (b ++ [d]), none)
  | some b, .finish => (none, some { body := b, ending := .complete })
  | some b, .idle => (none, some { body := b, ending := .cutOff })

/-- The symbols up to the one that makes an event: the receiver after it and the event. None when the symbols make no event, or when an
earlier one of them makes one (log 12). -/
def Receiver.upTo {α : Type} (event : Receiver → Symbol → Option α) : Receiver → List Symbol → Option (Receiver × α)
  | _, [] => none
  | x, y :: ys =>
    match event x y with
    | none => Receiver.upTo event (x.next y).1 ys
    | some a => if ys = [] then some ((x.next y).1, a) else none

/-- The events on UP-in: the destination byte arrives (R154); the third body byte, the kind, arrives and the repeat begins (R155); the frame
ends (R157, R158). -/
inductive Arrival where
  | destination (d : Byte)
  | kindByte (body : List Byte)
  | ended (f : LinkFrame)
  deriving DecidableEq, Repr

/-- The event that a symbol makes on UP-in. -/
def upArrival (x : Receiver) (y : Symbol) : Option Arrival :=
  match x.next y with
  | (_, some f) => some (.ended f)
  | (some [d], none) => some (.destination d)
  | (some [d, q, k], none) => some (.kindByte [d, q, k])
  | _ => none

/-- The event that symbols make on UP-in. -/
def LinkInterface.onUpIn (x : LinkInterface) (ys : List Symbol) : Option (Receiver × Arrival) := x.upIn.upTo upArrival ys

/-- The frame that symbols end on DOWN-in (R163). -/
def LinkInterface.onDownIn (x : LinkInterface) (ys : List Symbol) : Option (Receiver × LinkFrame) :=
  x.downIn.upTo (fun r y => (r.next y).2) ys

end Sys2Proof.Machine
end

