-- ==== Sys2Proof/Machine/Link.lean ====
section
/-! DEFINITION. Chapter 9: frames on UP-in and their repeat, enumeration, groups, the pass-through queue, the UP-out arbiter. -/

namespace Sys2Proof.Machine

/-! ## Decisions for a frame on UP-in (R154, R155, R158) -/

/-- The class under which a destination byte makes a frame one for this tile, with the unit number and group set as they stand; none when
it is not for this tile (R154). -/
def LinkInterface.classFor (x : LinkInterface) (d : Byte) : Option AddressClass :=
  if d = 127 then some .allTiles
  else if h : 64 ≤ d.toNat ∧ d.toNat ≤ 79 then
    let g : Fin 16 := ⟨d.toNat - 64, by omega⟩
    if g ∈ x.groups then some (.group g) else none
  else if d = x.unit ∧ d ≠ 0 then some .unit
  else none

/-- The decisions when the destination byte arrives (R154, R155). -/
def LinkInterface.decisions (x : LinkInterface) (d : Byte) : RxLatch :=
  { cls := x.classFor d, stops := decide (d = x.unit ∧ d ≠ 0), held := none }

/-- The third body byte has arrived: an all-tile ENUMERATE is held store-and-forward in READY, any other frame is repeated from here on
unless it stops at this tile (R155, R158). -/
def LinkInterface.beginRepeat (x : LinkInterface) (r : Receiver) (body : List Byte) (ready : Bool) : LinkInterface :=
  { x with upIn := r, rx := x.rx.map (fun l => { l with held := some (isEnumerateAll body && ready) }) }

/-- The body bytes, so far, of the frame that DOWN-out repeats by cut-through while it arrives on UP-in (R155). -/
def LinkInterface.repeating (x : LinkInterface) : Option (List Byte) :=
  match x.rx with
  | some l => if l.held = some false ∧ l.stops = false then x.upIn else none
  | none => none

/-- Is the frame on UP-in held store-and-forward (R158)? -/
def LinkInterface.holds (x : LinkInterface) : Bool := x.rx.bind RxLatch.held == some true

/-- The class under which the frame on UP-in is for this tile; none when it is not, or has no destination byte (R154). -/
def LinkInterface.frameClass (x : LinkInterface) : Option AddressClass := x.rx.bind RxLatch.cls

/-- A frame that is not held ends on UP-in: it has gone to DOWN-out as received, one without a third body byte at this moment, unless it
stops at this tile (R155). -/
def LinkInterface.endFrame (x : LinkInterface) (r : Receiver) (f : LinkFrame) : LinkInterface :=
  { x with upIn := r, rx := none, downOut := if x.rx.any RxLatch.stops then x.downOut else x.downOut ++ [f] }

/-- DOWNSTREAM_REPEAT: symbols arrive on UP-in. The destination byte, and the for-this-tile decision is taken (R154); the third body byte,
and the repeat begins (R155, R158); the end of a frame that is not for this tile, which ends its repeat (R155). The end of any other frame
is another row's event, and symbols that do not make the stage's event are not this row's (log 3). A tile that is held neither forwards
nor keeps what arrives (R143). -/
def execDownstreamRepeat (stage : RepeatStage) (ys : List Symbol) (s : State) : Outcome :=
  if s.running then
    match stage, s.li.onUpIn ys with
    | .destinationByte, some (r, .destination d) => .next (s.withLi { s.li with upIn := r, rx := some (s.li.decisions d) })
    | .repeatBegins, some (r, .kindByte body) => .next (s.withLi (s.li.beginRepeat r body (s.mc.startUp == .ready)))
    | .frameEnds, some (r, .ended f) =>
      if s.li.holds ∨ s.li.frameClass ≠ none then .next s else .next (s.withLi (s.li.endFrame r f))
    | _, _ => .next s
  else .next s

/-! ## Tests on a frame for this tile (R157) -/

/-- The length and check-value tests of R157 and R158: the Link Interface with a counter risen when one fails, none when both pass. -/
def LinkInterface.tests (x : LinkInterface) (f : LinkFrame) : Option LinkInterface :=
  if f.ending = .cutOff ∨ lengthGood f.body = false then some { x with rxMalformed := satInc x.rxMalformed }
  else if checkGood f.body then none
  else some { x with rxBadCheck := satInc x.rxBadCheck }

/-- DOWNSTREAM_FRAME_END: a frame ends on UP-in; if it is for this tile it is tested and handed to the Request Unit (R157, R170). A frame
not for this tile is neither tested nor counted. The end of a held ENUMERATE is the row ENUMERATE's event (log 3). -/
def execDownstreamFrameEnd (ys : List Symbol) (s : State) : Outcome :=
  if s.running then
    match s.li.onUpIn ys with
    | some (r, .ended f) =>
      if s.li.holds then .next s
      else
        let t := s.withLi (s.li.endFrame r f)
        match s.li.frameClass with
        | none => .next t
        | some c =>
          match t.li.tests f with
          | some x => .next (t.withLi x)
          | none => .next (t.arrive { cls := c, body := f.body })
    | some (_, .destination _) | some (_, .kindByte _) | none => .next s
  else .next s

/-! ## Enumeration (R158-R160) -/

/-- The ENUMERATE repeated with base + 1 and a newly computed check value (R159). -/
def rebased (body : List Byte) : LinkFrame :=
  { body := withCheck [byteAt body 0, byteAt body 1, byteAt body 2, byteAt body 3 + 1], ending := .complete }

/-- The tile takes a unit number: the number, an empty group set, a cleared duplicate filter, JOINED (R160). -/
def State.takeUnit (s : State) (n : Byte) : State :=
  let s := s.withLi { s.li with unit := n, groups := [] }
  let s := s.withRu s.ru.clearFilter
  s.notify (.joined Config.serial n)

/-- A frame repeated on DOWN-out. -/
def State.sendDown (s : State) (f : LinkFrame) : State := s.withLi { s.li with downOut := s.li.downOut ++ [f] }

/-- An ENUMERATE acted on, by its base (R159). -/
def State.enumerateBase (s : State) (f : LinkFrame) : State :=
  let base := byteAt f.body 3
  if 1 ≤ base.toNat ∧ base.toNat ≤ 62 then (s.takeUnit base).sendDown (rebased f.body)
  else if base = 63 then (s.takeUnit 0).sendDown f
  else s.sendDown f

/-- ENUMERATE: a held all-tile ENUMERATE ends on UP-in: discarded, or repeated unchanged and queued, or acted on (R158, R159). The end of
a frame that is not held is not this row's event (log 3). -/
def execEnumerate (ys : List Symbol) (s : State) : Outcome :=
  if s.running then
    match s.li.onUpIn ys with
    | some (r, .ended f) =>
      if s.li.holds then
        let s := s.withLi { s.li with upIn := r, rx := none }
        match s.li.tests f with
        | some x => .next (s.withLi x)
        | none =>
          if f.body.length = 6 then .next (s.enumerateBase f)
          else .next ((s.sendDown f).arrive { cls := .allTiles, body := f.body })
      else .next s
    | some (_, .destination _) | some (_, .kindByte _) | none => .next s
  else .next s

/-! ## Groups (R161, R162) -/

/-- JOIN_GROUP(g): the checks of R161; the reply carries the group set after it. -/
def State.joinGroup (s : State) (p : List Byte) : Answered :=
  match groupArg p with
  | none => .error .badArg
  | some g =>
    if g ∈ s.li.groups then .ok (s, groupBytes s.li.groups)
    else if 4 ≤ s.li.groups.length then .error .groupFull
    else
      let gs := s.li.groups ++ [g]
      .ok (s.withLi { s.li with groups := gs }, groupBytes gs)

def execJoinGroup (k : Take) (s : State) : Outcome := s.serve k .joinGroup State.joinGroup

/-- LEAVE_GROUP(g): R162; the reply carries the group set after it. -/
def State.leaveGroup (s : State) (p : List Byte) : Answered :=
  match groupArg p with
  | none => .error .badArg
  | some g =>
    let gs := s.li.groups.filter (fun x => decide (x ≠ g))
    .ok (s.withLi { s.li with groups := gs }, groupBytes gs)

def execLeaveGroup (k : Take) (s : State) : Outcome := s.serve k .leaveGroup State.leaveGroup

/-! ## Upstream (R163-R165) -/

/-- Is an upstream frame complete: ended by END, with a body of 1 to 246 bytes (R163)? -/
def completeUpstream (f : LinkFrame) : Bool :=
  f.ending == .complete && 1 ≤ f.body.length && f.body.length ≤ 246

/-- Is the notice a LINK_OVERRUN? -/
def Notice.isOverrun (n : Notice) : Bool :=
  match n.details with
  | .linkOverrun _ => true
  | .started .. | .joined .. | .setApplied .. | .copyDone _ | .syncLost _ | .syncRestored _ | .channelFault ..
  | .scanDone .. | .burnDone .. => false

/-- A drop from the full pass-through queue: PASS_DROP rises; LINK_OVERRUN unless one is in the log or the tile is STARTING (R164). -/
def State.passDropped (s : State) : State :=
  let s := s.withLi { s.li with passDrop := satInc s.li.passDrop }
  if s.ru.log.any Notice.isOverrun ∨ s.mc.startUp = .starting then s else s.notify (.linkOverrun s.li.passDrop)

/-- UPSTREAM_FRAME_END: a frame ends on DOWN-in; a complete one is offered to the pass-through queue (R163, R164), any other is discarded
uncounted. A tile that is held takes nothing in (R143). -/
def execUpstreamFrameEnd (ys : List Symbol) (s : State) : Outcome :=
  if s.running then
    match s.li.onDownIn ys with
    | none => .next s
    | some (r, f) =>
      let s := s.withLi { s.li with downIn := r }
      if completeUpstream f then
        if s.li.passThrough.length < 6 then .next (s.withLi { s.li with passThrough := s.li.passThrough ++ [f.body] })
        else .next s.passDropped
      else .next s
  else .next s

/-- The oldest UNSENT notice becomes SENT (R181). -/
def markOldestSent : List Notice → List Notice
  | [] => []
  | n :: ns => if n.sent then n :: markOldestSent ns else { n with sent := true } :: ns

/-- The own-side candidate: the oldest filled reply, else the oldest UNSENT notice (R165): its body, and the Request Unit once the frame
has begun: a reply leaves its queue, a notice becomes SENT (R165, R177, R181). -/
def RequestUnit.ownCandidate (x : RequestUnit) : Option (List Byte × RequestUnit) :=
  match x.replies with
  | r :: rs => some (r.frameBody, { x with replies := rs, filter := markReplySent r x.filter })
  | [] =>
    match x.log.find? (fun n => !n.sent) with
    | some n => some (n.frameBody, { x with log := markOldestSent x.log })
    | none => none

/-- A pass-through frame begins; it leaves the queue when its END is sent (R163, R165). -/
def State.beginPass (s : State) (body : List Byte) : State :=
  s.withLi { s.li with upOut := some { side := .passThrough, body := body }, lastSide := .passThrough }

/-- An own frame begins (R165). -/
def State.beginOwn (s : State) (body : List Byte) (x : RequestUnit) : State :=
  (s.withRu x).withLi { s.li with upOut := some { side := .own, body := body }, lastSide := .own }

/-- UP_OUT_FRAME_BEGIN: UP-out is free and the arbiter chooses: the only side with a candidate, or, if both have one, the side not served
last (R165). -/
def execUpOutFrameBegin (s : State) : Outcome :=
  if s.running ∧ s.li.upOut = none then
    match s.li.passThrough, s.ru.ownCandidate with
    | [], none => .next s
    | b :: _, none => .next (s.beginPass b)
    | [], some (b, x) => .next (s.beginOwn b x)
    | a :: _, some (b, x) =>
      match s.li.lastSide with
      | .own => .next (s.beginPass a)
      | .passThrough => .next (s.beginOwn b x)
  else .next s

/-- UP_OUT_FRAME_END: UP-out sends the frame's END and is free; a pass-through frame leaves the queue (R163). A tile that is held
sends nothing (R143). -/
def execUpOutFrameEnd (s : State) : Outcome :=
  if s.running then
    match s.li.upOut with
    | none => .next s
    | some y =>
      match y.side with
      | .passThrough => .next (s.withLi { s.li with upOut := none, passThrough := s.li.passThrough.tail })
      | .own => .next (s.withLi { s.li with upOut := none })
  else .next s

end Sys2Proof.Machine
end

