-- ==== Sys2Proof/Machine/MapRequests.lean ====
section
/-! DEFINITION. Chapter 5: READ_MAP, REPAIR, RELEASE, MARK_FAULTY, CLEAR_FAULT, SET_REPAIR_POLICY. -/

namespace Sys2Proof.Machine

/-- READ_MAP(s): the 18 channel records of the segment, from the map (R95). -/
def State.readMap (s : State) (p : List Byte) : Answered :=
  match segmentArg p with
  | none => .error .badArg
  | some g => .ok (s, oneByte g.val :: (s.rd.segment g).records)

def execReadMap (k : Take) (s : State) : Outcome := s.serve k .readMap State.readMap

/-- REPAIR(s, p): the checks of R85; a SOFT route stays and is named; a DIRECT primary is routed to the first available spare. -/
def State.repair (s : State) (p : List Byte) : Answered :=
  match primaryArgs p with
  | none => .error .badArg
  | some (g, c) =>
    match ((s.rd.segment g).primary c).route with
    | .hard _ => .error .alreadyHard
    | .soft k => .ok (s, [oneByte k.number, 0])
    | .direct =>
      match (s.rd.segment g).firstAvailable with
      | none => .error .noSpare
      | some k => .ok (s.withRd (s.rd.putSegment g ((s.rd.segment g).makeSoft c k)), [oneByte k.number, 1])

def execRepair (k : Take) (s : State) : Outcome := s.serve k .repair State.repair

/-- Is a burn of this primary in progress (R86)? -/
def BurnEngine.burnsPrimary (b : BurnEngine) (g : Fin 6) (c : Fin 16) : Bool :=
  match b.subject with
  | none => false
  | some x => decide (x.seg = g ∧ x.primary = c)

/-- Is a burn in progress whose primary or whose spare is the channel (R87)? -/
def BurnEngine.burnsChannel (b : BurnEngine) (g : GlobalChannel) : Bool :=
  match b.subject with
  | none => false
  | some x => decide (x.seg = segmentOf g ∧ (channelOf g = .primary x.primary ∨ channelOf g = .spare x.spare))

/-- RELEASE(s, p): the checks of R86, then DIRECT and FREE. The reply names the spare. -/
def State.release (s : State) (p : List Byte) : Answered :=
  match primaryArgs p with
  | none => .error .badArg
  | some (g, c) =>
    match ((s.rd.segment g).primary c).route with
    | .hard _ => .error .alreadyHard
    | .direct => .error .notSoft
    | .soft k =>
      if s.fz.burn.burnsPrimary g c then .error .busy
      else .ok (s.withRd (s.rd.putSegment g ((s.rd.segment g).dropSoft c k)), [oneByte k.number])

def execRelease (k : Take) (s : State) : Outcome := s.serve k .release State.release

/-- MARK_FAULTY(s, c): the checks and the table of R87. The reply carries the action and, for REPAIRED, the spare. -/
def State.markFaulty (s : State) (p : List Byte) : Answered :=
  match channelArgs p with
  | none => .error .badArg
  | some g =>
    if s.fz.burn.burnsChannel g then .error .busy
    else
      let y := (s.rd.segment (segmentOf g)).mark s.rd.policy (channelOf g)
      .ok (s.withRd (s.rd.putSegment (segmentOf g) y.1), [y.2.code, y.2.spareByte])

def execMarkFaulty (k : Take) (s : State) : Outcome := s.serve k .markFaulty State.markFaulty

/-- CLEAR_FAULT(s, c): the condition becomes SOUND; the reply carries the condition before (R88). -/
def State.clearFault (s : State) (p : List Byte) : Answered :=
  match channelArgs p with
  | none => .error .badArg
  | some g =>
    let y := s.rd.segment (segmentOf g)
    .ok (s.withRd (s.rd.putSegment (segmentOf g) (y.setCondition (channelOf g) .sound)),
      [(y.condition (channelOf g)).code])

def execClearFault (k : Take) (s : State) : Outcome := s.serve k .clearFault State.clearFault

/-- SET_REPAIR_POLICY(policy): R89; the map stays as it is. -/
def State.setRepairPolicy (s : State) (p : List Byte) : Answered :=
  match Policy.ofCode (byteAt p 0) with
  | none => .error .badArg
  | some x => .ok (s.withRd { s.rd with policy := x }, [])

def execSetRepairPolicy (k : Take) (s : State) : Outcome := s.serve k .setRepairPolicy State.setRepairPolicy

end Sys2Proof.Machine
end

