-- ==== Sys2Proof/Machine/Fuses.lean ====
section
/-! DEFINITION. Chapter 6: fuse records and their classification, the start-up read, BURN, the four events of the burn engine,
READ_FUSES. -/

namespace Sys2Proof.Machine

/-! ## Fuses -/

/-- A record's class, by the first row of the table of R102 that fits. -/
def FuseRecord.classify (r : FuseRecord) : FuseClass :=
  if r = FuseRecord.blank then .blank
  else if r.damage ≠ 0 then .damaged
  else if r.index ^^^ r.complement = 15 then .programmed ⟨r.index.toNat, r.index.isLt⟩
  else .inconsistent

/-- The fuses that WRITE blows for `p` and that took: index fuses for the weights of p, complement fuses for the others (R101, R100). -/
def FuseRecord.blowWrite (r : FuseRecord) (p : Fin 16) (b : Blows) : FuseRecord :=
  { r with index := r.index ||| (BitVec.ofNat 4 p.val &&& b.index),
           complement := r.complement ||| (~~~(BitVec.ofNat 4 p.val) &&& b.complement) }

/-- The damage fuses that MARK blows and that took (R112). -/
def FuseRecord.blowDamage (r : FuseRecord) (b : Blows) : FuseRecord := { r with damage := r.damage ||| b.damage }

/-- The fuse record of a burn subject. -/
def FuseStore.record (x : FuseStore) (y : Subject) : FuseRecord := (x.fuses.get y.seg).get y.spare

/-- The Fuse Store with a subject's fuse record replaced. -/
def FuseStore.putRecord (x : FuseStore) (y : Subject) (r : FuseRecord) : FuseStore :=
  { x with fuses := x.fuses.set y.seg.val ((x.fuses.get y.seg).put y.spare r) y.seg.isLt }

/-- The Fuse Store with a subject's held classification replaced. -/
def FuseStore.putHeld (x : FuseStore) (y : Subject) (c : FuseClass) : FuseStore :=
  { x with held := x.held.set y.seg.val ((x.held.get y.seg).put y.spare c) y.seg.isLt }

/-- The fuses after the blows under way have been cut short or have run out: those of WRITE, those of MARK, none in another state
(R110, R116). -/
def FuseStore.blow (x : FuseStore) (b : Blows) : FuseStore :=
  match x.burn with
  | .write y => x.putRecord y ((x.record y).blowWrite y.primary b)
  | .mark y => x.putRecord y ((x.record y).blowDamage b)
  | .idle | .check _ | .recheck _ => x

/-- The start-up read of a segment's two records: each classified, and s.17 DAMAGED when both name the same primary (R104). -/
def readPair (r : SparePair FuseRecord) : SparePair FuseClass :=
  let a := r.v16.classify
  let b := r.v17.classify
  match a, b with
  | .programmed p, .programmed q => if p = q then { v16 := a, v17 := .damaged } else { v16 := a, v17 := b }
  | _, _ => { v16 := a, v17 := b }

/-- The start-up read of all twelve records (R104). -/
def FuseStore.startupRead (x : FuseStore) : FuseStore := { x with held := x.fuses.map readPair }

/-- Cold reset: the burn ends, the fuses keep what it had blown (R105, R116), which `b` says and which is recorded at this moment (DESIGN
CHOICE, logs 10 and 23); the classifications wait for the start-up read (log 17). -/
def FuseStore.coldReset (x : FuseStore) (b : Blows) : FuseStore :=
  { x.blow b with held := heldBlank, burn := .idle, entered := 0 }

/-! ## BURN (R108, R109) -/

/-- BURN(s, p): the checks of R108 after the addressing check, then WRITING and WRITE (R109). The reply names the spare. -/
def State.burnRequest (s : State) (p : List Byte) : Answered :=
  if s.mc.mode ≠ .maintenance then .error .badState
  else if s.fz.burn.busy ∨ s.tu.scan.isRunning then .error .busy
  else
    match primaryArgs p with
    | none => .error .badArg
    | some (g, c) =>
      match ((s.rd.segment g).primary c).route with
      | .hard _ => .error .alreadyHard
      | .direct => .error .notSoft
      | .soft k =>
        let x : Subject := { seg := g, primary := c, spare := k }
        .ok (s.withFz { s.fz.putHeld x .writing with burn := .write x, entered := s.now }, [oneByte k.number])

def execBurn (k : Take) (s : State) : Outcome := s.serve k .burn State.burnRequest

/-! ## The burn engine (R110) -/

/-- How long WRITE and MARK last, in ns: 150 ms (R110). -/
def burnStepTime : Nat := 150000000

/-- WRITE ends 150 ms after it was entered; `b` says which of its four blows took (R100, R110). All that took are recorded as blown at this
moment (DESIGN CHOICE, log 23: the spec does not say when within WRITE each fuse blows). -/
def execBurnWriteExpiry (b : Blows) (s : State) : Outcome :=
  match s.fz.burn with
  | .write x =>
    let s := s.passTo (s.fz.entered + burnStepTime)
    .next (s.withFz { s.fz.blow b with burn := .check x, entered := s.now })
  | .idle | .check _ | .mark _ | .recheck _ => .next s

/-- The burn ends: the classification, the route and the use, IDLE, and BURN_DONE, in one event (R111, R112, R113). -/
def State.endBurn (s : State) (x : Subject) (c : FuseClass) (g : Segment) : State :=
  let s := s.withFz { s.fz.putHeld x c with burn := .idle, entered := s.now }
  let s := s.withRd (s.rd.putSegment x.seg g)
  s.notify (.burnDone x c)

/-- The read in CHECK, at the moment `t`: PROGRAMMED(p) ends the burn with success (R111), anything else enters MARK (R112). -/
def execBurnCheckRead (t : Nat) (s : State) : Outcome :=
  match s.fz.burn with
  | .check x =>
    let s := s.passTo t
    if (s.fz.record x).classify = .programmed x.primary then
      .next (s.endBurn x (.programmed x.primary) ((s.rd.segment x.seg).makeHard x.primary x.spare))
    else .next (s.withFz { s.fz with burn := .mark x, entered := s.now })
  | .idle | .write _ | .mark _ | .recheck _ => .next s

/-- MARK ends 150 ms after it was entered; `b` says which of its two blows took (R110, R112). Both are recorded at this moment (DESIGN
CHOICE, log 23). -/
def execBurnMarkExpiry (b : Blows) (s : State) : Outcome :=
  match s.fz.burn with
  | .mark x =>
    let s := s.passTo (s.fz.entered + burnStepTime)
    .next (s.withFz { s.fz.blow b with burn := .recheck x, entered := s.now })
  | .idle | .write _ | .check _ | .recheck _ => .next s

/-- The read of the damage group in RECHECK, at the moment `t`: DAMAGED or INCONSISTENT, the spare DAMAGED and the primary DIRECT (R112). -/
def execBurnRecheckRead (t : Nat) (s : State) : Outcome :=
  match s.fz.burn with
  | .recheck x =>
    let s := s.passTo t
    let c : FuseClass := if (s.fz.record x).damage ≠ 0 then .damaged else .inconsistent
    .next (s.endBurn x c ((s.rd.segment x.seg).spoil x.primary x.spare))
  | .idle | .write _ | .check _ | .mark _ => .next s

/-- READ_FUSES: the held classification of all twelve records (R107). -/
def State.readFuses (s : State) (_ : List Byte) : Answered := .ok (s, s.fz.entries)

def execReadFuses (k : Take) (s : State) : Outcome := s.serve k .readFuses State.readFuses

end Sys2Proof.Machine
end

