-- ==== Sys2Proof/Machine/Testing.lean ====
section
/-! DEFINITION. Chapter 7: SCAN, the end of a scan test, SCAN_ABORT, READ_SCAN, SET_PATROL, the end of a patrol test. -/

namespace Sys2Proof.Machine

/-- How long a channel test takes, in ns: 0.4 ms (R118). -/
def testTime : Nat := 400000

/-- The SCAN_DONE notice of the scan as it stands (R124, R125). -/
def State.scanDone (s : State) : State :=
  s.notify (.scanDone s.tu.outcome s.tu.tested s.tu.findings.length s.tu.overflow s.rd.darkRows)

/-- A running scan is aborted: its test abandoned, IDLE, outcome ABORTED, SCAN_DONE (R125, R126). -/
def State.abortScan (s : State) : State := (s.withTu { s.tu with scan := .idle, outcome := .aborted }).scanDone

/-- SCAN: the checks of R121, then the scan state cleared, RUNNING, and the test of channel 0.0. -/
def State.startScan (s : State) (_ : List Byte) : Answered :=
  if s.mc.mode ≠ .maintenance then .error .badState
  else if s.tu.scan.isRunning ∨ s.fz.burn.busy then .error .busy
  else
    .ok (s.withTu { s.tu with scan := .running 0, tested := 0, findings := [], overflow := false, outcome := .none,
                              testStart := s.now }, [])

def execScan (k : Take) (s : State) : Outcome := s.serve k .scan State.startScan

/-- A test of the scan is counted, and recorded as a finding if R123 calls for one and the list has room; else the overflow flag. -/
def TestUnit.recordTest (x : TestUnit) (g : GlobalChannel) (r : TestResult) (y : TestReport) : TestUnit :=
  let x := { x with tested := x.tested + 1 }
  if r ≠ .ok ∨ y.changed then
    if x.findings.length < 32 then
      { x with findings := x.findings ++ [{ channel := g, result := r, action := y.action }] }
    else { x with overflow := true }
  else x

/-- The outcome of a completed scan, from the map and the findings at that moment (R124). -/
def scanOutcome (dark : Nat) (findings : List Finding) : ScanOutcome :=
  if 0 < dark then .unrepaired else if findings = [] then .clean else .repaired

/-- A scan test ends with result `r`: result to the Row Drive Unit, count, finding, then the next test or the completion (R122-R124). -/
def execScanTestEnd (r : TestResult) (s : State) : Outcome :=
  match s.tu.scan with
  | .idle => .next s
  | .running g =>
    let s := s.passTo (s.tu.testStart + testTime)
    let y := s.rd.applyTest g r
    let s := (s.withRd y.1).withTu (s.tu.recordTest g r y.2)
    match s.rd.scanNext g with
    | some h => .next (s.withTu { s.tu with scan := .running h, testStart := s.now })
    | none =>
      .next (s.withTu { s.tu with scan := .idle, outcome := scanOutcome s.rd.darkRows s.tu.findings }).scanDone

/-- SCAN_ABORT: refused when the engine is IDLE; else the scan is aborted and the reply carries the channels tested (R125). -/
def State.scanAbort (s : State) (_ : List Byte) : Answered :=
  if s.tu.scan.isRunning then .ok (s.abortScan, [oneByte s.tu.tested]) else .error .badState

def execScanAbort (k : Take) (s : State) : Outcome := s.serve k .scanAbort State.scanAbort

/-- READ_SCAN(first, count): the checks of R130, then the scan header and the findings asked for that are in the list. -/
def State.readScan (s : State) (p : List Byte) : Answered :=
  let first := (byteAt p 0).toNat
  let count := (byteAt p 1).toNat
  if 32 < count then .error .badArg
  else if 32 < first + count then .error .badArg
  else .ok (s, s.tu.scanHeader ++ ((s.tu.findings.drop first).take count).flatMap findingBytes)

def execReadScan (k : Take) (s : State) : Outcome := s.serve k .readScan State.readScan

/-- SET_PATROL(on or off): R132; off abandons a patrol test. The reply carries the enable after it, the cursor and the lap count. -/
def State.setPatrol (s : State) (p : List Byte) : Answered :=
  let v := byteAt p 0
  let reply := [v, oneByte s.tu.cursor.val] ++ halfField s.tu.lapCount
  if v = 1 then .ok (s.withTu { s.tu with patrolOn := true }, reply)
  else if v = 0 then .ok (s.withTu { s.tu with patrolOn := false, patrolTest := none }, reply)
  else .error .badArg

def execSetPatrol (k : Take) (s : State) : Outcome := s.serve k .setPatrol State.setPatrol

/-- The patrol after a test of `g`: no test in progress, the cursor past `g` to the next channel that is not a DAMAGED spare, a lap more
when it passed 107 (R135). -/
def TestUnit.patrolAdvance (x : TestUnit) (map : RowDrive) (g : GlobalChannel) : TestUnit :=
  let y := map.nextAfter g
  { x with patrolTest := none, cursor := y.1, lapCount := if y.2 then satInc x.lapCount else x.lapCount }

/-- A patrol test ends with result `r`: result to the Row Drive Unit, CHANNEL_FAULT when the fault-handling rule fired, the cursor
advances (R135). -/
def execPatrolTestEnd (r : TestResult) (s : State) : Outcome :=
  match s.tu.patrolTest with
  | none => .next s
  | some g =>
    let s := s.passTo (s.tu.testStart + testTime)
    let y := s.rd.applyTest g r
    let s := s.withRd y.1
    let s := if y.2.fired then s.notify (.channelFault g (conditionOf r) y.2.action) else s
    .next (s.withTu (s.tu.patrolAdvance s.rd g))

end Sys2Proof.Machine
end

