-- ==== Sys2Proof/Machine/Modes.lean ====
section
/-! DEFINITION. Chapter 8: SET_MODE, RESTART, cold reset and start-up. -/

namespace Sys2Proof.Machine

/-! ## SET_MODE (R140-R142) -/

/-- The mode becomes `m`, another mode than the one in force: BLANK on leaving SHOW, a patrol test abandoned in OFF and MAINTENANCE, a
running scan aborted on leaving MAINTENANCE, all in one event (R31, R126, R133, R141). -/
def State.changeMode (s : State) (m : Mode) : State :=
  let left := s.mc.mode
  let s := s.withMc { s.mc with mode := m }
  let s := s.withPu { s.pu with output := if m = .showMode then s.pu.output else .blank }
  let s := s.withTu { s.tu with patrolTest := if m = .off ∨ m = .maintenance then none else s.tu.patrolTest }
  if left = .maintenance ∧ s.tu.scan.isRunning then s.abortScan else s

/-- SET_MODE(m): the checks of R140; a mode equal to the one in force changes nothing (R142). The reply carries the mode before and
after. -/
def State.setMode (s : State) (p : List Byte) : Answered :=
  if s.fz.burn.busy then .error .busy
  else
    match Mode.ofCode (byteAt p 0) with
    | none => .error .badArg
    | some m => .ok (if m = s.mc.mode then s else s.changeMode m, [s.mc.mode.code, m.code])

def execSetMode (k : Take) (s : State) : Outcome := s.serve k .setMode State.setMode

/-! ## RESTART (R147-R150) -/

/-- The mode after a warm restart (R139). -/
def Mode.afterRestart : Mode → Mode
  | .off => .off
  | .standby | .showMode | .maintenance => .standby

/-- The Frame Store: pages and canvas kept, front page A, a copy in flight aborted, `n` cells of it done (R6). -/
def FrameStore.warm (x : FrameStore) (n : Nat) : FrameStore :=
  match x.copy with
  | .idle => { x with front := .A }
  | .copying source =>
    { x.putPage source.other (Cells.copiedTo (x.page source) (x.page source.other) n) with front := .A, copy := .idle }

/-- The Presentation Unit: default view, BLANK, latch kept (R26). -/
def Presentation.warm (x : Presentation) : Presentation := { x with live := View.default, output := .blank }

/-- The Test Unit: scan stopped and cleared silently; patrol kept, its test while the patrol stays active in mode `m` (R127, R131). -/
def TestUnit.warm (x : TestUnit) (m : Mode) : TestUnit :=
  { x with scan := .idle, tested := 0, findings := [], overflow := false, outcome := .none,
           patrolTest := if patrolActive x.patrolOn m then x.patrolTest else none }

/-- The Request Unit: request queue kept; unsent replies, filter, notices, lost count and last broadcast result cleared; numbering and
REQ_DROP kept (R148, R149, R176, R177, R179, R185). -/
def RequestUnit.warm (x : RequestUnit) : RequestUnit :=
  { x with replies := [], filter := none, lastBroadcast := none, log := [], lost := 0 }

/-- The warm restart of every block, one event (R148). The point an aborted copy has reached is a free value (R6, log 9). -/
def State.warmRestart (s : State) : State :=
  let n := Config.copyProgress s.freeCount
  { s with
    fs := s.fs.warm n, pu := s.pu.warm, ft := { s.ft with pendingNumber := none }, cs := ChangeSets.cold,
    tu := s.tu.warm s.mc.mode.afterRestart, ru := s.ru.warm, mc := { s.mc with mode := s.mc.mode.afterRestart },
    freeCount := s.freeCount + 1 }

/-- RESTART: refused BUSY during a burn (R147); else the warm restart, and the reply carries the mode after it (R149). -/
def State.restartRequest (s : State) (_ : List Byte) : Answered :=
  if s.fz.burn.busy then .error .busy else .ok (s.warmRestart, [s.mc.mode.afterRestart.code])

def execRestart (k : Take) (s : State) : Outcome := s.serve k .restart State.restartRequest

/-! ## Cold reset and start-up (R143-R146) -/

/-- Every block at its cold-reset values; the pages and the fuses keep what they hold, less what a burn had still to blow (R5, R105,
R116, R143). -/
def State.toCold (s : State) (b : Blows) : State :=
  { s with
    li := LinkInterface.cold, ru := RequestUnit.cold, fs := { FrameStore.cold with pageA := s.fs.pageA, pageB := s.fs.pageB },
    pu := Presentation.cold, ft := FrameTiming.cold, cs := ChangeSets.cold, rd := RowDrive.cold, fz := s.fz.coldReset b,
    tu := TestUnit.cold, mc := ModeControl.cold }

/-- Power is lost or the cold-reset line is asserted: the tile is held at its cold-reset values (R143). -/
def execColdReset (c : ResetCause) (b : Blows) (s : State) : Outcome :=
  match c with
  | .powerLost => .next { s.toCold b with powerGood := false }
  | .lineAsserted => .next { s.toCold b with resetLine := true }

/-- Start-up begins when a change of power or line ends the hold: the start-up state becomes STARTING (R143). -/
def State.afterLines (s : State) (powerGood resetLine : Bool) : State :=
  let t := { s with powerGood := powerGood, resetLine := resetLine }
  if s.running = false ∧ t.running then t.withMc { t.mc with startUp := .starting } else t

/-- Power comes good, or the line is released. Start-up begins once power is good with the line released (R143). -/
def execStartupBegin (c : StartCause) (s : State) : Outcome :=
  match c with
  | .powerGood => .next (s.afterLines true s.resetLine)
  | .lineReleased => .next (s.afterLines s.powerGood false)

/-- The work of start-up and its end, at the moment `t`: pages cleared, fuses read, map built (R143), then READY and OFF, SEEKING with its
timer started, and STARTED (R145). -/
def State.finishStartup (s : State) (t : Nat) : State :=
  let s := s.tick t
  let s := s.withFs { s.fs with pageA := [], pageB := [] }
  let s := s.withFz s.fz.startupRead
  let s := s.withRd (RowDrive.build s.fz.held)
  let s := s.withMc { mode := .off, startUp := .ready }
  let s := s.withFt { s.ft with syncState := .seeking, timerStart := s.now }
  s.notify (.started Config.serial s.rd.hardCount s.rd.damagedCount s.li.unit)

/-- Start-up ends (R145). -/
def execStartupEnd (t : Nat) (s : State) : Outcome :=
  if s.running ∧ s.mc.startUp = .starting then .next (s.finishStartup t) else .next s

end Sys2Proof.Machine
end

