-- ==== Sys2Proof/Machine/Requests.lean ====
section
/-! DEFINITION. Chapter 10: IDENTIFY, STATUS, READ_NOTICES, ACK_NOTICES, a kind that is not defined, an ENUMERATE in the request queue. -/

namespace Sys2Proof.Machine

/-- IDENTIFY: the identity record (R184). -/
def State.identify (s : State) (_ : List Byte) : Answered := .ok (s, s.identityRecord)

def execIdentify (k : Take) (s : State) : Outcome := s.serve k .identify State.identify

/-- The five link counters become 0 (R166, R185). -/
def State.clearCounters (s : State) : State :=
  let s := s.withLi { s.li with rxMalformed := 0, rxBadCheck := 0, passDrop := 0 }
  let s := s.withRu { s.ru with reqDrop := 0 }
  s.withFt { s.ft with glitch := 0 }

/-- STATUS(clear counters): the status record as it stands, then, with the flag set, the counters cleared (R185). -/
def State.statusRequest (s : State) (p : List Byte) : Answered :=
  if byteAt p 0 = 0 then .ok (s, s.statusRecord)
  else if byteAt p 0 = 1 then .ok (s.clearCounters, s.statusRecord)
  else .error .badArg

def execStatus (k : Take) (s : State) : Outcome := s.serve k .status State.statusRequest

/-- READ_NOTICES: every record in log order; all become SENT (R182). -/
def State.readNotices (s : State) (_ : List Byte) : Answered :=
  .ok (s.withRu { s.ru with log := s.ru.log.map (fun n => { n with sent := true }) },
    oneByte s.ru.log.length :: s.ru.log.flatMap Notice.record)

def execReadNotices (k : Take) (s : State) : Outcome := s.serve k .readNotices State.readNotices

/-- The log after the notice numbered `n` and every older one are removed; none when no notice has that number (R183). -/
def ackedLog (n : Byte) : List Notice → Option (List Notice)
  | [] => none
  | x :: xs => if x.number = n then some xs else ackedLog n xs

/-- ACK_NOTICES(n): R183; the reply carries the number of notices left. -/
def State.ackNotices (s : State) (p : List Byte) : Answered :=
  match ackedLog (byteAt p 0) s.ru.log with
  | none => .error .badArg
  | some l => .ok (s.withRu { s.ru with log := l }, [oneByte l.length])

def execAckNotices (k : Take) (s : State) : Outcome := s.serve k .ackNotices State.ackNotices

/-- UNKNOWN_KIND: the executor takes a request whose kind is not defined and refuses it (R172). -/
def execUnknownKind (k : Take) (s : State) : Outcome :=
  match s.taking k with
  | none => .next s
  | some q => if Kind.ofCode k.req.kind = none then .next (((s.reach k.moment).taken k).answer q .unknownKind []) else .next s

/-- QUEUED_ENUMERATE: the executor takes an ENUMERATE from the request queue and refuses it: BAD_LENGTH, UNIT_ONLY, or BAD_STATE for one
whose kind byte arrived while STARTING (R172). -/
def State.queuedEnumerate (_ : State) (_ : List Byte) : Answered := .error .badState

def execQueuedEnumerate (k : Take) (s : State) : Outcome := s.serve k .enumerate State.queuedEnumerate

end Sys2Proof.Machine
end

