-- ==== Sys2Proof/Machine/Timing.lean ====
section
/-! DEFINITION. Chapter 3: edges on the frame-sync line, the four timers, SET_SYNC, SET_FRAME_NUMBER. -/

namespace Sys2Proof.Machine

/-! ## Expiries (R38, R40, R41, R42) -/

def execSeekingTimerExpiry (s : State) : Outcome :=
  if s.ready ∧ s.ft.syncState = .seeking then .next s.seekingExpires else .next s

def execSupervisionTimerExpiry (s : State) : Outcome :=
  if s.ready ∧ s.ft.syncState = .locked then .next s.supervisionExpires else .next s

def execHoldoverTimerExpiry (s : State) : Outcome :=
  if s.ready ∧ s.ft.syncState = .holdover then .next s.holdoverExpires else .next s

def execFreeRunTimerExpiry (s : State) : Outcome :=
  if s.ready ∧ s.ft.syncState = .free then .next s.freeRunExpires else .next s

/-! ## Edges -/

/-- An edge is accepted at the moment `now`: LOCKED, and it is the last accepted edge (R38, R39, R41). -/
def FrameTiming.acceptEdge (x : FrameTiming) (now : Nat) : FrameTiming := { x with syncState := .locked, lastEdge := now }

/-- A rising edge at the moment `now` in each sync state: accepted in SEEKING (R38); a glitch or accepted in LOCKED (R39); the return of
sync in HOLDOVER, its SYNC_RESTORED created once N has the edge's number and before the frame-start event (R41); nothing in FREE (R42). -/
def State.edge (s : State) : State :=
  match s.ft.syncState with
  | .seeking => (s.withFt (s.ft.acceptEdge s.now)).countedStart
  | .locked =>
    if s.now - s.ft.lastEdge < s.ft.halfPeriod then s.withFt { s.ft with glitch := satInc s.ft.glitch }
    else (s.withFt (s.ft.acceptEdge s.now)).countedStart
  | .holdover =>
    let s := s.withFt (s.ft.acceptEdge s.now).takeNumber
    (s.notify (.syncRestored s.ft.holdover)).countedEvent
  | .free => s

/-- A rising edge on the frame-sync line at the moment `t`, the frame timers due before it having expired (R40, R43); ignored before the end
of start-up (R50). -/
def execSyncEdge (t : Nat) (s : State) : Outcome := if s.ready then .next (s.passTo t).edge else .next s

/-! ## SET_SYNC and SET_FRAME_NUMBER -/

/-- A timer whose moment has already passed expires at once (R48). -/
def State.expireOverdue (s : State) : State := if s.ft.deadline < s.now then s.frameTimerExpires else s

/-- SET_SYNC taken: the table of R47 and, where the state is kept with a new T, R48. A request that names the current source and the
current T changes nothing. -/
def State.applySync (s : State) (source : SyncSource) (t : Nat) : State :=
  match s.ft.syncState, source with
  | .free, .external => s.withFt { s.ft with syncState := .seeking, period := t, timerStart := s.now }
  | .seeking, .internal | .locked, .internal | .holdover, .internal =>
    s.withFt { s.ft with syncState := .free, period := t, timerStart := s.now }
  | .seeking, .external | .locked, .external | .holdover, .external | .free, .internal =>
    s.withFt { s.ft with period := t }

/-- SET_SYNC(source, T): the checks of R47; the state and T; then a timer that is overdue under the new T expires at once (R48). The
reply carries the sync state after the request and before any such expiry (log 19). -/
def State.setSync (s : State) (p : List Byte) : Answered :=
  let t := field p 1 2
  match SyncSource.ofCode (byteAt p 0) with
  | none => .error .badArg
  | some source =>
    if t < 4000 ∨ 50000 < t then .error .badArg
    else
      let u := s.applySync source t
      .ok (if s.ft.syncState.source = source ∧ s.ft.period = t then u else u.expireOverdue, [u.ft.syncState.code])

def execSetSync (k : Take) (s : State) : Outcome := s.serve k .setSync State.setSync

/-- SET_FRAME_NUMBER(v): the pending number becomes v (R46). -/
def State.setFrameNumber (s : State) (p : List Byte) : Answered :=
  .ok (s.withFt { s.ft with pendingNumber := some (BitVec.ofNat 32 (field p 0 4)) }, [])

def execSetFrameNumber (k : Take) (s : State) : Outcome := s.serve k .setFrameNumber State.setFrameNumber

end Sys2Proof.Machine
end

