-- ==== Sys2Proof/Machine/ViewRequests.lean ====
section
/-! DEFINITION. Chapter 2: READ_BANDS, READ_PALETTE, the end of the blanking interval, and what the panel shows (R29-R32). -/

namespace Sys2Proof.Machine

/-- READ_BANDS: the table and the level in force (R33, R190). -/
def State.readBands (s : State) (_ : List Byte) : Answered :=
  .ok (s, [oneByte s.pu.live.bands.length] ++ s.pu.live.bands.flatMap bandBytes ++ [s.pu.live.level])

def execReadBands (k : Take) (s : State) : Outcome := s.serve k .readBands State.readBands

/-- READ_PALETTE(bank, first, count): the checks of R34, then the entries in force in ascending entry number. -/
def State.readPalette (s : State) (p : List Byte) : Answered :=
  let bank := (byteAt p 0).toNat
  let first := (byteAt p 1).toNat
  let count := (byteAt p 2).toNat
  if 3 < bank then .error .badArg
  else if count = 0 ∨ 32 < count then .error .badArg
  else if 256 < first + count then .error .badArg
  else
    .ok (s, p.take 3 ++
      (List.range count).flatMap (fun i => colourBytes (Palette.entry s.pu.live.palette bank (first + i))))

def execReadPalette (k : Take) (s : State) : Outcome := s.serve k .readPalette State.readPalette

/-- The blanking interval of a frame, in ns: 0.5 ms (R27). -/
def blankingTime : Nat := 500000

/-- The blanking interval ends and the scan passes begin (R27). -/
def execBlankingIntervalEnd (s : State) : Outcome :=
  match s.pu.phase with
  | .blanking => .next ((s.tick (s.ft.frameStart + blankingTime)).withPu { s.pu with phase := .scanning })
  | .none | .scanning => .next s

/-! ## The lit panel -/

/-- The band of a table in which panel row `r` lies: the one with the greatest top row not greater than `r` (R19). -/
def bandOfRow (t : List Band) (r : Nat) : Option Band := (t.filter (fun b => decide (b.top ≤ r))).getLast?

/-- The page offset of the cell that panel row `r`, column `j` shows: (sy + r - t)·W + sx + j (R29). -/
def State.panelOffset (s : State) (r j : Nat) : Option Nat :=
  (bandOfRow s.pu.latched.bands r).map (fun b => (b.sy + r - b.top) * s.fs.width + b.sx + j)

/-- The latched palette entry of the emitter at row `r`, column `j`: its cell's index through its band's bank (R29). -/
def State.panelColour (s : State) (r j : Nat) : Option Colour :=
  match bandOfRow s.pu.latched.bands r, s.panelOffset r j with
  | some b, some a =>
    some (Palette.entry s.pu.latched.palette b.bank (((s.fs.page s.pu.latchedFront).read a).toNat))
  | _, _ => none

/-- The value driven for one colour: entry value times L, divided by 255, rounded down (R30). -/
def drivenValue (v : BitVec 10) (level : Byte) : Nat := v.toNat * level.toNat / 255

/-- Is panel row `r` lit in the passes of the frame in progress: output SHOWING, past the blanking interval, and a latched source
(R27, R31, R32)? -/
def State.rowLit (s : State) (r : Fin 96) : Bool :=
  s.pu.output == .showing && s.pu.phase == .scanning && (s.rd.latch.get r).isSome

/-- What the emitter at row `r`, column `j` is driven with in a pass of the frame in progress: red, green, blue; none when the row is dark
(R29-R32). -/
def State.emitted (s : State) (r : Fin 96) (j : Fin 128) : Option (Nat × Nat × Nat) :=
  if s.rowLit r then
    (s.panelColour r.val j.val).map (fun c =>
      (drivenValue c.red s.pu.latched.level, drivenValue c.green s.pu.latched.level,
        drivenValue c.blue s.pu.latched.level))
  else none

end Sys2Proof.Machine
end

