-- ==== Sys2Proof/Machine/Dispatch.lean ====
section
/-! DEFINITION. The dispatch: one arm per command, each one call of its meaning. -/

namespace Sys2Proof.Machine

def exec (i : Instr) (s : State) : Host.Outcome State Fault Refusal :=
  match i with
  | .enumerate ys => Sys2Proof.Machine.execEnumerate ys s
  | .identify k => Sys2Proof.Machine.execIdentify k s
  | .status k => Sys2Proof.Machine.execStatus k s
  | .joinGroup k => Sys2Proof.Machine.execJoinGroup k s
  | .leaveGroup k => Sys2Proof.Machine.execLeaveGroup k s
  | .restart k => Sys2Proof.Machine.execRestart k s
  | .readNotices k => Sys2Proof.Machine.execReadNotices k s
  | .ackNotices k => Sys2Proof.Machine.execAckNotices k s
  | .setMode k => Sys2Proof.Machine.execSetMode k s
  | .setCanvas k => Sys2Proof.Machine.execSetCanvas k s
  | .writePixels k => Sys2Proof.Machine.execWritePixels k s
  | .fillRect k => Sys2Proof.Machine.execFillRect k s
  | .fillComplete => Sys2Proof.Machine.execFillComplete s
  | .readPixels k => Sys2Proof.Machine.execReadPixels k s
  | .copyFront k => Sys2Proof.Machine.execCopyFront k s
  | .copyComplete => Sys2Proof.Machine.execCopyComplete s
  | .beginSet k => Sys2Proof.Machine.execBeginSet k s
  | .stageBands k => Sys2Proof.Machine.execStageBands k s
  | .stagePan k => Sys2Proof.Machine.execStagePan k s
  | .stagePalette k => Sys2Proof.Machine.execStagePalette k s
  | .stageLevel k => Sys2Proof.Machine.execStageLevel k s
  | .commit k => Sys2Proof.Machine.execCommit k s
  | .abandon k => Sys2Proof.Machine.execAbandon k s
  | .readBands k => Sys2Proof.Machine.execReadBands k s
  | .readPalette k => Sys2Proof.Machine.execReadPalette k s
  | .setSync k => Sys2Proof.Machine.execSetSync k s
  | .setFrameNumber k => Sys2Proof.Machine.execSetFrameNumber k s
  | .readMap k => Sys2Proof.Machine.execReadMap k s
  | .repair k => Sys2Proof.Machine.execRepair k s
  | .release k => Sys2Proof.Machine.execRelease k s
  | .markFaulty k => Sys2Proof.Machine.execMarkFaulty k s
  | .clearFault k => Sys2Proof.Machine.execClearFault k s
  | .setRepairPolicy k => Sys2Proof.Machine.execSetRepairPolicy k s
  | .burn k => Sys2Proof.Machine.execBurn k s
  | .burnWriteExpiry b => Sys2Proof.Machine.execBurnWriteExpiry b s
  | .burnCheckRead t => Sys2Proof.Machine.execBurnCheckRead t s
  | .burnMarkExpiry b => Sys2Proof.Machine.execBurnMarkExpiry b s
  | .burnRecheckRead t => Sys2Proof.Machine.execBurnRecheckRead t s
  | .readFuses k => Sys2Proof.Machine.execReadFuses k s
  | .scan k => Sys2Proof.Machine.execScan k s
  | .scanTestEnd r => Sys2Proof.Machine.execScanTestEnd r s
  | .scanAbort k => Sys2Proof.Machine.execScanAbort k s
  | .readScan k => Sys2Proof.Machine.execReadScan k s
  | .setPatrol k => Sys2Proof.Machine.execSetPatrol k s
  | .patrolTestEnd r => Sys2Proof.Machine.execPatrolTestEnd r s
  | .unknownKind k => Sys2Proof.Machine.execUnknownKind k s
  | .syncEdge t => Sys2Proof.Machine.execSyncEdge t s
  | .seekingTimerExpiry => Sys2Proof.Machine.execSeekingTimerExpiry s
  | .supervisionTimerExpiry => Sys2Proof.Machine.execSupervisionTimerExpiry s
  | .holdoverTimerExpiry => Sys2Proof.Machine.execHoldoverTimerExpiry s
  | .freeRunTimerExpiry => Sys2Proof.Machine.execFreeRunTimerExpiry s
  | .blankingIntervalEnd => Sys2Proof.Machine.execBlankingIntervalEnd s
  | .downstreamFrameEnd ys => Sys2Proof.Machine.execDownstreamFrameEnd ys s
  | .downstreamRepeat stage ys => Sys2Proof.Machine.execDownstreamRepeat stage ys s
  | .upstreamFrameEnd ys => Sys2Proof.Machine.execUpstreamFrameEnd ys s
  | .upOutFrameBegin => Sys2Proof.Machine.execUpOutFrameBegin s
  | .upOutFrameEnd => Sys2Proof.Machine.execUpOutFrameEnd s
  | .coldReset c b => Sys2Proof.Machine.execColdReset c b s
  | .startupBegin c => Sys2Proof.Machine.execStartupBegin c s
  | .startupEnd t => Sys2Proof.Machine.execStartupEnd t s
  | .queuedEnumerate k => Sys2Proof.Machine.execQueuedEnumerate k s

end Sys2Proof.Machine
end

