-- ==== Sys2Proof/Safety.lean ====
section
/-! DEFINITION. The predicates that the statements use: what a frame statement names, what it means that a request is taken, answered
or refused, that a notice is created, that a frame starts; and the invariants of the tile. Nothing here runs. -/

namespace Sys2Proof.Machine

/-! ## What stays unchanged -/

/-- The ten blocks of the block diagram. -/
inductive Block where
  | li | ru | fs | pu | ft | cs | rd | fz | tu | mc
  deriving DecidableEq, Repr

/-- One block of `t` is as it is in `s`. -/
def State.sameBlock (s t : State) : Block → Prop
  | .li => t.li = s.li
  | .ru => t.ru = s.ru
  | .fs => t.fs = s.fs
  | .pu => t.pu = s.pu
  | .ft => t.ft = s.ft
  | .cs => t.cs = s.cs
  | .rd => t.rd = s.rd
  | .fz => t.fz = s.fz
  | .tu => t.tu = s.tu
  | .mc => t.mc = s.mc

/-- Every block but the named ones is unchanged, and so are the power, the cold-reset line, the free-value counter and the waiting
commands. -/
def State.SameExcept (s t : State) (bs : List Block) : Prop :=
  (∀ b, b ∉ bs → s.sameBlock t b) ∧ t.powerGood = s.powerGood ∧ t.resetLine = s.resetLine ∧
    t.freeCount = s.freeCount ∧ t.pending = s.pending

/-! ## The moment of a command (R36, R43) -/

/-- The moment `m` does not lie past the next expiry of the frame timer in use: 3T/2 after the last accepted edge in LOCKED, T after the start
of the timer in every other sync state (R36, R38, R40, R41, R42). -/
def State.OnTime (s : State) (m : Nat) : Prop :=
  match s.ft.syncState with
  | .locked => m ≤ s.ft.lastEdge + 1500 * s.ft.period
  | .seeking | .holdover | .free => m ≤ s.ft.timerStart + 1000 * s.ft.period

/-- No frame timer falls due before the moment `m`: none runs before READY (R50), and the one in use is on time. -/
def State.Timely (s : State) (m : Nat) : Prop := s.ready = true → s.OnTime m

/-- The row of the timer in use (R36). -/
def SyncState.expiryRow : SyncState → Instr
  | .seeking => .seekingTimerExpiry
  | .locked => .supervisionTimerExpiry
  | .holdover => .holdoverTimerExpiry
  | .free => .freeRunTimerExpiry

/-! ## Requests -/

/-- The frame that a request row takes, with the kind whose row it is; none for a row that is no request row of a defined kind. -/
def requestOf : Instr → Option (Kind × Take)
  | .identify k => some (.identify, k)
  | .status k => some (.status, k)
  | .joinGroup k => some (.joinGroup, k)
  | .leaveGroup k => some (.leaveGroup, k)
  | .restart k => some (.restart, k)
  | .readNotices k => some (.readNotices, k)
  | .ackNotices k => some (.ackNotices, k)
  | .setMode k => some (.setMode, k)
  | .setCanvas k => some (.setCanvas, k)
  | .writePixels k => some (.writePixels, k)
  | .fillRect k => some (.fillRect, k)
  | .readPixels k => some (.readPixels, k)
  | .copyFront k => some (.copyFront, k)
  | .beginSet k => some (.beginSet, k)
  | .stageBands k => some (.stageBands, k)
  | .stagePan k => some (.stagePan, k)
  | .stagePalette k => some (.stagePalette, k)
  | .stageLevel k => some (.stageLevel, k)
  | .commit k => some (.commit, k)
  | .abandon k => some (.abandon, k)
  | .readBands k => some (.readBands, k)
  | .readPalette k => some (.readPalette, k)
  | .setSync k => some (.setSync, k)
  | .setFrameNumber k => some (.setFrameNumber, k)
  | .readMap k => some (.readMap, k)
  | .repair k => some (.repair, k)
  | .release k => some (.release, k)
  | .markFaulty k => some (.markFaulty, k)
  | .clearFault k => some (.clearFault, k)
  | .setRepairPolicy k => some (.setRepairPolicy, k)
  | .burn k => some (.burn, k)
  | .readFuses k => some (.readFuses, k)
  | .scan k => some (.scan, k)
  | .scanAbort k => some (.scanAbort, k)
  | .readScan k => some (.readScan, k)
  | .setPatrol k => some (.setPatrol, k)
  | .queuedEnumerate k => some (.enumerate, k)
  | .enumerate _ | .fillComplete | .copyComplete | .burnWriteExpiry _ | .burnCheckRead _ | .burnMarkExpiry _
  | .burnRecheckRead _ | .scanTestEnd _ | .patrolTestEnd _ | .unknownKind _ | .syncEdge _ | .seekingTimerExpiry
  | .supervisionTimerExpiry | .holdoverTimerExpiry | .freeRunTimerExpiry | .blankingIntervalEnd
  | .downstreamFrameEnd _ | .downstreamRepeat _ _ | .upstreamFrameEnd _ | .upOutFrameBegin | .upOutFrameEnd
  | .coldReset _ _ | .startupBegin _ | .startupEnd _ => none

/-- The conditions of R171 for taking the frame at the head of the request queue, with `k` naming that frame (log 2). -/
structure State.AtHead (s : State) (k : Take) (q : Queued) (rest : List Queued) : Prop where
  ready : s.ready = true
  idle : s.ru.executing = none
  place : s.ru.replies.length < 8
  head : s.ru.queue = q :: rest
  names : q.req = k.req

/-- The conditions of R171, and the moment of the taking does not lie past the next expiry of the frame timer in use. What a later moment
means is the statement TimersExpire: the timer expires first (R43). -/
structure State.Taking (s : State) (k : Take) (q : Queued) (rest : List Queued) : Prop extends s.AtHead k q rest where
  onTime : s.OnTime k.moment

/-- The moment of a command, where it carries one or a rule gives it one: a request is taken and an edge or a read of the burn engine comes at
the moment it carries (log 4); WRITE and MARK last 150 ms (R110), a channel test 0.4 ms (R118). The rows of the frame timers have their own
moment, and the other rows none. -/
def State.momentOf (s : State) (c : Instr) : Option Nat :=
  match c with
  | .syncEdge t | .burnCheckRead t | .burnRecheckRead t => some t
  | .burnWriteExpiry _ | .burnMarkExpiry _ => some (s.fz.entered + 150000000)
  | .scanTestEnd _ | .patrolTestEnd _ => some (s.tu.testStart + 400000)
  | .unknownKind k => some k.moment
  | _ => (requestOf c).map (fun x => x.2.moment)

/-- The command's event can happen in the state: the executor can take the frame, and it is of the row's kind (log 2); the burn engine, the
scan or the patrol test is where the row needs it (log 3). -/
def State.CanHappen (s : State) (c : Instr) : Prop :=
  match c with
  | .burnWriteExpiry _ => ∃ y, s.fz.burn = .write y
  | .burnCheckRead _ => ∃ y, s.fz.burn = .check y
  | .burnMarkExpiry _ => ∃ y, s.fz.burn = .mark y
  | .burnRecheckRead _ => ∃ y, s.fz.burn = .recheck y
  | .scanTestEnd _ => s.tu.scan ≠ .idle ∧ s.mc.mode = .maintenance
  | .patrolTestEnd _ => s.tu.patrolTest ≠ none
  | .unknownKind k => (∃ q rest, s.AtHead k q rest) ∧ ∀ kind : Kind, kind.code ≠ k.req.kind
  | _ => ∀ kind k, requestOf c = some (kind, k) → (∃ q rest, s.AtHead k q rest) ∧ k.req.kind = kind.code

/-- The executor can take the frame, and the frame passes the three common checks of R172 as a request of the kind. -/
structure State.Serving (s : State) (k : Take) (q : Queued) (rest : List Queued) (kind : Kind) : Prop where
  taking : s.Taking k q rest
  kindByte : k.req.kind = kind.code
  lengthOk : kind.lengthSuits k.req.payload = true
  classOk : kind.mayBeSent k.req.cls = true

/-- From `x` to `y` the outcome of a queue entry is recorded: a reply with source unit, echoed sequence, marked kind, result and
payload at the end of the reply queue, copied into the duplicate filter's entry if that is the entry's frame (R175, R177); or, for a
group or all-tile frame, the last broadcast result (R176). -/
def RequestUnit.Records (x y : RequestUnit) (unit : Byte) (q : Queued) (r : Result) (payload : List Byte) : Prop :=
  match q.req.cls with
  | .unit =>
    let reply : Reply :=
      { unit := unit, seq := q.req.seq, kind := q.req.kind ||| 0x80, result := r, payload := payload, tag := some q.tag }
    y.replies = x.replies ++ [reply] ∧
      y.filter = x.filter.map (fun e => if e.tag = q.tag then { e with state := .replyQueued reply } else e) ∧
      y.lastBroadcast = x.lastBroadcast
  | .group _ | .allTiles =>
    y.lastBroadcast = some { seq := q.req.seq, kind := q.req.kind, result := r } ∧
      y.replies = x.replies ∧ y.filter = x.filter

/-- The notice log and its two numbers are unchanged. -/
def RequestUnit.KeepsNotices (x y : RequestUnit) : Prop :=
  y.log = x.log ∧ y.nextNotice = x.nextNotice ∧ y.lost = x.lost

/-- Everything of the Request Unit but the notices is unchanged. -/
def RequestUnit.KeepsRequests (x y : RequestUnit) : Prop :=
  y.queue = x.queue ∧ y.executing = x.executing ∧ y.replies = x.replies ∧ y.filter = x.filter ∧
    y.lastBroadcast = x.lastBroadcast ∧ y.reqDrop = x.reqDrop ∧ y.nextTag = x.nextTag

/-- A notice is created: stored at the end of the log, UNSENT, with the next number and the lost count, if the log holds fewer than 8
(R179); else not stored, and the lost count rises unless it stands at 255 (R180). -/
def RequestUnit.CreatesNotice (x y : RequestUnit) (unit : Byte) (n : FrameNo) (d : Details) : Prop :=
  if x.log.length < 8 then
    y.log = x.log ++ [{ number := x.nextNotice, frame := n, lost := x.lost, details := d, unit := unit, sent := false }] ∧
      y.nextNotice = (if x.nextNotice = 255 then 1 else x.nextNotice + 1) ∧ y.lost = 0
  else y.log = x.log ∧ y.nextNotice = x.nextNotice ∧ y.lost = (if x.lost = 255 then 255 else x.lost + 1)

/-- The head of the request queue has been taken, its outcome is recorded, the executor is free, and the moment has come. The notices are
not spoken of. -/
def State.Answers (s t : State) (k : Take) (q : Queued) (rest : List Queued) (r : Result) (payload : List Byte) : Prop :=
  s.ru.Records t.ru s.li.unit q r payload ∧ t.ru.queue = rest ∧ t.ru.executing = none ∧ t.ru.nextTag = s.ru.nextTag ∧
    t.now = max s.now k.moment

/-- As `Answers`, with the notices and REQ_DROP unchanged: all that an ordinary request does to the Request Unit. -/
def State.Completes (s t : State) (k : Take) (q : Queued) (rest : List Queued) (r : Result) (payload : List Byte) : Prop :=
  s.Answers t k q rest r payload ∧ s.ru.KeepsNotices t.ru ∧ t.ru.reqDrop = s.ru.reqDrop

/-- The command answers a state in which the request is refused with the result and nothing else has changed (R172, R173). -/
def State.Refuses (s : State) (c : Instr) (k : Take) (q : Queued) (rest : List Queued) (r : Result) : Prop :=
  ∃ t, exec c s = .next t ∧ s.Completes t k q rest r [] ∧ s.SameExcept t [.ru]

/-- The command answers a state in which the request is taken with result OK and the payload, and nothing else has changed. -/
def State.Reports (s : State) (c : Instr) (k : Take) (q : Queued) (rest : List Queued) (payload : List Byte) : Prop :=
  ∃ t, exec c s = .next t ∧ s.Completes t k q rest .ok payload ∧ s.SameExcept t [.ru]

/-! ## Frames on an input (R152) -/

/-- From the receiver `x` the symbols end no frame and leave one open with the body `b`: data bytes of a frame already open; or, outside a
frame, any symbols but START, which are discarded, then a START and data bytes. -/
def Receiver.Opens (x : Receiver) (ys : List Symbol) (b : List Byte) : Prop :=
  (∃ b0 bytes, x = some b0 ∧ ys = bytes.map Symbol.data ∧ b = b0 ++ bytes) ∨
  (∃ noise, x = none ∧ Symbol.start ∉ noise ∧ ys = noise ++ Symbol.start :: b.map Symbol.data)

/-- How a symbol ends the frame inside which it arrives, and the receiver after it: END closes it, IDLE and START cut it off, and START begins
a new one. A data byte ends none. -/
def symbolEnds : Symbol → Option (Ending × Receiver)
  | .finish => some (.complete, none)
  | .idle => some (.cutOff, none)
  | .start => some (.cutOff, some [])
  | .data _ => none

/-- The symbols, the first since the last event on UP-in, end the frame `f` there and make no other event: one without a destination byte; or
one whose third body byte has come already, or never comes. `r` is the receiver after it. -/
def LinkInterface.FrameEnds (x : LinkInterface) (ys : List Symbol) (f : LinkFrame) (r : Receiver) : Prop :=
  ∃ zs y, ys = zs ++ [y] ∧ symbolEnds y = some (f.ending, r) ∧
    ((x.rx = none ∧ x.upIn.Opens zs [] ∧ f.body = []) ∨
     (∃ b0 bytes, x.rx ≠ none ∧ x.upIn = some b0 ∧ b0 ≠ [] ∧ zs = bytes.map Symbol.data ∧ f.body = b0 ++ bytes ∧
       (3 ≤ b0.length ∨ f.body.length < 3)))

/-- The Link Interface when a frame that is not held has ended on UP-in: it stands, as received, after the frames repeated before it, unless
it stops at this tile (R155). -/
def LinkInterface.afterFrame (x : LinkInterface) (f : LinkFrame) (r : Receiver) : LinkInterface :=
  { x with
    upIn := r, rx := none,
    downOut := (match x.rx with
      | some l => if l.stops = true then x.downOut else x.downOut ++ [f]
      | none => x.downOut ++ [f]) }

/-! ## Values of the spec's tables -/

/-- The 13 canvas widths of the table of R4. -/
def canvasWidths : List Nat := [128, 160, 192, 224, 256, 288, 320, 352, 384, 416, 448, 480, 512]

/-- The status record of R190, field by field at its offset. -/
structure State.StatusBytes (s : State) (p : List Byte) : Prop where
  size : p.length = 44
  mode : byteAt p 0 = s.mc.mode.code
  startUp : byteAt p 1 = s.mc.startUp.code
  sync : byteAt p 2 = s.ft.syncState.code
  number : field p 3 4 = s.ft.counter.toNat
  numberPending : byteAt p 7 = (if s.ft.pendingNumber = none then 0 else 1)
  openId : field p 8 2 = (match s.cs.openSlot with | none => 0 | some o => o.id.toNat)
  openCount : byteAt p 10 = (match s.cs.openSlot with | none => 0 | some o => oneByte o.journal.length)
  sealedId : field p 11 2 = (match s.cs.sealedSlot with | none => 0 | some z => z.set.id.toNat)
  sealedTarget : field p 13 4 =
    (match s.cs.sealedSlot with
      | none => 0
      | some z => (match z.target with | .next => 0 | .frame n => n.toNat))
  sealedFlip : byteAt p 17 = (match s.cs.sealedSlot with | none => 0 | some z => if z.flip then 1 else 0)
  copyBusy : byteAt p 18 = (if s.fs.copy = .idle then 0 else 1)
  scan : byteAt p 19 = s.tu.scan.code
  burn : byteAt p 20 = s.fz.burn.code
  patrol : byteAt p 21 = (if s.tu.patrolOn then 1 else 0)
  cursor : byteAt p 22 = oneByte s.tu.cursor.val
  laps : field p 23 2 = s.tu.lapCount.toNat
  policy : byteAt p 25 = s.rd.policy.code
  dark : byteAt p 26 = oneByte s.rd.darkRows
  updatePending : byteAt p 27 = (if s.rd.updatePending then 1 else 0)
  malformed : field p 28 2 = s.li.rxMalformed.toNat
  badCheck : field p 30 2 = s.li.rxBadCheck.toNat
  passDrop : field p 32 2 = s.li.passDrop.toNat
  reqDrop : field p 34 2 = s.ru.reqDrop.toNat
  glitch : field p 36 2 = s.ft.glitch.toNat
  broadcast : (p.drop 38).take 4 =
    (match s.ru.lastBroadcast with | none => [0, 0, 0, 0] | some b => [1, b.seq, b.kind, b.result.code])
  logCount : byteAt p 42 = oneByte s.ru.log.length
  lost : byteAt p 43 = s.ru.lost

/-- The identity record of R190, field by field at its offset; an unused group place is 0xFF. -/
structure State.IdentityBytes (s : State) (p : List Byte) : Prop where
  size : p.length = 17
  product : p.take 3 = [0x20, 0x46, 2]
  serial : (p.drop 3).take 6 = toLe 6 Config.serial.toNat
  unit : byteAt p 9 = s.li.unit
  groupCount : byteAt p 10 = oneByte s.li.groups.length
  groups : (p.drop 11).take 4 =
    (((List.finRange 16).filter (fun g => decide (g ∈ s.li.groups))).map (fun g : Fin 16 => oneByte g.val) ++
      List.replicate 4 0xFF).take 4
  hard : byteAt p 15 = oneByte s.rd.hardCount
  damaged : byteAt p 16 = oneByte s.rd.damagedCount

/-! ## Frame starts (R37) -/

/-- The sealed set is due at a counted frame start that carries `n` (R68). -/
def SealedSet.Due (z : SealedSet) (n : FrameNo) : Prop :=
  match z.target with
  | .next => True
  | .frame m => (n - m).toNat < 2147483648

/-- From `a` to `b` the Change-Set Unit deals with a counted frame start whose number N already holds: a due set applies, whole, and any
other waits (R68, R70, R72, R73). The journal's own effect is `applyJournal`. -/
def State.DealsWithSealedSet (a b : State) : Prop :=
  match a.cs.sealedSlot with
  | none => b = a
  | some z =>
    (z.Due a.ft.counter →
      b.pu = { a.pu with live := (applyJournal a.fs.width a.pu.live z.set.journal).1 } ∧
      b.fs = (if z.flip then { a.fs with front := a.fs.front.other } else a.fs) ∧
      b.cs = { a.cs with sealedSlot := none } ∧
      a.ru.KeepsRequests b.ru ∧
      (if z.notify then
        a.ru.CreatesNotice b.ru a.li.unit a.ft.counter
          (.setApplied z.set.id a.ft.counter (applyJournal a.fs.width a.pu.live z.set.journal).2
            (match z.target with | .next => false | .frame m => decide (a.ft.counter ≠ m)))
      else a.ru.KeepsNotices b.ru) ∧
      a.SameExcept b [.pu, .fs, .cs, .ru] ∧ b.now = a.now) ∧
    (¬ z.Due a.ft.counter → b = a)

/-- `j` steps of ascending global number from `g`, past 107 to 0, lead over skipped channels to `h`, which is not skipped. -/
def RowDrive.Reaches (x : RowDrive) (g : GlobalChannel) (j : Nat) (h : GlobalChannel) : Prop :=
  h.val = (g.val + j) % 108 ∧ x.skips h = false ∧
    ∀ i, i < j → ∀ e : GlobalChannel, e.val = (g.val + i) % 108 → x.skips e = true

/-- The patrol at a frame start (R134): an active one with no test in progress moves past DAMAGED spares and starts a test. -/
def State.PatrolStarts (a b : State) : Prop :=
  if a.tu.patrolOn = true ∧ (a.mc.mode = .standby ∨ a.mc.mode = .showMode) ∧ a.tu.patrolTest = none then
    ∃ j h, a.rd.Reaches a.tu.cursor j h ∧ j < 108 ∧
      b.tu = { a.tu with
        cursor := h, patrolTest := some h, testStart := a.now,
        lapCount := if 108 ≤ a.tu.cursor.val + j then satInc a.tu.lapCount else a.tu.lapCount }
  else b.tu = a.tu

/-- From `a` to `b` the blocks take the latches of a frame start at the moment `a.now`: the view and the front page, a new blanking
interval, SHOWING in mode SHOW (R27, R28, R31); every row's source (R82); the patrol (R134). -/
def State.LatchesFrame (a b : State) : Prop :=
  b.ft = { a.ft with frameStart := a.now } ∧
  b.pu = { a.pu with
    latched := a.pu.live, latchedFront := a.fs.front, phase := .blanking,
    output := if a.mc.mode = .showMode then .showing else a.pu.output } ∧
  (b.rd.segments = a.rd.segments ∧ b.rd.policy = a.rd.policy ∧ ∀ r : Fin 96, b.rd.latch.get r = a.rd.source r) ∧
  a.PatrolStarts b ∧ a.SameExcept b [.ft, .pu, .rd, .tu] ∧ b.now = a.now

/-- The frame-start event of a counted frame start whose number N already holds in `a` (R37). -/
def State.CountedFrameStart (a b : State) : Prop := ∃ m, a.DealsWithSealedSet m ∧ m.LatchesFrame b

/-- The number that a counted frame start carries (R45). -/
def FrameTiming.numberCarried (x : FrameTiming) : FrameNo :=
  match x.pendingNumber with
  | some v => v
  | none => x.counter + 1

/-! ## Staging, map changes, results -/

/-- A staging request for the set `id` by the checks of R59 in order, then its own check: `own` answers the journal entry and the projected
table after it, or none for BAD_ARG. Taken, the entry stands at the end of the journal and the reply is the journal count (R55, R59). -/
def State.StagesBy (s : State) (c : Instr) (k : Take) (q : Queued) (rest : List Queued) (id : Half)
    (own : ChangeSet → Option (Edit × List Band)) : Prop :=
  match s.cs.openSlot with
  | none => s.Refuses c k q rest .noSet
  | some o =>
    if o.id ≠ id then s.Refuses c k q rest .noSet
    else if 48 ≤ o.journal.length then s.Refuses c k q rest .setFull
    else
      match own o with
      | none => s.Refuses c k q rest .badArg
      | some (e, table) =>
        ∃ t, exec c s = .next t ∧ s.Completes t k q rest .ok [oneByte (o.journal.length + 1)] ∧
          t.cs = { s.cs with openSlot := some { id := o.id, journal := o.journal ++ [e], projected := table } } ∧
          s.SameExcept t [.ru, .cs]

/-- The height of band `i` of a table: the next top row minus the own one, 96 minus it for the last band (R19). -/
def heightOf (t : List Band) (i : Nat) (b : Band) : Nat :=
  (match t[i + 1]? with
    | some c => c.top
    | none => 96) - b.top

/-- The law of R20 with the ranges of R19: 1 to 4 bands, first top row 0, tops strictly ascending and at most 95, heights at least 4, banks at
most 3, source x at most W - 128, source y at most H minus the height. -/
structure TableLawful (w : Nat) (t : List Band) : Prop where
  count : 1 ≤ t.length ∧ t.length ≤ 4
  first : ∀ b, t[0]? = some b → b.top = 0
  ascending : ∀ i b c, t[i]? = some b → t[i + 1]? = some c → b.top < c.top
  lastRow : ∀ b ∈ t, b.top ≤ 95
  bands : ∀ i b, t[i]? = some b →
    4 ≤ heightOf t i b ∧ b.bank ≤ 3 ∧ b.sx + 128 ≤ w ∧ b.sy + heightOf t i b ≤ 49152 / w

/-- From `x` to `y` one primary's route and one spare's use change and nothing else does. -/
def RowDrive.Rewrites (x y : RowDrive) (g : Fin 6) (p : Fin 16) (r : Route) (k : SpareId) (u : Use) : Prop :=
  y.policy = x.policy ∧ y.latch = x.latch ∧
  (∀ g' p', (y.segment g').primary p' =
    if g' = g ∧ p' = p then { (x.segment g).primary p with route := r } else (x.segment g').primary p') ∧
  (∀ g' k', (y.segment g').spare k' =
    if g' = g ∧ k' = k then { (x.segment g).spare k with use := u } else (x.segment g').spare k')

/-- From `x` to `y` one segment becomes `seg` and nothing else changes. -/
def RowDrive.Replaces (x y : RowDrive) (g : Fin 6) (seg : Segment) : Prop :=
  y.policy = x.policy ∧ y.latch = x.latch ∧ ∀ g', y.segment g' = if g' = g then seg else x.segment g'

/-- From `a` to `b` one channel's condition becomes `c` and nothing else changes. -/
def Segment.SetsCondition (a b : Segment) (ch : Channel) (c : Condition) : Prop :=
  (∀ p, b.primary p = if ch = .primary p then { a.primary p with condition := c } else a.primary p) ∧
  (∀ k, b.spare k = if ch = .spare k then { a.spare k with condition := c } else a.spare k)

/-- From `a` to `b` the routes and uses are those of `a` but for primary `p` and spare `k`, which take `r` and `u`; conditions are kept. -/
def Segment.Reroutes (a b : Segment) (p : Fin 16) (r : Route) (k : SpareId) (u : Use) : Prop :=
  (∀ p', b.primary p' = if p' = p then { a.primary p with route := r } else a.primary p') ∧
  (∀ k', b.spare k' = if k' = k then { a.spare k with use := u } else a.spare k')

/-- The held classification of a record. -/
def FuseStore.classOf (x : FuseStore) (g : Fin 6) (k : SpareId) : FuseClass := (x.held.get g).get k

/-- The fuses of every record but one are unchanged. -/
def FuseStore.OtherFusesKept (x y : FuseStore) (z : Subject) : Prop :=
  ∀ g k, ¬ (g = z.seg ∧ k = z.spare) → (y.fuses.get g).get k = (x.fuses.get g).get k

/-- The held classification of every record but one is unchanged, and that one's is `c`. -/
def FuseStore.Reclassifies (x y : FuseStore) (z : Subject) (c : FuseClass) : Prop :=
  ∀ g k, y.classOf g k = if g = z.seg ∧ k = z.spare then c else x.classOf g k

/-- How many complement and index fuses of a record are blown. -/
def FuseRecord.blownCount (r : FuseRecord) : Nat :=
  ((List.range 4).filter (fun i => r.index.getLsbD i)).length + ((List.range 4).filter (fun i => r.complement.getLsbD i)).length

/-! ## Invariants -/

/-- The bounds of the queues and lists (R161, R163, R169, R174, R179). -/
structure State.QueuesBounded (s : State) : Prop where
  requests : s.ru.queue.length ≤ 8
  replies : s.ru.replies.length + s.ru.reserved ≤ 8
  notices : s.ru.log.length ≤ 8
  passThrough : s.li.passThrough.length ≤ 6
  findings : s.tu.findings.length ≤ 32
  groups : s.li.groups.length ≤ 4
  groupsDistinct : s.li.groups.Nodup

/-- An edit that may stand in a journal on a canvas of width `w`: a legal table (R60), a palette run inside its bank (R62). -/
def editLegal (w : Nat) : Edit → Prop
  | .bands t => bandsLegal w t = true
  | .pan _ _ _ => True
  | .palette bank first entries => bank ≤ 3 ∧ first + entries.length ≤ 256
  | .level _ => True

/-- A set record whose id is not 0, whose journal holds at most 48 legal edits, and whose projected table is legal (R53, R54, R55). -/
structure ChangeSet.Legal (x : ChangeSet) (w : Nat) : Prop where
  idNonzero : x.id ≠ 0
  journalBound : x.journal.length ≤ 48
  edits : ∀ e ∈ x.journal, editLegal w e
  projected : bandsLegal w x.projected = true

/-- The picture's state is lawful: pages and palettes in canonical form, a canvas width of the table, a fill inside the canvas (R4, R11), the
band table in force and every set record legal (R20, R53, R55), the two sets' ids different (R53). -/
structure State.PictureLawful (s : State) : Prop where
  pageA : s.fs.pageA.wf = true
  pageB : s.fs.pageB.wf = true
  width : s.fs.width ∈ canvasWidths
  livePalette : s.pu.live.palette.wf = true
  latchedPalette : s.pu.latched.palette.wf = true
  fill : ∀ e, s.ru.executing = some e → rectInside s.fs.width e.job.x e.job.y e.job.w e.job.h = true
  bands : bandsLegal s.fs.width s.pu.live.bands = true
  openSet : ∀ o, s.cs.openSlot = some o → o.Legal s.fs.width
  sealedSet : ∀ z, s.cs.sealedSlot = some z → z.set.Legal s.fs.width
  idsDiffer : ∀ o z, s.cs.openSlot = some o → s.cs.sealedSlot = some z → o.id ≠ z.set.id

/-- A flip and a copy exclude each other, and a running copy's source is the front page (R13, R15, R72). -/
def State.FlipAndCopyApart (s : State) : Prop :=
  ∀ p, s.fs.copy = .copying p → p = s.fs.front ∧ s.flipPending = false

/-- Routes and uses of a segment match, and a spare in SOFT use is SOUND (R80). -/
structure Segment.Matched (g : Segment) : Prop where
  soft : ∀ p k, (g.primary p).route = .soft k ↔ (g.spare k).use = .soft p
  hard : ∀ p k, (g.primary p).route = .hard k ↔ (g.spare k).use = .hard p
  softSound : ∀ p k, (g.spare k).use = .soft p → (g.spare k).condition = .sound

/-- A spare's use and the held classification of its record agree (R79). -/
structure useAgrees (u : Use) (c : FuseClass) : Prop where
  hard : ∀ p, u = .hard p ↔ c = .programmed p
  damaged : u = .damaged ↔ (c = .damaged ∨ c = .inconsistent)
  writing : c = .writing → ∃ p, u = .soft p

/-- The map, the fuse classifications, the burn, the tests and the mode agree (R79, R80, R94, R109, R114, R118, R131), and a tile that is held
or STARTING does none of these (R139, R143, R144). -/
structure State.MapConsistent (s : State) : Prop where
  matched : ∀ g, (s.rd.segment g).Matched
  agrees : ∀ g k, useAgrees ((s.rd.segment g).spare k).use (s.fz.classOf g k)
  writing : ∀ g k, s.fz.classOf g k = .writing ↔ ∃ x, s.fz.burn.subject = some x ∧ x.seg = g ∧ x.spare = k
  subject : ∀ x, s.fz.burn.subject = some x → ((s.rd.segment x.seg).primary x.primary).route = .soft x.spare
  burnMode : s.fz.burn.busy = true → s.mc.mode = .maintenance ∧ s.tu.scan = .idle
  scanMode : s.tu.scan ≠ .idle → s.mc.mode = .maintenance
  patrolMode : s.tu.patrolTest ≠ none → patrolActive s.tu.patrolOn s.mc.mode = true
  held : s.running = false → s.mc.startUp = .starting
  starting : s.mc.startUp = .starting → s.mc.mode = .off

/-- No row is lit outside SHOW (R31): the output is SHOWING only in mode SHOW; a tile that is held is STARTING, and a STARTING one is in OFF
(R139, R143). -/
structure State.DarkOutsideShow (s : State) : Prop where
  output : s.pu.output = .showing → s.mc.mode = .showMode
  held : s.running = false → s.mc.startUp = .starting
  starting : s.mc.startUp = .starting → s.mc.mode = .off

/-- The numbers from `n` on, one for each notice, counting 255 → 1, end just before `next` (R179). -/
def numbersRun : Byte → Byte → List Notice → Prop
  | n, next, [] => n = next
  | n, next, x :: xs => x.number = n ∧ numbersRun (if n = 255 then 1 else n + 1) next xs

/-- The notices of the log run consecutively up to the next notice number, and no number is 0 (R179). -/
def State.NoticesNumbered (s : State) : Prop :=
  s.ru.nextNotice ≠ 0 ∧ (∀ x ∈ s.ru.log, x.number ≠ 0) ∧ ∃ n, numbersRun n s.ru.nextNotice s.ru.log

/-- The frame timers keep the bound of R43. T is in its range (R47); in READY no moment has passed that the timer in use gives for the next
frame start; the last frame start was the last accepted edge in LOCKED and the start of the timer in HOLDOVER, and in SEEKING and FREE the
timer started at the last frame start or after it, when the state was entered (R38, R40, R41, R42, R47). -/
structure State.FramesOnTime (s : State) : Prop where
  period : 4000 ≤ s.ft.period ∧ s.ft.period ≤ 50000
  lastStart : s.ft.frameStart ≤ s.now
  due : s.Timely s.now
  locked : s.ready = true → s.ft.syncState = .locked → s.ft.lastEdge = s.ft.frameStart
  holdover : s.ready = true → s.ft.syncState = .holdover → s.ft.timerStart = s.ft.frameStart
  entered : s.ready = true → s.ft.syncState = .seeking ∨ s.ft.syncState = .free →
    s.ft.frameStart ≤ s.ft.timerStart ∧ s.ft.timerStart ≤ s.now

/-- The fuses of spare `k` of segment `g` read PROGRAMMED(p) at every start-up: its record reads so (R102), and record s.16 does not read so
beside it (R104). -/
def FuseStore.ReadsHard (x : FuseStore) (g : Fin 6) (p : Fin 16) (k : SpareId) : Prop :=
  ((x.fuses.get g).get k).classify = .programmed p ∧ (k = .s17 → ((x.fuses.get g).get .s16).classify ≠ .programmed p)

/-- In READY the fuses bear out the held classifications: a record held PROGRAMMED(p) reads so at every start-up, one held BLANK is blank, and
record s.16 held DAMAGED or INCONSISTENT reads PROGRAMMED for no primary (R103, R104, R106, R108, R112). The subject of a burn is blank in WRITE,
bears the blows of that write alone in CHECK and in MARK, where it does not read PROGRAMMED(p), and reads PROGRAMMED for no primary in RECHECK
(R109-R112). -/
structure State.FusesBearOut (s : State) : Prop where
  programmed : s.mc.startUp = .ready → ∀ g k p, s.fz.classOf g k = .programmed p → s.fz.ReadsHard g p k
  blank : s.mc.startUp = .ready → ∀ g k, s.fz.classOf g k = .blank → (s.fz.fuses.get g).get k = FuseRecord.blank
  spoiled : s.mc.startUp = .ready → ∀ g, s.fz.classOf g .s16 = .damaged ∨ s.fz.classOf g .s16 = .inconsistent →
    ∀ p, ((s.fz.fuses.get g).get .s16).classify ≠ .programmed p
  subject : match s.fz.burn with
    | .idle => True
    | .write y => (s.fz.fuses.get y.seg).get y.spare = FuseRecord.blank
    | .check y => ∃ b, (s.fz.fuses.get y.seg).get y.spare = FuseRecord.blank.blowWrite y.primary b
    | .mark y => (∃ b, (s.fz.fuses.get y.seg).get y.spare = FuseRecord.blank.blowWrite y.primary b) ∧
        ((s.fz.fuses.get y.seg).get y.spare).classify ≠ .programmed y.primary
    | .recheck y => ∀ p, ((s.fz.fuses.get y.seg).get y.spare).classify ≠ .programmed p

/-- Primary s.p is hard-routed to spare `k` for good: the fuses give the route at every start-up, and in READY it stands (R106). -/
def State.HardForGood (s : State) (g : Fin 6) (p : Fin 16) (k : SpareId) : Prop :=
  s.fz.ReadsHard g p k ∧ (s.mc.startUp = .ready → ((s.rd.segment g).primary p).route = .hard k)

/-- Every fuse blown in `r` is blown in `t` (R100). -/
def FuseRecord.KeptBy (r t : FuseRecord) : Prop :=
  r.index &&& t.index = r.index ∧ r.complement &&& t.complement = r.complement ∧ r.damage &&& t.damage = r.damage

end Sys2Proof.Machine
end

