-- ==== Sys2Proof/Certificates/Slice0/Obligations.lean ====
section
/-! DEFINITION. The statements. "DESIGN CHOICE" in a docstring names the log entry of a clause that is the model's own. -/

open Sys2Proof Sys2Proof.Machine

/-! ## The queue of commands and the executor -/

/-- A step runs the command at the front of the queue on the state with the queue's rest (DESIGN CHOICE, log 1). -/
def Obligations.StepRunsFrontCommand : Prop :=
  ∀ (c : Instr) (rest : List Instr) (s : State), s.pending = c :: rest → step s = exec c { s with pending := rest }

/-- Every command answers a next state, in every state, and leaves the waiting commands alone.
On an empty queue the block idles (DESIGN CHOICE, log 1). -/
def Obligations.EveryCommandAnswers : Prop :=
  (∀ (c : Instr) (s : State), ∃ t, exec c s = .next t ∧ t.pending = s.pending) ∧
  (∀ s : State, s.pending = [] → step s = .next s)

/-- The values that the spec gives for a cold reset (R5, R22-R25, R44, R50, R56, R83, R105, R120, R131, R139, R167, R169, R174, R176,
R177, R179). -/
def Obligations.ResetHoldsColdValues : Prop :=
  let s := State.reset
  (s.mc.mode = .off ∧ s.mc.startUp = .starting) ∧
  (s.fs.front = .A ∧ s.fs.width = 256 ∧ canvasHeight s.fs.width = 192 ∧ s.fs.copy = .idle) ∧
  (s.pu.live.bands = [{ top := 0, sx := 0, sy := 0, bank := 0 }] ∧ s.pu.live.level = 128 ∧
    (∀ bank i, bank < 4 → i < 256 →
      Palette.entry s.pu.live.palette bank i =
        { red := BitVec.ofNat 10 (4 * i), green := BitVec.ofNat 10 (4 * i), blue := BitVec.ofNat 10 (4 * i) }) ∧
    s.pu.latched = s.pu.live ∧ s.pu.latchedFront = .A ∧ s.pu.output = .blank) ∧
  (s.ft.syncState.source = .external ∧ s.ft.period = 16667 ∧ s.ft.counter = 0 ∧ s.ft.pendingNumber = none ∧
    s.ft.glitch = 0 ∧ s.ft.holdover = 0) ∧
  (s.cs.openSlot = none ∧ s.cs.sealedSlot = none) ∧
  (s.rd.policy = .manual ∧ ∀ r : Fin 96, s.rd.latch.get r = none) ∧
  s.fz.burn = .idle ∧
  (s.tu.scan = .idle ∧ s.tu.tested = 0 ∧ s.tu.findings = [] ∧ s.tu.overflow = false ∧ s.tu.outcome = .none ∧
    s.tu.patrolOn = false ∧ s.tu.cursor = 0 ∧ s.tu.lapCount = 0 ∧ s.tu.patrolTest = none) ∧
  (s.li.unit = 0 ∧ s.li.groups = [] ∧ s.li.passThrough = [] ∧ s.li.upOut = none ∧ s.li.lastSide = .own ∧
    s.li.upIn = none ∧ s.li.downIn = none ∧ s.li.rx = none ∧ s.li.downOut = [] ∧ s.li.rxMalformed = 0 ∧ s.li.rxBadCheck = 0 ∧ s.li.passDrop = 0) ∧
  (s.ru.queue = [] ∧ s.ru.executing = none ∧ s.ru.replies = [] ∧ s.ru.filter = none ∧ s.ru.lastBroadcast = none ∧
    s.ru.log = [] ∧ s.ru.nextNotice = 1 ∧ s.ru.lost = 0 ∧ s.ru.reqDrop = 0)

/-- The executor takes a frame only in READY, while it executes none and the reply queue has a free place, and only from the head of the
request queue (R171): where that does not hold for a request row's frame, the row leaves the tile as it is (DESIGN CHOICE, log 2). -/
def Obligations.ExecutorStalls : Prop :=
  ∀ (c : Instr) (kind : Kind) (k : Take) (s : State), requestOf c = some (kind, k) ∨ c = .unknownKind k →
    (s.ready = false ∨ s.ru.executing ≠ none ∨ 8 ≤ s.ru.replies.length ∨
      ¬ ∃ q rest, s.ru.queue = q :: rest ∧ q.req = k.req) →
    exec c s = .next s

/-- The common checks of every request the executor takes: length, then addressing class; a refusal changes nothing but the record of
it (R172).
A request of a kind that is not defined is refused UNKNOWN_KIND, whatever its length and class; an ENUMERATE that reaches the
executor with a good kind, length and class is refused BAD_STATE (R172).
The payload lengths that suit each kind are those of R189, with the count that STAGE_BANDS and STAGE_PALETTE carry, and WRITE_PIXELS at 5 to 228; the
kinds that are unit-addressed only, and ENUMERATE, which is all-tile only, are those of the catalogue (10.7). -/
def Obligations.CommonChecks : Prop :=
  (∀ (kind : Kind) (p : List Byte), kind.lengthSuits p = true ↔
     match kind with
     | .identify | .restart | .readNotices | .copyFront | .readBands | .readFuses | .scan | .scanAbort => p.length = 0
     | .enumerate | .status | .joinGroup | .leaveGroup | .ackNotices | .setMode | .readMap | .setRepairPolicy | .setPatrol =>
       p.length = 1
     | .setCanvas | .beginSet | .abandon | .repair | .release | .burn | .markFaulty | .clearFault | .readScan => p.length = 2
     | .stageLevel | .readPalette | .setSync => p.length = 3
     | .setFrameNumber => p.length = 4
     | .readPixels => p.length = 6
     | .stagePan | .commit => p.length = 7
     | .fillRect => p.length = 9
     | .writePixels => ∃ count, 1 ≤ count ∧ count ≤ 224 ∧ p.length = 4 + count
     | .stageBands => ∃ count : Byte, p[2]? = some count ∧ p.length = 3 + 6 * count.toNat
     | .stagePalette => ∃ count : Byte, p[4]? = some count ∧ p.length = 5 + 6 * count.toNat) ∧
  (∀ (kind : Kind) (c : AddressClass), kind.mayBeSent c = true ↔
     if kind = .enumerate then c = .allTiles
     else if kind ∈ [Kind.identify, .status, .joinGroup, .leaveGroup, .readNotices, .ackNotices, .readPixels, .readBands, .readPalette,
       .readMap, .burn, .readFuses, .readScan] then c = .unit
     else True) ∧
  (∀ (c : Instr) (kind : Kind) (k : Take) (s : State) (q : Queued) (rest : List Queued),
     requestOf c = some (kind, k) → s.Taking k q rest → k.req.kind = kind.code →
     (if kind.lengthSuits k.req.payload = false then s.Refuses c k q rest .badLength
      else if kind.mayBeSent k.req.cls = false then s.Refuses c k q rest .unitOnly
      else True)) ∧
  (∀ (k : Take) (s : State) (q : Queued) (rest : List Queued),
     (s.Taking k q rest → (∀ kind : Kind, kind.code ≠ k.req.kind) →
       s.Refuses (.unknownKind k) k q rest .unknownKind) ∧
     (s.Serving k q rest .enumerate → s.Refuses (.queuedEnumerate k) k q rest .badState))

/-! ## Identity, status, groups, notices -/

/-- IDENTIFY answers the identity record of R190 with the values as they stand and changes nothing else (R184).
STATUS answers the status record of R190 with the values as they stand; with clear counters set the five link counters then become 0,
and nothing else is cleared; any other flag is refused BAD_ARG (R166, R185). -/
def Obligations.IdentityAndStatusRead : Prop :=
  (∀ (k : Take) (s : State) (q : Queued) (rest : List Queued), s.Serving k q rest .identify →
     ∃ p, s.IdentityBytes p ∧ s.Reports (.identify k) k q rest p) ∧
  (∀ (k : Take) (s : State) (q : Queued) (rest : List Queued), s.Serving k q rest .status →
     let flag := byteAt k.req.payload 0
     ∃ p, s.StatusBytes p ∧
       (if flag = 0 then s.Reports (.status k) k q rest p
        else if flag = 1 then
         ∃ t, exec (.status k) s = .next t ∧ s.Answers t k q rest .ok p ∧ s.ru.KeepsNotices t.ru ∧ t.ru.reqDrop = 0 ∧
           t.li = { s.li with rxMalformed := 0, rxBadCheck := 0, passDrop := 0 } ∧ t.ft = { s.ft with glitch := 0 } ∧
           s.SameExcept t [.ru, .li, .ft]
        else s.Refuses (.status k) k q rest .badArg))

/-- JOIN_GROUP (R161) and LEAVE_GROUP (R162) by their checks; each answers the group count and four places of R190. -/
def Obligations.GroupsJoinedAndLeft : Prop :=
  ∀ (k : Take) (s : State) (q : Queued) (rest : List Queued),
    let g := (byteAt k.req.payload 0).toNat
    let places : List (Fin 16) → List Byte := fun gs =>
      oneByte gs.length ::
        ((((List.finRange 16).filter (fun x => decide (x ∈ gs))).map (fun x : Fin 16 => oneByte x.val) ++
          List.replicate 4 0xFF).take 4)
    (s.Serving k q rest .joinGroup →
      if h : g < 16 then
        if ⟨g, h⟩ ∈ s.li.groups then s.Reports (.joinGroup k) k q rest (places s.li.groups)
        else if 4 ≤ s.li.groups.length then s.Refuses (.joinGroup k) k q rest .groupFull
        else
          ∃ t, exec (.joinGroup k) s = .next t ∧ s.Completes t k q rest .ok (places t.li.groups) ∧
            t.li = { s.li with groups := s.li.groups ++ [⟨g, h⟩] } ∧ s.SameExcept t [.ru, .li]
      else s.Refuses (.joinGroup k) k q rest .badArg) ∧
    (s.Serving k q rest .leaveGroup →
      if g < 16 then
        ∃ t, exec (.leaveGroup k) s = .next t ∧ s.Completes t k q rest .ok (places t.li.groups) ∧
          (∃ gs, t.li = { s.li with groups := gs } ∧ gs.Sublist s.li.groups ∧
            ∀ x : Fin 16, x ∈ gs ↔ (x ∈ s.li.groups ∧ x.val ≠ g)) ∧
          s.SameExcept t [.ru, .li]
      else s.Refuses (.leaveGroup k) k q rest .badArg)

/-- READ_NOTICES answers the count and every record in log order, and in the same event every notice becomes SENT; nothing is removed
(R182).
ACK_NOTICES(n) removes the notice numbered n and every older one and answers how many are left; refused BAD_ARG when no notice has that
number (R183). -/
def Obligations.NoticesReadAndAcknowledged : Prop :=
  (∀ (k : Take) (s : State) (q : Queued) (rest : List Queued), s.Serving k q rest .readNotices →
     ∃ t, exec (.readNotices k) s = .next t ∧
       s.Answers t k q rest .ok (oneByte s.ru.log.length :: s.ru.log.flatMap Notice.record) ∧
       t.ru.log = s.ru.log.map (fun n => { n with sent := true }) ∧ t.ru.nextNotice = s.ru.nextNotice ∧
       t.ru.lost = s.ru.lost ∧ t.ru.reqDrop = s.ru.reqDrop ∧ s.SameExcept t [.ru]) ∧
  (∀ (k : Take) (s : State) (q : Queued) (rest : List Queued), s.Serving k q rest .ackNotices →
     let n := byteAt k.req.payload 0
     (∀ older x newer, s.ru.log = older ++ x :: newer → x.number = n → (∀ y ∈ older, y.number ≠ n) →
       ∃ t, exec (.ackNotices k) s = .next t ∧ s.Answers t k q rest .ok [oneByte newer.length] ∧ t.ru.log = newer ∧
         t.ru.nextNotice = s.ru.nextNotice ∧ t.ru.lost = s.ru.lost ∧ t.ru.reqDrop = s.ru.reqDrop ∧
         s.SameExcept t [.ru]) ∧
     ((∀ x ∈ s.ru.log, x.number ≠ n) → s.Refuses (.ackNotices k) k q rest .badArg))

/-! ## Modes and restart -/

/-- SET_MODE by its checks (R140); a mode equal to the one in force changes nothing (R142); another mode is entered with its effects in the
same event: BLANK unless SHOW is entered, a patrol test abandoned in OFF and MAINTENANCE, a running scan aborted with its notice on leaving
MAINTENANCE (R126, R133, R141). -/
def Obligations.ModeSet : Prop :=
  ∀ (k : Take) (s : State) (q : Queued) (rest : List Queued), s.Serving k q rest .setMode →
    let v := byteAt k.req.payload 0
    if s.fz.burn ≠ .idle then s.Refuses (.setMode k) k q rest .busy
    else if 4 ≤ v.toNat then s.Refuses (.setMode k) k q rest .badArg
    else if v = s.mc.mode.code then s.Reports (.setMode k) k q rest [v, v]
    else
      ∃ t m, exec (.setMode k) s = .next t ∧ m.code = v ∧ s.Answers t k q rest .ok [s.mc.mode.code, v] ∧
        t.ru.reqDrop = s.ru.reqDrop ∧ t.mc = { s.mc with mode := m } ∧
        t.pu = { s.pu with output := if m = .showMode then s.pu.output else .blank } ∧
        (let test := if m = .off ∨ m = .maintenance then none else s.tu.patrolTest
         if s.mc.mode = .maintenance ∧ s.tu.scan ≠ .idle then
          t.tu = { s.tu with patrolTest := test, scan := .idle, outcome := .aborted } ∧
          s.ru.CreatesNotice t.ru s.li.unit s.ft.counter
            (.scanDone .aborted s.tu.tested s.tu.findings.length s.tu.overflow s.rd.darkRows)
         else t.tu = { s.tu with patrolTest := test } ∧ s.ru.KeepsNotices t.ru) ∧
        s.SameExcept t [.ru, .mc, .pu, .tu]

/-- RESTART is refused BUSY during a burn (R147); else the warm restart of every block in one event, then the reply as the first one after it
(R6, R26, R51, R56, R84, R105, R127, R131, R139, R148, R149, R176, R177, R179, R185). How far an aborted copy has come is a free value
(log 9). -/
def Obligations.WarmRestart : Prop :=
  ∀ (k : Take) (s : State) (q : Queued) (rest : List Queued), s.Serving k q rest .restart →
    if s.fz.burn ≠ .idle then s.Refuses (.restart k) k q rest .busy
    else
      ∃ t m, exec (.restart k) s = .next t ∧
        (m = if s.mc.mode = .off then Mode.off else .standby) ∧ t.mc = { s.mc with mode := m } ∧
        ({ s.ru with replies := [], filter := none, lastBroadcast := none } : RequestUnit).Records t.ru s.li.unit q .ok
          [m.code] ∧
        t.ru.queue = rest ∧ t.ru.executing = none ∧ t.ru.log = [] ∧ t.ru.lost = 0 ∧
        t.ru.nextNotice = s.ru.nextNotice ∧ t.ru.reqDrop = s.ru.reqDrop ∧ t.ru.nextTag = s.ru.nextTag ∧
        t.now = max s.now k.moment ∧
        (t.fs.front = .A ∧ t.fs.width = s.fs.width ∧ t.fs.copy = .idle ∧
          (match s.fs.copy with
            | .idle => t.fs.pageA = s.fs.pageA ∧ t.fs.pageB = s.fs.pageB
            | .copying p =>
              t.fs.page p = s.fs.page p ∧
              ∃ n, ∀ a, (t.fs.page p.other).read a = if a < n then (s.fs.page p).read a else (s.fs.page p.other).read a)) ∧
        t.pu = { s.pu with live := { bands := [{ top := 0, sx := 0, sy := 0, bank := 0 }], palette := [], level := 128 },
                           output := .blank } ∧
        t.ft = { s.ft with pendingNumber := none } ∧
        (t.cs.openSlot = none ∧ t.cs.sealedSlot = none) ∧
        t.tu = { s.tu with
          scan := .idle, tested := 0, findings := [], overflow := false, outcome := .none,
          patrolTest := if s.tu.patrolOn = true ∧ m = .standby then s.tu.patrolTest else none } ∧
        t.li = s.li ∧ t.rd = s.rd ∧ t.fz = s.fz ∧ t.powerGood = s.powerGood ∧ t.resetLine = s.resetLine ∧
        t.pending = s.pending

/-! ## Frame Store -/

/-- SET_CANVAS by its checks in order (R7); taken, the width becomes W and the band table in force the default one, palettes, level and cells
kept, and the reply carries W and H (R8). -/
def Obligations.CanvasSet : Prop :=
  ∀ (k : Take) (s : State) (q : Queued) (rest : List Queued), s.Serving k q rest .setCanvas →
    let w := field k.req.payload 0 2
    if s.mc.mode ≠ .off ∧ s.mc.mode ≠ .standby then s.Refuses (.setCanvas k) k q rest .badState
    else if s.cs.openSlot ≠ none ∨ s.cs.sealedSlot ≠ none then s.Refuses (.setCanvas k) k q rest .badState
    else if s.fs.copy ≠ .idle then s.Refuses (.setCanvas k) k q rest .busy
    else if w ∉ canvasWidths then s.Refuses (.setCanvas k) k q rest .badArg
    else
      ∃ t, exec (.setCanvas k) s = .next t ∧ s.Completes t k q rest .ok (toLe 2 w ++ toLe 2 (49152 / w)) ∧
        t.fs = { s.fs with width := w } ∧
        t.pu = { s.pu with live := { s.pu.live with bands := [{ top := 0, sx := 0, sy := 0, bank := 0 }] } } ∧
        s.SameExcept t [.ru, .fs, .pu]

/-- WRITE_PIXELS by its checks in order; taken, index i goes to canvas position (x + i, y) of the back page, and no other cell of either page
changes (R10). The page is in canonical form, as it is in every reachable state (statement PictureStaysLawful). -/
def Obligations.PixelsWritten : Prop :=
  ∀ (k : Take) (s : State) (q : Queued) (rest : List Queued), s.Serving k q rest .writePixels →
    (s.fs.page s.fs.back).wf = true →
    let x := field k.req.payload 0 2
    let y := field k.req.payload 2 2
    let indices := k.req.payload.drop 4
    if canvasHeight s.fs.width ≤ y ∨ s.fs.width < x + indices.length then s.Refuses (.writePixels k) k q rest .badArg
    else if s.flipPending = true then s.Refuses (.writePixels k) k q rest .flipPending
    else if s.fs.copy ≠ .idle then s.Refuses (.writePixels k) k q rest .busy
    else
      ∃ t, exec (.writePixels k) s = .next t ∧ s.Completes t k q rest .ok [] ∧
        (∀ a, (t.fs.page s.fs.back).read a =
          if y * s.fs.width + x ≤ a ∧ a < y * s.fs.width + x + indices.length
          then byteAt indices (a - (y * s.fs.width + x)) else (s.fs.page s.fs.back).read a) ∧
        t.fs.page s.fs.front = s.fs.page s.fs.front ∧ t.fs.front = s.fs.front ∧ t.fs.width = s.fs.width ∧
        t.fs.copy = s.fs.copy ∧ s.SameExcept t [.ru, .fs]

/-- FILL_RECT by its checks in order; taken, the executor executes the fill of the back page, the reply is not yet created, and no cell has
changed (R11, R171; the cells are set at the completion: DESIGN CHOICE, log 16).
A fill completes: every cell of its rectangle holds the index and no other cell of either page has changed, the executor is free, and the
outcome OK is recorded (R11, R17, R176). The fill lies inside the canvas and the page is in canonical form, as in every reachable state
(statement PictureStaysLawful). -/
def Obligations.FillTakenAndCompleted : Prop :=
  (∀ (k : Take) (s : State) (q : Queued) (rest : List Queued), s.Serving k q rest .fillRect →
     let x := field k.req.payload 0 2
     let y := field k.req.payload 2 2
     let w := field k.req.payload 4 2
     let h := field k.req.payload 6 2
     if w = 0 ∨ h = 0 ∨ s.fs.width < x + w ∨ canvasHeight s.fs.width < y + h then s.Refuses (.fillRect k) k q rest .badArg
     else if s.flipPending = true then s.Refuses (.fillRect k) k q rest .flipPending
     else if s.fs.copy ≠ .idle then s.Refuses (.fillRect k) k q rest .busy
     else
       ∃ t, exec (.fillRect k) s = .next t ∧ t.now = max s.now k.moment ∧
         t.ru = { s.ru with
           queue := rest,
           executing := some { entry := q, job := { page := s.fs.back, x := x, y := y, w := w, h := h,
                                                    index := byteAt k.req.payload 8 } } } ∧
         s.SameExcept t [.ru]) ∧
  (∀ (s : State) (e : Executing), s.ru.executing = some e →
     rectInside s.fs.width e.job.x e.job.y e.job.w e.job.h = true → (s.fs.page e.job.page).wf = true →
     ∃ t, exec .fillComplete s = .next t ∧ s.ru.Records t.ru s.li.unit e.entry .ok [] ∧ t.ru.executing = none ∧
       t.ru.queue = s.ru.queue ∧ t.ru.reqDrop = s.ru.reqDrop ∧ t.ru.nextTag = s.ru.nextTag ∧ s.ru.KeepsNotices t.ru ∧
       t.now = s.now ∧
       (∀ i j, i < s.fs.width → (t.fs.page e.job.page).read (j * s.fs.width + i) =
         if e.job.x ≤ i ∧ i < e.job.x + e.job.w ∧ e.job.y ≤ j ∧ j < e.job.y + e.job.h then e.job.index
         else (s.fs.page e.job.page).read (j * s.fs.width + i)) ∧
       t.fs.page e.job.page.other = s.fs.page e.job.page.other ∧ t.fs.front = s.fs.front ∧ t.fs.width = s.fs.width ∧
       t.fs.copy = s.fs.copy ∧ s.SameExcept t [.ru, .fs])

/-- READ_PIXELS by its checks in order; taken, it answers the cells of the page that is front or back now, in ascending x, and changes
nothing else (R2, R12). -/
def Obligations.PixelsRead : Prop :=
  ∀ (k : Take) (s : State) (q : Queued) (rest : List Queued), s.Serving k q rest .readPixels →
    let select := byteAt k.req.payload 0
    let x := field k.req.payload 1 2
    let y := field k.req.payload 3 2
    let count := (byteAt k.req.payload 5).toNat
    if 2 ≤ select.toNat then s.Refuses (.readPixels k) k q rest .badArg
    else if count = 0 ∨ 224 < count ∨ canvasHeight s.fs.width ≤ y ∨ s.fs.width < x + count then
      s.Refuses (.readPixels k) k q rest .badArg
    else if select = 1 ∧ s.fs.copy ≠ .idle then s.Refuses (.readPixels k) k q rest .busy
    else
      s.Reports (.readPixels k) k q rest
        ((List.range count).map (fun i =>
          (s.fs.page (if select = 0 then s.fs.front else s.fs.front.other)).read (y * s.fs.width + x + i)))

/-- COPY_FRONT by its checks in order; taken, the engine is COPYING from the page that is front now and no cell has been copied (R13).
A copy completes: every cell of the target equals the source's, the engine is IDLE, and a COPY_DONE notice with the source page is
created (R14). -/
def Obligations.CopyTakenAndCompleted : Prop :=
  (∀ (k : Take) (s : State) (q : Queued) (rest : List Queued), s.Serving k q rest .copyFront →
     if s.fs.copy ≠ .idle then s.Refuses (.copyFront k) k q rest .busy
     else if s.flipPending = true then s.Refuses (.copyFront k) k q rest .flipPending
     else
       ∃ t, exec (.copyFront k) s = .next t ∧ s.Completes t k q rest .ok [] ∧
         t.fs = { s.fs with copy := .copying s.fs.front } ∧ s.SameExcept t [.ru, .fs]) ∧
  (∀ (s : State) (p : Page), s.fs.copy = .copying p →
     ∃ t, exec .copyComplete s = .next t ∧ t.fs.copy = .idle ∧
       (∀ a, (t.fs.page p.other).read a = (s.fs.page p).read a) ∧ t.fs.page p = s.fs.page p ∧
       t.fs.front = s.fs.front ∧ t.fs.width = s.fs.width ∧
       s.ru.CreatesNotice t.ru s.li.unit s.ft.counter (.copyDone p) ∧ s.ru.KeepsRequests t.ru ∧ t.now = s.now ∧
       s.SameExcept t [.ru, .fs])

/-! ## Change sets -/

/-- BEGIN by its checks in order; taken, an empty set stands in the open slot, projected from the sealed set's final table or from the table in
force (R57).
ABANDON discards the open set with that id, else the sealed set with that id, else is refused NO_SET; the reply names the slot (R67). -/
def Obligations.SetBegunAndAbandoned : Prop :=
  (∀ (k : Take) (s : State) (q : Queued) (rest : List Queued), s.Serving k q rest .beginSet →
     let id : Half := BitVec.ofNat 16 (field k.req.payload 0 2)
     if id = 0 then s.Refuses (.beginSet k) k q rest .badArg
     else if s.cs.openSlot ≠ none then s.Refuses (.beginSet k) k q rest .setOpen
     else if s.cs.sealedSlot.map (fun z => z.set.id) = some id then s.Refuses (.beginSet k) k q rest .dupId
     else
       ∃ t, exec (.beginSet k) s = .next t ∧ s.Completes t k q rest .ok [] ∧
         t.cs = { s.cs with
           openSlot := some { id := id, journal := [], projected := (match s.cs.sealedSlot with
             | some z => z.set.projected
             | none => s.pu.live.bands) } } ∧
         s.SameExcept t [.ru, .cs]) ∧
  (∀ (k : Take) (s : State) (q : Queued) (rest : List Queued), s.Serving k q rest .abandon →
     let id : Half := BitVec.ofNat 16 (field k.req.payload 0 2)
     if s.cs.openSlot.map (fun o => o.id) = some id then
       ∃ t, exec (.abandon k) s = .next t ∧ s.Completes t k q rest .ok [0] ∧ t.cs = { s.cs with openSlot := none } ∧
         s.SameExcept t [.ru, .cs]
     else if s.cs.sealedSlot.map (fun z => z.set.id) = some id then
       ∃ t, exec (.abandon k) s = .next t ∧ s.Completes t k q rest .ok [1] ∧ t.cs = { s.cs with sealedSlot := none } ∧
         s.SameExcept t [.ru, .cs]
     else s.Refuses (.abandon k) k q rest .noSet)

/-- The checks of a staged table (R60) are the law of R20 with the ranges of R19, and the check of a pan is the one of R61. -/
def Obligations.TableChecksAreTheLaw : Prop :=
  ∀ (w : Nat) (t : List Band),
    (bandsLegal w t = true ↔ TableLawful w t) ∧
    (∀ i sx sy, panFits w t i sx sy = true ↔
      ∃ b, t[i]? = some b ∧ sx + 128 ≤ w ∧ sy + heightOf t i b ≤ 49152 / w)

/-- STAGE_BANDS, STAGE_PAN and STAGE_PALETTE: the checks of R59, then their own (R60, R61, R62), the entry with the values carried, and the
projected table (R55). -/
def Obligations.EditsStaged : Prop :=
  ∀ (k : Take) (s : State) (q : Queued) (rest : List Queued),
    let p := k.req.payload
    let id : Half := BitVec.ofNat 16 (field p 0 2)
    (s.Serving k q rest .stageBands →
      let table := (List.range (byteAt p 2).toNat).map (fun i =>
        ({ top := (byteAt p (3 + 6 * i)).toNat, sx := field p (4 + 6 * i) 2, sy := field p (6 + 6 * i) 2,
           bank := (byteAt p (8 + 6 * i)).toNat } : Band))
      s.StagesBy (.stageBands k) k q rest id (fun _ =>
        if bandsLegal s.fs.width table = true then some (.bands table, table) else none)) ∧
    (s.Serving k q rest .stagePan →
      let i := (byteAt p 2).toNat
      let sx := field p 3 2
      let sy := field p 5 2
      s.StagesBy (.stagePan k) k q rest id (fun o =>
        if panFits s.fs.width o.projected i sx sy = true then
          some (.pan i sx sy, o.projected.modify i (fun b => { b with sx := sx, sy := sy }))
        else none)) ∧
    (s.Serving k q rest .stagePalette →
      let bank := (byteAt p 2).toNat
      let first := (byteAt p 3).toNat
      let count := (byteAt p 4).toNat
      let value : Nat → Nat → Nat := fun i c => field p (5 + 6 * i + 2 * c) 2
      s.StagesBy (.stagePalette k) k q rest id (fun o =>
        if 3 < bank ∨ count = 0 ∨ 32 < count ∨ 256 < first + count ∨
            ¬ ∀ i, i < count → value i 0 ≤ 1023 ∧ value i 1 ≤ 1023 ∧ value i 2 ≤ 1023 then none
        else
          some (.palette bank first ((List.range count).map (fun i =>
            { red := BitVec.ofNat 10 (value i 0), green := BitVec.ofNat 10 (value i 1),
              blue := BitVec.ofNat 10 (value i 2) })), o.projected)))

/-- STAGE_LEVEL: the checks of R59 and none of its own; the entry holds L and the projected table is unchanged (R63). -/
def Obligations.LevelStaged : Prop :=
  ∀ (k : Take) (s : State) (q : Queued) (rest : List Queued), s.Serving k q rest .stageLevel →
    s.StagesBy (.stageLevel k) k q rest (BitVec.ofNat 16 (field k.req.payload 0 2))
      (fun o => some (.level (byteAt k.req.payload 2), o.projected))

/-- COMMIT by its checks in order, with the target test on d = (target - N) mod 2^32 (R64); taken, the open set is sealed with its target and
flags, the open slot is empty, and the reply carries N (R65). Flags: bit 0 flip, bit 1 notify, the others ignored (R188). -/
def Obligations.SetCommitted : Prop :=
  ∀ (k : Take) (s : State) (q : Queued) (rest : List Queued), s.Serving k q rest .commit →
    let p := k.req.payload
    let id : Half := BitVec.ofNat 16 (field p 0 2)
    let target : FrameNo := BitVec.ofNat 32 (field p 2 4)
    let flip := (byteAt p 6).getLsbD 0
    let notify := (byteAt p 6).getLsbD 1
    let d := (target - s.ft.counter).toNat
    let c := Instr.commit k
    match s.cs.openSlot with
    | none => s.Refuses c k q rest .noSet
    | some o =>
      if o.id ≠ id then s.Refuses c k q rest .noSet
      else if s.cs.sealedSlot ≠ none then s.Refuses c k q rest .sealedBusy
      else if flip = true ∧ s.fs.copy ≠ .idle then s.Refuses c k q rest .busy
      else if target ≠ 0 ∧ (d = 0 ∨ 2147483648 ≤ d) then s.Refuses c k q rest .late
      else if target ≠ 0 ∧ 65536 ≤ d then s.Refuses c k q rest .far
      else
        ∃ t, exec c s = .next t ∧ s.Completes t k q rest .ok (toLe 4 s.ft.counter.toNat) ∧
          t.cs.openSlot = none ∧
          t.cs.sealedSlot = some { set := o, target := (if target = 0 then .next else .frame target), flip := flip,
                                   notify := notify } ∧
          s.SameExcept t [.ru, .cs]

/-- The journal of an applied set acts on the live view entry by entry, in journal order: a table replaces the table, a pan that fits moves its
band's source and one that does not is skipped and counted, a palette run writes its entries, a level sets the level (R70, R71). -/
def Obligations.JournalApplies : Prop :=
  ∀ (w : Nat) (v : View) (j : List Edit) (e : Edit),
    applyJournal w v [] = (v, 0) ∧
    (let x := applyJournal w v j
     let y := applyJournal w v (j ++ [e])
     match e with
     | .bands t => y = ({ x.1 with bands := t }, x.2)
     | .pan i sx sy =>
       (panFits w x.1.bands i sx sy = true →
         y = ({ x.1 with bands := x.1.bands.modify i (fun b => { b with sx := sx, sy := sy }) }, x.2)) ∧
       (panFits w x.1.bands i sx sy = false → y = (x.1, x.2 + 1))
     | .palette bank first entries =>
       y.2 = x.2 ∧ y.1.bands = x.1.bands ∧ y.1.level = x.1.level ∧
       (x.1.palette.wf = true → bank < 4 → first + entries.length ≤ 256 → ∀ b i, i < 256 →
         Palette.entry y.1.palette b i =
           if b = bank ∧ first ≤ i ∧ i < first + entries.length then entries.getD (i - first) { red := 0, green := 0, blue := 0 }
           else Palette.entry x.1.palette b i)
     | .level l => y = ({ x.1 with level := l }, x.2))

/-! ## The view -/

/-- READ_BANDS answers the table and the level in force; READ_PALETTE, by its checks in order, the entries in force in ascending number; both
change nothing else (R33, R34, R190). -/
def Obligations.ViewRead : Prop :=
  ∀ (k : Take) (s : State) (q : Queued) (rest : List Queued),
    (s.Serving k q rest .readBands →
      s.Reports (.readBands k) k q rest
        ([oneByte s.pu.live.bands.length] ++
          s.pu.live.bands.flatMap (fun b => [oneByte b.top] ++ toLe 2 b.sx ++ toLe 2 b.sy ++ [oneByte b.bank]) ++
          [s.pu.live.level])) ∧
    (s.Serving k q rest .readPalette →
      let bank := byteAt k.req.payload 0
      let first := byteAt k.req.payload 1
      let count := byteAt k.req.payload 2
      if 3 < bank.toNat then s.Refuses (.readPalette k) k q rest .badArg
      else if count.toNat = 0 ∨ 32 < count.toNat then s.Refuses (.readPalette k) k q rest .badArg
      else if 256 < first.toNat + count.toNat then s.Refuses (.readPalette k) k q rest .badArg
      else
        s.Reports (.readPalette k) k q rest
          ([bank, first, count] ++ (List.range count.toNat).flatMap (fun i =>
            let c := Palette.entry s.pu.live.palette bank.toNat (first.toNat + i)
            toLe 2 c.red.toNat ++ toLe 2 c.green.toNat ++ toLe 2 c.blue.toNat)))

/-- The default band table is one band from row 0 with source (0, 0) and bank 0; it fits every canvas width, and it is the table in force after
a cold reset, after a warm restart and after SET_CANVAS is taken (R22). -/
def Obligations.DefaultTable : Prop :=
  let table : List Band := [{ top := 0, sx := 0, sy := 0, bank := 0 }]
  (∀ b, table[0]? = some b → heightOf table 0 b = 96) ∧
  (∀ w ∈ canvasWidths, TableLawful w table) ∧
  (∀ (s : State) (c : ResetCause) (b : Blows), ∃ t, exec (.coldReset c b) s = .next t ∧ t.pu.live.bands = table) ∧
  (∀ (k : Take) (s : State) (q : Queued) (rest : List Queued),
    (s.Serving k q rest .restart → s.fz.burn = .idle → ∃ t, exec (.restart k) s = .next t ∧ t.pu.live.bands = table) ∧
    (s.Serving k q rest .setCanvas → (s.mc.mode = .off ∨ s.mc.mode = .standby) → s.cs.openSlot = none →
      s.cs.sealedSlot = none → s.fs.copy = .idle → field k.req.payload 0 2 ∈ canvasWidths →
      ∃ t, exec (.setCanvas k) s = .next t ∧ t.pu.live.bands = table))

/-- What a panel row shows: nothing in BLANK, in the blanking interval, or where the latch has no source (R27, R31, R32); else, through the
band in which it lies, the cells of the latched front page at offset (sy + r - t)·W + sx + j, coloured through the band's bank of the latched
palettes (R19, R29) and scaled by the latched level (R30).
The end of the blanking interval, 0.5 ms after the frame start, begins the scan passes and changes nothing else (R27). -/
def Obligations.PanelComposed : Prop :=
  (∀ (s : State) (r : Fin 96) (j : Fin 128),
     (s.pu.output = .blank ∨ s.pu.phase ≠ .scanning ∨ s.rd.latch.get r = none → s.emitted r j = none) ∧
     (s.pu.output = .showing → s.pu.phase = .scanning → s.rd.latch.get r ≠ none →
       (∀ i b c, s.pu.latched.bands[i]? = some b → s.pu.latched.bands[i + 1]? = some c → b.top < c.top) →
       ∀ i b, s.pu.latched.bands[i]? = some b → b.top ≤ r.val →
         (∀ c, s.pu.latched.bands[i + 1]? = some c → r.val < c.top) →
         let cell := (s.fs.page s.pu.latchedFront).read ((b.sy + (r.val - b.top)) * s.fs.width + b.sx + j.val)
         let c := Palette.entry s.pu.latched.palette b.bank cell.toNat
         let l := s.pu.latched.level.toNat
         s.emitted r j = some (c.red.toNat * l / 255, c.green.toNat * l / 255, c.blue.toNat * l / 255))) ∧
  (∀ s : State, s.pu.phase = .blanking →
     ∃ t, exec .blankingIntervalEnd s = .next t ∧ t.pu = { s.pu with phase := .scanning } ∧
       t.now = max s.now (s.ft.frameStart + 500000) ∧ s.SameExcept t [.pu])

/-- The value driven for a colour is the entry value times the latched level, divided by 255 and rounded down, for each of red, green and blue
from its own entry value; it lies in 0-1023 (R30). -/
def Obligations.DrivenValue : Prop :=
  (∀ (v : BitVec 10) (l : Byte),
    drivenValue v l = v.toNat * l.toNat / 255 ∧ drivenValue v l ≤ 1023 ∧ drivenValue v 0 = 0 ∧ drivenValue v 255 = v.toNat ∧
    drivenValue v 128 = 128 * v.toNat / 255) ∧
  drivenValue 1020 128 = 512 ∧ drivenValue 400 128 = 200 ∧
  (∀ (s : State) (r : Fin 96) (j : Fin 128) (x : Nat × Nat × Nat), s.emitted r j = some x →
    ∃ c : Colour, s.panelColour r.val j.val = some c ∧
      x = (drivenValue c.red s.pu.latched.level, drivenValue c.green s.pu.latched.level, drivenValue c.blue s.pu.latched.level))

/-! ## Frame timing -/

/-- A rising edge by the sync state (R38, R39, R41, R42, R50): ignored before the end of start-up and in FREE; in SEEKING accepted; in LOCKED a
glitch when it comes less than T/2 after the last accepted edge, else accepted; in HOLDOVER accepted, with SYNC_RESTORED created once N has the
edge's number and before the frame-start event. An accepted edge makes the state LOCKED, is the last accepted edge, and is a counted frame
start (R37, R45). An edge past the next expiry of the timer in use comes after that expiry (R40, R43): the statement TimersExpire. -/
def Obligations.EdgeBySyncState : Prop :=
  ∀ (s : State) (t : Nat),
    let n := max s.now t
    let accepted : State := { s with
      now := n
      ft := { s.ft with syncState := .locked, lastEdge := n, counter := s.ft.numberCarried, pendingNumber := none } }
    (s.ready = false → exec (.syncEdge t) s = .next s) ∧
    (s.ready = true → s.OnTime t →
      match s.ft.syncState with
      | .free => exec (.syncEdge t) s = .next { s with now := n }
      | .seeking => ∃ u, exec (.syncEdge t) s = .next u ∧ accepted.CountedFrameStart u
      | .locked =>
        if n - s.ft.lastEdge < 500 * s.ft.period then
          exec (.syncEdge t) s = .next { s with
            now := n, ft := { s.ft with glitch := if s.ft.glitch = 65535 then 65535 else s.ft.glitch + 1 } }
        else ∃ u, exec (.syncEdge t) s = .next u ∧ accepted.CountedFrameStart u
      | .holdover =>
        ∃ m u, exec (.syncEdge t) s = .next u ∧
          accepted.ru.CreatesNotice m.ru s.li.unit s.ft.numberCarried (.syncRestored s.ft.holdover) ∧
          accepted.ru.KeepsRequests m.ru ∧ accepted.SameExcept m [.ru] ∧ m.now = n ∧ m.CountedFrameStart u)

/-- The seeking timer makes uncounted frame starts every T (R38), the free-run timer counted ones every T (R42), and the holdover timer uncounted
ones every T, with the holdover frame count rising (R41): each at the moment its timer gives, and starting the next period.
Supervision expires 3T/2 after the last accepted edge: HOLDOVER, an uncounted frame start at that moment, holdover frame count 1, the holdover
timer started, and then a SYNC_LOST notice with the glitch count and N (R40, R49).
Before the end of start-up no timer runs and none expires: no timer row produces a frame start or changes anything (R50, R144), and neither does the row of
a timer that the sync state does not run (R36, R38, R40, R41, R42).
No command passes over an expiry: one whose moment lies past the next expiry of the timer in use acts as it would after the row of that expiry, an edge
and a request among them; so the next frame start comes within the bound of R43 whatever the sender gives (R40, R41, R43). The moment of a command is the
model's (DESIGN CHOICE, log 4). -/
def Obligations.TimersExpire : Prop :=
  (∀ s : State,
     (s.ready = false ∨ s.ft.syncState ≠ .seeking → exec .seekingTimerExpiry s = .next s) ∧
     (s.ready = false ∨ s.ft.syncState ≠ .locked → exec .supervisionTimerExpiry s = .next s) ∧
     (s.ready = false ∨ s.ft.syncState ≠ .holdover → exec .holdoverTimerExpiry s = .next s) ∧
     (s.ready = false ∨ s.ft.syncState ≠ .free → exec .freeRunTimerExpiry s = .next s)) ∧
  (∀ s : State, s.ready = true →
     let n := max s.now (s.ft.timerStart + 1000 * s.ft.period)
     (s.ft.syncState = .seeking →
       ∃ u, exec .seekingTimerExpiry s = .next u ∧
         ({ s with now := n, ft := { s.ft with timerStart := n } } : State).LatchesFrame u) ∧
     (s.ft.syncState = .holdover →
       ∃ u, exec .holdoverTimerExpiry s = .next u ∧
         ({ s with
             now := n
             ft := { s.ft with
               timerStart := n, holdover := if s.ft.holdover = 65535 then 65535 else s.ft.holdover + 1 } } :
           State).LatchesFrame u) ∧
     (s.ft.syncState = .free →
       ∃ u, exec .freeRunTimerExpiry s = .next u ∧
         ({ s with
             now := n
             ft := { s.ft with timerStart := n, counter := s.ft.numberCarried, pendingNumber := none } } :
           State).CountedFrameStart u)) ∧
  (∀ s : State, s.ready = true → s.ft.syncState = .locked →
     let n := max s.now (s.ft.lastEdge + 1500 * s.ft.period)
     ∃ m u, exec .supervisionTimerExpiry s = .next u ∧
       ({ s with now := n, ft := { s.ft with syncState := .holdover, holdover := 1, timerStart := n } } :
         State).LatchesFrame m ∧
       m.ru.CreatesNotice u.ru s.li.unit s.ft.counter (.syncLost s.ft.glitch) ∧ m.ru.KeepsRequests u.ru ∧
       m.SameExcept u [.ru] ∧ u.now = n) ∧
  (∀ (c : Instr) (s : State) (m : Nat), s.ready = true → 0 < s.ft.period → s.CanHappen c → s.momentOf c = some m → ¬ s.OnTime m →
     ∃ u, exec s.ft.syncState.expiryRow s = .next u ∧ exec c s = exec c u)

/-- Each counted frame start carries the pending number, which is cleared, or else N + 1 modulo 2^32, and N takes it before the other blocks
see the frame start: a sealed set applies exactly when it is due at the new N, and every notice created carries the new N. An uncounted one changes
neither N nor the pending number (R45). -/
def Obligations.FrameNumberCarried : Prop :=
  let counted : State → State → Prop := fun s u =>
    (∀ v, s.ft.pendingNumber = some v → u.ft.counter = v) ∧
    (s.ft.pendingNumber = none → u.ft.counter.toNat = (s.ft.counter.toNat + 1) % 4294967296) ∧ u.ft.pendingNumber = none ∧
    (∀ z, s.cs.sealedSlot = some z → (z.Due u.ft.counter ↔ u.cs.sealedSlot = none)) ∧
    ∀ x ∈ u.ru.log, x ∈ s.ru.log ∨ x.frame = u.ft.counter
  let uncounted : State → State → Prop := fun s u =>
    u.ft.counter = s.ft.counter ∧ u.ft.pendingNumber = s.ft.pendingNumber
  ∀ (s : State) (t : Nat), s.ready = true →
    (s.ft.syncState = .seeking ∨ s.ft.syncState = .holdover ∨
        (s.ft.syncState = .locked ∧ 500 * s.ft.period ≤ max s.now t - s.ft.lastEdge) → s.OnTime t →
      ∃ u, exec (.syncEdge t) s = .next u ∧ counted s u) ∧
    (s.ft.syncState = .free → ∃ u, exec .freeRunTimerExpiry s = .next u ∧ counted s u) ∧
    (∀ (k : Take) (q : Queued) (rest : List Queued), s.Serving k q rest .setSync → s.ft.syncState = .free →
      byteAt k.req.payload 0 = 1 → 4000 ≤ field k.req.payload 1 2 → field k.req.payload 1 2 ≤ 50000 →
      field k.req.payload 1 2 ≠ s.ft.period → s.ft.timerStart + 1000 * field k.req.payload 1 2 < max s.now k.moment →
      ∃ u, exec (.setSync k) s = .next u ∧ counted s u) ∧
    (s.ft.syncState = .seeking → ∃ u, exec .seekingTimerExpiry s = .next u ∧ uncounted s u) ∧
    (s.ft.syncState = .holdover → ∃ u, exec .holdoverTimerExpiry s = .next u ∧ uncounted s u) ∧
    (s.ft.syncState = .locked → ∃ u, exec .supervisionTimerExpiry s = .next u ∧ uncounted s u) ∧
    (∀ (k : Take) (q : Queued) (rest : List Queued), s.Serving k q rest .setSync → s.ft.syncState ≠ .free →
      ∃ u, exec (.setSync k) s = .next u ∧ uncounted s u)

/-- SET_SYNC by its checks in order, then the table of R47 and, where the state is kept with a new T, R48: a timer whose moment has not passed is
measured again with the new T; one whose moment has passed expires at once, as that timer's own expiry. The reply carries the sync state after
the request and before such an expiry (DESIGN CHOICE, log 19).
SET_FRAME_NUMBER sets the pending number, replacing one already set, and changes nothing else (R46). -/
def Obligations.SyncSelectedAndNumberSet : Prop :=
  (∀ (k : Take) (s : State) (q : Queued) (rest : List Queued), s.Serving k q rest .setSync →
     let source := byteAt k.req.payload 0
     let t := field k.req.payload 1 2
     let n := max s.now k.moment
     let c := Instr.setSync k
     let u : State := { s with now := n, ru := { s.ru with queue := rest }, ft := { s.ft with period := t } }
     let atOnce : Instr → Prop := fun expiry =>
       ∃ v w, exec expiry u = .next v ∧ exec c s = .next w ∧ v.ru.Records w.ru s.li.unit q .ok [s.ft.syncState.code] ∧
         w.ru.queue = rest ∧ w.ru.executing = none ∧ w.ru.nextTag = v.ru.nextTag ∧ w.ru.reqDrop = v.ru.reqDrop ∧
         v.ru.KeepsNotices w.ru ∧ v.SameExcept w [.ru] ∧ w.now = v.now
     let kept : Prop := ∃ w, exec c s = .next w ∧ s.Completes w k q rest .ok [s.ft.syncState.code] ∧
       w.ft = { s.ft with period := t } ∧ s.SameExcept w [.ru, .ft]
     let entered : SyncState → Prop := fun x => ∃ w, exec c s = .next w ∧ s.Completes w k q rest .ok [x.code] ∧
       w.ft = { s.ft with syncState := x, period := t, timerStart := n } ∧ s.SameExcept w [.ru, .ft]
     if 2 ≤ source.toNat then s.Refuses c k q rest .badArg
     else if t < 4000 ∨ 50000 < t then s.Refuses c k q rest .badArg
     else
       match s.ft.syncState with
       | .free =>
         if source = 0 then entered .seeking
         else if t ≠ s.ft.period ∧ s.ft.timerStart + 1000 * t < n then atOnce .freeRunTimerExpiry else kept
       | .seeking =>
         if source = 1 then entered .free
         else if t ≠ s.ft.period ∧ s.ft.timerStart + 1000 * t < n then atOnce .seekingTimerExpiry else kept
       | .locked =>
         if source = 1 then entered .free
         else if t ≠ s.ft.period ∧ s.ft.lastEdge + 1500 * t < n then atOnce .supervisionTimerExpiry else kept
       | .holdover =>
         if source = 1 then entered .free
         else if t ≠ s.ft.period ∧ s.ft.timerStart + 1000 * t < n then atOnce .holdoverTimerExpiry else kept) ∧
  (∀ (k : Take) (s : State) (q : Queued) (rest : List Queued), s.Serving k q rest .setFrameNumber →
     ∃ t, exec (.setFrameNumber k) s = .next t ∧ s.Completes t k q rest .ok [] ∧
       t.ft = { s.ft with pendingNumber := some (BitVec.ofNat 32 (field k.req.payload 0 4)) } ∧ s.SameExcept t [.ru, .ft])

/-! ## Repair map -/

/-- READ_MAP answers the 18 records of the segment from the map, refused BAD_ARG past segment 5; READ_FUSES the twelve held classifications, a
record in WRITING with the burn's primary; both change nothing else (R95, R107, R190). -/
def Obligations.MapAndFusesRead : Prop :=
  ∀ (k : Take) (s : State) (q : Queued) (rest : List Queued),
    (s.Serving k q rest .readMap →
      let v := byteAt k.req.payload 0
      if h : v.toNat < 6 then
        let g := s.rd.segment ⟨v.toNat, h⟩
        let spare : SpareId → List Byte := fun x => (g.spare x).condition.code :: (g.spare x).use.bytes
        s.Reports (.readMap k) k q rest
          (v :: (List.finRange 16).flatMap (fun p => (g.primary p).condition.code :: (g.primary p).route.bytes) ++
            spare .s16 ++ spare .s17)
      else s.Refuses (.readMap k) k q rest .badArg) ∧
    (s.Serving k q rest .readFuses →
      let entry : Fin 6 → SpareId → List Byte := fun g x =>
        [(s.fz.classOf g x).code,
          match s.fz.classOf g x with
          | .programmed p => oneByte p.val
          | .writing => (match s.fz.burn.subject with | some y => oneByte y.primary.val | none => 0)
          | .blank | .damaged | .inconsistent => 0]
      s.Reports (.readFuses k) k q rest ((List.finRange 6).flatMap (fun g => entry g .s16 ++ entry g .s17)))

/-- REPAIR and RELEASE by their checks in order, with the route and the use written together (R80, R85, R86). -/
def Obligations.SoftRoutesMadeAndRemoved : Prop :=
  ∀ (k : Take) (s : State) (q : Queued) (rest : List Queued),
    let gv := (byteAt k.req.payload 0).toNat
    let pv := (byteAt k.req.payload 1).toNat
    (s.Serving k q rest .repair →
      if h : gv < 6 ∧ pv < 16 then
        let g : Fin 6 := ⟨gv, h.1⟩
        let p : Fin 16 := ⟨pv, h.2⟩
        let free : SpareId → Prop := fun x =>
          ((s.rd.segment g).spare x).use = .free ∧ ((s.rd.segment g).spare x).condition = .sound
        let made : SpareId → Prop := fun x =>
          ∃ t, exec (.repair k) s = .next t ∧ s.Completes t k q rest .ok [oneByte x.number, 1] ∧
            s.rd.Rewrites t.rd g p (.soft x) x (.soft p) ∧ s.SameExcept t [.ru, .rd]
        match ((s.rd.segment g).primary p).route with
        | .hard _ => s.Refuses (.repair k) k q rest .alreadyHard
        | .soft x => s.Reports (.repair k) k q rest [oneByte x.number, 0]
        | .direct =>
          (free .s16 → made .s16) ∧ (¬ free .s16 → free .s17 → made .s17) ∧
          (¬ free .s16 → ¬ free .s17 → s.Refuses (.repair k) k q rest .noSpare)
      else s.Refuses (.repair k) k q rest .badArg) ∧
    (s.Serving k q rest .release →
      if h : gv < 6 ∧ pv < 16 then
        let g : Fin 6 := ⟨gv, h.1⟩
        let p : Fin 16 := ⟨pv, h.2⟩
        let burning : Prop := ∃ y, s.fz.burn.subject = some y ∧ y.seg = g ∧ y.primary = p
        match ((s.rd.segment g).primary p).route with
        | .hard _ => s.Refuses (.release k) k q rest .alreadyHard
        | .direct => s.Refuses (.release k) k q rest .notSoft
        | .soft x =>
          (burning → s.Refuses (.release k) k q rest .busy) ∧
          (¬ burning →
            ∃ t, exec (.release k) s = .next t ∧ s.Completes t k q rest .ok [oneByte x.number] ∧
              s.rd.Rewrites t.rd g p .direct x .free ∧ s.SameExcept t [.ru, .rd])
      else s.Refuses (.release k) k q rest .badArg)

/-- MARK_FAULTY by its checks and its table, with the action in the reply (R87); CLEAR_FAULT sets the condition SOUND and answers the condition
before, routes and uses unchanged (R88). -/
def Obligations.FaultsMarkedAndCleared : Prop :=
  ∀ (k : Take) (s : State) (q : Queued) (rest : List Queued),
    let gv := (byteAt k.req.payload 0).toNat
    let cv := (byteAt k.req.payload 1).toNat
    (s.Serving k q rest .markFaulty →
      if h : gv < 6 ∧ cv < 18 then
        let g : Fin 6 := ⟨gv, h.1⟩
        let ch := channelOf ⟨18 * gv + cv, by omega⟩
        let burning : Prop := ∃ y, s.fz.burn.subject = some y ∧ y.seg = g ∧ (ch = .primary y.primary ∨ ch = .spare y.spare)
        (burning → s.Refuses (.markFaulty k) k q rest .busy) ∧
        (¬ burning →
          match (s.rd.segment g).condition ch with
          | .marked => s.Reports (.markFaulty k) k q rest [0, 0]
          | .openFault | .shortFault =>
            ∃ t, exec (.markFaulty k) s = .next t ∧ s.Completes t k q rest .ok [0, 0] ∧
              s.rd.Replaces t.rd g ((s.rd.segment g).setCondition ch .marked) ∧ s.SameExcept t [.ru, .rd]
          | .sound =>
            ∃ t, exec (.markFaulty k) s = .next t ∧
              s.Completes t k q rest .ok
                [((s.rd.segment g).fault s.rd.policy ch .marked).2.code,
                 ((s.rd.segment g).fault s.rd.policy ch .marked).2.spareByte] ∧
              s.rd.Replaces t.rd g ((s.rd.segment g).fault s.rd.policy ch .marked).1 ∧ s.SameExcept t [.ru, .rd])
      else s.Refuses (.markFaulty k) k q rest .badArg) ∧
    (s.Serving k q rest .clearFault →
      if h : gv < 6 ∧ cv < 18 then
        let g : Fin 6 := ⟨gv, h.1⟩
        let ch := channelOf ⟨18 * gv + cv, by omega⟩
        ∃ t, exec (.clearFault k) s = .next t ∧
          s.Completes t k q rest .ok [((s.rd.segment g).condition ch).code] ∧
          (∃ seg, (s.rd.segment g).SetsCondition seg ch .sound ∧ s.rd.Replaces t.rd g seg) ∧ s.SameExcept t [.ru, .rd]
      else s.Refuses (.clearFault k) k q rest .badArg)

/-- SET_REPAIR_POLICY is refused BAD_ARG if the policy is neither MANUAL nor AUTO; taken, the policy in force, which every later firing of the
fault-handling rule reads, is the one named, the reply is OK with no payload, and the map stays as it stands; in every mode, during a scan and
during a burn (R89). -/
def Obligations.PolicySet : Prop :=
  ∀ (k : Take) (s : State) (q : Queued) (rest : List Queued), s.Serving k q rest .setRepairPolicy →
    let v := byteAt k.req.payload 0
    if 2 ≤ v.toNat then s.Refuses (.setRepairPolicy k) k q rest .badArg
    else
      ∃ t, exec (.setRepairPolicy k) s = .next t ∧ s.Completes t k q rest .ok [] ∧
        t.rd = { s.rd with policy := if v = 0 then .manual else .auto } ∧ s.SameExcept t [.ru, .rd]

/-- The fault-handling rule on a channel that turns faulty: the table of R90 for a primary, of R91 for a spare, with the action of R92.
A test result on a channel's condition: the table of R93; the fault-handling rule fires exactly when SOUND turns faulty, and its action is the
one reported. -/
def Obligations.FaultHandlingAndTestResults : Prop :=
  (∀ (g : Segment) (policy : Policy) (c : Condition),
     let free : Segment → SpareId → Prop := fun a x => (a.spare x).use = .free ∧ (a.spare x).condition = .sound
     (∀ p : Fin 16,
       let y := g.fault policy (.primary p) c
       ∃ a, g.SetsCondition a (.primary p) c ∧
         match (g.primary p).route with
         | .soft _ | .hard _ => y = (a, .none)
         | .direct =>
           match policy with
           | .manual => y = (a, .none)
           | .auto =>
             (free g .s16 → a.Reroutes y.1 p (.soft .s16) .s16 (.soft p) ∧ y.2 = .repaired .s16) ∧
             (¬ free g .s16 → free g .s17 → a.Reroutes y.1 p (.soft .s17) .s17 (.soft p) ∧ y.2 = .repaired .s17) ∧
             (¬ free g .s16 → ¬ free g .s17 → y = (a, .noSpare))) ∧
     (∀ x : SpareId,
       let y := g.fault policy (.spare x) c
       ∃ a, g.SetsCondition a (.spare x) c ∧
         match (g.spare x).use with
         | .free | .hard _ | .damaged => y = (a, .none)
         | .soft p =>
           ∃ b, a.Reroutes b p .direct x .free ∧
             match policy with
             | .manual => y = (b, .routeDropped)
             | .auto =>
               (free g x.other → b.Reroutes y.1 p (.soft x.other) x.other (.soft p) ∧ y.2 = .repaired x.other) ∧
               (¬ free g x.other → y = (b, .routeDropped)))) ∧
  (∀ (g : Segment) (policy : Policy) (ch : Channel) (r : TestResult),
     let c : Condition := match r with | .ok => .sound | .openFault => .openFault | .shortFault => .shortFault
     let y := g.applyTest policy ch r
     match g.condition ch with
     | .marked => y = (g, { changed := false, fired := false, action := .none })
     | .sound =>
       if r = .ok then y = (g, { changed := false, fired := false, action := .none })
       else y.1 = (g.fault policy ch c).1 ∧ y.2 = { changed := true, fired := true, action := (g.fault policy ch c).2 }
     | .openFault =>
       g.SetsCondition y.1 ch c ∧ y.2 = { changed := decide (r ≠ .openFault), fired := false, action := .none }
     | .shortFault =>
       g.SetsCondition y.1 ch c ∧ y.2 = { changed := decide (r ≠ .shortFault), fired := false, action := .none })

/-- The lit-row rule: a row is drivable when its DIRECT primary is SOUND or when the spare its route names is SOUND, and that channel is its
source; the dark-row count counts the rows without a source (R81). The routing-update-pending flag is set while the map gives at least one row another
source than the latch holds (R82). The hard-repair count and the damaged-spare count of IDENTIFY and STARTED count the spares in HARD and in DAMAGED use
(R184). -/
def Obligations.LitRowRule : Prop :=
  ∀ (x : RowDrive),
    (∀ (g : Fin 6) (p : Fin 16) (r : Fin 96), r.val = 16 * g.val + p.val →
      match ((x.segment g).primary p).route with
      | .direct =>
        x.source r = if ((x.segment g).primary p).condition = .sound then some .primary else none
      | .soft k | .hard k => x.source r = if ((x.segment g).spare k).condition = .sound then some (.spare k) else none) ∧
    x.darkRows = ((List.finRange 96).filter (fun r => decide (x.source r = none))).length ∧
    (x.updatePending = true ↔ ∃ r : Fin 96, x.source r ≠ x.latch.get r) ∧
    (let count : (Use → Bool) → Nat := fun f =>
       ((List.finRange 6).map (fun g =>
         (if f ((x.segment g).spare .s16).use then 1 else 0) + (if f ((x.segment g).spare .s17).use then 1 else 0))).sum
     x.hardCount = count (fun u => match u with | .hard _ => true | .free | .soft _ | .damaged => false) ∧
     x.damagedCount = count (fun u => u == .damaged))

/-! ## Fuses and burns -/

/-- To write p the engine blows, for each weight, the index fuse when the weight is part of p and the complement fuse when it is not: exactly one
fuse of each weight, four in all, whatever p is (R101).
The classification of a record read from its fuses, and what a write of p on a blank record can read as: BLANK when none of its four fuses has
blown, PROGRAMMED(p) when all have, INCONSISTENT otherwise, and never PROGRAMMED for another primary (R102). -/
def Obligations.FusesBlownAndClassified : Prop :=
  (∀ (p : Fin 16) (i : Nat), i < 4 →
     let all : Blows := { index := 15, complement := 15, damage := 3 }
     let r := FuseRecord.blank.blowWrite p all
     (r.index.getLsbD i = true ↔ p.val.testBit i = true) ∧ (r.complement.getLsbD i = true ↔ p.val.testBit i = false) ∧
     (r.index.getLsbD i != r.complement.getLsbD i) = true ∧ r.blownCount = 4 ∧ r.damage = 0) ∧
  ((∀ r : FuseRecord,
     let blank := r.index = 0 ∧ r.complement = 0 ∧ r.damage = 0
     let oneEach := ∀ i, i < 4 → (r.index.getLsbD i != r.complement.getLsbD i) = true
     (blank → r.classify = .blank) ∧
     (¬ blank → r.damage ≠ 0 → r.classify = .damaged) ∧
     (¬ blank → r.damage = 0 → oneEach → r.classify = .programmed ⟨r.index.toNat, r.index.isLt⟩) ∧
     (¬ blank → r.damage = 0 → ¬ oneEach → r.classify = .inconsistent)) ∧
   (∀ (p : Fin 16) (b : Blows),
     let r := FuseRecord.blank.blowWrite p b
     (r.blownCount = 0 → r.classify = .blank) ∧ (r.blownCount = 4 → r.classify = .programmed p) ∧
     (r.blownCount ≠ 0 → r.blownCount ≠ 4 → r.classify = .inconsistent)))

/-- BURN by its checks in order (R108); taken, the subject, WRITING and WRITE, the map unchanged, no fuse blown, and the reply names the spare
(R109). -/
def Obligations.BurnTaken : Prop :=
  ∀ (k : Take) (s : State) (q : Queued) (rest : List Queued), s.Serving k q rest .burn →
    let gv := (byteAt k.req.payload 0).toNat
    let pv := (byteAt k.req.payload 1).toNat
    let c := Instr.burn k
    if s.mc.mode ≠ .maintenance then s.Refuses c k q rest .badState
    else if s.fz.burn ≠ .idle ∨ s.tu.scan ≠ .idle then s.Refuses c k q rest .busy
    else if h : gv < 6 ∧ pv < 16 then
      let g : Fin 6 := ⟨gv, h.1⟩
      let p : Fin 16 := ⟨pv, h.2⟩
      match ((s.rd.segment g).primary p).route with
      | .hard _ => s.Refuses c k q rest .alreadyHard
      | .direct => s.Refuses c k q rest .notSoft
      | .soft x =>
        let y : Subject := { seg := g, primary := p, spare := x }
        ∃ t, exec c s = .next t ∧ s.Completes t k q rest .ok [oneByte x.number] ∧ t.fz.burn = .write y ∧
          t.fz.entered = max s.now k.moment ∧ t.fz.fuses = s.fz.fuses ∧ s.fz.Reclassifies t.fz y .writing ∧
          s.SameExcept t [.ru, .fz]
    else s.Refuses c k q rest .badArg

/-- WRITE and MARK end 150 ms after entry, in CHECK and RECHECK (R110): of the fuses they blow (R101, R112) those whose blow took are blown besides
the ones blown before, every other fuse and every classification is kept, and nothing else changes (R100). Which blows took, as an operand of the row, and
their being recorded all at the expiry are the model's own (DESIGN CHOICE, logs 10 and 23). Where a frame timer falls due before the expiry, it expires
first (statement TimersExpire). -/
def Obligations.BurnStepsExpire : Prop :=
  ∀ (s : State) (y : Subject) (b : Blows),
    let r := (s.fz.fuses.get y.seg).get y.spare
    s.Timely (s.fz.entered + 150000000) →
    (s.fz.burn = .write y →
      ∃ t, exec (.burnWriteExpiry b) s = .next t ∧ t.fz.burn = .check y ∧ t.now = max s.now (s.fz.entered + 150000000) ∧
        t.fz.entered = t.now ∧ t.fz.held = s.fz.held ∧ s.fz.OtherFusesKept t.fz y ∧
        (let u := (t.fz.fuses.get y.seg).get y.spare
         u.damage = r.damage ∧ ∀ i, i < 4 →
          (u.index.getLsbD i = (r.index.getLsbD i || (y.primary.val.testBit i && b.index.getLsbD i))) ∧
          (u.complement.getLsbD i = (r.complement.getLsbD i || (!y.primary.val.testBit i && b.complement.getLsbD i)))) ∧
        s.SameExcept t [.fz]) ∧
    (s.fz.burn = .mark y →
      ∃ t, exec (.burnMarkExpiry b) s = .next t ∧ t.fz.burn = .recheck y ∧ t.now = max s.now (s.fz.entered + 150000000) ∧
        t.fz.entered = t.now ∧ t.fz.held = s.fz.held ∧ s.fz.OtherFusesKept t.fz y ∧
        (t.fz.fuses.get y.seg).get y.spare = { r with damage := r.damage ||| b.damage } ∧ s.SameExcept t [.fz])

/-- The read in CHECK: PROGRAMMED(p) ends the burn with success, the classification, the HARD route and use, IDLE and BURN_DONE in one event,
conditions kept (R111, R113); anything else enters MARK and changes nothing else (R112).
The read in RECHECK ends the burn with failure: DAMAGED if a damage fuse is blown, else INCONSISTENT; the spare DAMAGED and the primary DIRECT,
IDLE and BURN_DONE in one event, conditions kept and no repair made (R112, R113). Where a frame timer falls due before the read, it expires first
(statement TimersExpire). -/
def Obligations.BurnReadsBack : Prop :=
  (∀ (s : State) (y : Subject) (m : Nat), s.fz.burn = .check y → s.Timely m →
     ∃ t, exec (.burnCheckRead m) s = .next t ∧ t.now = max s.now m ∧ t.fz.fuses = s.fz.fuses ∧ t.fz.entered = t.now ∧
       (if ((s.fz.fuses.get y.seg).get y.spare).classify = .programmed y.primary then
         t.fz.burn = .idle ∧ s.fz.Reclassifies t.fz y (.programmed y.primary) ∧
         s.rd.Rewrites t.rd y.seg y.primary (.hard y.spare) y.spare (.hard y.primary) ∧
         s.ru.CreatesNotice t.ru s.li.unit s.ft.counter (.burnDone y (.programmed y.primary)) ∧ s.ru.KeepsRequests t.ru ∧
         s.SameExcept t [.ru, .rd, .fz]
        else t.fz.burn = .mark y ∧ t.fz.held = s.fz.held ∧ s.SameExcept t [.fz])) ∧
  (∀ (s : State) (y : Subject) (m : Nat), s.fz.burn = .recheck y → s.Timely m →
     let c : FuseClass := if ((s.fz.fuses.get y.seg).get y.spare).damage = 0 then .inconsistent else .damaged
     ∃ t, exec (.burnRecheckRead m) s = .next t ∧ t.now = max s.now m ∧ t.fz.fuses = s.fz.fuses ∧ t.fz.entered = t.now ∧
       t.fz.burn = .idle ∧ s.fz.Reclassifies t.fz y c ∧ s.rd.Rewrites t.rd y.seg y.primary .direct y.spare .damaged ∧
       s.ru.CreatesNotice t.ru s.li.unit s.ft.counter (.burnDone y c) ∧ s.ru.KeepsRequests t.ru ∧
       s.SameExcept t [.ru, .rd, .fz])

/-! ## Tests -/

/-- SCAN by its checks; taken, the scan state is cleared and the test of channel 0.0 starts (R121). SCAN_ABORT is refused BAD_STATE when the engine
is IDLE; taken, the test is abandoned, the outcome is ABORTED, findings, overflow and channels tested are kept, SCAN_DONE is created and the reply
carries the channels tested (R119, R125).
READ_SCAN by its checks in order; taken, it answers the scan header and the findings first to first + count - 1 that are in the list, and changes
nothing else (R130, R190). -/
def Obligations.ScanRequests : Prop :=
  (∀ (k : Take) (s : State) (q : Queued) (rest : List Queued),
     (s.Serving k q rest .scan →
       if s.mc.mode ≠ .maintenance then s.Refuses (.scan k) k q rest .badState
       else if s.tu.scan ≠ .idle ∨ s.fz.burn ≠ .idle then s.Refuses (.scan k) k q rest .busy
       else
         ∃ t, exec (.scan k) s = .next t ∧ s.Completes t k q rest .ok [] ∧
           t.tu = { s.tu with
             scan := .running 0, tested := 0, findings := [], overflow := false, outcome := .none,
             testStart := max s.now k.moment } ∧
           s.SameExcept t [.ru, .tu]) ∧
     (s.Serving k q rest .scanAbort →
       if s.tu.scan = .idle then s.Refuses (.scanAbort k) k q rest .badState
       else
         ∃ t, exec (.scanAbort k) s = .next t ∧ s.Answers t k q rest .ok [oneByte s.tu.tested] ∧
           t.ru.reqDrop = s.ru.reqDrop ∧ t.tu = { s.tu with scan := .idle, outcome := .aborted } ∧
           s.ru.CreatesNotice t.ru s.li.unit s.ft.counter
             (.scanDone .aborted s.tu.tested s.tu.findings.length s.tu.overflow s.rd.darkRows) ∧
           s.SameExcept t [.ru, .tu])) ∧
  (∀ (k : Take) (s : State) (q : Queued) (rest : List Queued), s.Serving k q rest .readScan →
     let first := (byteAt k.req.payload 0).toNat
     let count := (byteAt k.req.payload 1).toNat
     if 32 < count then s.Refuses (.readScan k) k q rest .badArg
     else if 32 < first + count then s.Refuses (.readScan k) k q rest .badArg
     else
       s.Reports (.readScan k) k q rest
         ([s.tu.scan.code] ++
           (match s.tu.scan with
             | .idle => [0xFF, 0xFF]
             | .running g => [oneByte (g.val / 18), oneByte (g.val % 18)]) ++
           [oneByte s.tu.tested, oneByte s.tu.findings.length, if s.tu.overflow then 1 else 0, s.tu.outcome.code] ++
           ((s.tu.findings.drop first).take count).flatMap (fun f =>
             [oneByte (f.channel.val / 18), oneByte (f.channel.val % 18), testResultCode f.result, f.action.code,
              f.action.spareByte])))

/-- A scan test ends, 0.4 ms after it started: the result acts on the channel's segment alone (R93), one more channel is tested, a finding is recorded
where R123 calls for one and the list has room, else the overflow flag is set; then the test of the next channel that is no DAMAGED spare starts
(R122), or, when none is left, the scan completes with its outcome and SCAN_DONE (R124). Where a frame timer falls due before the end, it expires first
(statement TimersExpire). -/
def Obligations.ScanTestEnds : Prop :=
  ∀ (s : State) (g : GlobalChannel) (r : TestResult), s.tu.scan = .running g → s.Timely (s.tu.testStart + 400000) →
    let n := max s.now (s.tu.testStart + 400000)
    let y := (s.rd.segment (segmentOf g)).applyTest s.rd.policy (channelOf g) r
    let called := r ≠ .ok ∨ y.2.changed = true
    let findings : List Finding :=
      if called ∧ s.tu.findings.length < 32 then s.tu.findings ++ [{ channel := g, result := r, action := y.2.action }]
      else s.tu.findings
    let overflow := s.tu.overflow || decide (called ∧ 32 ≤ s.tu.findings.length)
    ∃ t, exec (.scanTestEnd r) s = .next t ∧ t.now = n ∧ s.rd.Replaces t.rd (segmentOf g) y.1 ∧
      s.ru.KeepsRequests t.ru ∧ s.SameExcept t [.ru, .rd, .tu] ∧
      (∀ h : GlobalChannel, g.val < h.val → t.rd.skips h = false →
        (∀ i : GlobalChannel, g.val < i.val → i.val < h.val → t.rd.skips i = true) →
        t.tu = { s.tu with tested := s.tu.tested + 1, findings := findings, overflow := overflow, scan := .running h,
                           testStart := n } ∧
        s.ru.KeepsNotices t.ru) ∧
      ((∀ h : GlobalChannel, g.val < h.val → t.rd.skips h = true) →
        let outcome : ScanOutcome :=
          if 0 < t.rd.darkRows then .unrepaired else if findings = [] then .clean else .repaired
        t.tu = { s.tu with tested := s.tu.tested + 1, findings := findings, overflow := overflow, scan := .idle,
                           outcome := outcome } ∧
        s.ru.CreatesNotice t.ru s.li.unit s.ft.counter
          (.scanDone outcome (s.tu.tested + 1) findings.length overflow t.rd.darkRows))

/-- SET_PATROL is refused BAD_ARG for a value other than on or off; on sets the enable; off clears it and abandons a patrol test; cursor and lap count
are kept, and the reply carries the enable, the cursor and the lap count (R119, R132). -/
def Obligations.PatrolSet : Prop :=
  ∀ (k : Take) (s : State) (q : Queued) (rest : List Queued), s.Serving k q rest .setPatrol →
    let v := byteAt k.req.payload 0
    if 2 ≤ v.toNat then s.Refuses (.setPatrol k) k q rest .badArg
    else
      ∃ t, exec (.setPatrol k) s = .next t ∧
        s.Completes t k q rest .ok ([v, oneByte s.tu.cursor.val] ++ toLe 2 s.tu.lapCount.toNat) ∧
        t.tu = { s.tu with
          patrolOn := decide (v = 1), patrolTest := if v = 1 then s.tu.patrolTest else none } ∧
        s.SameExcept t [.ru, .tu]

/-- A patrol test ends, 0.4 ms after it started: the result acts on the channel's segment alone (R93), CHANNEL_FAULT is created exactly when the
fault-handling rule fired, with the channel, its new condition and the action (R92), and the cursor moves to the next channel that is no DAMAGED
spare, a move past 107 adding a lap (R135). Where a frame timer falls due before the end, it expires first (statement TimersExpire). -/
def Obligations.PatrolTestEnds : Prop :=
  ∀ (s : State) (g : GlobalChannel) (r : TestResult), s.tu.patrolTest = some g → s.Timely (s.tu.testStart + 400000) →
    let y := (s.rd.segment (segmentOf g)).applyTest s.rd.policy (channelOf g) r
    let c : Condition := match r with | .ok => .sound | .openFault => .openFault | .shortFault => .shortFault
    ∃ t j h, exec (.patrolTestEnd r) s = .next t ∧ t.now = max s.now (s.tu.testStart + 400000) ∧
      s.rd.Replaces t.rd (segmentOf g) y.1 ∧ s.ru.KeepsRequests t.ru ∧
      (if y.2.fired = true then
        s.ru.CreatesNotice t.ru s.li.unit s.ft.counter (.channelFault g c y.2.action)
       else s.ru.KeepsNotices t.ru) ∧
      t.rd.Reaches (g + 1) j h ∧ j < 108 ∧
      t.tu = { s.tu with
        patrolTest := none, cursor := h,
        lapCount := if 108 ≤ g.val + 1 + j then satInc s.tu.lapCount else s.tu.lapCount } ∧
      s.SameExcept t [.ru, .rd, .tu]

/-! ## The link -/

/-- The for-this-tile decision on a destination byte, with the unit number (0-62) and the group set as they stand: its own non-zero unit number, a
group it belongs to (destination - 64), or 127; no other destination (R154).
DOWNSTREAM_REPEAT: when the destination byte arrives, the first data byte of a frame (R152), the for-this-tile decision is taken and nothing else
changes (R154). When the third body byte arrives, the frame is repeated from here on, unless its destination is this tile's non-zero unit number or it
is an all-tile ENUMERATE in READY (R155, R158). When a frame that is not for this tile ends, it has been repeated as received, in order of arrival
(R155, R156). Symbols outside a frame without a START are discarded (R152), and a held tile neither forwards nor keeps anything (R143). The row's three
stages and the symbols as its operand are the model's choice (DESIGN CHOICE, logs 12 and 13). -/
def Obligations.FramesDecidedAndRepeated : Prop :=
  (∀ (x : LinkInterface) (d : Byte), x.unit.toNat ≤ 62 →
     (x.classFor d = some .unit ↔ d = x.unit ∧ x.unit ≠ 0) ∧
     (∀ g : Fin 16, x.classFor d = some (.group g) ↔ d.toNat = 64 + g.val ∧ g ∈ x.groups) ∧
     (x.classFor d = some .allTiles ↔ d.toNat = 127)) ∧
  (∀ s : State, s.running = true →
     (∀ ys d, s.li.upIn.Opens ys [] →
       exec (.downstreamRepeat .destinationByte (ys ++ [.data d])) s = .next { s with
         li := { s.li with
           upIn := some [d],
           rx := some { cls := s.li.classFor d, stops := decide (d = s.li.unit ∧ s.li.unit ≠ 0), held := none } } }) ∧
     (∀ b bytes l, s.li.upIn = some b → s.li.rx = some l → b ≠ [] → b.length < 3 → b.length + bytes.length = 3 →
       let body := b ++ bytes
       let held := decide (byteAt body 0 = 127 ∧ byteAt body 2 = 0x01 ∧ s.mc.startUp = .ready)
       ∃ t, exec (.downstreamRepeat .repeatBegins (bytes.map .data)) s = .next t ∧ t.now = s.now ∧
         t.li = { s.li with upIn := some body, rx := some { l with held := some held } } ∧
         t.li.repeating = (if l.stops = true ∨ held = true then none else some body) ∧ s.SameExcept t [.li]) ∧
     (∀ ys f r, s.li.FrameEnds ys f r → (∀ l, s.li.rx = some l → l.cls = none ∧ l.held ≠ some true) →
       exec (.downstreamRepeat .frameEnds ys) s = .next { s with li := s.li.afterFrame f r }) ∧
     (∀ stage ys, s.li.upIn = none → Symbol.start ∉ ys → exec (.downstreamRepeat stage ys) s = .next s)) ∧
  (∀ (s : State) stage ys, s.running = false → exec (.downstreamRepeat stage ys) s = .next s)

/-- DOWNSTREAM_FRAME_END: a frame that is not held ends on UP-in, by END or cut off by a START or an IDLE (R152), and its repeat with it (R155). The
decision latched for the frame holds to its end (R154). A frame not for this tile is neither tested nor counted. One for this tile that was cut off or
is not 5 to 245 bytes long counts RX_MALFORMED, one with a wrong check value RX_BADCHECK, and both are discarded; a good one is handed to the Request
Unit (R157), whose arrival rule is the statement RequestArrives. A frame whose START fell before the hold or in it is not taken: symbols outside a frame
without a START are discarded (R152), and a held tile keeps nothing (R143). -/
def Obligations.FrameForThisTileTested : Prop :=
  (∀ (s : State) (ys : List Symbol) (f : LinkFrame) (r : Receiver), s.running = true → s.li.FrameEnds ys f r →
     (∀ l, s.li.rx = some l → l.held ≠ some true) →
     let sat : Half → Half := fun x => if x = 65535 then 65535 else x + 1
     let x := s.li.afterFrame f r
     ∃ t, exec (.downstreamFrameEnd ys) s = .next t ∧ t.now = s.now ∧ s.SameExcept t [.li, .ru] ∧
       match s.li.rx.bind RxLatch.cls with
       | none => t.li = x ∧ t.ru = s.ru
       | some c =>
         if f.ending = .cutOff ∨ f.body.length < 5 ∨ 245 < f.body.length then
           t.li = { x with rxMalformed := sat s.li.rxMalformed } ∧ t.ru = s.ru
         else if checkGood f.body = false then t.li = { x with rxBadCheck := sat s.li.rxBadCheck } ∧ t.ru = s.ru
         else t.li = x ∧ t.ru = s.ru.arrive s.li.unit { cls := c, body := f.body }) ∧
  (∀ (s : State) (ys : List Symbol), s.running = false ∨ (s.li.upIn = none ∧ Symbol.start ∉ ys) →
     exec (.downstreamFrameEnd ys) s = .next s)

/-- The arrival rule, in order: the duplicate test, for unit-addressed frames alone; the queue test; the full queue (R170), with the filter's entry
(R177), the duplicate by the entry's state (R178), and the places of the reply queue, a reserved one counted (R171, R174). -/
def Obligations.RequestArrives : Prop :=
  ∀ (x : RequestUnit) (unit : Byte) (r : Request),
    let drop : RequestUnit := { x with reqDrop := if x.reqDrop = 65535 then 65535 else x.reqDrop + 1 }
    let place : Reply → RequestUnit := fun y =>
      if x.replies.length + (if x.executing.map (fun e => e.entry.req.cls) = some .unit then 1 else 0) < 8 then
        { x with replies := x.replies ++ [y] }
      else drop
    let joined : RequestUnit :=
      { x with queue := x.queue ++ [{ req := r, tag := x.nextTag }], nextTag := x.nextTag + 1,
               filter := if r.cls = .unit then
                   some { seq := byteAt r.body 1, check := r.check, tag := x.nextTag, state := .waiting }
                 else x.filter }
    let queueFull : Reply :=
      { unit := unit, seq := byteAt r.body 1, kind := byteAt r.body 2 ||| 0x80, result := .queueFull, payload := [], tag := none }
    (∀ e, x.filter = some e → r.cls = .unit → e.seq = byteAt r.body 1 → e.check = r.check →
      x.arrive unit r = (match e.state with
        | .waiting | .replyQueued _ => x
        | .replySent cached => place cached)) ∧
    ((∀ e, x.filter = some e → ¬ (r.cls = .unit ∧ e.seq = byteAt r.body 1 ∧ e.check = r.check)) →
      x.arrive unit r =
        if x.queue.length < 8 then joined else if r.cls = .unit then place queueFull else drop)

/-- ENUMERATE: a held all-tile ENUMERATE ends on UP-in (R158). A damaged one is counted and not repeated. A good one with a body other than 6 bytes is
repeated unchanged and handed to the Request Unit. One acted on gives the tile the base as unit number for 1-62 and 0 for 63, with an empty group set, a
cleared duplicate filter and a JOINED notice from the new number (R159, R160), and is repeated with base + 1 and a new check value for 1-62, else
unchanged. Symbols outside a frame without a START are discarded (R152), and a held tile keeps nothing (R143). -/
def Obligations.Enumeration : Prop :=
  (∀ (s : State) (ys : List Symbol) (f : LinkFrame) (r : Receiver) (l : RxLatch), s.running = true → s.li.FrameEnds ys f r →
     s.li.rx = some l → l.held = some true →
     let sat : Half → Half := fun x => if x = 65535 then 65535 else x + 1
     let base := byteAt f.body 3
     let x := { s.li with upIn := r, rx := none }
     let taken : State → Byte → LinkFrame → Prop := fun t n g =>
       t.li = { x with unit := n, groups := [], downOut := s.li.downOut ++ [g] } ∧
       t.ru.queue = s.ru.queue ∧ t.ru.executing = s.ru.executing ∧ t.ru.replies = s.ru.replies ∧ t.ru.filter = none ∧
       t.ru.lastBroadcast = s.ru.lastBroadcast ∧ t.ru.reqDrop = s.ru.reqDrop ∧ t.ru.nextTag = s.ru.nextTag ∧
       s.ru.CreatesNotice t.ru n s.ft.counter (.joined Config.serial n)
     ∃ t, exec (.enumerate ys) s = .next t ∧ t.now = s.now ∧ s.SameExcept t [.li, .ru] ∧
       if f.ending = .cutOff ∨ f.body.length < 5 ∨ 245 < f.body.length then
         t.li = { x with rxMalformed := sat s.li.rxMalformed } ∧ t.ru = s.ru
       else if checkGood f.body = false then t.li = { x with rxBadCheck := sat s.li.rxBadCheck } ∧ t.ru = s.ru
       else if f.body.length ≠ 6 then
         t.li = { x with downOut := s.li.downOut ++ [f] } ∧ t.ru = s.ru.arrive s.li.unit { cls := .allTiles, body := f.body }
       else if 1 ≤ base.toNat ∧ base.toNat ≤ 62 then
         taken t base { body := withCheck [byteAt f.body 0, byteAt f.body 1, byteAt f.body 2, base + 1], ending := .complete }
       else if base.toNat = 63 then taken t 0 f
       else t.li = { x with downOut := s.li.downOut ++ [f] } ∧ t.ru = s.ru) ∧
  (∀ (s : State) (ys : List Symbol), s.running = false ∨ (s.li.upIn = none ∧ Symbol.start ∉ ys) →
     exec (.enumerate ys) s = .next s)

/-- The check value starts at 0xFFFF; each byte is combined into its upper eight bits, then it is shifted left eight times, combined with 0x1021 each
time a 1 leaves the top (R187). A body passes the check-value test exactly when its last two bytes carry, low byte first, the check value of those before
them (R153); one to which the tile adds the check value passes; over the nine bytes 0x31 to 0x39 it is 0x29B1.
The request kinds have the codes of the table of R186, and no other code is a kind's; the results have those of R186, and the named values those of R188.
A notice record is 16 bytes with its header fields at the offsets of R191, and a notice frame's body is 20 bytes, with the unit number of
its creation, its number, 0xFF, record bytes 1 to 15 and a good check value (R186, R191).
The receiver of an input delimits frames: START begins one, data bytes form its body, END closes it; a START inside a frame cuts it off and begins
another, an IDLE cuts it off; data bytes, ENDs and IDLEs outside a frame leave nothing (R152). -/
def Obligations.FrameFormats : Prop :=
  (∀ (x : Receiver) (b : List Byte) (d : Byte),
     (Receiver.next x .start).1 = some [] ∧ (Receiver.next none .start).2 = none ∧
     (Receiver.next (some b) .start).2 = some { body := b, ending := .cutOff } ∧
     Receiver.next (some b) (.data d) = (some (b ++ [d]), none) ∧
     Receiver.next (some b) .finish = (none, some { body := b, ending := .complete }) ∧
     Receiver.next (some b) .idle = (none, some { body := b, ending := .cutOff }) ∧
     Receiver.next none (.data d) = (none, none) ∧ Receiver.next none .finish = (none, none) ∧
     Receiver.next none .idle = (none, none)) ∧
  (crc16 [] = 0xFFFF ∧
   (∀ (bs : List Byte) (b : Byte),
     let shift : Half → Half := fun x => if x.getLsbD 15 then (x <<< 1) ^^^ 0x1021 else x <<< 1
     crc16 (bs ++ [b]) = shift^[8] (crc16 bs ^^^ (b.zeroExtend 16 <<< 8))) ∧
   (∀ (bs : List Byte) (low high : Byte),
     checkGood (bs ++ [low, high]) = true ↔ low.toNat + 256 * high.toNat = (crc16 bs).toNat)) ∧
  ((∀ b : List Byte, checkGood (withCheck b) = true ∧ (withCheck b).length = b.length + 2 ∧ (withCheck b).take b.length = b) ∧
   (let nine : List Byte := [0x31, 0x32, 0x33, 0x34, 0x35, 0x36, 0x37, 0x38, 0x39]
    crc16 nine = 0x29B1 ∧ withCheck nine = nine ++ [0xB1, 0x29])) ∧
  (let kinds : List (Byte × Kind) :=
     [(0x01, .enumerate), (0x02, .identify), (0x03, .status), (0x04, .joinGroup), (0x05, .leaveGroup), (0x06, .restart),
      (0x07, .readNotices), (0x08, .ackNotices), (0x09, .setMode), (0x10, .setCanvas), (0x11, .writePixels), (0x12, .fillRect),
      (0x13, .readPixels), (0x14, .copyFront), (0x20, .beginSet), (0x21, .stageBands), (0x22, .stagePan), (0x23, .stagePalette)] ++
     [(0x24, .stageLevel), (0x25, .commit), (0x26, .abandon), (0x27, .readBands), (0x28, .readPalette), (0x30, .setSync),
      (0x31, .setFrameNumber), (0x40, .readMap), (0x41, .repair), (0x42, .release), (0x43, .markFaulty), (0x44, .clearFault),
      (0x45, .setRepairPolicy), (0x46, .burn), (0x47, .readFuses), (0x50, .scan), (0x51, .scanAbort), (0x52, .readScan),
      (0x53, .setPatrol)]
   (∀ (b : Byte) (kind : Kind), Kind.ofCode b = some kind ↔ (b, kind) ∈ kinds) ∧
   (∀ (b : Byte) (kind : Kind), kind.code = b ↔ (b, kind) ∈ kinds)) ∧
  ([Result.ok, .busy, .badArg, .badState, .badLength, .unknownKind, .unitOnly, .queueFull, .noSet, .setOpen, .setFull, .sealedBusy,
     .late, .far, .flipPending, .noSpare, .alreadyHard, .notSoft, .groupFull, .dupId].map Result.code =
     [0, 1, 2, 3, 4, 5, 6, 7, 8, 9, 10, 11, 12, 13, 14, 15, 16, 17, 18, 19]) ∧
  ([Mode.off, .standby, .showMode, .maintenance].map Mode.code = [0, 1, 2, 3] ∧
   [StartUp.starting, .ready].map StartUp.code = [0, 1] ∧
   [SyncState.seeking, .locked, .holdover, .free].map SyncState.code = [0, 1, 2, 3] ∧
   [Page.A, .B].map Page.code = [0, 1] ∧
   [Condition.sound, .openFault, .shortFault, .marked].map Condition.code = [0, 1, 2, 3] ∧
   [Policy.manual, .auto].map Policy.code = [0, 1] ∧
   (∀ k : SpareId, [Route.direct, .soft k, .hard k].map Route.bytes = [[0, 0], [1, oneByte k.number], [2, oneByte k.number]] ∧
     [Action.none, .repaired k, .noSpare, .routeDropped].map Action.code = [0, 1, 2, 3]) ∧
   (∀ p : Fin 16, [Use.free, .soft p, .hard p, .damaged].map Use.bytes = [[0, 0], [1, oneByte p.val], [2, oneByte p.val], [3, 0]] ∧
     [FuseClass.blank, .programmed p, .damaged, .inconsistent, .writing].map FuseClass.code = [0, 1, 2, 3, 4]) ∧
   (∀ y : Subject, [BurnEngine.idle, .write y, .check y, .mark y, .recheck y].map BurnEngine.code = [0, 1, 2, 3, 4]) ∧
   (∀ g : GlobalChannel, [ScanEngine.idle, .running g].map ScanEngine.code = [0, 1]) ∧
   [ScanOutcome.none, .clean, .repaired, .unrepaired, .aborted].map ScanOutcome.code = [0, 1, 2, 3, 4] ∧
   [TestResult.ok, .openFault, .shortFault].map testResultCode = [0, 1, 2]) ∧
  (∀ n : Notice,
     n.record.length = 16 ∧ byteAt n.record 0 = n.number ∧ byteAt n.record 1 = n.details.code ∧
     field n.record 2 4 = n.frame.toNat ∧ byteAt n.record 6 = n.lost ∧
     (∀ i, i < n.details.bytes.length → byteAt n.record (7 + i) = byteAt n.details.bytes i) ∧
     (∀ i, n.details.bytes.length ≤ i → i < 9 → byteAt n.record (7 + i) = 0) ∧
     n.frameBody.length = 20 ∧ n.frameBody.take 3 = [n.unit, n.number, 0xFF] ∧
     (n.frameBody.drop 3).take 15 = n.record.drop 1 ∧ checkGood n.frameBody = true)

/-- UPSTREAM_FRAME_END: a frame on DOWN-in that ends by END with a body of 1 to 246 bytes joins the pass-through queue at the end if it holds fewer
than 6; else it is dropped, PASS_DROP rises, and LINK_OVERRUN with PASS_DROP after the drop is created unless one is in the log or the tile is STARTING;
any other frame, one cut off by a START or an IDLE among them, is discarded uncounted (R152, R163, R164). Symbols outside a frame without a START are
discarded (R152), and a held tile neither forwards nor keeps anything (R143). -/
def Obligations.UpstreamFrameQueued : Prop :=
  (∀ (s : State) (ys : List Symbol) (y : Symbol) (b : List Byte) (e : Ending) (r : Receiver), s.running = true →
     s.li.downIn.Opens ys b → symbolEnds y = some (e, r) →
     let c := Instr.upstreamFrameEnd (ys ++ [y])
     let dropped : Half := if s.li.passDrop = 65535 then 65535 else s.li.passDrop + 1
     if e = .cutOff ∨ b = [] ∨ 246 < b.length then exec c s = .next { s with li := { s.li with downIn := r } }
     else if s.li.passThrough.length < 6 then
       exec c s = .next { s with li := { s.li with downIn := r, passThrough := s.li.passThrough ++ [b] } }
     else
       ∃ t, exec c s = .next t ∧ t.li = { s.li with downIn := r, passDrop := dropped } ∧
         s.ru.KeepsRequests t.ru ∧ t.now = s.now ∧ s.SameExcept t [.li, .ru] ∧
         (if s.mc.startUp = .starting ∨ ∃ n ∈ s.ru.log, ∃ v, n.details = .linkOverrun v then s.ru.KeepsNotices t.ru
          else s.ru.CreatesNotice t.ru s.li.unit s.ft.counter (.linkOverrun dropped))) ∧
  (∀ (s : State) (ys : List Symbol), s.running = false ∨ (s.li.downIn = none ∧ Symbol.start ∉ ys) →
     exec (.upstreamFrameEnd ys) s = .next s)

/-- UP_OUT_FRAME_BEGIN: with UP-out free, the only side that has a candidate is sent, or the side not served last when both have one (R165). A pass-through
frame stays in its queue until its END; a reply leaves the reply queue and makes its filter entry REPLY_SENT (R177); without a reply the oldest UNSENT
notice is sent and becomes SENT (R181). UP_OUT_FRAME_END, whatever came in since the frame began, frees UP-out, and a pass-through frame then leaves the
head of its queue (R163, R165). While a frame is sent no other begins (R165). A held tile sends nothing (R143). -/
def Obligations.UpOutArbitrated : Prop :=
  (∀ s : State, s.running = true → s.li.upOut = none →
     let pass : Prop := ∃ b rest t, s.li.passThrough = b :: rest ∧ exec .upOutFrameBegin s = .next t ∧
       t.li = { s.li with upOut := some { side := .passThrough, body := b }, lastSide := .passThrough } ∧ t.now = s.now ∧
       s.SameExcept t [.li] ∧
       ∃ u, exec .upOutFrameEnd t = .next u ∧ u.li = { t.li with upOut := none, passThrough := rest } ∧ u.now = t.now ∧
         t.SameExcept u [.li]
     let own : Prop := ∃ t body, exec .upOutFrameBegin s = .next t ∧
       t.li = { s.li with upOut := some { side := .own, body := body }, lastSide := .own } ∧ t.now = s.now ∧
       s.SameExcept t [.li, .ru] ∧
       (match s.ru.replies with
         | y :: ys =>
           body = y.frameBody ∧
           t.ru = { s.ru with
             replies := ys,
             filter := s.ru.filter.map (fun e => if y.tag = some e.tag then { e with state := .replySent y } else e) }
         | [] =>
           ∃ older n newer, s.ru.log = older ++ n :: newer ∧ n.sent = false ∧ (∀ x ∈ older, x.sent = true) ∧
             body = n.frameBody ∧ t.ru = { s.ru with log := older ++ { n with sent := true } :: newer }) ∧
       ∃ u, exec .upOutFrameEnd t = .next u ∧ u.li = { t.li with upOut := none } ∧ u.now = t.now ∧ t.SameExcept u [.li]
     let passReady : Prop := s.li.passThrough ≠ []
     let ownReady : Prop := s.ru.replies ≠ [] ∨ ∃ n ∈ s.ru.log, n.sent = false
     (passReady → ¬ ownReady → pass) ∧ (¬ passReady → ownReady → own) ∧
     (passReady → ownReady → s.li.lastSide = .own → pass) ∧ (passReady → ownReady → s.li.lastSide = .passThrough → own) ∧
     (¬ passReady → ¬ ownReady → exec .upOutFrameBegin s = .next s)) ∧
  (∀ (s : State) (y : Sending), s.running = true → s.li.upOut = some y →
     exec .upOutFrameBegin s = .next s ∧
     exec .upOutFrameEnd s = .next { s with
       li := { s.li with
         upOut := none, passThrough := if y.side = .passThrough then s.li.passThrough.drop 1 else s.li.passThrough } }) ∧
  (∀ s : State, s.running = true → s.li.upOut = none → exec .upOutFrameEnd s = .next s) ∧
  (∀ s : State, s.running = false → exec .upOutFrameBegin s = .next s ∧ exec .upOutFrameEnd s = .next s)

/-! ## Cold reset and start-up -/

/-- COLD_RESET: loss of power, or the cold-reset line asserted, sets every block to its cold-reset values in any state (R143, and the statement
ResetHoldsColdValues), and ends a burn (R105, R116): in WRITE exactly the fuses of R101 whose blow took are blown besides those blown before, in MARK
exactly the damage fuses whose blow took, and in CHECK, in RECHECK and with no burn no fuse. Every other fuse is kept.
The model's own in it (DESIGN CHOICE): SEEKING and the timers' moments until the end of start-up (log 7); the pages kept, the map fresh and every
classification BLANK until start-up does its work (log 17); the blows that took as an operand, recorded at the reset (logs 10 and 23); the tag counter
(log 15).
STARTUP_BEGIN: start-up begins, the state STARTING, once power is good with the line released; while either is missing the tile stays held (R143).
Nothing else changes. -/
def Obligations.ColdResetAndStartupBegin : Prop :=
  (∀ (s : State) (c : ResetCause) (b : Blows),
     let z := State.reset
     ∃ t, exec (.coldReset c b) s = .next t ∧
       t.li = z.li ∧ t.ru = z.ru ∧ t.pu = z.pu ∧ t.ft = z.ft ∧ t.cs = z.cs ∧ t.rd = z.rd ∧ t.tu = z.tu ∧ t.mc = z.mc ∧
       t.fs = { z.fs with pageA := s.fs.pageA, pageB := s.fs.pageB } ∧
       t.fz.burn = .idle ∧ t.fz.entered = z.fz.entered ∧ (∀ g x, t.fz.classOf g x = .blank) ∧
       (match s.fz.burn with
         | .idle | .check _ | .recheck _ => t.fz.fuses = s.fz.fuses
         | .write y =>
           let r := (s.fz.fuses.get y.seg).get y.spare
           let u := (t.fz.fuses.get y.seg).get y.spare
           s.fz.OtherFusesKept t.fz y ∧ u.damage = r.damage ∧ ∀ i, i < 4 →
             (u.index.getLsbD i = (r.index.getLsbD i || (y.primary.val.testBit i && b.index.getLsbD i))) ∧
             (u.complement.getLsbD i = (r.complement.getLsbD i || (!y.primary.val.testBit i && b.complement.getLsbD i)))
         | .mark y =>
           let r := (s.fz.fuses.get y.seg).get y.spare
           s.fz.OtherFusesKept t.fz y ∧ (t.fz.fuses.get y.seg).get y.spare = { r with damage := r.damage ||| b.damage }) ∧
       t.powerGood = (if c = .powerLost then false else s.powerGood) ∧
       t.resetLine = (if c = .lineAsserted then true else s.resetLine) ∧ t.now = s.now ∧ t.freeCount = s.freeCount ∧
       t.pending = s.pending) ∧
  (∀ (s : State) (c : StartCause),
     ∃ t, exec (.startupBegin c) s = .next t ∧
       t.powerGood = (if c = .powerGood then true else s.powerGood) ∧
       t.resetLine = (if c = .lineReleased then false else s.resetLine) ∧
       t.mc.mode = s.mc.mode ∧
       t.mc.startUp = (if s.running = false ∧ t.running = true then .starting else s.mc.startUp) ∧
       t.li = s.li ∧ t.ru = s.ru ∧ t.fs = s.fs ∧ t.pu = s.pu ∧ t.ft = s.ft ∧ t.cs = s.cs ∧ t.rd = s.rd ∧ t.fz = s.fz ∧
       t.tu = s.tu ∧ t.now = s.now ∧ t.freeCount = s.freeCount ∧ t.pending = s.pending)

/-- STARTUP_END: both pages clear (R5); the twelve records classified, with record s.17 held DAMAGED where both of a segment name one primary (R104); the
map built from the classifications, every condition SOUND, MANUAL, no latched source (R83); READY in OFF, SEEKING with its timer started, and a STARTED
notice with the serial and the counts of the map just built (R145). -/
def Obligations.StartupEnds : Prop :=
  ∀ (s : State) (m : Nat), s.running = true → s.mc.startUp = .starting →
    ∃ t, exec (.startupEnd m) s = .next t ∧ t.now = max s.now m ∧ t.mc = { mode := .off, startUp := .ready } ∧
      (∀ p a, (t.fs.page p).read a = 0) ∧ t.fs.front = s.fs.front ∧ t.fs.width = s.fs.width ∧ t.fs.copy = s.fs.copy ∧
      t.ft = { s.ft with syncState := .seeking, timerStart := t.now } ∧
      (∀ g, t.fz.classOf g .s16 = ((s.fz.fuses.get g).get .s16).classify ∧
        t.fz.classOf g .s17 =
          (if ∃ p, ((s.fz.fuses.get g).get .s16).classify = .programmed p ∧
              ((s.fz.fuses.get g).get .s17).classify = .programmed p then .damaged
           else ((s.fz.fuses.get g).get .s17).classify)) ∧
      t.fz.fuses = s.fz.fuses ∧ t.fz.burn = s.fz.burn ∧ t.fz.entered = s.fz.entered ∧
      (t.rd.policy = .manual ∧ (∀ r : Fin 96, t.rd.latch.get r = none) ∧
        (∀ g p, ((t.rd.segment g).primary p).condition = .sound ∧
          (∀ x, ((t.rd.segment g).primary p).route = .hard x ↔ t.fz.classOf g x = .programmed p) ∧
          ((∀ x, t.fz.classOf g x ≠ .programmed p) → ((t.rd.segment g).primary p).route = .direct)) ∧
        (∀ g x, ((t.rd.segment g).spare x).condition = .sound ∧
          (match t.fz.classOf g x with
            | .programmed p => ((t.rd.segment g).spare x).use = .hard p
            | .damaged | .inconsistent => ((t.rd.segment g).spare x).use = .damaged
            | .blank | .writing => ((t.rd.segment g).spare x).use = .free))) ∧
      s.ru.CreatesNotice t.ru s.li.unit s.ft.counter
        (.started Config.serial t.rd.hardCount t.rd.damagedCount s.li.unit) ∧
      s.ru.KeepsRequests t.ru ∧ s.SameExcept t [.ru, .fs, .ft, .rd, .fz, .mc]

/-! ## Invariants and laws of every step -/

/-- Every step keeps the bounds of the queues and lists (R161, R163, R169, R174, R179). -/
def Obligations.QueuesStayBounded : Prop :=
  ∀ s t : State, s.QueuesBounded → step s = .next t → t.QueuesBounded

/-- Every step keeps the picture's state lawful: pages and palettes in canonical form, a legal width, lawful tables in force, staged and projected, the
slots' law (R4, R20, R53, R55). -/
def Obligations.PictureStaysLawful : Prop :=
  ∀ s t : State, s.PictureLawful → step s = .next t → t.PictureLawful

/-- Every step keeps the map consistent: routes and uses match, SOFT-used spares are SOUND, uses and classifications agree, a burn's route is held, burn
and scan run in MAINTENANCE alone, the patrol tests in STANDBY and SHOW alone (R79, R80, R94, R114, R118). -/
def Obligations.MapStaysConsistent : Prop :=
  ∀ s t : State, s.MapConsistent → step s = .next t → t.MapConsistent

/-- Every step keeps the panel dark outside SHOW (R31) and the notices numbered consecutively (R179).
Every step keeps a flip and a copy apart: no flip is pending while a copy runs, and the copy's source stays the front page until it ends (R13,
R72).
Every step keeps the bound of R43: in READY no moment passes the one that the timer in use gives for the next frame start, at most 3T/2 after the last
frame start in LOCKED, T after it in HOLDOVER, and T after the timer's start in SEEKING and FREE; and a timer starts at a frame start, or where SET_SYNC or
the end of start-up enters a state (R38, R40, R41, R42, R47). -/
def Obligations.OutputNoticesAndFlipsStayLawful : Prop :=
  ((∀ s t : State, s.DarkOutsideShow → step s = .next t → t.DarkOutsideShow) ∧
   (∀ s t : State, s.NoticesNumbered → step s = .next t → t.NoticesNumbered)) ∧
  (∀ s t : State, s.FlipAndCopyApart → step s = .next t → t.FlipAndCopyApart) ∧
  (∀ s t : State, s.FramesOnTime → step s = .next t → t.FramesOnTime) ∧
  (∀ (c : Instr) (s t : State), exec c s = .next t → t.ft.timerStart ≠ s.ft.timerStart →
     t.ft.timerStart ≤ t.ft.frameStart ∨ (∃ k, c = .setSync k) ∨ ∃ m, c = .startupEnd m)

/-- The tile after reset meets every invariant. -/
def Obligations.ResetMeetsInvariants : Prop :=
  State.reset.QueuesBounded ∧ State.reset.PictureLawful ∧ State.reset.FlipAndCopyApart ∧ State.reset.MapConsistent ∧
  State.reset.DarkOutsideShow ∧ State.reset.NoticesNumbered ∧ State.reset.FramesOnTime ∧ State.reset.FusesBearOut

/-- A blown fuse stays blown through every command, cold resets included (R100).
A HARD route, its use and its classification are kept by every command other than a cold reset and the start-up that ends it, which builds the map
again (R91, R106, R111).
Every command keeps the fuses bearing out the held classifications: a record held PROGRAMMED(p) classifies PROGRAMMED(p) from its fuses (R103, R106). So a
HARD route, made by a burn or at start-up, is there for good: its fuses keep reading PROGRAMMED(p) through every command, cold resets included, no record
beside it takes p, and in READY the route stands, after every cold reset once start-up has ended (R104, R106). -/
def Obligations.FusesAndHardRoutesStay : Prop :=
  (∀ (c : Instr) (s t : State), exec c s = .next t → ∀ g x, ((s.fz.fuses.get g).get x).KeptBy ((t.fz.fuses.get g).get x)) ∧
  (∀ (c : Instr) (s t : State) (g : Fin 6) (p : Fin 16) (x : SpareId), s.MapConsistent → exec c s = .next t →
     (∀ r b, c ≠ .coldReset r b) → (∀ m, c ≠ .startupEnd m) → ((s.rd.segment g).primary p).route = .hard x →
     ((t.rd.segment g).primary p).route = .hard x ∧ ((t.rd.segment g).spare x).use = .hard p ∧
     t.fz.classOf g x = .programmed p) ∧
  (∀ (c : Instr) (s t : State), s.MapConsistent → s.FusesBearOut → exec c s = .next t →
     t.FusesBearOut ∧ ∀ g p x, s.HardForGood g p x → t.HardForGood g p x) ∧
  (∀ (s : State) (g : Fin 6) (p : Fin 16) (x : SpareId), s.MapConsistent → s.FusesBearOut → s.mc.startUp = .ready →
     (s.HardForGood g p x ↔ ((s.rd.segment g).primary p).route = .hard x))

/-- What changes only at the commands that the spec names: the frame counter at counted frame starts and cold reset (R44), the front page at those, at
RESTART and cold reset (R2), the unit number at ENUMERATE and cold reset (R160, R167), the canvas width at SET_CANVAS and cold reset (R8, R5), the mode at
SET_MODE, RESTART, cold reset and the end of start-up (R138, R139), the band table in force at an application, SET_CANVAS, RESTART and cold reset (R21).
Where a frame timer falls due before the command's moment, its own row comes first (statement TimersExpire). -/
def Obligations.ChangesOnlyWhereNamed : Prop :=
  ∀ (c : Instr) (s t : State), (∀ m, s.momentOf c = some m → s.Timely m) → exec c s = .next t →
    let cold := ∃ r b, c = .coldReset r b
    let counted := (∃ m, c = .syncEdge m) ∨ c = .freeRunTimerExpiry ∨ ∃ k, c = .setSync k
    let restart := ∃ k, c = .restart k
    let canvas := ∃ k, c = .setCanvas k
    (t.ft.counter ≠ s.ft.counter → counted ∨ cold) ∧
    (t.fs.front ≠ s.fs.front → counted ∨ restart ∨ cold) ∧
    (t.li.unit ≠ s.li.unit → (∃ f, c = .enumerate f) ∨ cold) ∧
    (t.fs.width ≠ s.fs.width → canvas ∨ cold) ∧
    (t.mc.mode ≠ s.mc.mode → (∃ k, c = .setMode k) ∨ restart ∨ cold ∨ ∃ m, c = .startupEnd m) ∧
    (t.pu.live.bands ≠ s.pu.live.bands → counted ∨ canvas ∨ restart ∨ cold)

/-! ## Start-up begins -/

/-- STARTUP_BEGIN completes: when power comes good with the cold-reset line released, and when the line is released with power good, the hold ends and
the start-up state becomes STARTING, and nothing else changes; when the other of the two still holds the tile, only what came is noted and the tile stays
held (R143). Of a tile that is not held, the row is an event that cannot happen, and it leaves the tile as it is: the model's reading (DEDUCED, log 3). -/
def Obligations.StartupBegins : Prop :=
  ∀ s : State,
    (s.powerGood = false → s.resetLine = false →
      exec (.startupBegin .powerGood) s = .next { s with powerGood := true, mc := { s.mc with startUp := .starting } }) ∧
    (s.powerGood = true → s.resetLine = true →
      exec (.startupBegin .lineReleased) s = .next { s with resetLine := false, mc := { s.mc with startUp := .starting } }) ∧
    (s.resetLine = true → ∃ t, exec (.startupBegin .powerGood) s = .next t ∧ t = { s with powerGood := true } ∧ t.running = false) ∧
    (s.powerGood = false → ∃ t, exec (.startupBegin .lineReleased) s = .next t ∧ t = { s with resetLine := false } ∧ t.running = false) ∧
    (s.running = true → ∀ c, exec (.startupBegin c) s = .next s)
end

