-- ==== Sys2Proof/Laws/Map.lean ====
section
/-! SUPPORT. The repair map: a record read after a record written, the fault-handling rule and the other map operations case by case, what
keeps routes and uses matched (R80), and the search for the next channel that is not skipped. -/

namespace Sys2Proof.Machine

/-! ## Records read after a write -/

@[simp] theorem get_put {α : Type} (x : SparePair α) (k k' : SpareId) (a : α) :
    (x.put k a).get k' = if k' = k then a else x.get k' := by
  cases k <;> cases k' <;> rfl

@[simp] theorem putPrimary_primary (g : Segment) (p p' : Fin 16) (x : Primary) :
    (g.putPrimary p x).primary p' = if p' = p then x else g.primary p' := by
  unfold Segment.putPrimary Segment.primary
  by_cases h : p' = p
  · subst h; simp [Vector.get_eq_getElem, Vector.getElem_set_self]
  · have h' : p.val ≠ p'.val := fun e => h (Fin.ext e.symm)
    rw [if_neg h]
    simp only [Vector.get_eq_getElem]
    exact Vector.getElem_set_ne _ _ h'

@[simp] theorem putPrimary_spare (g : Segment) (p : Fin 16) (x : Primary) (k : SpareId) :
    (g.putPrimary p x).spare k = g.spare k := rfl

@[simp] theorem putSpare_primary (g : Segment) (k : SpareId) (x : Spare) (p : Fin 16) :
    (g.putSpare k x).primary p = g.primary p := rfl

@[simp] theorem putSpare_spare (g : Segment) (k k' : SpareId) (x : Spare) :
    (g.putSpare k x).spare k' = if k' = k then x else g.spare k' := by
  unfold Segment.putSpare Segment.spare
  exact get_put _ _ _ _

@[simp] theorem segment_putSegment (x : RowDrive) (s s' : Fin 6) (g : Segment) :
    (x.putSegment s g).segment s' = if s' = s then g else x.segment s' := by
  unfold RowDrive.putSegment RowDrive.segment
  by_cases h : s' = s
  · subst h; simp [Vector.get_eq_getElem, Vector.getElem_set_self]
  · have h' : s.val ≠ s'.val := fun e => h (Fin.ext e.symm)
    rw [if_neg h]
    simp only [Vector.get_eq_getElem]
    exact Vector.getElem_set_ne _ _ h'

@[simp] theorem putSegment_policy (x : RowDrive) (s : Fin 6) (g : Segment) : (x.putSegment s g).policy = x.policy := rfl
@[simp] theorem putSegment_latch (x : RowDrive) (s : Fin 6) (g : Segment) : (x.putSegment s g).latch = x.latch := rfl

/-- A segment put replaces that segment and nothing else. -/
theorem putSegment_replaces (x : RowDrive) (s : Fin 6) (g : Segment) : x.Replaces (x.putSegment s g) s g :=
  ⟨rfl, rfl, fun s' => segment_putSegment x s s' g⟩

@[simp] theorem get_set_held (x : FuseStore) (y : Subject) (c : FuseClass) (g : Fin 6) (k : SpareId) :
    (x.putHeld y c).classOf g k = if g = y.seg ∧ k = y.spare then c else x.classOf g k := by
  unfold FuseStore.putHeld FuseStore.classOf
  by_cases h : g = y.seg
  · subst h
    simp [Vector.get_eq_getElem, Vector.getElem_set_self]
  · have h' : y.seg.val ≠ g.val := fun e => h (Fin.ext e.symm)
    simp only [Vector.get_eq_getElem, h, false_and, if_false]
    rw [Vector.getElem_set_ne _ _ h']

/-- A fuse record read after one is put. -/
theorem putRecord_fuses (x : FuseStore) (y : Subject) (r : FuseRecord) (g : Fin 6) (k : SpareId) :
    ((x.putRecord y r).fuses.get g).get k = if g = y.seg ∧ k = y.spare then r else (x.fuses.get g).get k := by
  unfold FuseStore.putRecord
  by_cases h : g = y.seg
  · subst h
    simp [Vector.get_eq_getElem, Vector.getElem_set_self]
  · have h' : y.seg.val ≠ g.val := fun e => h (Fin.ext e.symm)
    simp only [Vector.get_eq_getElem, h, false_and, if_false]
    rw [Vector.getElem_set_ne _ _ h']

@[simp] theorem putRecord_held (x : FuseStore) (y : Subject) (r : FuseRecord) : (x.putRecord y r).held = x.held := rfl
@[simp] theorem putRecord_burn (x : FuseStore) (y : Subject) (r : FuseRecord) : (x.putRecord y r).burn = x.burn := rfl
@[simp] theorem putRecord_entered (x : FuseStore) (y : Subject) (r : FuseRecord) : (x.putRecord y r).entered = x.entered := rfl
@[simp] theorem putHeld_fuses (x : FuseStore) (y : Subject) (c : FuseClass) : (x.putHeld y c).fuses = x.fuses := rfl
@[simp] theorem putHeld_burn (x : FuseStore) (y : Subject) (c : FuseClass) : (x.putHeld y c).burn = x.burn := rfl
@[simp] theorem putHeld_entered (x : FuseStore) (y : Subject) (c : FuseClass) : (x.putHeld y c).entered = x.entered := rfl

/-- The blows of a burn step touch neither the classifications nor the engine. -/
theorem blow_keeps (x : FuseStore) (b : Blows) :
    (x.blow b).held = x.held ∧ (x.blow b).burn = x.burn ∧ (x.blow b).entered = x.entered := by
  unfold FuseStore.blow
  cases h : x.burn <;> simp [h]

/-! ## Conditions, routes, uses -/

theorem setCondition_primary (g : Segment) (ch : Channel) (c : Condition) (p : Fin 16) :
    (g.setCondition ch c).primary p = if ch = .primary p then { g.primary p with condition := c } else g.primary p := by
  unfold Segment.setCondition
  cases ch with
  | primary p' =>
    by_cases h : p' = p
    · subst h; simp
    · have h2 : p ≠ p' := fun e => h e.symm
      simp [h, h2]
  | spare k => simp

theorem setCondition_spare (g : Segment) (ch : Channel) (c : Condition) (k : SpareId) :
    (g.setCondition ch c).spare k = if ch = .spare k then { g.spare k with condition := c } else g.spare k := by
  unfold Segment.setCondition
  cases ch with
  | primary p' => simp
  | spare k' =>
    by_cases h : k' = k
    · subst h; simp
    · have h2 : k ≠ k' := fun e => h e.symm
      simp [h, h2]

/-- Setting a condition sets that condition and nothing else. -/
theorem setCondition_sets (g : Segment) (ch : Channel) (c : Condition) : g.SetsCondition (g.setCondition ch c) ch c :=
  ⟨setCondition_primary g ch c, setCondition_spare g ch c⟩

/-- Setting a route and a use together, as every event that writes a route does (R80). -/
theorem reroute_reroutes (g : Segment) (p : Fin 16) (r : Route) (k : SpareId) (u : Use) :
    g.Reroutes ((g.setRoute p r).setUse k u) p r k u := by
  constructor
  · intro p'
    unfold Segment.setUse Segment.setRoute
    by_cases h : p' = p
    · subst h; simp
    · simp [h]
  · intro k'
    unfold Segment.setUse Segment.setRoute
    by_cases h : k' = k
    · subst h; simp
    · simp [h]

theorem makeSoft_reroutes (g : Segment) (p : Fin 16) (k : SpareId) : g.Reroutes (g.makeSoft p k) p (.soft k) k (.soft p) :=
  reroute_reroutes g p _ k _

theorem dropSoft_reroutes (g : Segment) (p : Fin 16) (k : SpareId) : g.Reroutes (g.dropSoft p k) p .direct k .free :=
  reroute_reroutes g p _ k _

theorem makeHard_reroutes (g : Segment) (p : Fin 16) (k : SpareId) : g.Reroutes (g.makeHard p k) p (.hard k) k (.hard p) :=
  reroute_reroutes g p _ k _

theorem spoil_reroutes (g : Segment) (p : Fin 16) (k : SpareId) : g.Reroutes (g.spoil p k) p .direct k .damaged :=
  reroute_reroutes g p _ k _

/-- A rerouting of one segment put back into the map. -/
theorem rewrites_of_reroutes (x : RowDrive) (g : Fin 6) (a : Segment) (p : Fin 16) (r : Route) (k : SpareId) (u : Use)
    (h : (x.segment g).Reroutes a p r k u) : x.Rewrites (x.putSegment g a) g p r k u := by
  refine ⟨rfl, rfl, ?_, ?_⟩
  · intro g' p'
    rw [segment_putSegment]
    by_cases hg : g' = g
    · subst hg
      rw [if_pos rfl, h.1 p']
      by_cases hp : p' = p <;> simp [hp]
    · rw [if_neg hg, if_neg fun c => hg c.1]
  · intro g' k'
    rw [segment_putSegment]
    by_cases hg : g' = g
    · subst hg
      rw [if_pos rfl, h.2 k']
      by_cases hk : k' = k <;> simp [hk]
    · rw [if_neg hg, if_neg fun c => hg c.1]

/-- A spare is available exactly when it is FREE and SOUND (R79). -/
theorem available_iff (g : Segment) (k : SpareId) :
    g.available k = true ↔ (g.spare k).use = .free ∧ (g.spare k).condition = .sound := by
  unfold Segment.available
  simp

/-- The spare that a new soft route takes is available, and s.17 is taken only when s.16 is not (R85). -/
theorem firstAvailable_some {g : Segment} {k : SpareId} (h : g.firstAvailable = some k) :
    g.available k = true ∧ (k = .s17 → g.available .s16 = false) := by
  unfold Segment.firstAvailable at h
  cases h16 : g.available .s16 with
  | true => simp [h16] at h; subst h; simp [h16]
  | false =>
    simp [h16] at h
    obtain ⟨h17, rfl⟩ := h
    exact ⟨h17, fun _ => rfl⟩

/-- No spare is taken exactly when none is available. -/
theorem firstAvailable_none {g : Segment} : g.firstAvailable = none ↔ g.available .s16 = false ∧ g.available .s17 = false := by
  unfold Segment.firstAvailable
  cases g.available .s16 <;> cases g.available .s17 <;> simp

/-! ## Routes and uses stay matched (R80) -/

/-- A condition set on a channel that is not a SOFT-used spare, or set SOUND, keeps the match. -/
theorem setCondition_matched {g : Segment} (h : g.Matched) (ch : Channel) (c : Condition)
    (hc : c = .sound ∨ ∀ k, ch = .spare k → ∀ p, (g.spare k).use ≠ .soft p) : (g.setCondition ch c).Matched := by
  have hr : ∀ p, ((g.setCondition ch c).primary p).route = (g.primary p).route := by
    intro p; rw [setCondition_primary]; split <;> rfl
  have hu : ∀ k, ((g.setCondition ch c).spare k).use = (g.spare k).use := by
    intro k; rw [setCondition_spare]; split <;> rfl
  refine ⟨fun p k => by rw [hr, hu]; exact h.soft p k, fun p k => by rw [hr, hu]; exact h.hard p k, ?_⟩
  intro p k hk
  rw [hu] at hk
  rw [setCondition_spare]
  split
  · rename_i he
    rcases hc with rfl | hc
    · rfl
    · exact absurd hk (hc k he p)
  · exact h.softSound p k hk

/-- A soft route made from a DIRECT primary to an available spare keeps the match. -/
theorem makeSoft_matched {g : Segment} (h : g.Matched) {p : Fin 16} {k : SpareId} (hd : (g.primary p).route = .direct)
    (ha : g.available k = true) : (g.makeSoft p k).Matched := by
  obtain ⟨hf, hs⟩ := (available_iff g k).1 ha
  obtain ⟨r1, r2⟩ := makeSoft_reroutes g p k
  have hnp : ∀ p', (g.primary p').route ≠ .soft k ∧ (g.primary p').route ≠ .hard k := by
    intro p'
    refine ⟨fun e => ?_, fun e => ?_⟩
    · rw [(h.soft p' k).1 e] at hf; cases hf
    · rw [(h.hard p' k).1 e] at hf; cases hf
  have hnk : ∀ k', (g.spare k').use ≠ .soft p ∧ (g.spare k').use ≠ .hard p := by
    intro k'
    refine ⟨fun e => ?_, fun e => ?_⟩
    · rw [(h.soft p k').2 e] at hd; cases hd
    · rw [(h.hard p k').2 e] at hd; cases hd
  refine ⟨?_, ?_, ?_⟩
  · intro p' k'
    rw [r1, r2]
    by_cases hp : p' = p <;> by_cases hk : k' = k
    · subst hp; subst hk; simp
    · subst hp; simp [hk, (hnk k').1]; intro e; exact hk e.symm
    · subst hk; simp [hp, (hnp p').1]; intro e; exact hp e.symm
    · simp [hp, hk, h.soft p' k']
  · intro p' k'
    rw [r1, r2]
    by_cases hp : p' = p <;> by_cases hk : k' = k
    · subst hp; subst hk; simp
    · subst hp; simp [hk, (hnk k').2]
    · subst hk; simp [hp, (hnp p').2]
    · simp [hp, hk, h.hard p' k']
  · intro p' k' he
    rw [r2] at he ⊢
    by_cases hk : k' = k
    · subst hk; simp [hs]
    · simp [hk] at he ⊢; exact h.softSound p' k' he

/-- A soft route removed keeps the match. -/
theorem dropSoft_matched {g : Segment} (h : g.Matched) {p : Fin 16} {k : SpareId} (hr : (g.primary p).route = .soft k) :
    (g.dropSoft p k).Matched := by
  obtain ⟨r1, r2⟩ := dropSoft_reroutes g p k
  have hu := (h.soft p k).1 hr
  refine ⟨?_, ?_, ?_⟩
  · intro p' k'
    rw [r1, r2]
    by_cases hp : p' = p <;> by_cases hk : k' = k
    · subst hp; subst hk; simp
    · subst hp; simp [hk]; intro e; have := (h.soft p' k').2 e; rw [hr] at this; cases this; exact hk rfl
    · subst hk; simp [hp]; intro e; have := (h.soft p' k').1 e; rw [hu] at this; cases this; exact hp rfl
    · simp [hp, hk, h.soft p' k']
  · intro p' k'
    rw [r1, r2]
    by_cases hp : p' = p <;> by_cases hk : k' = k
    · subst hp; subst hk; simp
    · subst hp; simp [hk]; intro e; have := (h.hard p' k').2 e; rw [hr] at this; cases this
    · subst hk; simp [hp]; intro e; have := (h.hard p' k').1 e; rw [hu] at this; cases this
    · simp [hp, hk, h.hard p' k']
  · intro p' k' he
    rw [r2] at he ⊢
    by_cases hk : k' = k
    · subst hk; simp at he
    · simp [hk] at he ⊢; exact h.softSound p' k' he

/-- A soft route made HARD keeps the match. -/
theorem makeHard_matched {g : Segment} (h : g.Matched) {p : Fin 16} {k : SpareId} (hr : (g.primary p).route = .soft k) :
    (g.makeHard p k).Matched := by
  obtain ⟨r1, r2⟩ := makeHard_reroutes g p k
  have hu := (h.soft p k).1 hr
  refine ⟨?_, ?_, ?_⟩
  · intro p' k'
    rw [r1, r2]
    by_cases hp : p' = p <;> by_cases hk : k' = k
    · subst hp; subst hk; simp
    · subst hp; simp [hk]; intro e; have := (h.soft p' k').2 e; rw [hr] at this; cases this; exact hk rfl
    · subst hk; simp [hp]; intro e; have := (h.soft p' k').1 e; rw [hu] at this; cases this; exact hp rfl
    · simp [hp, hk, h.soft p' k']
  · intro p' k'
    rw [r1, r2]
    by_cases hp : p' = p <;> by_cases hk : k' = k
    · subst hp; subst hk; simp
    · subst hp
      simp [hk]
      refine ⟨fun e => absurd e.symm hk, fun e => ?_⟩
      have := (h.hard p' k').2 e; rw [hr] at this; cases this
    · subst hk
      simp [hp]
      refine ⟨fun e => ?_, fun e => absurd e.symm hp⟩
      have := (h.hard p' k').1 e; rw [hu] at this; cases this
    · simp [hp, hk, h.hard p' k']
  · intro p' k' he
    rw [r2] at he ⊢
    by_cases hk : k' = k
    · subst hk; simp at he
    · simp [hk] at he ⊢; exact h.softSound p' k' he

/-- The end of a failed burn keeps the match. -/
theorem spoil_matched {g : Segment} (h : g.Matched) {p : Fin 16} {k : SpareId} (hr : (g.primary p).route = .soft k) :
    (g.spoil p k).Matched := by
  obtain ⟨r1, r2⟩ := spoil_reroutes g p k
  have hu := (h.soft p k).1 hr
  refine ⟨?_, ?_, ?_⟩
  · intro p' k'
    rw [r1, r2]
    by_cases hp : p' = p <;> by_cases hk : k' = k
    · subst hp; subst hk; simp
    · subst hp; simp [hk]; intro e; have := (h.soft p' k').2 e; rw [hr] at this; cases this; exact hk rfl
    · subst hk; simp [hp]; intro e; have := (h.soft p' k').1 e; rw [hu] at this; cases this; exact hp rfl
    · simp [hp, hk, h.soft p' k']
  · intro p' k'
    rw [r1, r2]
    by_cases hp : p' = p <;> by_cases hk : k' = k
    · subst hp; subst hk; simp
    · subst hp; simp [hk]; intro e; have := (h.hard p' k').2 e; rw [hr] at this; cases this
    · subst hk; simp [hp]; intro e; have := (h.hard p' k').1 e; rw [hu] at this; cases this
    · simp [hp, hk, h.hard p' k']
  · intro p' k' he
    rw [r2] at he ⊢
    by_cases hk : k' = k
    · subst hk; simp at he
    · simp [hk] at he ⊢; exact h.softSound p' k' he

/-! ## The fault-handling rule and the test results on a segment -/

/-- From `g` to `a` no spare enters or leaves HARD or DAMAGED use. -/
def Segment.KeepsHard (g a : Segment) : Prop :=
  ∀ k, (∀ p, (a.spare k).use = .hard p ↔ (g.spare k).use = .hard p) ∧ ((a.spare k).use = .damaged ↔ (g.spare k).use = .damaged)

theorem keepsHard_refl (g : Segment) : g.KeepsHard g := fun _ => ⟨fun _ => Iff.rfl, Iff.rfl⟩

theorem keepsHard_trans {g a b : Segment} (h1 : g.KeepsHard a) (h2 : a.KeepsHard b) : g.KeepsHard b :=
  fun k => ⟨fun p => ((h2 k).1 p).trans ((h1 k).1 p), (h2 k).2.trans (h1 k).2⟩

@[simp] theorem setCondition_route (g : Segment) (ch : Channel) (c : Condition) (p : Fin 16) :
    ((g.setCondition ch c).primary p).route = (g.primary p).route := by
  rw [setCondition_primary]; split <;> rfl

@[simp] theorem setCondition_use (g : Segment) (ch : Channel) (c : Condition) (k : SpareId) :
    ((g.setCondition ch c).spare k).use = (g.spare k).use := by
  rw [setCondition_spare]; split <;> rfl

theorem setCondition_keepsHard (g : Segment) (ch : Channel) (c : Condition) : g.KeepsHard (g.setCondition ch c) := by
  intro k; simp

theorem makeSoft_keepsHard {g : Segment} {p : Fin 16} {k : SpareId} (ha : g.available k = true) : g.KeepsHard (g.makeSoft p k) := by
  obtain ⟨hf, _⟩ := (available_iff g k).1 ha
  intro k'
  rw [(makeSoft_reroutes g p k).2]
  by_cases h : k' = k
  · subst h; simp [hf]
  · simp [h]

theorem dropSoft_keepsHard {g : Segment} {p : Fin 16} {k : SpareId} (hu : (g.spare k).use = .soft p) : g.KeepsHard (g.dropSoft p k) := by
  intro k'
  rw [(dropSoft_reroutes g p k).2]
  by_cases h : k' = k
  · subst h; simp [hu]
  · simp [h]

/-- A soft route dropped from a spare whose condition was just set: the same as the condition set after the drop. -/
theorem setCondition_dropSoft (g : Segment) (p : Fin 16) (k : SpareId) (c : Condition) :
    (g.setCondition (.spare k) c).dropSoft p k = (g.dropSoft p k).setCondition (.spare k) c := by
  cases k <;> rfl

@[simp] theorem makeSoft_route (g : Segment) (p : Fin 16) (k : SpareId) (p' : Fin 16) :
    ((g.makeSoft p k).primary p').route = if p' = p then .soft k else (g.primary p').route := by
  rw [(makeSoft_reroutes g p k).1]; split <;> rfl

@[simp] theorem dropSoft_route (g : Segment) (p : Fin 16) (k : SpareId) (p' : Fin 16) :
    ((g.dropSoft p k).primary p').route = if p' = p then .direct else (g.primary p').route := by
  rw [(dropSoft_reroutes g p k).1]; split <;> rfl

/-- The fault-handling rule keeps the match and the HARD and DAMAGED uses, and the soft route of a primary other than the channel to a spare
other than the channel. -/
theorem fault_keeps {g : Segment} (h : g.Matched) (policy : Policy) (ch : Channel) (c : Condition) :
    (g.fault policy ch c).1.Matched ∧ g.KeepsHard (g.fault policy ch c).1 ∧
    ∀ p k, ch ≠ .spare k → (g.primary p).route = .soft k → ((g.fault policy ch c).1.primary p).route = .soft k := by
  cases ch with
  | primary q =>
    have hm := setCondition_matched h (.primary q) c (Or.inr (by simp))
    have hk := setCondition_keepsHard g (.primary q) c
    unfold Segment.fault
    simp only [setCondition_route]
    cases hr : (g.primary q).route with
    | soft k => exact ⟨hm, hk, fun p k' _ e => by simpa using e⟩
    | hard k => exact ⟨hm, hk, fun p k' _ e => by simpa using e⟩
    | direct =>
      cases policy with
      | manual => exact ⟨hm, hk, fun p k' _ e => by simpa using e⟩
      | auto =>
        simp only
        cases hf : (g.setCondition (.primary q) c).firstAvailable with
        | none => exact ⟨hm, hk, fun p k' _ e => by simpa using e⟩
        | some k =>
          obtain ⟨ha, _⟩ := firstAvailable_some hf
          refine ⟨makeSoft_matched hm (by simpa using hr) ha, keepsHard_trans hk (makeSoft_keepsHard ha), ?_⟩
          intro p k' _ e
          by_cases hp : p = q
          · subst hp; rw [hr] at e; cases e
          · simp [hp, e]
  | spare k =>
    unfold Segment.fault
    simp only [setCondition_use]
    cases hu : (g.spare k).use with
    | free =>
      exact ⟨setCondition_matched h (.spare k) c (Or.inr (by intro k' e p; cases e; simp [hu])), setCondition_keepsHard g _ c,
        fun p k' _ e => by simpa using e⟩
    | hard q =>
      exact ⟨setCondition_matched h (.spare k) c (Or.inr (by intro k' e p; cases e; simp [hu])), setCondition_keepsHard g _ c,
        fun p k' _ e => by simpa using e⟩
    | damaged =>
      exact ⟨setCondition_matched h (.spare k) c (Or.inr (by intro k' e p; cases e; simp [hu])), setCondition_keepsHard g _ c,
        fun p k' _ e => by simpa using e⟩
    | soft q =>
      have hr := (h.soft q k).2 hu
      have hd := dropSoft_matched h hr
      have hfree : ((g.dropSoft q k).spare k).use = .free := by rw [(dropSoft_reroutes g q k).2]; simp
      have hm : ((g.dropSoft q k).setCondition (.spare k) c).Matched :=
        setCondition_matched hd _ c (Or.inr (by rintro k' ⟨⟩ p; simp [hfree]))
      have hk : g.KeepsHard ((g.dropSoft q k).setCondition (.spare k) c) :=
        keepsHard_trans (dropSoft_keepsHard hu) (setCondition_keepsHard _ _ c)
      have keep : ∀ p k', Channel.spare k ≠ .spare k' → (g.primary p).route = .soft k' → p ≠ q := by
        intro p k' hne e hp
        subst hp; rw [hr] at e; cases e; exact hne rfl
      simp only [setCondition_dropSoft]
      cases policy with
      | manual => exact ⟨hm, hk, fun p k' hne e => by simp [keep p k' hne e, e]⟩
      | auto =>
        simp only
        cases ha : ((g.dropSoft q k).setCondition (.spare k) c).available k.other with
        | false => exact ⟨hm, hk, fun p k' hne e => by simp [keep p k' hne e, e]⟩
        | true =>
          exact ⟨makeSoft_matched hm (by simp) ha, keepsHard_trans hk (makeSoft_keepsHard ha),
            fun p k' hne e => by simp [keep p k' hne e, e]⟩

/-- A faulty spare is not in SOFT use. -/
theorem not_soft_of_faulty {g : Segment} (h : g.Matched) {ch : Channel} (hf : g.condition ch ≠ .sound) :
    ∀ k, ch = .spare k → ∀ p, (g.spare k).use ≠ .soft p := by
  intro k hk p hu
  subst hk
  exact hf (h.softSound p k hu)

/-- A test result keeps what the fault-handling rule keeps. -/
theorem segment_applyTest_keeps {g : Segment} (h : g.Matched) (policy : Policy) (ch : Channel) (r : TestResult) :
    (g.applyTest policy ch r).1.Matched ∧ g.KeepsHard (g.applyTest policy ch r).1 ∧
    ∀ p k, ch ≠ .spare k → (g.primary p).route = .soft k → ((g.applyTest policy ch r).1.primary p).route = .soft k := by
  unfold Segment.applyTest
  cases hc : g.condition ch with
  | marked => exact ⟨h, keepsHard_refl g, fun _ _ _ e => e⟩
  | sound =>
    simp only
    split
    · exact ⟨h, keepsHard_refl g, fun _ _ _ e => e⟩
    · exact fault_keeps h policy ch _
  | openFault =>
    exact ⟨setCondition_matched h ch _ (Or.inr (not_soft_of_faulty h (by simp [hc]))), setCondition_keepsHard g ch _,
      fun _ _ _ e => by simpa using e⟩
  | shortFault =>
    exact ⟨setCondition_matched h ch _ (Or.inr (not_soft_of_faulty h (by simp [hc]))), setCondition_keepsHard g ch _,
      fun _ _ _ e => by simpa using e⟩

/-- MARK_FAULTY keeps what the fault-handling rule keeps. -/
theorem mark_keeps {g : Segment} (h : g.Matched) (policy : Policy) (ch : Channel) :
    (g.mark policy ch).1.Matched ∧ g.KeepsHard (g.mark policy ch).1 ∧
    ∀ p k, ch ≠ .spare k → (g.primary p).route = .soft k → ((g.mark policy ch).1.primary p).route = .soft k := by
  unfold Segment.mark
  cases hc : g.condition ch with
  | marked => exact ⟨h, keepsHard_refl g, fun _ _ _ e => e⟩
  | sound => exact fault_keeps h policy ch _
  | openFault =>
    exact ⟨setCondition_matched h ch _ (Or.inr (not_soft_of_faulty h (by simp [hc]))), setCondition_keepsHard g ch _,
      fun _ _ _ e => by simpa using e⟩
  | shortFault =>
    exact ⟨setCondition_matched h ch _ (Or.inr (not_soft_of_faulty h (by simp [hc]))), setCondition_keepsHard g ch _,
      fun _ _ _ e => by simpa using e⟩

/-! ## The map build (R83) -/

@[simp] theorem fresh_primary (p : Fin 16) : Segment.fresh.primary p = { condition := .sound, route := .direct } := by
  unfold Segment.fresh Segment.primary
  simp [Vector.get_eq_getElem]

@[simp] theorem fresh_spare (k : SpareId) : Segment.fresh.spare k = { condition := .sound, use := .free } := by
  cases k <;> rfl

/-- A segment with every channel fresh matches. -/
theorem fresh_matched : Segment.fresh.Matched := ⟨by simp, by simp, by simp⟩

@[simp] theorem makeHard_route (g : Segment) (q : Fin 16) (x : SpareId) (p : Fin 16) :
    ((g.makeHard q x).primary p).route = if p = q then .hard x else (g.primary p).route := by
  rw [(makeHard_reroutes g q x).1]; split <;> rfl

@[simp] theorem makeHard_primaryCondition (g : Segment) (q : Fin 16) (x : SpareId) (p : Fin 16) :
    ((g.makeHard q x).primary p).condition = (g.primary p).condition := by
  rw [(makeHard_reroutes g q x).1]; split
  · rename_i h; subst h; rfl
  · rfl

@[simp] theorem makeHard_use (g : Segment) (q : Fin 16) (x k : SpareId) :
    ((g.makeHard q x).spare k).use = if k = x then .hard q else (g.spare k).use := by
  rw [(makeHard_reroutes g q x).2]; split <;> rfl

@[simp] theorem makeHard_spareCondition (g : Segment) (q : Fin 16) (x k : SpareId) :
    ((g.makeHard q x).spare k).condition = (g.spare k).condition := by
  rw [(makeHard_reroutes g q x).2]; split
  · rename_i h; subst h; rfl
  · rfl

@[simp] theorem setUse_primary (g : Segment) (x : SpareId) (u : Use) (p : Fin 16) : (g.setUse x u).primary p = g.primary p := rfl

@[simp] theorem setUse_use (g : Segment) (x k : SpareId) (u : Use) :
    ((g.setUse x u).spare k).use = if k = x then u else (g.spare k).use := by
  unfold Segment.setUse
  rw [putSpare_spare]; split <;> rfl

@[simp] theorem setUse_condition (g : Segment) (x k : SpareId) (u : Use) :
    ((g.setUse x u).spare k).condition = (g.spare k).condition := by
  unfold Segment.setUse
  rw [putSpare_spare]; split
  · rename_i h; subst h; rfl
  · rfl

/-- The records of a built segment, by the classifications of its two records, which do not both name one primary (R83, R104). -/
theorem build_records (held : SparePair FuseClass) (hne : ∀ p, ¬ (held.v16 = .programmed p ∧ held.v17 = .programmed p)) :
    (∀ p, ((Segment.build held).primary p).condition = .sound ∧
      (∀ k, ((Segment.build held).primary p).route = .hard k ↔ held.get k = .programmed p) ∧
      ((∀ k, held.get k ≠ .programmed p) → ((Segment.build held).primary p).route = .direct)) ∧
    (∀ k, ((Segment.build held).spare k).condition = .sound ∧
      ((Segment.build held).spare k).use =
        (match held.get k with
          | .programmed p => .hard p
          | .damaged | .inconsistent => .damaged
          | .blank | .writing => .free)) := by
  obtain ⟨a, b⟩ := held
  refine ⟨fun p => ⟨?_, ?_, ?_⟩, fun k => ⟨?_, ?_⟩⟩
  · cases a <;> cases b <;> simp [Segment.build, Segment.buildSpare]
  · intro k
    have hn := hne p
    cases a <;> cases b <;> cases k <;> simp [Segment.build, Segment.buildSpare, SparePair.get] at hn ⊢
    all_goals first
      | exact eq_comm
      | exact ⟨fun e => e.symm, fun e => e.symm⟩
      | skip
    all_goals repeat' split
    all_goals simp_all [eq_comm]
  · intro hp
    have h16 := hp .s16
    have h17 := hp .s17
    cases a <;> cases b <;> simp [Segment.build, Segment.buildSpare, SparePair.get] at h16 h17 ⊢
    all_goals repeat' split
    all_goals simp_all [eq_comm]
  · cases a <;> cases b <;> cases k <;> simp [Segment.build, Segment.buildSpare]
  · cases a <;> cases b <;> cases k <;> simp [Segment.build, Segment.buildSpare, SparePair.get]

/-! ## The start-up read (R102, R104) -/

/-- A class read from fuses is never WRITING. -/
theorem classify_ne_writing (r : FuseRecord) : r.classify ≠ .writing := by
  unfold FuseRecord.classify
  repeat' split
  all_goals simp

/-- The start-up read of record s.16 is its class. -/
theorem readPair_s16 (r : SparePair FuseRecord) : (readPair r).v16 = r.v16.classify := by
  unfold readPair
  cases h1 : r.v16.classify <;> cases h2 : r.v17.classify <;> simp
  split <;> rfl

/-- The start-up read of record s.17 is its class, and DAMAGED when both records name one primary (R104). -/
theorem readPair_s17 (r : SparePair FuseRecord) :
    (readPair r).v17 =
      if ∃ p, r.v16.classify = .programmed p ∧ r.v17.classify = .programmed p then .damaged else r.v17.classify := by
  unfold readPair
  cases h1 : r.v16.classify <;> cases h2 : r.v17.classify <;> simp
  rename_i p q
  by_cases h : p = q
  · subst h; simp
  · have h' : ¬ q = p := fun e => h e.symm
    simp [h, h']

/-- The two records of a segment never both read as one primary. -/
theorem readPair_differ (r : SparePair FuseRecord) (p : Fin 16) :
    ¬ ((readPair r).v16 = .programmed p ∧ (readPair r).v17 = .programmed p) := by
  rw [readPair_s16, readPair_s17]
  rintro ⟨h1, h2⟩
  split at h2
  · cases h2
  · rename_i h; exact h ⟨p, h1, h2⟩

/-- No start-up read is WRITING. -/
theorem readPair_ne_writing (r : SparePair FuseRecord) (k : SpareId) : (readPair r).get k ≠ .writing := by
  cases k
  · show (readPair r).v16 ≠ _
    rw [readPair_s16]; exact classify_ne_writing _
  · show (readPair r).v17 ≠ _
    rw [readPair_s17]; split
    · simp
    · exact classify_ne_writing _

@[simp] theorem startupRead_held (x : FuseStore) (g : Fin 6) : x.startupRead.held.get g = readPair (x.fuses.get g) := by
  unfold FuseStore.startupRead
  simp only [Vector.get_eq_getElem, Vector.getElem_map]

@[simp] theorem build_segment (held : Vector (SparePair FuseClass) 6) (g : Fin 6) :
    (RowDrive.build held).segment g = Segment.build (held.get g) := by
  unfold RowDrive.build RowDrive.segment
  simp only [Vector.get_eq_getElem, Vector.getElem_map]

/-! ## The search for a channel -/

/-- Only spares are skipped. -/
theorem not_skips_primary (x : RowDrive) (g : GlobalChannel) (h : g.val % 18 < 16) : x.skips g = false := by
  unfold RowDrive.skips channelOf
  simp [h]

/-- The search stops at the first channel that is not skipped; the flag tells whether the way led past 107. -/
theorem seek_reaches (x : RowDrive) (n : Nat) (g : GlobalChannel) (w : Bool)
    (h : ∃ j, j ≤ n ∧ ∃ e : GlobalChannel, e.val = (g.val + j) % 108 ∧ x.skips e = false) :
    ∃ j, j ≤ n ∧ x.Reaches g j (x.seek n g w).1 ∧ ((x.seek n g w).2 = (w || decide (108 ≤ g.val + j)) ∨ 108 < j) := by
  induction n generalizing g w with
  | zero =>
    obtain ⟨j, hj, e, he, hs⟩ := h
    have h0 : j = 0 := by omega
    subst h0
    have hge : e = g := Fin.ext (by omega)
    subst hge
    refine ⟨0, Nat.le_refl 0, ⟨by simp [RowDrive.seek]; omega, by simpa [RowDrive.seek] using hs, by omega⟩, Or.inl ?_⟩
    simp [RowDrive.seek]
  | succ n ih =>
    by_cases hg : x.skips g = true
    · have hstep : ∃ j, j ≤ n ∧ ∃ e : GlobalChannel, e.val = ((g + 1).val + j) % 108 ∧ x.skips e = false := by
        obtain ⟨j, hj, e, he, hs⟩ := h
        cases j with
        | zero =>
          have : e = g := Fin.ext (by omega)
          subst this; rw [hg] at hs; cases hs
        | succ j =>
          refine ⟨j, by omega, e, ?_, hs⟩
          have : (g + 1).val = (g.val + 1) % 108 := by simp [Fin.val_add]
          rw [this]; omega
      obtain ⟨j, hj, hr, hw⟩ := ih (g + 1) (w || g == 107) hstep
      have hv : (g + 1).val = (g.val + 1) % 108 := by simp [Fin.val_add]
      have e1 : x.seek (n + 1) g w = x.seek n (g + 1) (w || g == 107) := by
        rw [RowDrive.seek]; simp [hg]
      refine ⟨j + 1, by omega, ?_, ?_⟩
      · rw [e1]
        refine ⟨?_, hr.2.1, ?_⟩
        · rw [hr.1, hv]; omega
        · intro i hi e he
          cases i with
          | zero =>
            have : e = g := Fin.ext (by omega)
            rw [this]; exact hg
          | succ i =>
            refine hr.2.2 i (by omega) e ?_
            rw [he, hv]; omega
      · rw [e1]
        rcases hw with hw | hw
        · by_cases hj : 108 < j + 1
          · exact Or.inr hj
          · refine Or.inl ?_
            rw [hw]
            have hlt := g.isLt
            by_cases h107 : g = 107
            · subst h107
              have h2 : 108 ≤ (107 : Fin 108).val + (j + 1) := by
                show 108 ≤ 107 + (j + 1)
                omega
              rw [decide_eq_true h2]
              simp
            · have h1 : g.val ≠ 107 := fun e => h107 (Fin.ext e)
              have h2 : (g + 1).val = g.val + 1 := by rw [hv]; omega
              rw [h2]
              have h3 : (g == 107) = false := by simpa using h107
              rw [h3, Bool.or_false]
              congr 2
              simp; omega
        · exact Or.inr (by omega)
    · have hs : x.skips g = false := by simpa using hg
      have e1 : x.seek (n + 1) g w = (g, w) := by rw [RowDrive.seek]; simp [hs]
      refine ⟨0, by omega, ?_, Or.inl ?_⟩
      · rw [e1]; exact ⟨by have := g.isLt; simp; omega, hs, by omega⟩
      · rw [e1]; have := g.isLt; simp

/-- From any channel a primary, which is never skipped, lies at most 2 channels on. -/
theorem near_primary (x : RowDrive) (g : GlobalChannel) :
    ∃ j, j ≤ 2 ∧ ∃ e : GlobalChannel, e.val = (g.val + j) % 108 ∧ x.skips e = false := by
  have hg := g.isLt
  by_cases h1 : g.val % 18 < 16
  · exact ⟨0, by omega, g, by omega, not_skips_primary x g h1⟩
  · by_cases h2 : g.val % 18 = 16
    · refine ⟨2, by omega, ⟨(g.val + 2) % 108, by omega⟩, rfl, not_skips_primary x _ ?_⟩
      show (g.val + 2) % 108 % 18 < 16
      omega
    · refine ⟨1, by omega, ⟨(g.val + 1) % 108, by omega⟩, rfl, not_skips_primary x _ ?_⟩
      show (g.val + 1) % 108 % 18 < 16
      omega

/-- `firstFrom` as R134 says it. -/
theorem firstFrom_reaches (x : RowDrive) (g : GlobalChannel) :
    ∃ j, j < 108 ∧ x.Reaches g j (x.firstFrom g).1 ∧ (x.firstFrom g).2 = decide (108 ≤ g.val + j) := by
  obtain ⟨i, hi, e, he, hs⟩ := near_primary x g
  obtain ⟨j, hj, hr, hw⟩ := seek_reaches x 108 g false ⟨i, by omega, e, he, hs⟩
  have hj3 : j ≤ i := by
    by_cases hc : j ≤ i
    · exact hc
    · have := hr.2.2 i (by omega) e he
      rw [hs] at this; cases this
  refine ⟨j, by omega, hr, ?_⟩
  rcases hw with hw | hw
  · simpa [RowDrive.firstFrom] using hw
  · omega

/-- `nextAfter` as R135 says it. -/
theorem nextAfter_reaches (x : RowDrive) (g : GlobalChannel) :
    ∃ j, j < 108 ∧ x.Reaches (g + 1) j (x.nextAfter g).1 ∧ (x.nextAfter g).2 = decide (108 ≤ g.val + 1 + j) := by
  obtain ⟨i, hi, e, he, hs⟩ := near_primary x (g + 1)
  obtain ⟨j, hj, hr, hw⟩ := seek_reaches x 108 (g + 1) (g == 107) ⟨i, by omega, e, he, hs⟩
  have hj3 : j ≤ i := by
    by_cases hc : j ≤ i
    · exact hc
    · have := hr.2.2 i (by omega) e he
      rw [hs] at this; cases this
  refine ⟨j, by omega, hr, ?_⟩
  rcases hw with hw | hw
  · unfold RowDrive.nextAfter
    rw [hw]
    have hlt := g.isLt
    have hv : (g + 1).val = (g.val + 1) % 108 := by simp [Fin.val_add]
    by_cases h107 : g = 107
    · subst h107
      have h2 : 108 ≤ (107 : Fin 108).val + 1 + j := by
        show 108 ≤ 107 + 1 + j
        omega
      rw [decide_eq_true h2]
      simp
    · have h1 : g.val ≠ 107 := fun e => h107 (Fin.ext e)
      have h3 : (g == 107) = false := by simpa using h107
      rw [h3, Bool.false_or, hv]
      congr 1
      simp; omega
  · omega

/-- The next channel of a scan: the first one after `g` that is not skipped (R122). -/
theorem scanNext_some (x : RowDrive) (g h : GlobalChannel) (hn : x.scanNext g = some h) :
    g.val < h.val ∧ x.skips h = false ∧ ∀ i : GlobalChannel, g.val < i.val → i.val < h.val → x.skips i = true := by
  obtain ⟨j, hj, ⟨hv, hs, hskip⟩, hw⟩ := nextAfter_reaches x g
  unfold RowDrive.scanNext at hn
  simp only at hn
  split at hn
  · cases hn
  · rename_i hc
    cases hn
    rw [hw] at hc
    simp at hc
    have hg1 : (g + 1).val = g.val + 1 := by
      have : (g + 1).val = (g.val + 1) % 108 := by simp [Fin.val_add]
      rw [this]; omega
    rw [hg1] at hv hskip
    refine ⟨by rw [hv]; omega, hs, ?_⟩
    intro i h1 h2
    rw [hv] at h2
    exact hskip (i.val - g.val - 1) (by omega) i (by omega)

/-- A scan has no next channel exactly when every channel after `g` is skipped (R122). -/
theorem scanNext_none (x : RowDrive) (g : GlobalChannel) (hn : x.scanNext g = none) :
    ∀ h : GlobalChannel, g.val < h.val → x.skips h = true := by
  obtain ⟨j, hj, ⟨hv, hs, hskip⟩, hw⟩ := nextAfter_reaches x g
  unfold RowDrive.scanNext at hn
  simp only at hn
  split at hn
  · rename_i hc
    rw [hw] at hc
    simp at hc
    intro h hh
    have hlt := h.isLt
    have hg1 : (g + 1).val = g.val + 1 := by
      have : (g + 1).val = (g.val + 1) % 108 := by simp [Fin.val_add]
      rw [this]; omega
    rw [hg1] at hskip
    exact hskip (h.val - g.val - 1) (by omega) h (by omega)
  · cases hn

end Sys2Proof.Machine
end

