-- ==== Sys2Proof/Laws/State.lean ====
section
/-! SUPPORT. One lemma per field per update of State, each true by rfl, so that no proof unfolds a record update; and the same for the
flags read through an update. -/

namespace Sys2Proof.Machine

variable (s : State)

@[simp] theorem withLi_li (x : LinkInterface) : (s.withLi x).li = x := rfl
@[simp] theorem withLi_ru (x : LinkInterface) : (s.withLi x).ru = s.ru := rfl
@[simp] theorem withLi_fs (x : LinkInterface) : (s.withLi x).fs = s.fs := rfl
@[simp] theorem withLi_pu (x : LinkInterface) : (s.withLi x).pu = s.pu := rfl
@[simp] theorem withLi_ft (x : LinkInterface) : (s.withLi x).ft = s.ft := rfl
@[simp] theorem withLi_cs (x : LinkInterface) : (s.withLi x).cs = s.cs := rfl
@[simp] theorem withLi_rd (x : LinkInterface) : (s.withLi x).rd = s.rd := rfl
@[simp] theorem withLi_fz (x : LinkInterface) : (s.withLi x).fz = s.fz := rfl
@[simp] theorem withLi_tu (x : LinkInterface) : (s.withLi x).tu = s.tu := rfl
@[simp] theorem withLi_mc (x : LinkInterface) : (s.withLi x).mc = s.mc := rfl
@[simp] theorem withLi_powerGood (x : LinkInterface) : (s.withLi x).powerGood = s.powerGood := rfl
@[simp] theorem withLi_resetLine (x : LinkInterface) : (s.withLi x).resetLine = s.resetLine := rfl
@[simp] theorem withLi_now (x : LinkInterface) : (s.withLi x).now = s.now := rfl
@[simp] theorem withLi_freeCount (x : LinkInterface) : (s.withLi x).freeCount = s.freeCount := rfl
@[simp] theorem withLi_pending (x : LinkInterface) : (s.withLi x).pending = s.pending := rfl

@[simp] theorem withRu_li (x : RequestUnit) : (s.withRu x).li = s.li := rfl
@[simp] theorem withRu_ru (x : RequestUnit) : (s.withRu x).ru = x := rfl
@[simp] theorem withRu_fs (x : RequestUnit) : (s.withRu x).fs = s.fs := rfl
@[simp] theorem withRu_pu (x : RequestUnit) : (s.withRu x).pu = s.pu := rfl
@[simp] theorem withRu_ft (x : RequestUnit) : (s.withRu x).ft = s.ft := rfl
@[simp] theorem withRu_cs (x : RequestUnit) : (s.withRu x).cs = s.cs := rfl
@[simp] theorem withRu_rd (x : RequestUnit) : (s.withRu x).rd = s.rd := rfl
@[simp] theorem withRu_fz (x : RequestUnit) : (s.withRu x).fz = s.fz := rfl
@[simp] theorem withRu_tu (x : RequestUnit) : (s.withRu x).tu = s.tu := rfl
@[simp] theorem withRu_mc (x : RequestUnit) : (s.withRu x).mc = s.mc := rfl
@[simp] theorem withRu_powerGood (x : RequestUnit) : (s.withRu x).powerGood = s.powerGood := rfl
@[simp] theorem withRu_resetLine (x : RequestUnit) : (s.withRu x).resetLine = s.resetLine := rfl
@[simp] theorem withRu_now (x : RequestUnit) : (s.withRu x).now = s.now := rfl
@[simp] theorem withRu_freeCount (x : RequestUnit) : (s.withRu x).freeCount = s.freeCount := rfl
@[simp] theorem withRu_pending (x : RequestUnit) : (s.withRu x).pending = s.pending := rfl

@[simp] theorem withFs_li (x : FrameStore) : (s.withFs x).li = s.li := rfl
@[simp] theorem withFs_ru (x : FrameStore) : (s.withFs x).ru = s.ru := rfl
@[simp] theorem withFs_fs (x : FrameStore) : (s.withFs x).fs = x := rfl
@[simp] theorem withFs_pu (x : FrameStore) : (s.withFs x).pu = s.pu := rfl
@[simp] theorem withFs_ft (x : FrameStore) : (s.withFs x).ft = s.ft := rfl
@[simp] theorem withFs_cs (x : FrameStore) : (s.withFs x).cs = s.cs := rfl
@[simp] theorem withFs_rd (x : FrameStore) : (s.withFs x).rd = s.rd := rfl
@[simp] theorem withFs_fz (x : FrameStore) : (s.withFs x).fz = s.fz := rfl
@[simp] theorem withFs_tu (x : FrameStore) : (s.withFs x).tu = s.tu := rfl
@[simp] theorem withFs_mc (x : FrameStore) : (s.withFs x).mc = s.mc := rfl
@[simp] theorem withFs_powerGood (x : FrameStore) : (s.withFs x).powerGood = s.powerGood := rfl
@[simp] theorem withFs_resetLine (x : FrameStore) : (s.withFs x).resetLine = s.resetLine := rfl
@[simp] theorem withFs_now (x : FrameStore) : (s.withFs x).now = s.now := rfl
@[simp] theorem withFs_freeCount (x : FrameStore) : (s.withFs x).freeCount = s.freeCount := rfl
@[simp] theorem withFs_pending (x : FrameStore) : (s.withFs x).pending = s.pending := rfl

@[simp] theorem withPu_li (x : Presentation) : (s.withPu x).li = s.li := rfl
@[simp] theorem withPu_ru (x : Presentation) : (s.withPu x).ru = s.ru := rfl
@[simp] theorem withPu_fs (x : Presentation) : (s.withPu x).fs = s.fs := rfl
@[simp] theorem withPu_pu (x : Presentation) : (s.withPu x).pu = x := rfl
@[simp] theorem withPu_ft (x : Presentation) : (s.withPu x).ft = s.ft := rfl
@[simp] theorem withPu_cs (x : Presentation) : (s.withPu x).cs = s.cs := rfl
@[simp] theorem withPu_rd (x : Presentation) : (s.withPu x).rd = s.rd := rfl
@[simp] theorem withPu_fz (x : Presentation) : (s.withPu x).fz = s.fz := rfl
@[simp] theorem withPu_tu (x : Presentation) : (s.withPu x).tu = s.tu := rfl
@[simp] theorem withPu_mc (x : Presentation) : (s.withPu x).mc = s.mc := rfl
@[simp] theorem withPu_powerGood (x : Presentation) : (s.withPu x).powerGood = s.powerGood := rfl
@[simp] theorem withPu_resetLine (x : Presentation) : (s.withPu x).resetLine = s.resetLine := rfl
@[simp] theorem withPu_now (x : Presentation) : (s.withPu x).now = s.now := rfl
@[simp] theorem withPu_freeCount (x : Presentation) : (s.withPu x).freeCount = s.freeCount := rfl
@[simp] theorem withPu_pending (x : Presentation) : (s.withPu x).pending = s.pending := rfl

@[simp] theorem withFt_li (x : FrameTiming) : (s.withFt x).li = s.li := rfl
@[simp] theorem withFt_ru (x : FrameTiming) : (s.withFt x).ru = s.ru := rfl
@[simp] theorem withFt_fs (x : FrameTiming) : (s.withFt x).fs = s.fs := rfl
@[simp] theorem withFt_pu (x : FrameTiming) : (s.withFt x).pu = s.pu := rfl
@[simp] theorem withFt_ft (x : FrameTiming) : (s.withFt x).ft = x := rfl
@[simp] theorem withFt_cs (x : FrameTiming) : (s.withFt x).cs = s.cs := rfl
@[simp] theorem withFt_rd (x : FrameTiming) : (s.withFt x).rd = s.rd := rfl
@[simp] theorem withFt_fz (x : FrameTiming) : (s.withFt x).fz = s.fz := rfl
@[simp] theorem withFt_tu (x : FrameTiming) : (s.withFt x).tu = s.tu := rfl
@[simp] theorem withFt_mc (x : FrameTiming) : (s.withFt x).mc = s.mc := rfl
@[simp] theorem withFt_powerGood (x : FrameTiming) : (s.withFt x).powerGood = s.powerGood := rfl
@[simp] theorem withFt_resetLine (x : FrameTiming) : (s.withFt x).resetLine = s.resetLine := rfl
@[simp] theorem withFt_now (x : FrameTiming) : (s.withFt x).now = s.now := rfl
@[simp] theorem withFt_freeCount (x : FrameTiming) : (s.withFt x).freeCount = s.freeCount := rfl
@[simp] theorem withFt_pending (x : FrameTiming) : (s.withFt x).pending = s.pending := rfl

@[simp] theorem withCs_li (x : ChangeSets) : (s.withCs x).li = s.li := rfl
@[simp] theorem withCs_ru (x : ChangeSets) : (s.withCs x).ru = s.ru := rfl
@[simp] theorem withCs_fs (x : ChangeSets) : (s.withCs x).fs = s.fs := rfl
@[simp] theorem withCs_pu (x : ChangeSets) : (s.withCs x).pu = s.pu := rfl
@[simp] theorem withCs_ft (x : ChangeSets) : (s.withCs x).ft = s.ft := rfl
@[simp] theorem withCs_cs (x : ChangeSets) : (s.withCs x).cs = x := rfl
@[simp] theorem withCs_rd (x : ChangeSets) : (s.withCs x).rd = s.rd := rfl
@[simp] theorem withCs_fz (x : ChangeSets) : (s.withCs x).fz = s.fz := rfl
@[simp] theorem withCs_tu (x : ChangeSets) : (s.withCs x).tu = s.tu := rfl
@[simp] theorem withCs_mc (x : ChangeSets) : (s.withCs x).mc = s.mc := rfl
@[simp] theorem withCs_powerGood (x : ChangeSets) : (s.withCs x).powerGood = s.powerGood := rfl
@[simp] theorem withCs_resetLine (x : ChangeSets) : (s.withCs x).resetLine = s.resetLine := rfl
@[simp] theorem withCs_now (x : ChangeSets) : (s.withCs x).now = s.now := rfl
@[simp] theorem withCs_freeCount (x : ChangeSets) : (s.withCs x).freeCount = s.freeCount := rfl
@[simp] theorem withCs_pending (x : ChangeSets) : (s.withCs x).pending = s.pending := rfl

@[simp] theorem withRd_li (x : RowDrive) : (s.withRd x).li = s.li := rfl
@[simp] theorem withRd_ru (x : RowDrive) : (s.withRd x).ru = s.ru := rfl
@[simp] theorem withRd_fs (x : RowDrive) : (s.withRd x).fs = s.fs := rfl
@[simp] theorem withRd_pu (x : RowDrive) : (s.withRd x).pu = s.pu := rfl
@[simp] theorem withRd_ft (x : RowDrive) : (s.withRd x).ft = s.ft := rfl
@[simp] theorem withRd_cs (x : RowDrive) : (s.withRd x).cs = s.cs := rfl
@[simp] theorem withRd_rd (x : RowDrive) : (s.withRd x).rd = x := rfl
@[simp] theorem withRd_fz (x : RowDrive) : (s.withRd x).fz = s.fz := rfl
@[simp] theorem withRd_tu (x : RowDrive) : (s.withRd x).tu = s.tu := rfl
@[simp] theorem withRd_mc (x : RowDrive) : (s.withRd x).mc = s.mc := rfl
@[simp] theorem withRd_powerGood (x : RowDrive) : (s.withRd x).powerGood = s.powerGood := rfl
@[simp] theorem withRd_resetLine (x : RowDrive) : (s.withRd x).resetLine = s.resetLine := rfl
@[simp] theorem withRd_now (x : RowDrive) : (s.withRd x).now = s.now := rfl
@[simp] theorem withRd_freeCount (x : RowDrive) : (s.withRd x).freeCount = s.freeCount := rfl
@[simp] theorem withRd_pending (x : RowDrive) : (s.withRd x).pending = s.pending := rfl

@[simp] theorem withFz_li (x : FuseStore) : (s.withFz x).li = s.li := rfl
@[simp] theorem withFz_ru (x : FuseStore) : (s.withFz x).ru = s.ru := rfl
@[simp] theorem withFz_fs (x : FuseStore) : (s.withFz x).fs = s.fs := rfl
@[simp] theorem withFz_pu (x : FuseStore) : (s.withFz x).pu = s.pu := rfl
@[simp] theorem withFz_ft (x : FuseStore) : (s.withFz x).ft = s.ft := rfl
@[simp] theorem withFz_cs (x : FuseStore) : (s.withFz x).cs = s.cs := rfl
@[simp] theorem withFz_rd (x : FuseStore) : (s.withFz x).rd = s.rd := rfl
@[simp] theorem withFz_fz (x : FuseStore) : (s.withFz x).fz = x := rfl
@[simp] theorem withFz_tu (x : FuseStore) : (s.withFz x).tu = s.tu := rfl
@[simp] theorem withFz_mc (x : FuseStore) : (s.withFz x).mc = s.mc := rfl
@[simp] theorem withFz_powerGood (x : FuseStore) : (s.withFz x).powerGood = s.powerGood := rfl
@[simp] theorem withFz_resetLine (x : FuseStore) : (s.withFz x).resetLine = s.resetLine := rfl
@[simp] theorem withFz_now (x : FuseStore) : (s.withFz x).now = s.now := rfl
@[simp] theorem withFz_freeCount (x : FuseStore) : (s.withFz x).freeCount = s.freeCount := rfl
@[simp] theorem withFz_pending (x : FuseStore) : (s.withFz x).pending = s.pending := rfl

@[simp] theorem withTu_li (x : TestUnit) : (s.withTu x).li = s.li := rfl
@[simp] theorem withTu_ru (x : TestUnit) : (s.withTu x).ru = s.ru := rfl
@[simp] theorem withTu_fs (x : TestUnit) : (s.withTu x).fs = s.fs := rfl
@[simp] theorem withTu_pu (x : TestUnit) : (s.withTu x).pu = s.pu := rfl
@[simp] theorem withTu_ft (x : TestUnit) : (s.withTu x).ft = s.ft := rfl
@[simp] theorem withTu_cs (x : TestUnit) : (s.withTu x).cs = s.cs := rfl
@[simp] theorem withTu_rd (x : TestUnit) : (s.withTu x).rd = s.rd := rfl
@[simp] theorem withTu_fz (x : TestUnit) : (s.withTu x).fz = s.fz := rfl
@[simp] theorem withTu_tu (x : TestUnit) : (s.withTu x).tu = x := rfl
@[simp] theorem withTu_mc (x : TestUnit) : (s.withTu x).mc = s.mc := rfl
@[simp] theorem withTu_powerGood (x : TestUnit) : (s.withTu x).powerGood = s.powerGood := rfl
@[simp] theorem withTu_resetLine (x : TestUnit) : (s.withTu x).resetLine = s.resetLine := rfl
@[simp] theorem withTu_now (x : TestUnit) : (s.withTu x).now = s.now := rfl
@[simp] theorem withTu_freeCount (x : TestUnit) : (s.withTu x).freeCount = s.freeCount := rfl
@[simp] theorem withTu_pending (x : TestUnit) : (s.withTu x).pending = s.pending := rfl

@[simp] theorem withMc_li (x : ModeControl) : (s.withMc x).li = s.li := rfl
@[simp] theorem withMc_ru (x : ModeControl) : (s.withMc x).ru = s.ru := rfl
@[simp] theorem withMc_fs (x : ModeControl) : (s.withMc x).fs = s.fs := rfl
@[simp] theorem withMc_pu (x : ModeControl) : (s.withMc x).pu = s.pu := rfl
@[simp] theorem withMc_ft (x : ModeControl) : (s.withMc x).ft = s.ft := rfl
@[simp] theorem withMc_cs (x : ModeControl) : (s.withMc x).cs = s.cs := rfl
@[simp] theorem withMc_rd (x : ModeControl) : (s.withMc x).rd = s.rd := rfl
@[simp] theorem withMc_fz (x : ModeControl) : (s.withMc x).fz = s.fz := rfl
@[simp] theorem withMc_tu (x : ModeControl) : (s.withMc x).tu = s.tu := rfl
@[simp] theorem withMc_mc (x : ModeControl) : (s.withMc x).mc = x := rfl
@[simp] theorem withMc_powerGood (x : ModeControl) : (s.withMc x).powerGood = s.powerGood := rfl
@[simp] theorem withMc_resetLine (x : ModeControl) : (s.withMc x).resetLine = s.resetLine := rfl
@[simp] theorem withMc_now (x : ModeControl) : (s.withMc x).now = s.now := rfl
@[simp] theorem withMc_freeCount (x : ModeControl) : (s.withMc x).freeCount = s.freeCount := rfl
@[simp] theorem withMc_pending (x : ModeControl) : (s.withMc x).pending = s.pending := rfl

@[simp] theorem tick_li (t : Nat) : (s.tick t).li = s.li := rfl
@[simp] theorem tick_ru (t : Nat) : (s.tick t).ru = s.ru := rfl
@[simp] theorem tick_fs (t : Nat) : (s.tick t).fs = s.fs := rfl
@[simp] theorem tick_pu (t : Nat) : (s.tick t).pu = s.pu := rfl
@[simp] theorem tick_ft (t : Nat) : (s.tick t).ft = s.ft := rfl
@[simp] theorem tick_cs (t : Nat) : (s.tick t).cs = s.cs := rfl
@[simp] theorem tick_rd (t : Nat) : (s.tick t).rd = s.rd := rfl
@[simp] theorem tick_fz (t : Nat) : (s.tick t).fz = s.fz := rfl
@[simp] theorem tick_tu (t : Nat) : (s.tick t).tu = s.tu := rfl
@[simp] theorem tick_mc (t : Nat) : (s.tick t).mc = s.mc := rfl
@[simp] theorem tick_powerGood (t : Nat) : (s.tick t).powerGood = s.powerGood := rfl
@[simp] theorem tick_resetLine (t : Nat) : (s.tick t).resetLine = s.resetLine := rfl
@[simp] theorem tick_now (t : Nat) : (s.tick t).now = max s.now t := rfl
@[simp] theorem tick_freeCount (t : Nat) : (s.tick t).freeCount = s.freeCount := rfl
@[simp] theorem tick_pending (t : Nat) : (s.tick t).pending = s.pending := rfl

/-! ## The taking of a request, notices and answers, field by field -/

@[simp] theorem taken_li (k : Take) : (s.taken k).li = s.li := rfl
@[simp] theorem taken_fs (k : Take) : (s.taken k).fs = s.fs := rfl
@[simp] theorem taken_pu (k : Take) : (s.taken k).pu = s.pu := rfl
@[simp] theorem taken_ft (k : Take) : (s.taken k).ft = s.ft := rfl
@[simp] theorem taken_cs (k : Take) : (s.taken k).cs = s.cs := rfl
@[simp] theorem taken_rd (k : Take) : (s.taken k).rd = s.rd := rfl
@[simp] theorem taken_fz (k : Take) : (s.taken k).fz = s.fz := rfl
@[simp] theorem taken_tu (k : Take) : (s.taken k).tu = s.tu := rfl
@[simp] theorem taken_mc (k : Take) : (s.taken k).mc = s.mc := rfl
@[simp] theorem taken_powerGood (k : Take) : (s.taken k).powerGood = s.powerGood := rfl
@[simp] theorem taken_resetLine (k : Take) : (s.taken k).resetLine = s.resetLine := rfl
@[simp] theorem taken_freeCount (k : Take) : (s.taken k).freeCount = s.freeCount := rfl
@[simp] theorem taken_pending (k : Take) : (s.taken k).pending = s.pending := rfl
@[simp] theorem taken_now (k : Take) : (s.taken k).now = max s.now k.moment := rfl
@[simp] theorem taken_ru (k : Take) : (s.taken k).ru = { s.ru with queue := s.ru.queue.tail } := rfl

@[simp] theorem notify_li (d : Details) : (s.notify d).li = s.li := rfl
@[simp] theorem notify_fs (d : Details) : (s.notify d).fs = s.fs := rfl
@[simp] theorem notify_pu (d : Details) : (s.notify d).pu = s.pu := rfl
@[simp] theorem notify_ft (d : Details) : (s.notify d).ft = s.ft := rfl
@[simp] theorem notify_cs (d : Details) : (s.notify d).cs = s.cs := rfl
@[simp] theorem notify_rd (d : Details) : (s.notify d).rd = s.rd := rfl
@[simp] theorem notify_fz (d : Details) : (s.notify d).fz = s.fz := rfl
@[simp] theorem notify_tu (d : Details) : (s.notify d).tu = s.tu := rfl
@[simp] theorem notify_mc (d : Details) : (s.notify d).mc = s.mc := rfl
@[simp] theorem notify_powerGood (d : Details) : (s.notify d).powerGood = s.powerGood := rfl
@[simp] theorem notify_resetLine (d : Details) : (s.notify d).resetLine = s.resetLine := rfl
@[simp] theorem notify_now (d : Details) : (s.notify d).now = s.now := rfl
@[simp] theorem notify_freeCount (d : Details) : (s.notify d).freeCount = s.freeCount := rfl
@[simp] theorem notify_pending (d : Details) : (s.notify d).pending = s.pending := rfl
@[simp] theorem notify_ru (d : Details) : (s.notify d).ru = s.ru.createNotice s.li.unit s.ft.counter d := rfl

@[simp] theorem answer_li (q : Queued) (r : Result) (p : List Byte) : (s.answer q r p).li = s.li := by
  unfold State.answer; split <;> rfl
@[simp] theorem answer_fs (q : Queued) (r : Result) (p : List Byte) : (s.answer q r p).fs = s.fs := by
  unfold State.answer; split <;> rfl
@[simp] theorem answer_pu (q : Queued) (r : Result) (p : List Byte) : (s.answer q r p).pu = s.pu := by
  unfold State.answer; split <;> rfl
@[simp] theorem answer_ft (q : Queued) (r : Result) (p : List Byte) : (s.answer q r p).ft = s.ft := by
  unfold State.answer; split <;> rfl
@[simp] theorem answer_cs (q : Queued) (r : Result) (p : List Byte) : (s.answer q r p).cs = s.cs := by
  unfold State.answer; split <;> rfl
@[simp] theorem answer_rd (q : Queued) (r : Result) (p : List Byte) : (s.answer q r p).rd = s.rd := by
  unfold State.answer; split <;> rfl
@[simp] theorem answer_fz (q : Queued) (r : Result) (p : List Byte) : (s.answer q r p).fz = s.fz := by
  unfold State.answer; split <;> rfl
@[simp] theorem answer_tu (q : Queued) (r : Result) (p : List Byte) : (s.answer q r p).tu = s.tu := by
  unfold State.answer; split <;> rfl
@[simp] theorem answer_mc (q : Queued) (r : Result) (p : List Byte) : (s.answer q r p).mc = s.mc := by
  unfold State.answer; split <;> rfl
@[simp] theorem answer_powerGood (q : Queued) (r : Result) (p : List Byte) : (s.answer q r p).powerGood = s.powerGood := by
  unfold State.answer; split <;> rfl
@[simp] theorem answer_resetLine (q : Queued) (r : Result) (p : List Byte) : (s.answer q r p).resetLine = s.resetLine := by
  unfold State.answer; split <;> rfl
@[simp] theorem answer_now (q : Queued) (r : Result) (p : List Byte) : (s.answer q r p).now = s.now := by
  unfold State.answer; split <;> rfl
@[simp] theorem answer_freeCount (q : Queued) (r : Result) (p : List Byte) : (s.answer q r p).freeCount = s.freeCount := by
  unfold State.answer; split <;> rfl
@[simp] theorem answer_pending (q : Queued) (r : Result) (p : List Byte) : (s.answer q r p).pending = s.pending := by
  unfold State.answer; split <;> rfl

@[simp] theorem arrive_li (r : Request) : (s.arrive r).li = s.li := rfl
@[simp] theorem arrive_fs (r : Request) : (s.arrive r).fs = s.fs := rfl
@[simp] theorem arrive_pu (r : Request) : (s.arrive r).pu = s.pu := rfl
@[simp] theorem arrive_ft (r : Request) : (s.arrive r).ft = s.ft := rfl
@[simp] theorem arrive_cs (r : Request) : (s.arrive r).cs = s.cs := rfl
@[simp] theorem arrive_rd (r : Request) : (s.arrive r).rd = s.rd := rfl
@[simp] theorem arrive_fz (r : Request) : (s.arrive r).fz = s.fz := rfl
@[simp] theorem arrive_tu (r : Request) : (s.arrive r).tu = s.tu := rfl
@[simp] theorem arrive_mc (r : Request) : (s.arrive r).mc = s.mc := rfl
@[simp] theorem arrive_powerGood (r : Request) : (s.arrive r).powerGood = s.powerGood := rfl
@[simp] theorem arrive_resetLine (r : Request) : (s.arrive r).resetLine = s.resetLine := rfl
@[simp] theorem arrive_now (r : Request) : (s.arrive r).now = s.now := rfl
@[simp] theorem arrive_freeCount (r : Request) : (s.arrive r).freeCount = s.freeCount := rfl
@[simp] theorem arrive_pending (r : Request) : (s.arrive r).pending = s.pending := rfl
@[simp] theorem arrive_ru (r : Request) : (s.arrive r).ru = s.ru.arrive s.li.unit r := rfl

end Sys2Proof.Machine
end

