-- ==== Sys2Proof/Laws/Timers.lean ====
section
/-! SUPPORT. The passing of time to a moment: where nothing is due it changes nothing; where the timer in use is due it expires first; and what
every expiry keeps, `reach` keeps. -/

namespace Sys2Proof.Machine

/-- The moment of the next expiry, in the two spellings. -/
theorem onTime_iff {s : State} {m : Nat} : s.OnTime m ↔ m ≤ s.ft.deadline := by
  unfold State.OnTime FrameTiming.deadline
  cases s.ft.syncState <;> rfl

/-- Where no timer is due before `t`, nothing expires. -/
theorem expiries_eq {s : State} {t : Nat} (n : Nat) (h : s.Timely t) : State.expiries n t s = s := by
  cases n with
  | zero => rfl
  | succ n => exact if_neg fun hd => absurd (onTime_iff.1 (h hd.1)) (by omega)

theorem reach_eq {s : State} {t : Nat} (h : s.Timely t) : s.reach t = s := expiries_eq _ h

theorem passTo_eq {s : State} {t : Nat} (h : s.Timely t) : s.passTo t = s.tick t := by rw [State.passTo, reach_eq h]

theorem State.Taking.reach_eq {s : State} {k : Take} {q : Queued} {rest : List Queued} (h : s.Taking k q rest) :
    s.reach k.moment = s := Sys2Proof.Machine.reach_eq fun _ => h.onTime

/-- What every expiry keeps, `reach` keeps. -/
theorem reach_keeps {P : State → Prop} (hP : ∀ s, s.ready = true → P s → P s.frameTimerExpires) {s : State} (t : Nat) (hs : P s) :
    P (s.reach t) := by
  unfold State.reach
  generalize (t - s.ft.deadline) / s.ft.fullPeriod + 1 = n
  induction n generalizing s with
  | zero => exact hs
  | succ n ih =>
    rw [State.expiries]
    split
    · rename_i hd; exact ih (hP s hd.1 hs)
    · exact hs

/-! ## One expiry -/

section Expiry
variable (s : State)

/-- The Frame Timing Unit after a frame start: the moment of it, and else as before the blocks acted. -/
theorem latchFrame_ft : s.latchFrame.ft = { s.ft with frameStart := s.now } := rfl

theorem applySet_ft (z : SealedSet) : (s.applySet z).ft = s.ft := by
  unfold State.applySet
  dsimp only
  split <;> split <;> rfl

theorem applySet_mc (z : SealedSet) : (s.applySet z).mc = s.mc := by
  unfold State.applySet
  dsimp only
  split <;> split <;> rfl

theorem applySet_lines (z : SealedSet) :
    (s.applySet z).powerGood = s.powerGood ∧ (s.applySet z).resetLine = s.resetLine ∧ (s.applySet z).now = s.now := by
  unfold State.applySet
  dsimp only
  split <;> split <;> exact ⟨rfl, rfl, rfl⟩

theorem applyDue_ft : s.applyDue.ft = s.ft := by
  unfold State.applyDue
  split
  · rfl
  · split
    · exact applySet_ft s _
    · rfl

/-- Dealing with a sealed set touches neither the mode, the lines nor the clock. -/
theorem applyDue_lines :
    s.applyDue.mc = s.mc ∧ s.applyDue.powerGood = s.powerGood ∧ s.applyDue.resetLine = s.resetLine ∧ s.applyDue.now = s.now := by
  unfold State.applyDue
  split
  · exact ⟨rfl, rfl, rfl, rfl⟩
  · split
    · exact ⟨applySet_mc s _, applySet_lines s _⟩
    · exact ⟨rfl, rfl, rfl, rfl⟩

/-- An expiry of the timer in use, at the later of its moment and now: the frame start is then, and so is the start of the next period, which
is a period T away; T and the last accepted edge are kept. -/
theorem frameTimerExpires_ft :
    let m := max s.now s.ft.deadline
    s.frameTimerExpires.ft.period = s.ft.period ∧ s.frameTimerExpires.ft.timerStart = m ∧ s.frameTimerExpires.ft.frameStart = m ∧
    s.frameTimerExpires.ft.lastEdge = s.ft.lastEdge ∧ s.frameTimerExpires.now = m ∧
    s.frameTimerExpires.ft.deadline = m + s.ft.fullPeriod ∧
    s.frameTimerExpires.ft.syncState = (match s.ft.syncState with | .locked => .holdover | x => x) := by
  unfold State.frameTimerExpires FrameTiming.deadline
  cases h : s.ft.syncState
  · refine ⟨rfl, rfl, rfl, rfl, rfl, ?_, h⟩
    simp only [State.seekingExpires, State.uncountedStart, latchFrame_ft, withFt_ft, tick_ft, tick_now, h, FrameTiming.fullPeriod]
  · exact ⟨rfl, rfl, rfl, rfl, rfl, rfl, rfl⟩
  · refine ⟨rfl, rfl, rfl, rfl, rfl, ?_, h⟩
    simp only [State.holdoverExpires, State.uncountedStart, latchFrame_ft, withFt_ft, tick_ft, tick_now, h, FrameTiming.fullPeriod]
  · have hn := (applyDue_lines ((((s.tick (s.ft.timerStart + s.ft.fullPeriod)).withFt
      { s.ft with timerStart := max s.now (s.ft.timerStart + s.ft.fullPeriod) }).withFt
      ({ s.ft with timerStart := max s.now (s.ft.timerStart + s.ft.fullPeriod) } : FrameTiming).takeNumber))).2.2.2
    simp only [State.freeRunExpires, State.countedStart, State.countedEvent, latchFrame_ft, applyDue_ft]
    refine ⟨rfl, rfl, hn, rfl, hn, ?_, h⟩
    simp only [withFt_ft, tick_ft, tick_now, FrameTiming.takeNumber, h, FrameTiming.fullPeriod]

theorem applyDue_ready : s.applyDue.ready = s.ready := by
  obtain ⟨h1, h2, h3, -⟩ := applyDue_lines s
  unfold State.ready State.running
  rw [h1, h2, h3]

/-- An expiry leaves READY as it is. -/
theorem frameTimerExpires_ready : s.frameTimerExpires.ready = s.ready := by
  unfold State.frameTimerExpires
  cases s.ft.syncState
  · rfl
  · rfl
  · rfl
  · exact applyDue_ready _

end Expiry

/-! ## Many expiries -/

/-- Enough expiries are as good as more. -/
theorem expiries_enough {s : State} {t : Nat} (hp : 0 < s.ft.period) {n m : Nat}
    (hn : (t - s.ft.deadline) / s.ft.fullPeriod < n) (hm : (t - s.ft.deadline) / s.ft.fullPeriod < m) :
    State.expiries n t s = State.expiries m t s := by
  induction n generalizing s m with
  | zero => exact absurd hn (Nat.not_lt_zero _)
  | succ n ih =>
    cases m with
    | zero => exact absurd hm (Nat.not_lt_zero _)
    | succ m =>
      rw [State.expiries, State.expiries]
      split
      · rename_i hd
        obtain ⟨e1, -, -, -, -, e6, -⟩ := frameTimerExpires_ft s
        have hf : s.frameTimerExpires.ft.fullPeriod = s.ft.fullPeriod := by rw [FrameTiming.fullPeriod, e1]; rfl
        have hpos : 0 < s.ft.fullPeriod := by unfold FrameTiming.fullPeriod; omega
        by_cases hlate : s.frameTimerExpires.ft.deadline < t
        · have hq : (t - s.frameTimerExpires.ft.deadline) / s.ft.fullPeriod + 1 ≤ (t - s.ft.deadline) / s.ft.fullPeriod := by
            rw [← Nat.add_div_right _ hpos]
            exact Nat.div_le_div_right (by omega)
          exact ih (by rw [e1]; exact hp) (by rw [hf]; omega) (by rw [hf]; omega)
        · have hT : s.frameTimerExpires.Timely t := fun _ => onTime_iff.2 (by omega)
          rw [expiries_eq n hT, expiries_eq m hT]
      · rfl

/-- Where the timer in use is due before `t`, it expires first, and the rest of the time passes from there (R43). -/
theorem reach_late {s : State} {t : Nat} (hr : s.ready = true) (hp : 0 < s.ft.period) (h : ¬ s.OnTime t) :
    s.reach t = s.frameTimerExpires.reach t := by
  have hd : s.ft.deadline < t := by rw [onTime_iff] at h; omega
  obtain ⟨e1, -, -, -, -, e6, -⟩ := frameTimerExpires_ft s
  have hf : s.frameTimerExpires.ft.fullPeriod = s.ft.fullPeriod := by rw [FrameTiming.fullPeriod, e1]; rfl
  have hpos : 0 < s.ft.fullPeriod := by unfold FrameTiming.fullPeriod; omega
  have h1 : s.reach t = State.expiries ((t - s.ft.deadline) / s.ft.fullPeriod) t s.frameTimerExpires := by
    rw [State.reach, State.expiries, if_pos ⟨hr, hd⟩]
  rw [h1]
  by_cases hlate : s.frameTimerExpires.ft.deadline < t
  · have hq : (t - s.frameTimerExpires.ft.deadline) / s.ft.fullPeriod + 1 ≤ (t - s.ft.deadline) / s.ft.fullPeriod := by
      rw [← Nat.add_div_right _ hpos]
      exact Nat.div_le_div_right (by omega)
    exact expiries_enough (by rw [e1]; exact hp) (by rw [hf]; omega) (Nat.lt_succ_self _)
  · have hT : s.frameTimerExpires.Timely t := fun _ => onTime_iff.2 (by omega)
    rw [expiries_eq _ hT, reach_eq hT]

/-- After it, no timer is due before `t` (R43). -/
theorem reach_timely {s : State} {t : Nat} (hp : 0 < s.ft.period) : (s.reach t).Timely t := by
  suffices h : ∀ n (s : State), 0 < s.ft.period → (t - s.ft.deadline) / s.ft.fullPeriod < n → (State.expiries n t s).Timely t from
    h _ s hp (Nat.lt_succ_self _)
  intro n
  induction n with
  | zero => exact fun _ _ h => absurd h (Nat.not_lt_zero _)
  | succ n ih =>
    intro s hp hn
    rw [State.expiries]
    split
    · rename_i hd
      obtain ⟨e1, -, -, -, -, e6, -⟩ := frameTimerExpires_ft s
      have hf : s.frameTimerExpires.ft.fullPeriod = s.ft.fullPeriod := by rw [FrameTiming.fullPeriod, e1]; rfl
      have hpos : 0 < s.ft.fullPeriod := by unfold FrameTiming.fullPeriod; omega
      by_cases hlate : s.frameTimerExpires.ft.deadline < t
      · have hq : (t - s.frameTimerExpires.ft.deadline) / s.ft.fullPeriod + 1 ≤ (t - s.ft.deadline) / s.ft.fullPeriod := by
          rw [← Nat.add_div_right _ hpos]
          exact Nat.div_le_div_right (by omega)
        exact ih _ (by rw [e1]; exact hp) (by rw [hf]; omega)
      · have hT : s.frameTimerExpires.Timely t := fun _ => onTime_iff.2 (by omega)
        rw [expiries_eq n hT]; exact hT
    · rename_i hd
      intro hr
      exact onTime_iff.2 (by by_contra hc; exact hd ⟨hr, by omega⟩)

/-- The row of the timer in use is its expiry. -/
theorem exec_expiryRow {s : State} (hr : s.ready = true) : exec s.ft.syncState.expiryRow s = .next s.frameTimerExpires := by
  unfold State.frameTimerExpires
  cases h : s.ft.syncState <;>
    simp [SyncState.expiryRow, exec, execSeekingTimerExpiry, execSupervisionTimerExpiry, execHoldoverTimerExpiry,
      execFreeRunTimerExpiry, hr, h]

end Sys2Proof.Machine
end

