-- ==== Sys2Proof/Laws/Ops.lean ====
section
/-! SUPPORT. What each shared operation of Ops.lean can do, said once: counters, notices, answers, the taking of a request, `serve`, and
the arrival of a request. -/

namespace Sys2Proof.Machine

/-! ## Frames of blocks -/

/-- Nothing but the named blocks changed, from one equation per block and line. -/
theorem sameExcept_of {s t : State} {bs : List Block} (h : ∀ b, b ∉ bs → s.sameBlock t b) (hp : t.powerGood = s.powerGood)
    (hr : t.resetLine = s.resetLine) (hf : t.freeCount = s.freeCount) (hq : t.pending = s.pending) : s.SameExcept t bs :=
  ⟨h, hp, hr, hf, hq⟩

/-! ## Notices -/

/-- `createNotice` creates a notice, as R179 and R180 say it. -/
theorem createNotice_creates (x : RequestUnit) (unit : Byte) (n : FrameNo) (d : Details) :
    x.CreatesNotice (x.createNotice unit n d) unit n d := by
  unfold RequestUnit.CreatesNotice RequestUnit.createNotice nextNumber satInc
  split
  · simp
  · refine ⟨rfl, rfl, ?_⟩
    have e : BitVec.allOnes 8 = (255 : Byte) := rfl
    rw [e]
    by_cases h : x.lost = (255 : Byte)
    · rw [if_pos h, if_pos h, h]
    · rw [if_neg h, if_neg h]

/-- `createNotice` touches the notices alone. -/
theorem createNotice_keepsRequests (x : RequestUnit) (unit : Byte) (n : FrameNo) (d : Details) :
    x.KeepsRequests (x.createNotice unit n d) := by
  unfold RequestUnit.KeepsRequests RequestUnit.createNotice
  split <;> simp

section Fields
variable (x : RequestUnit) (unit : Byte) (n : FrameNo) (d : Details)

@[simp] theorem createNotice_queue : (x.createNotice unit n d).queue = x.queue :=
  (createNotice_keepsRequests x unit n d).1
@[simp] theorem createNotice_executing : (x.createNotice unit n d).executing = x.executing :=
  (createNotice_keepsRequests x unit n d).2.1
@[simp] theorem createNotice_replies : (x.createNotice unit n d).replies = x.replies :=
  (createNotice_keepsRequests x unit n d).2.2.1
@[simp] theorem createNotice_filter : (x.createNotice unit n d).filter = x.filter :=
  (createNotice_keepsRequests x unit n d).2.2.2.1
@[simp] theorem createNotice_lastBroadcast : (x.createNotice unit n d).lastBroadcast = x.lastBroadcast :=
  (createNotice_keepsRequests x unit n d).2.2.2.2.1
@[simp] theorem createNotice_reqDrop : (x.createNotice unit n d).reqDrop = x.reqDrop :=
  (createNotice_keepsRequests x unit n d).2.2.2.2.2.1
@[simp] theorem createNotice_nextTag : (x.createNotice unit n d).nextTag = x.nextTag :=
  (createNotice_keepsRequests x unit n d).2.2.2.2.2.2

end Fields

/-- The notice log never grows past 8 (R179). -/
theorem createNotice_log_bound (x : RequestUnit) (unit : Byte) (n : FrameNo) (d : Details) (h : x.log.length ≤ 8) :
    (x.createNotice unit n d).log.length ≤ 8 := by
  unfold RequestUnit.createNotice
  split
  · simp; omega
  · exact h

/-- Every notice after a creation stood in the log before it or carries the N of the creation. -/
theorem createNotice_frames (x : RequestUnit) (unit : Byte) (n : FrameNo) (d : Details) :
    ∀ y ∈ (x.createNotice unit n d).log, y ∈ x.log ∨ y.frame = n := by
  unfold RequestUnit.createNotice
  split
  · intro y hy
    rcases List.mem_append.1 hy with h | h
    · exact Or.inl h
    · simp at h; subst h; exact Or.inr rfl
  · intro y hy; exact Or.inl hy

/-! ## Answers -/

section Answer
variable (s : State) (q : Queued) (r : Result) (p : List Byte)

/-- `answer` records the outcome as R175, R176 and R177 say it. -/
theorem answer_records : s.ru.Records (s.answer q r p).ru s.li.unit q r p := by
  unfold RequestUnit.Records State.answer
  cases h : q.req.cls <;> simp [replyTo, replyKind, cacheReply]
  cases s.ru.filter with
  | none => rfl
  | some e => by_cases he : e.tag = q.tag <;> simp [he]

@[simp] theorem answer_queue : (s.answer q r p).ru.queue = s.ru.queue := by unfold State.answer; split <;> rfl
@[simp] theorem answer_executing : (s.answer q r p).ru.executing = s.ru.executing := by unfold State.answer; split <;> rfl
@[simp] theorem answer_log : (s.answer q r p).ru.log = s.ru.log := by unfold State.answer; split <;> rfl
@[simp] theorem answer_nextNotice : (s.answer q r p).ru.nextNotice = s.ru.nextNotice := by unfold State.answer; split <;> rfl
@[simp] theorem answer_lost : (s.answer q r p).ru.lost = s.ru.lost := by unfold State.answer; split <;> rfl
@[simp] theorem answer_reqDrop : (s.answer q r p).ru.reqDrop = s.ru.reqDrop := by unfold State.answer; split <;> rfl
@[simp] theorem answer_nextTag : (s.answer q r p).ru.nextTag = s.ru.nextTag := by unfold State.answer; split <;> rfl

/-- An answer adds at most one reply. -/
theorem answer_replies_length : (s.answer q r p).ru.replies.length ≤ s.ru.replies.length + (if q.req.cls = .unit then 1 else 0) := by
  unfold State.answer
  cases h : q.req.cls <;> simp

end Answer

/-- The outcome recorded depends on the reply queue, the filter and the last broadcast result alone. -/
theorem records_congr {x x' y : RequestUnit} {unit : Byte} {q : Queued} {r : Result} {p : List Byte}
    (h : x.Records y unit q r p) (h1 : x'.replies = x.replies) (h2 : x'.filter = x.filter)
    (h3 : x'.lastBroadcast = x.lastBroadcast) : x'.Records y unit q r p := by
  unfold RequestUnit.Records at h ⊢
  cases hq : q.req.cls <;> simp_all

/-! ## The taking of a request -/

/-- The executor is free exactly when the conditions of R171 on the tile hold. -/
theorem executorFree_iff {s : State} :
    s.executorFree = true ↔ s.ready = true ∧ s.ru.executing = none ∧ s.ru.replies.length < 8 := by
  unfold State.executorFree RequestUnit.hasPlace RequestUnit.reserved
  cases he : s.ru.executing <;> simp

/-- The executor takes `q` in the model exactly when the conditions of R171 hold, and `q` is the frame named. -/
theorem taking_eq_some {s : State} {k : Take} {q : Queued} :
    s.taking k = some q ↔ ∃ rest, s.AtHead k q rest := by
  unfold State.taking
  constructor
  · intro h
    by_cases hf : s.executorFree = true
    · rw [if_pos hf] at h
      obtain ⟨hr, he, hp⟩ := executorFree_iff.1 hf
      cases hq : s.ru.queue with
      | nil => rw [hq] at h; cases h
      | cons q' rest =>
        rw [hq] at h
        simp only at h
        by_cases hn : q'.req = k.req
        · rw [if_pos hn] at h
          cases h
          exact ⟨rest, hr, he, hp, hq, hn⟩
        · rw [if_neg hn] at h; cases h
    · rw [if_neg hf] at h; cases h
  · rintro ⟨rest, h⟩
    rw [if_pos (executorFree_iff.2 ⟨h.ready, h.idle, h.place⟩), h.head]
    simp only [h.names, if_true]

/-- Where the conditions of R171 fail, the executor takes nothing. -/
theorem taking_eq_none {s : State} {k : Take}
    (h : s.ready = false ∨ s.ru.executing ≠ none ∨ 8 ≤ s.ru.replies.length ∨
      ¬ ∃ q rest, s.ru.queue = q :: rest ∧ q.req = k.req) : s.taking k = none := by
  cases ht : s.taking k with
  | none => rfl
  | some q =>
    obtain ⟨rest, hk⟩ := taking_eq_some.1 ht
    rcases h with h | h | h | h
    · rw [hk.ready] at h; cases h
    · exact absurd hk.idle h
    · have := hk.place; omega
    · exact absurd ⟨q, rest, hk.head, hk.names⟩ h

/-- A frame taken names itself. -/
theorem State.Taking.eq_some {s : State} {k : Take} {q : Queued} {rest : List Queued} (h : s.Taking k q rest) :
    s.taking k = some q := taking_eq_some.2 ⟨rest, h.toAtHead⟩

/-- No common check refuses a request that passes them. -/
theorem State.Serving.commonRefusal {s : State} {k : Take} {q : Queued} {rest : List Queued} {kind : Kind}
    (h : s.Serving k q rest kind) : commonRefusal kind k.req = none := by
  unfold Sys2Proof.Machine.commonRefusal
  simp [h.lengthOk, h.classOk]

/-- A refusal answered after the taking is all that `Refuses` speaks of. -/
theorem refuses_of {s : State} {c : Instr} {k : Take} {q : Queued} {rest : List Queued} {r : Result}
    (h : s.Taking k q rest) (he : exec c s = .next ((s.taken k).answer q r [])) : s.Refuses c k q rest r := by
  refine ⟨_, he, ⟨⟨?_, ?_, ?_, ?_, ?_⟩, ⟨?_, ?_, ?_⟩, ?_⟩, ⟨?_, ?_, ?_, ?_, ?_⟩⟩
  · exact records_congr (answer_records (s.taken k) q r []) rfl rfl rfl
  · simp [h.head]
  · simp [h.idle]
  · simp
  · simp
  · simp
  · simp
  · simp
  · simp
  · intro b hb; cases b <;> first | exact absurd List.mem_cons_self hb | simp [State.sameBlock]
  · simp
  · simp
  · simp
  · simp

/-- A request answered OK after the taking, with nothing else changed, is all that `Reports` speaks of. -/
theorem reports_of {s : State} {c : Instr} {k : Take} {q : Queued} {rest : List Queued} {p : List Byte}
    (h : s.Taking k q rest) (he : exec c s = .next ((s.taken k).answer q .ok p)) : s.Reports c k q rest p := by
  refine ⟨_, he, ⟨⟨?_, ?_, ?_, ?_, ?_⟩, ⟨?_, ?_, ?_⟩, ?_⟩, ⟨?_, ?_, ?_, ?_, ?_⟩⟩
  · exact records_congr (answer_records (s.taken k) q .ok p) rfl rfl rfl
  · simp [h.head]
  · simp [h.idle]
  · simp
  · simp
  · simp
  · simp
  · simp
  · simp
  · intro b hb; cases b <;> first | exact absurd List.mem_cons_self hb | simp [State.sameBlock]
  · simp
  · simp
  · simp
  · simp

/-- A request whose effect `t` leaves the Request Unit as the taking left it completes with the answer on `t`. -/
theorem completes_answer {s t : State} {k : Take} {q : Queued} {rest : List Queued} {r : Result} {p : List Byte}
    (h : s.Taking k q rest) (hru : t.ru = (s.taken k).ru) (hu : t.li.unit = s.li.unit) (hn : t.now = (s.taken k).now) :
    s.Completes (t.answer q r p) k q rest r p := by
  refine ⟨⟨?_, ?_, ?_, ?_, ?_⟩, ⟨?_, ?_, ?_⟩, ?_⟩
  · have := answer_records t q r p
    rw [hu] at this
    exact records_congr this (by rw [hru]; rfl) (by rw [hru]; rfl) (by rw [hru]; rfl)
  all_goals simp [hru, hn, h.head, h.idle]

/-! ## `serve` -/

/-- A request that can be taken and passes the common checks is answered by its own rule. -/
theorem serve_serving {s : State} {k : Take} {q : Queued} {rest : List Queued} {kind : Kind}
    (h : s.Serving k q rest kind) (own : State → List Byte → Answered) :
    s.serve k kind own =
      match own (s.taken k) k.req.payload with
      | .error r => .next ((s.taken k).answer q r [])
      | .ok (t, p) => .next (t.answer q .ok p) := by
  unfold State.serve
  rw [h.taking.eq_some]
  simp only [if_pos h.kindByte, h.commonRefusal, h.taking.reach_eq] <;> rfl

/-- Everything that `serve` can do: nothing at all; a refusal; or the request's own effect and its answer. -/
theorem serve_cases {s t : State} {k : Take} {kind : Kind} {own : State → List Byte → Answered}
    (h : s.serve k kind own = .next t) :
    t = s ∨ ∃ q rest, s.AtHead k q rest ∧
      ((∃ r, t = ((s.reach k.moment).taken k).answer q r []) ∨
       ∃ u p, own ((s.reach k.moment).taken k) k.req.payload = .ok (u, p) ∧ t = u.answer q .ok p) := by
  unfold State.serve at h
  cases hk : s.taking k with
  | none => rw [hk] at h; cases h; exact Or.inl rfl
  | some q =>
    obtain ⟨rest, ht⟩ := taking_eq_some.1 hk
    rw [hk] at h
    simp only at h
    split at h
    · split at h
      · cases h; exact Or.inr ⟨q, rest, ht, Or.inl ⟨_, rfl⟩⟩
      · split at h
        · cases h; exact Or.inr ⟨q, rest, ht, Or.inl ⟨_, rfl⟩⟩
        · rename_i u p hu
          cases h
          exact Or.inr ⟨q, rest, ht, Or.inr ⟨u, p, hu, rfl⟩⟩
    · cases h; exact Or.inl rfl

/-- `serve` answers a next state, always. -/
theorem serve_next (s : State) (k : Take) (kind : Kind) (own : State → List Byte → Answered) :
    ∃ t, s.serve k kind own = .next t := by
  unfold State.serve
  dsimp only
  repeat' split
  all_goals exact ⟨_, rfl⟩

/-- What `serve` keeps: with `Q` for the tile between the taking and the answer. The taking comes after the expiries due before it. -/
theorem serve_keeps {P Q : State → Prop} {s t : State} {k : Take} {kind : Kind} {own : State → List Byte → Answered}
    (h : s.serve k kind own = .next t) (hs : P s)
    (hexpires : ∀ u : State, u.ready = true → P u → P u.frameTimerExpires) (htaken : ∀ u : State, P u → Q (u.taken k))
    (hown : ∀ (u v : State) p, Q (u.taken k) → own (u.taken k) k.req.payload = .ok (v, p) → Q v)
    (hanswer : ∀ u q r p, Q u → P (u.answer q r p)) : P t := by
  rcases serve_cases h with rfl | ⟨q, rest, hq, ⟨r, rfl⟩ | ⟨u, p, hu, rfl⟩⟩
  · exact hs
  · exact hanswer _ _ _ _ (htaken _ (reach_keeps hexpires _ hs))
  · exact hanswer _ _ _ _ (hown _ u p (htaken _ (reach_keeps hexpires _ hs)) hu)

/-- What FILL_RECT can do: nothing; a refusal; or the fill is taken and executes. -/
theorem fillRect_cases {s t : State} {k : Take} (h : exec (.fillRect k) s = .next t) :
    let u := (s.reach k.moment).taken k
    t = s ∨ ∃ q rest, s.AtHead k q rest ∧
      ((∃ r, t = u.answer q r []) ∨
       ∃ job, u.fillAnswer k.req.payload = .ok job ∧
         t = u.withRu { u.ru with executing := some { entry := q, job := job } }) := by
  intro u
  simp only [exec, execFillRect] at h
  cases hk : s.taking k with
  | none => rw [hk] at h; cases h; exact Or.inl rfl
  | some q =>
    obtain ⟨rest, ht⟩ := taking_eq_some.1 hk
    rw [hk] at h
    simp only at h
    split at h
    · split at h
      · cases h; exact Or.inr ⟨q, rest, ht, Or.inl ⟨_, rfl⟩⟩
      · split at h
        · cases h; exact Or.inr ⟨q, rest, ht, Or.inl ⟨_, rfl⟩⟩
        · rename_i job hj
          cases h
          exact Or.inr ⟨q, rest, ht, Or.inr ⟨job, hj, rfl⟩⟩
    · cases h; exact Or.inl rfl

/-! ## Arrival -/

/-- A placed reply is at the end of the queue, or REQ_DROP rose. -/
theorem place_cases (x : RequestUnit) (r : Reply) :
    (x.hasPlace = true ∧ x.place r = { x with replies := x.replies ++ [r] }) ∨
    (x.hasPlace = false ∧ x.place r = x.dropOne) := by
  unfold RequestUnit.place
  cases h : x.hasPlace <;> simp

/-- Everything that the arrival rule can do: nothing; the frame joins a queue of fewer than 8; a reply is placed; a drop. -/
theorem arrive_cases (x : RequestUnit) (unit : Byte) (r : Request) :
    x.arrive unit r = x ∨ (x.queue.length < 8 ∧ x.arrive unit r = x.join r) ∨
    (r.cls = .unit ∧ ∃ y, x.arrive unit r = x.place y) ∨ x.arrive unit r = x.dropOne := by
  unfold RequestUnit.arrive
  split
  · rename_i e he
    have hu : r.cls = .unit := by
      unfold RequestUnit.duplicateOf at he
      cases hc : r.cls <;> simp [hc] at he ⊢
    unfold RequestUnit.duplicate
    cases e.state with
    | waiting => exact Or.inl rfl
    | replyQueued c => exact Or.inl rfl
    | replySent c => exact Or.inr (Or.inr (Or.inl ⟨hu, c, rfl⟩))
  · split
    · rename_i hl; exact Or.inr (Or.inl ⟨hl, rfl⟩)
    · split
      · rename_i hc; exact Or.inr (Or.inr (Or.inl ⟨hc, _, rfl⟩))
      · exact Or.inr (Or.inr (Or.inr rfl))
      · exact Or.inr (Or.inr (Or.inr rfl))

/-- A join adds one entry and one tag, and touches the filter besides. -/
theorem join_fields (x : RequestUnit) (r : Request) :
    (x.join r).queue = x.queue ++ [{ req := r, tag := x.nextTag }] ∧ (x.join r).nextTag = x.nextTag + 1 ∧
    (x.join r).executing = x.executing ∧ (x.join r).replies = x.replies ∧ (x.join r).lastBroadcast = x.lastBroadcast ∧
    (x.join r).log = x.log ∧ (x.join r).nextNotice = x.nextNotice ∧ (x.join r).lost = x.lost ∧
    (x.join r).reqDrop = x.reqDrop := by
  unfold RequestUnit.join
  cases r.cls <;> simp

/-- The arrival rule touches neither the executor nor the notices. -/
theorem arrive_keeps (x : RequestUnit) (unit : Byte) (r : Request) :
    (x.arrive unit r).executing = x.executing ∧ (x.arrive unit r).log = x.log ∧
    (x.arrive unit r).nextNotice = x.nextNotice ∧ (x.arrive unit r).lost = x.lost ∧
    (x.arrive unit r).lastBroadcast = x.lastBroadcast := by
  rcases arrive_cases x unit r with h | ⟨_, h⟩ | ⟨_, y, h⟩ | h
  · simp [h]
  · have j := join_fields x r; simp [h, j]
  · rcases place_cases x y with ⟨_, p⟩ | ⟨_, p⟩ <;> simp [h, p, RequestUnit.dropOne]
  · simp [h, RequestUnit.dropOne]

end Sys2Proof.Machine
end

