-- ==== Sys2Proof/Laws/Store.lean ====
section
/-! SUPPORT. The stores (page cells, palette entries): a read after a write, the canonical form kept by every operation, and equal reads
make equal stores. -/

namespace Sys2Proof.Machine

section Lists

variable {β : Type} [DecidableEq β] (d : Nat → β)

omit [DecidableEq β] in
/-- Every address of a store whose addresses all lie above `a` reads there as unlisted. -/
theorem storeRead_of_above (m : List (Nat × β)) (a : Nat) (h : ∀ p ∈ m, a < p.1) : storeRead d m a = d a := by
  induction m with
  | nil => rfl
  | cons p m ih =>
    obtain ⟨b, w⟩ := p
    have hb : a < b := h (b, w) (by simp)
    simp only [storeRead]
    rw [if_neg (by omega)]
    exact ih fun q hq => h q (by simp [hq])

/-- The canonical form, unfolded at its head. -/
theorem storeWf_cons (n a : Nat) (v : β) (m : List (Nat × β)) :
    storeWf d n ((a, v) :: m) = true ↔ v ≠ d a ∧ a < n ∧ (∀ p ∈ m, a < p.1) ∧ storeWf d n m = true := by
  simp [storeWf, and_assoc]

/-- A read after a write gives the value written at its address, and elsewhere what stood there. -/
theorem storeRead_storeWrite (n : Nat) (m : List (Nat × β)) (hm : storeWf d n m = true) (a b : Nat) (v : β) :
    storeRead d (storeWrite d m a v) b = if b = a then v else storeRead d m b := by
  induction m with
  | nil => by_cases hv : v = d a <;> by_cases hb : b = a <;> simp_all [storeWrite, storeRead]
  | cons p m ih =>
    obtain ⟨c, w⟩ := p
    obtain ⟨hw, hc, hall, hm'⟩ := (storeWf_cons d n c w m).1 hm
    simp only [storeWrite]
    split
    · rename_i hac
      have hnone : storeRead d ((c, w) :: m) a = d a :=
        storeRead_of_above d _ a fun q hq => by
          rcases List.mem_cons.1 hq with rfl | hq
          · exact hac
          · exact lt_trans hac (hall q hq)
      split
      · rename_i hv
        by_cases hb : b = a
        · subst hb; rw [if_pos rfl, hnone, hv]
        · rw [if_neg hb]
      · rw [storeRead]
    · split
      · rename_i _ hac
        subst hac
        have hnone : storeRead d m a = d a := storeRead_of_above d m a hall
        by_cases hb : b = a
        · subst hb; by_cases hv : v = d b <;> simp [hv, storeRead, hnone]
        · by_cases hv : v = d a <;> simp [hv, hb, storeRead]
      · rename_i h1 h2
        rw [storeRead, storeRead, ih hm']
        by_cases hb : b = c
        · subst hb; rw [if_pos rfl, if_neg (by omega), if_pos rfl]
        · rw [if_neg hb, if_neg hb]

/-- A write lists no address that was not listed, but its own. -/
theorem mem_storeWrite (m : List (Nat × β)) (a : Nat) (v : β) (p : Nat × β) (h : p ∈ storeWrite d m a v) :
    p = (a, v) ∨ p ∈ m := by
  induction m with
  | nil =>
    by_cases hv : v = d a
    · simp [storeWrite, hv] at h
    · simp only [storeWrite, if_neg hv, List.mem_singleton] at h; exact .inl h
  | cons q m ih =>
    obtain ⟨c, w⟩ := q
    simp only [storeWrite] at h
    split at h
    · split at h
      · exact .inr h
      · rcases List.mem_cons.1 h with rfl | h
        · exact .inl rfl
        · exact .inr h
    · split at h
      · split at h
        · exact .inr (List.mem_cons_of_mem _ h)
        · rcases List.mem_cons.1 h with rfl | h
          · exact .inl rfl
          · exact .inr (List.mem_cons_of_mem _ h)
      · rcases List.mem_cons.1 h with rfl | h
        · exact .inr (by simp)
        · rcases ih h with rfl | h
          · exact .inl rfl
          · exact .inr (List.mem_cons_of_mem _ h)

/-- A write below the bound keeps the canonical form. -/
theorem storeWf_storeWrite (n : Nat) (m : List (Nat × β)) (hm : storeWf d n m = true) (a : Nat) (ha : a < n) (v : β) :
    storeWf d n (storeWrite d m a v) = true := by
  induction m with
  | nil => by_cases hv : v = d a <;> simp [storeWrite, hv, storeWf, ha]
  | cons p m ih =>
    obtain ⟨c, w⟩ := p
    obtain ⟨hw, hc, hall, hm'⟩ := (storeWf_cons d n c w m).1 hm
    simp only [storeWrite]
    split
    · rename_i hac
      split
      · exact hm
      · rename_i hv
        refine (storeWf_cons d n a v _).2 ⟨hv, ha, ?_, hm⟩
        intro q hq
        rcases List.mem_cons.1 hq with rfl | hq
        · exact hac
        · exact lt_trans hac (hall q hq)
    · split
      · rename_i _ hac
        subst hac
        split
        · exact hm'
        · rename_i hv; exact (storeWf_cons d n a v m).2 ⟨hv, ha, hall, hm'⟩
      · rename_i h1 h2
        refine (storeWf_cons d n c w _).2 ⟨hw, hc, ?_, ih hm'⟩
        intro q hq
        rcases mem_storeWrite d m a v q hq with rfl | hq
        · show c < a; omega
        · exact hall q hq

/-- A run written below the bound keeps the canonical form. -/
theorem storeWf_storeWriteRun (n : Nat) (vs : List β) (m : List (Nat × β)) (hm : storeWf d n m = true) (a : Nat)
    (ha : a + vs.length ≤ n) : storeWf d n (storeWriteRun d m a vs) = true := by
  induction vs generalizing m a with
  | nil => exact hm
  | cons v vs ih =>
    rw [List.length_cons] at ha
    exact ih _ (storeWf_storeWrite d n m hm a (by omega) v) _ (by omega)

/-- A read after a run: inside the run the run's value, outside it what stood there. -/
theorem storeRead_storeWriteRun (n : Nat) (vs : List β) (m : List (Nat × β)) (hm : storeWf d n m = true) (a : Nat)
    (ha : a + vs.length ≤ n) (b : Nat) :
    storeRead d (storeWriteRun d m a vs) b = if a ≤ b then (vs[b - a]?).getD (storeRead d m b) else storeRead d m b := by
  induction vs generalizing m a with
  | nil => simp [storeWriteRun]
  | cons v vs ih =>
    rw [List.length_cons] at ha
    have hw := storeWf_storeWrite d n m hm a (by omega) v
    rw [storeWriteRun, ih _ hw _ (by omega), storeRead_storeWrite d n m hm]
    by_cases h1 : b = a
    · subst h1; simp
    · by_cases h2 : a ≤ b
      · obtain ⟨j, rfl⟩ : ∃ j, b = a + 1 + j := ⟨b - (a + 1), by omega⟩
        have e : a + 1 + j - a = j + 1 := by omega
        simp [e, h1, h2]
      · rw [if_neg (by omega), if_neg h1, if_neg h2]

/-- A part of a canonical list taken by a test of its entries is canonical. -/
theorem storeWf_filter (n : Nat) (f : Nat × β → Bool) (m : List (Nat × β)) (hm : storeWf d n m = true) :
    storeWf d n (m.filter f) = true := by
  induction m with
  | nil => rfl
  | cons p m ih =>
    obtain ⟨c, w⟩ := p
    obtain ⟨hw, hc, hall, hm'⟩ := (storeWf_cons d n c w m).1 hm
    rw [List.filter_cons]
    split
    · exact (storeWf_cons d n c w _).2 ⟨hw, hc, fun q hq => hall q (List.mem_of_mem_filter hq), ih hm'⟩
    · exact ih hm'

/-- Two canonical lists, the first wholly below the second, join to a canonical list. -/
theorem storeWf_append (n : Nat) (x y : List (Nat × β)) (hx : storeWf d n x = true) (hy : storeWf d n y = true)
    (h : ∀ p ∈ x, ∀ q ∈ y, p.1 < q.1) : storeWf d n (x ++ y) = true := by
  induction x with
  | nil => exact hy
  | cons p x ih =>
    obtain ⟨c, w⟩ := p
    obtain ⟨hw, hc, hall, hx'⟩ := (storeWf_cons d n c w x).1 hx
    refine (storeWf_cons d n c w (x ++ y)).2 ⟨hw, hc, ?_, ih hx' fun p hp q hq => h p (by simp [hp]) q hq⟩
    intro q hq
    rcases List.mem_append.1 hq with hq | hq
    · exact hall q hq
    · exact h (c, w) (by simp) q hq

/-- Equal reads make equal stores: the canonical form. -/
theorem store_ext (n : Nat) (x y : List (Nat × β)) (hx : storeWf d n x = true) (hy : storeWf d n y = true)
    (h : ∀ a, storeRead d x a = storeRead d y a) : x = y := by
  induction x generalizing y with
  | nil =>
    cases y with
    | nil => rfl
    | cons q y =>
      obtain ⟨c, w⟩ := q
      obtain ⟨hw, -, -, -⟩ := (storeWf_cons d n c w y).1 hy
      have := h c
      simp [storeRead] at this
      exact absurd this.symm hw
  | cons p x ih =>
    obtain ⟨b, v⟩ := p
    obtain ⟨hv, -, hbx, hx'⟩ := (storeWf_cons d n b v x).1 hx
    cases y with
    | nil => have := h b; simp [storeRead] at this; exact absurd this hv
    | cons q y =>
      obtain ⟨c, w⟩ := q
      obtain ⟨hw, -, hcy, hy'⟩ := (storeWf_cons d n c w y).1 hy
      have hbc : b = c := by
        rcases lt_trichotomy b c with hlt | heq | hlt
        · have h1 := h b
          rw [storeRead_of_above d ((c, w) :: y) b (by
            intro q hq
            rcases List.mem_cons.1 hq with rfl | hq
            · exact hlt
            · exact lt_trans hlt (hcy q hq))] at h1
          simp [storeRead] at h1
          exact absurd h1 hv
        · exact heq
        · have h1 := h c
          rw [storeRead_of_above d ((b, v) :: x) c (by
            intro q hq
            rcases List.mem_cons.1 hq with rfl | hq
            · exact hlt
            · exact lt_trans hlt (hbx q hq))] at h1
          simp [storeRead] at h1
          exact absurd h1.symm hw
      subst hbc
      have hvw : v = w := by have := h b; simpa [storeRead] using this
      subst hvw
      rw [ih y hx' hy' fun a => ?_]
      by_cases ha : a = b
      · subst ha; rw [storeRead_of_above d x a hbx, storeRead_of_above d y a hcy]
      · have := h a; simpa [storeRead, ha] using this

end Lists

/-! ## Pages -/

/-- A run that stays inside the canvas stays inside the page. -/
theorem run_in_page {w x y count : Nat} (h : runInside w x y count = true) : y * w + x + count ≤ pageCells := by
  simp only [runInside, Bool.and_eq_true, decide_eq_true_eq] at h
  obtain ⟨hy, hx⟩ := h
  have h1 : (y + 1) * w ≤ canvasHeight w * w := Nat.mul_le_mul_right w hy
  have h2 : canvasHeight w * w ≤ pageCells := Nat.div_mul_le_self pageCells w
  rw [Nat.add_mul, Nat.one_mul] at h1
  omega

/-- WRITE_PIXELS keeps the canonical form. -/
theorem writeRun_wf (m : Cells) (hm : m.wf = true) {w x y : Nat} (vs : List Byte)
    (h : runInside w x y vs.length = true) : (m.writeRun (y * w + x) vs).wf = true :=
  storeWf_storeWriteRun cellDefault pageCells vs m hm _ (run_in_page h)

/-- A fill inside the canvas keeps the canonical form. -/
theorem fill_wf (m : Cells) (hm : m.wf = true) {width x y w h : Nat} (index : Byte)
    (hr : x + w ≤ width ∧ y + h ≤ canvasHeight width) : (m.fill width x y w index h).wf = true := by
  induction h with
  | zero => exact hm
  | succ n ih =>
    refine writeRun_wf _ (ih ⟨hr.1, by omega⟩) (List.replicate w index) ?_
    simp [runInside, List.length_replicate]
    omega

/-- An aborted copy keeps the canonical form. -/
theorem copiedTo_wf (source target : Cells) (hs : source.wf = true) (ht : target.wf = true) (n : Nat) :
    (Cells.copiedTo source target n).wf = true := by
  refine storeWf_append cellDefault pageCells _ _ (storeWf_filter _ _ _ _ hs) (storeWf_filter _ _ _ _ ht) ?_
  intro p hp q hq
  have h1 := List.of_mem_filter hp
  have h2 := List.of_mem_filter hq
  simp only [decide_eq_true_eq] at h1 h2
  omega

/-- An aborted copy reads as the source below the point it had come to, and as the target from there on (R6). -/
theorem copiedTo_read (source target : Cells) (n a : Nat) :
    (Cells.copiedTo source target n).read a = if a < n then source.read a else target.read a := by
  have keep : ∀ (f : Nat → Bool) (m : Cells), storeRead cellDefault (m.filter fun p => f p.1) a =
      if f a = true then storeRead cellDefault m a else cellDefault a := by
    intro f m
    induction m with
    | nil => by_cases h : f a = true <;> simp [storeRead, h]
    | cons p m ih =>
      obtain ⟨c, w⟩ := p
      by_cases hc : a = c
      · subst hc; by_cases h : f a = true <;> simp_all [storeRead]
      · by_cases h : f c = true <;> simp_all [storeRead]
  have join : ∀ (x y : Cells), (∀ p ∈ x, p.1 ≠ a) → storeRead cellDefault (x ++ y) a = storeRead cellDefault y a := by
    intro x y hx
    induction x with
    | nil => rfl
    | cons p x ih =>
      obtain ⟨c, w⟩ := p
      have : a ≠ c := fun e => hx (c, w) (by simp) e.symm
      simp only [List.cons_append, storeRead, if_neg this]
      exact ih fun q hq => hx q (by simp [hq])
  have join' : ∀ (x y : Cells), (∀ p ∈ y, p.1 ≠ a) → storeRead cellDefault (x ++ y) a = storeRead cellDefault x a := by
    intro x y hy
    induction x with
    | nil =>
      have : storeRead cellDefault y a = cellDefault a := by
        induction y with
        | nil => rfl
        | cons q y ih =>
          obtain ⟨c, w⟩ := q
          have : a ≠ c := fun e => hy (c, w) (by simp) e.symm
          simp only [storeRead, if_neg this]
          exact ih fun q hq => hy q (by simp [hq])
      simpa [storeRead] using this
    | cons p x ih => obtain ⟨c, w⟩ := p; simp only [List.cons_append, storeRead, ih]
  unfold Cells.read Cells.copiedTo
  by_cases h : a < n
  · rw [join' _ _ (by
      intro p hp; have := List.of_mem_filter hp; simp only [decide_eq_true_eq] at this; omega),
      keep (fun i => decide (i < n))]
    simp [h]
  · rw [join _ _ (by
      intro p hp; have := List.of_mem_filter hp; simp only [decide_eq_true_eq] at this; omega),
      keep (fun i => decide (n ≤ i))]
    have : n ≤ a := by omega
    simp [h, this]

/-- A page put is the page read, and the other page stays. -/
@[simp] theorem page_putPage (x : FrameStore) (p q : Page) (m : Cells) :
    (x.putPage p m).page q = if q = p then m else x.page q := by
  cases p <;> cases q <;> rfl

@[simp] theorem putPage_front (x : FrameStore) (p : Page) (m : Cells) : (x.putPage p m).front = x.front := by cases p <;> rfl
@[simp] theorem putPage_width (x : FrameStore) (p : Page) (m : Cells) : (x.putPage p m).width = x.width := by cases p <;> rfl
@[simp] theorem putPage_copy (x : FrameStore) (p : Page) (m : Cells) : (x.putPage p m).copy = x.copy := by cases p <;> rfl

/-- Reset's pages and palettes are in canonical form. -/
theorem reset_pages_wf : State.reset.fs.pageA.wf = true ∧ State.reset.fs.pageB.wf = true ∧
    Palette.wf State.reset.pu.live.palette = true := by decide

end Sys2Proof.Machine
end

