-- ==== Sys2Proof/Laws/Frames.lean ====
section
/-! SUPPORT. The frame start: the number it carries, the application of a sealed set, the latches; what an applied journal keeps of the
view; and the law of band tables under a pan. -/

namespace Sys2Proof.Machine

/-! ## The number carried (R45) -/

@[simp] theorem takeNumber_counter (x : FrameTiming) : x.takeNumber.counter = x.numberCarried := by
  unfold FrameTiming.takeNumber FrameTiming.numberCarried
  cases x.pendingNumber <;> rfl

@[simp] theorem takeNumber_pendingNumber (x : FrameTiming) : x.takeNumber.pendingNumber = none := rfl
@[simp] theorem takeNumber_syncState (x : FrameTiming) : x.takeNumber.syncState = x.syncState := rfl

/-- Taking the number changes the counter and the pending number alone. -/
theorem takeNumber_eq (x : FrameTiming) : x.takeNumber = { x with counter := x.numberCarried, pendingNumber := none } := by
  unfold FrameTiming.takeNumber FrameTiming.numberCarried
  cases x.pendingNumber <;> rfl

/-! ## The latches -/

@[simp] theorem latched_skips (x : RowDrive) (g : GlobalChannel) : x.latched.skips g = x.skips g := rfl

/-- The patrol at a frame start does what R134 says. -/
theorem patrolStart_eq (x : TestUnit) (map : RowDrive) (m : Mode) (now : Nat) :
    (patrolActive x.patrolOn m = true ∧ x.patrolTest = none ∧
      ∃ j h, map.Reaches x.cursor j h ∧ j < 108 ∧
        x.patrolStart map m now = { x with
          cursor := h, patrolTest := some h, testStart := now,
          lapCount := if 108 ≤ x.cursor.val + j then satInc x.lapCount else x.lapCount }) ∨
    (¬ (patrolActive x.patrolOn m = true ∧ x.patrolTest = none) ∧ x.patrolStart map m now = x) := by
  unfold TestUnit.patrolStart
  by_cases hc : patrolActive x.patrolOn m = true ∧ x.patrolTest = none
  · left
    obtain ⟨j, hj, hr, hw⟩ := firstFrom_reaches map x.cursor
    refine ⟨hc.1, hc.2, j, _, hr, hj, ?_⟩
    rw [if_pos hc]
    generalize map.firstFrom x.cursor = y at hr hw ⊢
    simp only [hw, decide_eq_true_eq]
  · right
    exact ⟨hc, if_neg hc⟩

/-- A patrol is active when it is on and the mode is STANDBY or SHOW (R131). -/
theorem patrolActive_iff (on : Bool) (m : Mode) :
    patrolActive on m = true ↔ on = true ∧ (m = .standby ∨ m = .showMode) := by
  unfold patrolActive
  cases m <;> simp

theorem latchFrame_tu (s : State) : s.latchFrame.tu = s.tu.patrolStart s.rd.latched s.mc.mode s.now := rfl
theorem latchFrame_rd (s : State) : s.latchFrame.rd = s.rd.latched := rfl

/-- A channel reached on the latched map is reached on the map. -/
theorem reaches_latched (x : RowDrive) (g : GlobalChannel) (j : Nat) (h : GlobalChannel) :
    x.latched.Reaches g j h ↔ x.Reaches g j h := by
  unfold RowDrive.Reaches
  simp only [latched_skips]

/-- The source of a row in the routing latch just taken. -/
theorem latched_get (x : RowDrive) (r : Fin 96) : x.latched.latch.get r = x.source r := by
  unfold RowDrive.latched RowDrive.sources
  simp only [Vector.get_eq_getElem, Vector.getElem_ofFn]

/-- Every latch of a frame start, as `LatchesFrame` says it. -/
theorem latchFrame_latches (s : State) : s.LatchesFrame s.latchFrame := by
  refine ⟨rfl, rfl, ⟨rfl, rfl, latched_get s.rd⟩, ?_, ⟨?_, rfl, rfl, rfl, rfl⟩, rfl⟩
  · unfold State.PatrolStarts
    rw [latchFrame_tu]
    rcases patrolStart_eq s.tu s.rd.latched s.mc.mode s.now with ⟨h1, h2, j, h, hr, hj, he⟩ | ⟨hc, he⟩
    · rw [he]
      rw [if_pos ⟨((patrolActive_iff _ _).1 h1).1, ((patrolActive_iff _ _).1 h1).2, h2⟩]
      exact ⟨j, h, (reaches_latched _ _ _ _).1 hr, hj, rfl⟩
    · rw [he, if_neg]
      rintro ⟨h1, h2, h3⟩
      exact hc ⟨(patrolActive_iff _ _).2 ⟨h1, h2⟩, h3⟩
  · intro b hb
    cases b <;> simp at hb <;> rfl

/-! ## The application of a sealed set -/

/-- A set is due in the model exactly when R68 says so. -/
theorem due_iff (z : SealedSet) (n : FrameNo) : z.target.due n = true ↔ z.Due n := by
  unfold Target.due SealedSet.Due
  cases z.target <;> simp

/-- A set not due leaves the tile as it is. -/
theorem applyDue_waits (s : State) (z : SealedSet) (hz : s.cs.sealedSlot = some z) (hd : ¬ z.Due s.ft.counter) :
    s.applyDue = s := by
  unfold State.applyDue
  rw [hz]
  exact if_neg fun e => hd ((due_iff z _).1 e)

/-- A due set applies. -/
theorem applyDue_applies (s : State) (z : SealedSet) (hz : s.cs.sealedSlot = some z) (hd : z.Due s.ft.counter) :
    s.applyDue = s.applySet z := by
  unfold State.applyDue
  rw [hz]
  exact if_pos ((due_iff z _).2 hd)

theorem applyDue_none (s : State) (hz : s.cs.sealedSlot = none) : s.applyDue = s := by
  unfold State.applyDue
  rw [hz]

section ApplySet
variable (s : State) (z : SealedSet)

@[simp] theorem applySet_pu : (s.applySet z).pu =
    { s.pu with live := (applyJournal s.fs.width s.pu.live z.set.journal).1 } := by
  unfold State.applySet
  cases z.flip <;> cases z.notify <;> rfl

@[simp] theorem applySet_fs : (s.applySet z).fs = if z.flip then { s.fs with front := s.fs.front.other } else s.fs := by
  unfold State.applySet
  cases z.flip <;> cases z.notify <;> rfl

@[simp] theorem applySet_cs : (s.applySet z).cs = { s.cs with sealedSlot := none } := by
  unfold State.applySet
  cases z.flip <;> cases z.notify <;> rfl

@[simp] theorem applySet_ru : (s.applySet z).ru =
    if z.notify then
      s.ru.createNotice s.li.unit s.ft.counter
        (.setApplied z.set.id s.ft.counter (applyJournal s.fs.width s.pu.live z.set.journal).2 (z.target.late s.ft.counter))
    else s.ru := by
  unfold State.applySet
  cases z.flip <;> cases z.notify <;> rfl

/-- An application touches the view, the Frame Store, the slots and the notices alone. -/
theorem applySet_same : s.SameExcept (s.applySet z) [.pu, .fs, .cs, .ru] ∧ (s.applySet z).now = s.now := by
  unfold State.applySet
  refine ⟨⟨?_, ?_, ?_, ?_, ?_⟩, ?_⟩
  · intro b hb
    cases b <;> simp at hb <;> (cases z.flip <;> cases z.notify <;> rfl)
  all_goals (cases z.flip <;> cases z.notify <;> rfl)

end ApplySet

/-- A counted frame start deals with the sealed set as `DealsWithSealedSet` says it. -/
theorem applyDue_deals (s : State) : s.DealsWithSealedSet s.applyDue := by
  unfold State.DealsWithSealedSet
  cases hz : s.cs.sealedSlot with
  | none => exact applyDue_none s hz
  | some z =>
    refine ⟨fun hd => ?_, fun hd => applyDue_waits s z hz hd⟩
    rw [applyDue_applies s z hz hd]
    refine ⟨applySet_pu s z, applySet_fs s z, applySet_cs s z, ?_, ?_, applySet_same s z⟩
    · rw [applySet_ru]
      split
      · exact createNotice_keepsRequests _ _ _ _
      · exact ⟨rfl, rfl, rfl, rfl, rfl, rfl, rfl⟩
    · rw [applySet_ru]
      unfold Target.late
      cases hn : z.notify with
      | false => exact ⟨rfl, rfl, rfl⟩
      | true =>
        simp only [if_true]
        cases z.target <;> exact createNotice_creates _ _ _ _

/-- The frame-start event of a counted frame start is `CountedFrameStart`. -/
theorem countedEvent_starts (s : State) : s.CountedFrameStart s.countedEvent :=
  ⟨s.applyDue, applyDue_deals s, latchFrame_latches s.applyDue⟩

/-! ## The view under a journal -/

/-- A pan keeps top rows, banks and the number of bands. -/
theorem setSource_tops (t : List Band) (i sx sy : Nat) :
    (setSource t i sx sy).map Band.top = t.map Band.top ∧ (setSource t i sx sy).length = t.length := by
  unfold setSource
  refine ⟨?_, List.length_modify ..⟩
  apply List.ext_getElem?
  intro k
  simp only [List.getElem?_map, List.getElem?_modify]
  cases t[k]? with
  | none => rfl
  | some b => by_cases h : i = k <;> simp [h]

/-- A lawful table stays lawful under a pan that fits it. -/
theorem bandsLegalFrom_setSource (w : Nat) (t : List Band) (i sx sy : Nat) (h : bandsLegalFrom w t = true)
    (hp : panFits w t i sx sy = true) : bandsLegalFrom w (setSource t i sx sy) = true := by
  induction t generalizing i with
  | nil => simp [panFits, bandHeights] at hp
  | cons b r ih =>
    cases r with
    | nil =>
      cases i with
      | zero =>
        simp [panFits, bandHeights] at hp
        simp [bandsLegalFrom] at h
        simp [setSource, bandsLegalFrom, hp, h]
      | succ i => simp [panFits, bandHeights] at hp
    | cons c r =>
      simp only [bandsLegalFrom, Bool.and_eq_true, decide_eq_true_eq] at h
      cases i with
      | zero =>
        simp only [panFits, bandHeights, List.getElem?_cons_zero] at hp
        simp only [setSource, List.modify_zero_cons, bandsLegalFrom, Bool.and_eq_true, decide_eq_true_eq]
        exact ⟨⟨h.1.1, hp⟩, h.2⟩
      | succ i =>
        have hp' : panFits w (c :: r) i sx sy = true := by
          simpa [panFits, bandHeights] using hp
        have := ih i h.2 hp'
        cases i with
        | zero =>
          simp only [setSource, List.modify_succ_cons, List.modify_zero_cons] at this ⊢
          simp only [bandsLegalFrom, Bool.and_eq_true, decide_eq_true_eq]
          exact ⟨h.1, this⟩
        | succ i =>
          simp only [setSource, List.modify_succ_cons] at this ⊢
          simp only [bandsLegalFrom, Bool.and_eq_true, decide_eq_true_eq]
          exact ⟨h.1, this⟩

/-- A lawful table stays lawful under a pan that fits it (R61, R71). -/
theorem bandsLegal_setSource (w : Nat) (t : List Band) (i sx sy : Nat) (h : bandsLegal w t = true)
    (hp : panFits w t i sx sy = true) : bandsLegal w (setSource t i sx sy) = true := by
  unfold bandsLegal at h ⊢
  simp only [Bool.and_eq_true] at h ⊢
  obtain ⟨ht, hl⟩ := setSource_tops t i sx sy
  rw [ht, hl]
  exact ⟨h.1, bandsLegalFrom_setSource w t i sx sy h.2 hp⟩

/-- One edit applied keeps the law of the table and the form of the palettes. -/
theorem applyEdit_keeps (w : Nat) (x : View × Nat) (e : Edit) (he : editLegal w e) (hb : bandsLegal w x.1.bands = true)
    (hp : x.1.palette.wf = true) :
    bandsLegal w (applyEdit w x e).1.bands = true ∧ (applyEdit w x e).1.palette.wf = true := by
  cases e with
  | bands t => exact ⟨he, hp⟩
  | pan i sx sy =>
    simp only [applyEdit]
    by_cases hf : panFits w x.1.bands i sx sy = true
    · rw [if_pos hf]; exact ⟨bandsLegal_setSource w _ i sx sy hb hf, hp⟩
    · rw [if_neg hf]; exact ⟨hb, hp⟩
  | palette bank first es =>
    refine ⟨hb, ?_⟩
    obtain ⟨h1, h2⟩ := he
    exact storeWf_storeWriteRun _ _ _ _ hp _ (by simp [paletteKey]; omega)
  | level l => exact ⟨hb, hp⟩

/-- A journal of legal edits applied keeps the law of the table and the form of the palettes. -/
theorem applyJournal_keeps (w : Nat) (v : View) (j : List Edit) (hj : ∀ e ∈ j, editLegal w e)
    (hb : bandsLegal w v.bands = true) (hp : v.palette.wf = true) :
    bandsLegal w (applyJournal w v j).1.bands = true ∧ (applyJournal w v j).1.palette.wf = true := by
  unfold applyJournal
  suffices h : ∀ x : View × Nat, bandsLegal w x.1.bands = true → x.1.palette.wf = true →
      bandsLegal w (j.foldl (applyEdit w) x).1.bands = true ∧ (j.foldl (applyEdit w) x).1.palette.wf = true from
    h (v, 0) hb hp
  induction j with
  | nil => intro x h1 h2; exact ⟨h1, h2⟩
  | cons e j ih =>
    intro x h1 h2
    have := applyEdit_keeps w x e (hj e List.mem_cons_self) h1 h2
    exact ih (fun e' h' => hj e' (List.mem_cons_of_mem _ h')) _ this.1 this.2

/-- A journal applied up to one more entry. -/
theorem applyJournal_snoc (w : Nat) (v : View) (j : List Edit) (e : Edit) :
    applyJournal w v (j ++ [e]) = applyEdit w (applyJournal w v j) e := by
  unfold applyJournal
  rw [List.foldl_append]
  rfl

end Sys2Proof.Machine
end

