-- ==== Sys2Proof/Laws/Effects.lean ====
section
/-! SUPPORT. What the larger effects keep, for the proofs of what every step keeps: the frame-start event, the expiries, SET_SYNC's change of
source, a change of mode, a recorded test. -/

namespace Sys2Proof.Machine

theorem keepsRequests_refl (x : RequestUnit) : x.KeepsRequests x := ⟨rfl, rfl, rfl, rfl, rfl, rfl, rfl⟩

/-- The latches of a frame start touch no queue, no slot, no map record and no scan. -/
theorem latchFrame_keeps (s : State) :
    s.latchFrame.ru = s.ru ∧ s.latchFrame.li = s.li ∧ s.latchFrame.fs = s.fs ∧ s.latchFrame.cs = s.cs ∧ s.latchFrame.fz = s.fz ∧
    s.latchFrame.mc = s.mc ∧ s.latchFrame.rd.segments = s.rd.segments ∧ s.latchFrame.tu.scan = s.tu.scan ∧
    s.latchFrame.tu.findings = s.tu.findings ∧ s.latchFrame.tu.patrolOn = s.tu.patrolOn := by
  refine ⟨rfl, rfl, rfl, rfl, rfl, rfl, rfl, ?_⟩
  rw [latchFrame_tu]
  rcases patrolStart_eq s.tu s.rd.latched s.mc.mode s.now with ⟨_, _, j, h, _, _, e⟩ | ⟨_, e⟩ <;> rw [e] <;> exact ⟨rfl, rfl, rfl⟩

/-- A patrol test in progress after the latches was in progress before them, or the patrol is active. -/
theorem latchFrame_patrolTest (s : State) :
    s.latchFrame.tu.patrolTest = s.tu.patrolTest ∨ patrolActive s.tu.patrolOn s.mc.mode = true := by
  rw [latchFrame_tu]
  rcases patrolStart_eq s.tu s.rd.latched s.mc.mode s.now with ⟨h, _⟩ | ⟨_, e⟩
  · exact Or.inr h
  · exact Or.inl (by rw [e])

/-- Dealing with the sealed set touches the view, the Frame Store's front page, the slots and the notices alone. -/
theorem applyDue_keeps (s : State) :
    s.applyDue.li = s.li ∧ s.applyDue.tu = s.tu ∧ s.applyDue.rd = s.rd ∧ s.applyDue.fz = s.fz ∧ s.applyDue.mc = s.mc ∧
    s.applyDue.ft = s.ft ∧ s.ru.KeepsRequests s.applyDue.ru ∧ (s.ru.log.length ≤ 8 → s.applyDue.ru.log.length ≤ 8) := by
  cases hz : s.cs.sealedSlot with
  | none => rw [applyDue_none s hz]; exact ⟨rfl, rfl, rfl, rfl, rfl, rfl, keepsRequests_refl _, id⟩
  | some z =>
    by_cases hd : z.Due s.ft.counter
    · rw [applyDue_applies s z hz hd]
      obtain ⟨h, _⟩ := applySet_same s z
      refine ⟨h.1 .li (by simp), h.1 .tu (by simp), h.1 .rd (by simp), h.1 .fz (by simp), h.1 .mc (by simp), h.1 .ft (by simp),
        ?_, ?_⟩
      · rw [applySet_ru]
        split
        · exact createNotice_keepsRequests _ _ _ _
        · exact keepsRequests_refl _
      · intro hl
        rw [applySet_ru]
        split
        · exact createNotice_log_bound _ _ _ _ hl
        · exact hl
    · rw [applyDue_waits s z hz hd]; exact ⟨rfl, rfl, rfl, rfl, rfl, rfl, keepsRequests_refl _, id⟩

/-- SET_SYNC's change of source and period touches the Frame Timing Unit alone, and neither N nor the pending number. -/
theorem applySync_keeps (s : State) (x : SyncSource) (t : Nat) :
    (s.applySync x t).SameExcept s [.ft] ∧ (s.applySync x t).now = s.now ∧ (s.applySync x t).ft.counter = s.ft.counter ∧
    (s.applySync x t).ft.pendingNumber = s.ft.pendingNumber := by
  unfold State.applySync
  split <;> refine ⟨⟨?_, rfl, rfl, rfl, rfl⟩, rfl, rfl, rfl⟩ <;> intro b hb <;> cases b <;> simp at hb <;> rfl

/-- An expiry touches of the Request Unit the notices alone, whose log keeps its bound; it touches neither the link, the fuses, the mode, the routes
and conditions, nor what the scan has found. -/
theorem frameTimerExpires_keeps (s : State) :
    let t := s.frameTimerExpires
    s.ru.KeepsRequests t.ru ∧ (s.ru.log.length ≤ 8 → t.ru.log.length ≤ 8) ∧ t.li = s.li ∧ t.fz = s.fz ∧ t.mc = s.mc ∧
    t.rd.segments = s.rd.segments ∧ t.rd.policy = s.rd.policy ∧ t.tu.scan = s.tu.scan ∧ t.tu.findings = s.tu.findings ∧
    t.tu.patrolOn = s.tu.patrolOn ∧ (s.tu.patrolTest ≠ none → t.tu.patrolTest = s.tu.patrolTest ∧ t.tu.testStart = s.tu.testStart) ∧
    (patrolActive s.tu.patrolOn s.mc.mode = false → t.tu = s.tu) := by
  have latch : ∀ u : State,
      (u.tu.patrolTest ≠ none →
        u.latchFrame.tu.patrolTest = u.tu.patrolTest ∧ u.latchFrame.tu.testStart = u.tu.testStart) ∧
      (patrolActive u.tu.patrolOn u.mc.mode = false → u.latchFrame.tu = u.tu) := by
    intro u
    rw [latchFrame_tu]
    unfold TestUnit.patrolStart
    exact ⟨fun h => by rw [if_neg fun c => h c.2]; exact ⟨rfl, rfl⟩, fun h => by rw [if_neg fun c => by simp [h] at c]⟩
  have plain : ∀ u : State, u.tu = s.tu → u.mc = s.mc → u.ru = s.ru → u.li = s.li → u.fz = s.fz → u.rd.segments = s.rd.segments →
      u.rd.policy = s.rd.policy → let t := u.latchFrame
      t.ru = s.ru ∧ t.li = s.li ∧ t.fz = s.fz ∧ t.mc = s.mc ∧ t.rd.segments = s.rd.segments ∧ t.rd.policy = s.rd.policy ∧
      t.tu.scan = s.tu.scan ∧ t.tu.findings = s.tu.findings ∧ t.tu.patrolOn = s.tu.patrolOn ∧
      (s.tu.patrolTest ≠ none → t.tu.patrolTest = s.tu.patrolTest ∧ t.tu.testStart = s.tu.testStart) ∧
      (patrolActive s.tu.patrolOn s.mc.mode = false → t.tu = s.tu) := by
    intro u h1 h2 h3 h4 h5 h6 h7
    obtain ⟨k1, k2, -, -, k5, k6, k7, k8, k9, k10⟩ := latchFrame_keeps u
    obtain ⟨l1, l2⟩ := latch u
    rw [h1, h2] at l2
    rw [h1] at l1
    exact ⟨k1.trans h3, k2.trans h4, k5.trans h5, k6.trans h2, k7.trans h6, h7, k8.trans (by rw [h1]), k9.trans (by rw [h1]),
      k10.trans (by rw [h1]), l1, l2⟩
  dsimp only
  unfold State.frameTimerExpires
  cases s.ft.syncState
  · obtain ⟨e, rest⟩ := plain ((s.tick (s.ft.timerStart + s.ft.fullPeriod)).withFt
      { s.ft with timerStart := max s.now (s.ft.timerStart + s.ft.fullPeriod) }) rfl rfl rfl rfl rfl rfl rfl
    exact ⟨keepsRequests_refl _, id, rest⟩
  · obtain ⟨e, rest⟩ := plain ((s.tick (s.ft.lastEdge + s.ft.supervision)).withFt
      { s.ft with syncState := .holdover, holdover := 1, timerStart := max s.now (s.ft.lastEdge + s.ft.supervision) })
      rfl rfl rfl rfl rfl rfl rfl
    exact ⟨createNotice_keepsRequests _ _ _ _, createNotice_log_bound _ _ _ _, rest⟩
  · obtain ⟨e, rest⟩ := plain ((s.tick (s.ft.timerStart + s.ft.fullPeriod)).withFt
      { s.ft with timerStart := max s.now (s.ft.timerStart + s.ft.fullPeriod), holdover := satInc s.ft.holdover })
      rfl rfl rfl rfl rfl rfl rfl
    exact ⟨keepsRequests_refl _, id, rest⟩
  · let u := ((s.tick (s.ft.timerStart + s.ft.fullPeriod)).withFt
      { s.ft with timerStart := max s.now (s.ft.timerStart + s.ft.fullPeriod) })
    let v := u.withFt u.ft.takeNumber
    obtain ⟨a1, a2, a3, a4, a5, -, a7, a8⟩ := applyDue_keeps v
    obtain ⟨k1, k2, -, -, k5, k6, k7, k8, k9, k10⟩ := latchFrame_keeps v.applyDue
    obtain ⟨l1, l2⟩ := latch v.applyDue
    rw [a2, a5] at l2
    rw [a2] at l1
    refine ⟨?_, ?_, k2.trans a1, k5.trans a4, k6.trans a5, k7.trans (by rw [a3]; rfl), ?_, k8.trans (by rw [a2]; rfl),
      k9.trans (by rw [a2]; rfl), k10.trans (by rw [a2]; rfl), l1, l2⟩
    · show s.ru.KeepsRequests v.applyDue.latchFrame.ru
      rw [k1]; exact a7
    · show _ → v.applyDue.latchFrame.ru.log.length ≤ 8
      rw [k1]; exact a8
    · show v.applyDue.rd.policy = _
      rw [a3]; rfl

/-- An expiry that SET_SYNC makes take place at once touches of the Request Unit the notices alone. -/
theorem expireOverdue_requests (s : State) : s.ru.KeepsRequests s.expireOverdue.ru := by
  unfold State.expireOverdue
  split
  · exact (frameTimerExpires_keeps s).1
  · exact keepsRequests_refl _

theorem keepsRequests_trans {x y z : RequestUnit} (h : x.KeepsRequests y) (g : y.KeepsRequests z) : x.KeepsRequests z := by
  obtain ⟨a1, a2, a3, a4, a5, a6, a7⟩ := h
  obtain ⟨b1, b2, b3, b4, b5, b6, b7⟩ := g
  exact ⟨b1.trans a1, b2.trans a2, b3.trans a3, b4.trans a4, b5.trans a5, b6.trans a6, b7.trans a7⟩

/-- The passing of time keeps what every expiry keeps: the requests, the link, the fuses, the mode, the routes and conditions, READY. -/
theorem reach_fields (s : State) (t : Nat) :
    let u := s.reach t
    s.ru.KeepsRequests u.ru ∧ u.li = s.li ∧ u.fz = s.fz ∧ u.mc = s.mc ∧ u.rd.segments = s.rd.segments ∧ u.rd.policy = s.rd.policy ∧
    u.ready = s.ready := by
  refine reach_keeps (P := fun u => s.ru.KeepsRequests u.ru ∧ u.li = s.li ∧ u.fz = s.fz ∧ u.mc = s.mc ∧
    u.rd.segments = s.rd.segments ∧ u.rd.policy = s.rd.policy ∧ u.ready = s.ready) ?_ t ⟨keepsRequests_refl _, rfl, rfl, rfl, rfl, rfl, rfl⟩
  rintro u - ⟨h1, h2, h3, h4, h5, h6, h7⟩
  obtain ⟨k1, -, k2, k3, k4, k5, k6, -⟩ := frameTimerExpires_keeps u
  exact ⟨keepsRequests_trans h1 k1, k2.trans h2, k3.trans h3, k4.trans h4, k5.trans h5, k6.trans h6,
    (frameTimerExpires_ready u).trans h7⟩

/-- The frame at the head can be taken after the expiries as before them. -/
theorem State.AtHead.reach {s : State} {k : Take} {q : Queued} {rest : List Queued} (h : s.AtHead k q rest) (t : Nat) :
    (s.reach t).AtHead k q rest := by
  obtain ⟨⟨k1, k2, k3, -⟩, -, -, -, -, -, hr⟩ := reach_fields s t
  exact ⟨hr.trans h.ready, k2.trans h.idle, by rw [k3]; exact h.place, k1.trans h.head, h.names⟩

/-- A change of mode, block by block. -/
theorem changeMode_fields (s : State) (m : Mode) :
    let t := s.changeMode m
    t.mc = { s.mc with mode := m } ∧ t.pu = { s.pu with output := if m = .showMode then s.pu.output else .blank } ∧
    t.li = s.li ∧ t.fs = s.fs ∧ t.ft = s.ft ∧ t.cs = s.cs ∧ t.rd = s.rd ∧ t.fz = s.fz ∧ t.now = s.now ∧
    t.tu.patrolTest = (if m = .off ∨ m = .maintenance then none else s.tu.patrolTest) ∧ t.tu.patrolOn = s.tu.patrolOn ∧
    t.tu.findings = s.tu.findings ∧
    t.tu.scan = (if s.mc.mode = .maintenance ∧ s.tu.scan.isRunning = true then .idle else s.tu.scan) ∧
    t.ru = (if s.mc.mode = .maintenance ∧ s.tu.scan.isRunning = true then
        s.ru.createNotice s.li.unit s.ft.counter
          (.scanDone .aborted s.tu.tested s.tu.findings.length s.tu.overflow s.rd.darkRows)
      else s.ru) := by
  unfold State.changeMode
  by_cases h : s.mc.mode = .maintenance ∧ s.tu.scan.isRunning = true
  · have h2 : ∀ x y : State, (if s.mc.mode = .maintenance ∧ s.tu.scan.isRunning = true then x else y) = x := fun x y => if_pos h
    have h3 : ∀ x : ScanEngine, (if s.mc.mode = .maintenance ∧ s.tu.scan.isRunning = true then x else s.tu.scan) = x :=
      fun x => if_pos h
    have h4 : ∀ x : RequestUnit, (if s.mc.mode = .maintenance ∧ s.tu.scan.isRunning = true then x else s.ru) = x :=
      fun x => if_pos h
    rw [h3, h4]
    simp only [withTu_tu, withPu_tu, withMc_tu, h2]
    refine ⟨?_, ?_, ?_, ?_, ?_, ?_, ?_, ?_, ?_, ?_, ?_, ?_, ?_, ?_⟩ <;> trivial
  · have h2 : ∀ x y : State, (if s.mc.mode = .maintenance ∧ s.tu.scan.isRunning = true then x else y) = y := fun x y => if_neg h
    have h3 : ∀ x : ScanEngine, (if s.mc.mode = .maintenance ∧ s.tu.scan.isRunning = true then x else s.tu.scan) = s.tu.scan :=
      fun x => if_neg h
    have h4 : ∀ x : RequestUnit, (if s.mc.mode = .maintenance ∧ s.tu.scan.isRunning = true then x else s.ru) = s.ru :=
      fun x => if_neg h
    rw [h3, h4]
    simp only [withTu_tu, withPu_tu, withMc_tu, h2]
    refine ⟨?_, ?_, ?_, ?_, ?_, ?_, ?_, ?_, ?_, ?_, ?_, ?_, ?_, ?_⟩ <;> trivial

/-- A recorded test touches the count, the findings and the overflow flag alone, and the list keeps its bound. -/
theorem recordTest_fields (x : TestUnit) (g : GlobalChannel) (r : TestResult) (y : TestReport) :
    let z := x.recordTest g r y
    z.scan = x.scan ∧ z.patrolTest = x.patrolTest ∧ z.patrolOn = x.patrolOn ∧ z.cursor = x.cursor ∧ z.lapCount = x.lapCount ∧
    z.tested = x.tested + 1 ∧ (x.findings.length ≤ 32 → z.findings.length ≤ 32) := by
  unfold TestUnit.recordTest
  dsimp only
  split
  · split
    · refine ⟨rfl, rfl, rfl, rfl, rfl, rfl, fun _ => ?_⟩
      simp
      omega
    · exact ⟨rfl, rfl, rfl, rfl, rfl, rfl, id⟩
  · exact ⟨rfl, rfl, rfl, rfl, rfl, rfl, id⟩

end Sys2Proof.Machine
end

