-- ==== Sys2Proof/Laws/Formats.lean ====
section
/-! SUPPORT. Little-endian fields: their length, their value read back, a field read out of a concatenation; the bounds of the lists that
notices and replies are built from. -/

namespace Sys2Proof

@[simp] theorem toLe_length (n v : Nat) : (toLe n v).length = n := by
  induction n generalizing v with
  | zero => rfl
  | succ n ih => simp [toLe, ih]

/-- The number that a little-endian field spells. -/
theorem fromLe_toLe (n v : Nat) : fromLe (toLe n v) = v % 256 ^ n := by
  induction n generalizing v with
  | zero => simp [toLe, fromLe, Nat.mod_one]
  | succ n ih =>
    simp only [toLe, fromLe, ih, BitVec.toNat_ofNat]
    have h1 : 256 ^ (n + 1) = 256 * 256 ^ n := by rw [pow_succ, Nat.mul_comm]
    have h2 : (2 : Nat) ^ 8 = 256 := by norm_num
    rw [h1, h2, Nat.mod_mul]

/-- A field wide enough reads back its number. -/
theorem fromLe_toLe_of_lt {n v : Nat} (h : v < 256 ^ n) : fromLe (toLe n v) = v := by
  rw [fromLe_toLe, Nat.mod_eq_of_lt h]

/-- Bytes spell a number below 256 to their count. -/
theorem fromLe_lt (bs : List Byte) : fromLe bs < 256 ^ bs.length := by
  induction bs with
  | nil => simp [fromLe]
  | cons b bs ih =>
    simp only [fromLe, List.length_cons]
    have hb := b.isLt
    have h1 : 256 ^ (bs.length + 1) = 256 * 256 ^ bs.length := by rw [pow_succ, Nat.mul_comm]
    rw [h1]
    have h2 : (2 : Nat) ^ 8 = 256 := by norm_num
    rw [h2] at hb
    omega

/-- A field that stands after a prefix. -/
theorem field_append (a b c : List Byte) (off size : Nat) (h1 : off = a.length) (h2 : size = b.length) :
    field (a ++ (b ++ c)) off size = fromLe b := by
  subst h1; subst h2
  unfold field
  rw [List.drop_left, List.take_left]

/-- A byte that stands after a prefix. -/
theorem byteAt_append (a : List Byte) (x : Byte) (c : List Byte) (off : Nat) (h : off = a.length) :
    byteAt (a ++ (x :: c)) off = x := by
  subst h
  unfold byteAt
  simp

namespace Machine

/-- No type of notice uses more than nine detail bytes (R191). -/
theorem details_bytes_length (d : Details) : d.bytes.length ≤ 9 := by
  cases d <;> simp [Details.bytes, halfField, frameField, channelBytes]

/-- A notice record is 16 bytes (R191). -/
theorem record_length (n : Notice) : n.record.length = 16 := by
  have := details_bytes_length n.details
  simp [Notice.record, frameField]
  omega

/-- A vector's entries, listed by index. -/
theorem vector_toList {α : Type} {n : Nat} (v : Vector α n) : v.toList = (List.finRange n).map v.get := by
  apply List.ext_getElem
  · simp
  · intro i h1 h2
    simp [Vector.get_eq_getElem]

/-- The band records of a payload, each at its offset (R189). -/
theorem bandRecords_eq (n : Nat) (p : List Byte) :
    bandRecords n p = (List.range n).map (fun i =>
      { top := (byteAt p (6 * i)).toNat, sx := field p (6 * i + 1) 2, sy := field p (6 * i + 3) 2,
        bank := (byteAt p (6 * i + 5)).toNat }) := by
  induction n generalizing p with
  | zero => rfl
  | succ n ih =>
    rw [bandRecords, ih, List.range_succ_eq_map, List.map_cons, List.map_map]
    congr 1
    apply List.map_congr_left
    intro i _
    have e : ∀ c, 6 + (6 * i + c) = 6 * (i + 1) + c := by intro c; omega
    simp only [Function.comp, byteAt, field, List.drop_drop, List.getD_eq_getElem?_getD, List.getElem?_drop, e]
    simp [Nat.mul_add, Nat.add_comm]

/-- The palette entries of a payload, each at its offset (R189). -/
theorem entryRecords_eq (n : Nat) (p : List Byte) :
    entryRecords n p = (List.range n).map (fun i => (field p (6 * i) 2, field p (6 * i + 2) 2, field p (6 * i + 4) 2)) := by
  induction n generalizing p with
  | zero => rfl
  | succ n ih =>
    rw [entryRecords, ih, List.range_succ_eq_map, List.map_cons, List.map_map]
    congr 1
    apply List.map_congr_left
    intro i _
    have e : ∀ c, 6 + (6 * i + c) = 6 * (i + 1) + c := by intro c; omega
    simp only [Function.comp, field, List.drop_drop, e]
    simp [Nat.mul_add, Nat.add_comm]

/-- Four group places, always (R190). -/
theorem groupPlaces_length (gs : List (Fin 16)) : (groupPlaces gs).length = 4 := by
  unfold groupPlaces
  simp
  omega

end Machine

end Sys2Proof
end

