-- ==== Sys2Proof/Laws/Receive.lean ====
section
/-! SUPPORT. The receivers of the two inputs (R152): the event that symbols make, said once for each of the receiver's states, so that no proof
about a row of chapter 9 walks through the symbols. -/

namespace Sys2Proof.Machine

section UpTo

variable {α : Type} {event : Receiver → Symbol → Option α}

/-- The symbol that makes the event, with no symbol after it. -/
theorem Receiver.upTo_last {x : Receiver} {y : Symbol} {a : α} (h : event x y = some a) :
    Receiver.upTo event x [y] = some ((x.next y).1, a) := by
  simp [Receiver.upTo, h]

/-- A symbol that makes no event is passed over. -/
theorem Receiver.upTo_quiet {x : Receiver} {y : Symbol} (ys : List Symbol) (h : event x y = none) :
    Receiver.upTo event x (y :: ys) = Receiver.upTo event (x.next y).1 ys := by
  simp [Receiver.upTo, h]

/-- Outside a frame, symbols without a START are discarded (R152). -/
theorem Receiver.upTo_outside (hq : ∀ y, y ≠ .start → event none y = none) (noise ys : List Symbol) (h : Symbol.start ∉ noise) :
    Receiver.upTo event none (noise ++ ys) = Receiver.upTo event none ys := by
  induction noise with
  | nil => rfl
  | cons y noise ih =>
    simp only [List.mem_cons, not_or] at h
    have hn : (Receiver.next none y).1 = none := by
      cases y <;> first | rfl | exact absurd rfl h.1
    rw [List.cons_append, Receiver.upTo_quiet _ (hq y (Ne.symm h.1)), hn, ih h.2]

/-- Data bytes that make no event extend the body (R152). -/
theorem Receiver.upTo_bytes (bytes b : List Byte) (ys : List Symbol)
    (hq : ∀ k d, k < bytes.length → event (some (b ++ bytes.take k)) (.data d) = none) :
    Receiver.upTo event (some b) (bytes.map .data ++ ys) = Receiver.upTo event (some (b ++ bytes)) ys := by
  induction bytes generalizing b with
  | nil => simp
  | cons d bytes ih =>
    have h0 : event (some b) (.data d) = none := by simpa using hq 0 d (by simp)
    rw [List.map_cons, List.cons_append, Receiver.upTo_quiet _ h0]
    show Receiver.upTo event (some (b ++ [d])) _ = _
    rw [ih (b ++ [d]) fun k e hk => by simpa using hq (k + 1) e (by simpa using hk)]
    simp

/-- A frame opened without an event on the way, from either state of the receiver. -/
theorem Receiver.upTo_opens {x : Receiver} {zs : List Symbol} {b : List Byte} (h : x.Opens zs b) (ys : List Symbol)
    (hout : ∀ y, event none y = none) (hin : ∀ c d, c.length < b.length → event (some c) (.data d) = none) :
    Receiver.upTo event x (zs ++ ys) = Receiver.upTo event (some b) ys := by
  obtain ⟨b0, bytes, rfl, rfl, rfl⟩ | ⟨noise, rfl, hn, rfl⟩ := h
  · exact Receiver.upTo_bytes _ _ _ fun k d hk => hin _ d (by simp; omega)
  · rw [List.append_assoc, Receiver.upTo_outside (fun y _ => hout y) _ _ hn, List.cons_append,
      Receiver.upTo_quiet _ (hout .start)]
    exact Receiver.upTo_bytes b [] ys fun k d hk => hin _ d (by simp; omega)

end UpTo

/-! ## UP-in -/

/-- Outside a frame no symbol makes an event on UP-in. -/
@[simp] theorem upArrival_outside (y : Symbol) : upArrival none y = none := by cases y <;> rfl

/-- Inside a frame a data byte makes an event on UP-in when it is the first or the third body byte (R154, R155). -/
theorem upArrival_data_quiet {b : List Byte} (d : Byte) (h0 : b.length ≠ 0) (h2 : b.length ≠ 2) :
    upArrival (some b) (.data d) = none := by
  match b, h0, h2 with
  | [_], _, _ => rfl
  | _ :: _ :: _ :: bs, _, _ => cases bs <;> simp [upArrival, Receiver.next]

/-- A symbol other than a data byte ends the frame inside which it arrives (R152). -/
theorem Receiver.next_ends {y : Symbol} {e : Ending} {r : Receiver} (b : List Byte) (h : symbolEnds y = some (e, r)) :
    Receiver.next (some b) y = (r, some { body := b, ending := e }) := by
  cases y <;> simp [symbolEnds] at h <;> obtain ⟨rfl, rfl⟩ := h <;> rfl

/-- The destination byte arrives on UP-in (R154). -/
theorem LinkInterface.onUpIn_destination {x : LinkInterface} {zs : List Symbol} (d : Byte) (h : x.upIn.Opens zs []) :
    x.onUpIn (zs ++ [.data d]) = some (some [d], .destination d) := by
  rw [LinkInterface.onUpIn, Receiver.upTo_opens h _ upArrival_outside (by simp)]
  rfl

/-- The third body byte arrives on UP-in (R155). -/
theorem LinkInterface.onUpIn_kindByte {x : LinkInterface} {b bytes : List Byte} (h : x.upIn = some b) (hb : b ≠ [])
    (h3 : b.length < 3) (hl : b.length + bytes.length = 3) :
    x.onUpIn (bytes.map .data) = some (some (b ++ bytes), .kindByte (b ++ bytes)) := by
  rw [LinkInterface.onUpIn, h]
  have hb' := List.length_pos_of_ne_nil hb
  obtain h1 | h2 : b.length = 1 ∨ b.length = 2 := by omega
  · obtain ⟨d, rfl⟩ := List.length_eq_one_iff.1 h1
    obtain ⟨q, k, rfl⟩ := List.length_eq_two.1 (show bytes.length = 2 by omega)
    rfl
  · obtain ⟨d, q, rfl⟩ := List.length_eq_two.1 h2
    obtain ⟨k, rfl⟩ := List.length_eq_one_iff.1 (show bytes.length = 1 by omega)
    rfl

/-- A frame ends on UP-in (R152). -/
theorem LinkInterface.onUpIn_ended {x : LinkInterface} {ys : List Symbol} {f : LinkFrame} {r : Receiver}
    (h : x.FrameEnds ys f r) : x.onUpIn ys = some (r, .ended f) := by
  obtain ⟨zs, y, rfl, hy, hz⟩ := h
  have last : Receiver.upTo upArrival (some f.body) [y] = some (r, .ended f) := by
    have hn := Receiver.next_ends f.body hy
    have hu : upArrival (some f.body) y = some (.ended f) := by simp only [upArrival, hn]
    rw [Receiver.upTo_last hu, hn]
  rw [LinkInterface.onUpIn]
  obtain ⟨-, ho, hb⟩ | ⟨b0, bytes, -, hx, h0, rfl, hb, hlen⟩ := hz
  · rw [Receiver.upTo_opens ho _ upArrival_outside (by simp), ← hb, last]
  · have h0' : 0 < b0.length := List.length_pos_of_ne_nil h0
    have hl : f.body.length = b0.length + bytes.length := by rw [hb, List.length_append]
    rw [hx, Receiver.upTo_bytes, ← hb, last]
    exact fun k d hk => upArrival_data_quiet d (by rw [List.length_append]; omega)
      (by rw [List.length_append, List.length_take]; omega)

/-- Outside a frame, symbols without a START make no event on UP-in (R152). -/
theorem LinkInterface.onUpIn_outside {x : LinkInterface} {ys : List Symbol} (h : x.upIn = none) (hs : Symbol.start ∉ ys) :
    x.onUpIn ys = none := by
  have := Receiver.upTo_outside (event := upArrival) (fun y _ => upArrival_outside y) ys [] hs
  rwa [List.append_nil, ← h] at this

/-! ## DOWN-in -/

/-- A frame ends on DOWN-in (R152, R163). -/
theorem LinkInterface.onDownIn_ended {x : LinkInterface} {zs : List Symbol} {y : Symbol} {b : List Byte} {e : Ending} {r : Receiver}
    (h : x.downIn.Opens zs b) (hy : symbolEnds y = some (e, r)) :
    x.onDownIn (zs ++ [y]) = some (r, { body := b, ending := e }) := by
  have hn := Receiver.next_ends b hy
  rw [LinkInterface.onDownIn, Receiver.upTo_opens h _ (fun y => by cases y <;> rfl) (fun _ _ _ => rfl)]
  rw [Receiver.upTo_last (by rw [hn]), hn]

/-- Outside a frame, symbols without a START make no event on DOWN-in (R152). -/
theorem LinkInterface.onDownIn_outside {x : LinkInterface} {ys : List Symbol} (h : x.downIn = none) (hs : Symbol.start ∉ ys) :
    x.onDownIn ys = none := by
  have := Receiver.upTo_outside (event := fun r y => (Receiver.next r y).2) (fun y _ => by cases y <;> rfl) ys [] hs
  rwa [List.append_nil, ← h] at this

/-- The end of a frame that is not held is the record that the statements name. -/
theorem LinkInterface.endFrame_eq (x : LinkInterface) (r : Receiver) (f : LinkFrame) : x.endFrame r f = x.afterFrame f r := by
  cases h : x.rx <;> simp [LinkInterface.endFrame, LinkInterface.afterFrame, h]

end Sys2Proof.Machine
end

