-- ==== Sys2Proof/WellFormed.lean ====
section
/-! DEFINITION. The checks on a command's operands: what a frame in the request queue looks like (R154, R157, R169), and which frames the
link rows take (R152). A moment, a test result and a cause are never ill-formed. -/

namespace Sys2Proof

/-- Does the addressing class agree with the destination byte of the body (R154)? -/
def classAgrees (r : Request) : Bool :=
  match r.body with
  | [] => false
  | d :: _ =>
    match r.cls with
    | .unit => 1 ≤ d.toNat && d.toNat ≤ 62
    | .group g => d.toNat == 64 + g.val
    | .allTiles => d == 127

/-- A frame that the request queue can hold: class and destination agree, length and check value good (R154, R157). -/
def Request.wellFormed (r : Request) : Bool := classAgrees r && lengthGood r.body && checkGood r.body

/-- The frame of a request row: one the request queue can hold, of the row's kind (R172). -/
def takesKind (k : Take) (kind : Kind) : Bool := k.req.wellFormed && k.req.kind == kind.code

/-- Do the symbols end with one that can end a frame: an END, a START or an IDLE (R152)? -/
def endsFrame (ys : List Symbol) : Bool :=
  match ys.getLast? with
  | some .finish | some .start | some .idle => true
  | some (.data _) | none => false

/-- Is a command well-formed? -/
def WellFormed : Instr → Bool
  | .enumerate ys => endsFrame ys
  | .identify k => takesKind k .identify
  | .status k => takesKind k .status
  | .joinGroup k => takesKind k .joinGroup
  | .leaveGroup k => takesKind k .leaveGroup
  | .restart k => takesKind k .restart
  | .readNotices k => takesKind k .readNotices
  | .ackNotices k => takesKind k .ackNotices
  | .setMode k => takesKind k .setMode
  | .setCanvas k => takesKind k .setCanvas
  | .writePixels k => takesKind k .writePixels
  | .fillRect k => takesKind k .fillRect
  | .fillComplete => true
  | .readPixels k => takesKind k .readPixels
  | .copyFront k => takesKind k .copyFront
  | .copyComplete => true
  | .beginSet k => takesKind k .beginSet
  | .stageBands k => takesKind k .stageBands
  | .stagePan k => takesKind k .stagePan
  | .stagePalette k => takesKind k .stagePalette
  | .stageLevel k => takesKind k .stageLevel
  | .commit k => takesKind k .commit
  | .abandon k => takesKind k .abandon
  | .readBands k => takesKind k .readBands
  | .readPalette k => takesKind k .readPalette
  | .setSync k => takesKind k .setSync
  | .setFrameNumber k => takesKind k .setFrameNumber
  | .readMap k => takesKind k .readMap
  | .repair k => takesKind k .repair
  | .release k => takesKind k .release
  | .markFaulty k => takesKind k .markFaulty
  | .clearFault k => takesKind k .clearFault
  | .setRepairPolicy k => takesKind k .setRepairPolicy
  | .burn k => takesKind k .burn
  | .burnWriteExpiry _ => true
  | .burnCheckRead _ => true
  | .burnMarkExpiry _ => true
  | .burnRecheckRead _ => true
  | .readFuses k => takesKind k .readFuses
  | .scan k => takesKind k .scan
  | .scanTestEnd _ => true
  | .scanAbort k => takesKind k .scanAbort
  | .readScan k => takesKind k .readScan
  | .setPatrol k => takesKind k .setPatrol
  | .patrolTestEnd _ => true
  | .unknownKind k => k.req.wellFormed && (Kind.ofCode k.req.kind).isNone
  | .syncEdge _ => true
  | .seekingTimerExpiry => true
  | .supervisionTimerExpiry => true
  | .holdoverTimerExpiry => true
  | .freeRunTimerExpiry => true
  | .blankingIntervalEnd => true
  | .downstreamFrameEnd ys => endsFrame ys
  | .downstreamRepeat stage ys => (stage == .frameEnds) == endsFrame ys && !ys.isEmpty
  | .upstreamFrameEnd ys => endsFrame ys
  | .upOutFrameBegin => true
  | .upOutFrameEnd => true
  | .coldReset _ _ => true
  | .startupBegin _ => true
  | .startupEnd _ => true
  | .queuedEnumerate k => takesKind k .enumerate

end Sys2Proof
end

