-- ==== Sys2Proof/Tests/Slice0.lean ====
section
/-! SUPPORT. Tests: the checks of WellFormed, one step of each row on small states, the spec's worked examples, and for every statement with
hypotheses a witness that meets them, clause by clause. -/

namespace Sys2Proof.Tests

set_option Elab.async false

open Sys2Proof.Machine

/-! ## Small states -/

/-- READY in a mode, unit number 5. -/
def inMode (m : Mode) : State :=
  { State.reset with mc := { mode := m, startUp := .ready }, li := { LinkInterface.cold with unit := 5 } }

/-- READY in OFF. -/
def base : State := inMode .off

/-- A unit-addressed request to unit 5 with sequence 7. -/
def ask (kind : Kind) (payload : List Byte) : Take :=
  { req := { cls := .unit, body := withCheck ([5, 7, kind.code] ++ payload) }, moment := 0 }

/-- The state with that request alone in the request queue. -/
def asked (s : State) (k : Take) : State := { s with ru := { s.ru with queue := [{ req := k.req, tag := 0 }] } }

/-- The conditions of `Serving`, computed. -/
def servable (s : State) (k : Take) (kind : Kind) : Bool :=
  s.ready && s.ru.executing.isNone && decide (s.ru.replies.length < 8) && k.req.kind == kind.code &&
    kind.lengthSuits k.req.payload && kind.mayBeSent k.req.cls && decide (k.moment ≤ s.ft.deadline)

/-- A computed `servable` is a `Serving`. -/
theorem serving_of {s : State} {k : Take} {kind : Kind} (h : servable s k kind = true) :
    (asked s k).Serving k { req := k.req, tag := 0 } [] kind := by
  unfold servable at h
  simp only [Bool.and_eq_true, decide_eq_true_eq, beq_iff_eq, Option.isNone_iff_eq_none] at h
  obtain ⟨⟨⟨⟨⟨⟨h1, h2⟩, h3⟩, h4⟩, h5⟩, h6⟩, h7⟩ := h
  exact ⟨⟨⟨h1, h2, h3, rfl, rfl⟩, onTime_iff.2 h7⟩, h4, h5, h6⟩

/-- One request on one small state: what its reply carries, and a test of the state after it. -/
structure Case where
  state   : State
  payload : List Byte
  result  : Result
  reply   : List Byte := []
  post    : State → Bool := fun _ => true

/-- The case runs as it says. -/
def Case.runs (kind : Kind) (mk : Take → Instr) (c : Case) : Bool :=
  match exec (mk (ask kind c.payload)) (asked c.state (ask kind c.payload)) with
  | .next t =>
    t.ru.replies == [{ unit := 5, seq := 7, kind := kind.code ||| 0x80, result := c.result, payload := c.reply, tag := some 0 }] &&
      t.ru.queue == [] && c.post t
  | .fault _ => false
  | .refused _ => false

/-- Every case can be served and runs as it says. -/
def good (kind : Kind) (mk : Take → Instr) (cs : List Case) : Bool :=
  cs.all (fun c => servable c.state (ask kind c.payload) kind && c.runs kind mk)

/-- The case meets the hypothesis of the statements about its row. -/
def Case.Meets (kind : Kind) (c : Case) : Prop :=
  (asked c.state (ask kind c.payload)).Serving (ask kind c.payload) { req := (ask kind c.payload).req, tag := 0 } [] kind

/-- Cases that are good meet the hypothesis. -/
theorem meets_of {kind : Kind} {mk : Take → Instr} {cs : List Case} (h : good kind mk cs = true) : ∀ c ∈ cs, c.Meets kind := by
  intro c hc
  have := List.all_eq_true.1 h c hc
  simp only [Bool.and_eq_true] at this
  exact serving_of this.1

/-- What a command leaves, tested. -/
def leaves (o : Outcome) (f : State → Bool) : Bool :=
  match o with
  | .next t => f t
  | .fault _ => false
  | .refused _ => false

/-! ## WellFormed: each check refuses an ill-formed term -/

/-- A request with the given class, destination and kind byte. -/
def frameTo (c : AddressClass) (d kind : Byte) (payload : List Byte) : Take :=
  { req := { cls := c, body := withCheck ([d, 7, kind] ++ payload) }, moment := 0 }

/-- Well-formed terms are accepted, with each addressing class. -/
theorem test_wellFormed_accepts :
    (WellFormed (.identify (ask .identify [])) && WellFormed (.restart (frameTo (.group 3) 67 0x06 [])) &&
      WellFormed (.restart (frameTo .allTiles 127 0x06 [])) && WellFormed (.unknownKind (frameTo .unit 5 0x7E [])) &&
      WellFormed (.queuedEnumerate (frameTo .allTiles 127 0x01 [9])) &&
      WellFormed (.enumerate [.data 4, .finish]) && WellFormed (.downstreamRepeat .destinationByte [.start, .data 127])) = true := by decide +kernel

/-- Class against destination: unit, group and all-tile. -/
theorem test_wellFormed_class :
    (WellFormed (.identify (frameTo .unit 64 0x02 [])) || WellFormed (.identify (frameTo .unit 0 0x02 [])) ||
      WellFormed (.identify (frameTo .unit 63 0x02 [])) || WellFormed (.restart (frameTo (.group 3) 66 0x06 [])) ||
      WellFormed (.restart (frameTo .allTiles 126 0x06 [])) ||
      WellFormed (.restart { req := { cls := .unit, body := [] }, moment := 0 })) = false := by decide +kernel

/-- Length: a body of 4 bytes, one of 246. -/
theorem test_wellFormed_length :
    (WellFormed (.identify { req := { cls := .unit, body := withCheck [5, 7] }, moment := 0 }) ||
      WellFormed (.writePixels (ask .writePixels (List.replicate 241 0)))) = false := by decide +kernel

/-- Check value. -/
theorem test_wellFormed_check :
    WellFormed (.identify { req := { cls := .unit, body := [5, 7, 2, 0, 0] }, moment := 0 }) = false := by decide +kernel

/-- Kind: another row's kind, a defined kind under UNKNOWN_KIND. -/
theorem test_wellFormed_kind :
    (WellFormed (.identify (ask .scan [])) || WellFormed (.unknownKind (ask .scan [])) ||
      WellFormed (.queuedEnumerate (frameTo .allTiles 127 0x02 []))) = false := by decide +kernel

/-- Symbols: a row of a frame's end whose last symbol ends no frame, a repeat whose last symbol does not make the stage's event, no symbols. -/
theorem test_wellFormed_symbols :
    (WellFormed (.enumerate [.finish, .data 4]) || WellFormed (.downstreamFrameEnd []) || WellFormed (.upstreamFrameEnd [.start, .data 9]) ||
      WellFormed (.downstreamRepeat .destinationByte [.start]) || WellFormed (.downstreamRepeat .frameEnds [.data 1]) ||
      WellFormed (.downstreamRepeat .repeatBegins [])) = false := by decide +kernel

/-! ## Formats -/

/-- The check value of R187 over "123456789". -/
theorem test_check_value : crc16 [0x31, 0x32, 0x33, 0x34, 0x35, 0x36, 0x37, 0x38, 0x39] = 0x29B1 := by decide +kernel

/-- The premises of FrameFormats: a code that names a kind; a used detail byte and an unused one. -/
theorem witness_FrameFormats :
    Kind.ofCode 0x25 = some .commit ∧ Kind.ofCode 0x2F = none ∧ 0 < (Details.copyDone .B).bytes.length ∧
    (Details.copyDone .B).bytes.length ≤ 8 := by decide +kernel

/-- No word spells a command. -/
theorem test_no_word_decodes : decodeTableWord 8 0 = none := rfl

/-! ## Steps and the executor -/

/-- The premises of StepRunsFrontCommand and of EveryCommandAnswers' idle clause. -/
theorem witness_StepRunsFrontCommand :
    ({ base with pending := [.fillComplete] } : State).pending = Instr.fillComplete :: [] ∧ base.pending = [] := ⟨rfl, rfl⟩

/-- Each ground on which the executor takes nothing (R171). -/
theorem witness_ExecutorStalls :
    requestOf (.scan (ask .scan [])) = some (.scan, ask .scan []) ∧ State.reset.ready = false ∧
    8 ≤ ({ base.ru with replies := List.replicate 8 (queueFullReply 5 (ask .scan []).req) } : RequestUnit).replies.length ∧
    (¬ ∃ q rest, base.ru.queue = q :: rest ∧ q.req = (ask .scan []).req) := by
  refine ⟨rfl, by decide, by decide, ?_⟩
  rintro ⟨q, rest, h, _⟩
  cases h

/-- A request whose length or class does not suit, taken (R172). -/
theorem witness_CommonChecks :
    (asked base (ask .scan [0])).Taking (ask .scan [0]) { req := (ask .scan [0]).req, tag := 0 } [] ∧
    (ask .scan [0]).req.kind = Kind.scan.code ∧ Kind.scan.lengthSuits (ask .scan [0]).req.payload = false ∧
    Kind.burn.mayBeSent .allTiles = false ∧
    (∀ kind : Kind, kind.code ≠ (frameTo .unit 5 0x7E []).req.kind) ∧
    Kind.stageBands.lengthSuits [0, 0] = false ∧ Kind.stageBands.lengthSuits [0, 0, 0] = true ∧
    Kind.stagePalette.lengthSuits [0, 0, 0, 0, 0] = true ∧ Kind.writePixels.lengthSuits [0, 0, 0, 0] = false ∧
    (asked base (frameTo .allTiles 127 0x01 [9])).Serving (frameTo .allTiles 127 0x01 [9])
      { req := (frameTo .allTiles 127 0x01 [9]).req, tag := 0 } [] .enumerate := by
  refine ⟨⟨⟨by decide, rfl, by decide, rfl, rfl⟩, onTime_iff.2 (by decide)⟩, by decide +kernel, by decide +kernel, rfl, ?_,
    rfl, rfl, rfl, rfl, serving_of (by decide +kernel)⟩
  intro kind
  cases kind <;> decide +kernel

/-- BAD_LENGTH, UNIT_ONLY, UNKNOWN_KIND and BAD_STATE for a queued ENUMERATE. -/
theorem test_common_checks :
    (leaves (exec (.scan (ask .scan [0])) (asked base (ask .scan [0]))) (fun t => t.ru.replies.map Reply.result == [.badLength]) &&
      leaves (exec (.burn (frameTo .allTiles 127 0x46 [0, 0])) (asked base (frameTo .allTiles 127 0x46 [0, 0])))
        (fun t => t.ru.lastBroadcast == some { seq := 7, kind := 0x46, result := .unitOnly }) &&
      leaves (exec (.unknownKind (frameTo .unit 5 0x7E [])) (asked base (frameTo .unit 5 0x7E [])))
        (fun t => t.ru.replies.map Reply.result == [.unknownKind]) &&
      leaves (exec (.queuedEnumerate (frameTo .allTiles 127 0x01 [9])) (asked base (frameTo .allTiles 127 0x01 [9])))
        (fun t => t.ru.lastBroadcast == some { seq := 7, kind := 0x01, result := .badState })) = true := by decide +kernel

/-! ## Identity, status, groups, notices -/

/-- A tile in SHOW with something in every field that STATUS reports. -/
def busyTile : State :=
  { inMode .showMode with
    ft := { FrameTiming.cold with syncState := .locked, counter := 0x01020304, pendingNumber := some 9, glitch := 5 }
    cs := { openSlot := some { id := 0x0A0B, journal := [.level 1], projected := defaultBands },
            sealedSlot := some { set := { id := 0x0C0D, journal := [], projected := defaultBands },
                                 target := .frame 0x01020310, flip := true, notify := true } }
    tu := { TestUnit.cold with patrolOn := true, cursor := 35, lapCount := 0x0102 }
    rd := { RowDrive.cold with policy := .auto }
    li := { LinkInterface.cold with unit := 5, rxMalformed := 1, rxBadCheck := 2, passDrop := 3 }
    ru := { RequestUnit.cold with
      reqDrop := 4, lost := 3, lastBroadcast := some { seq := 9, kind := 0x25, result := .late },
      log := [{ number := 1, frame := 0, lost := 0, details := .copyDone .B, unit := 5, sent := true }] } }

/-- The status record of R190, byte by byte. -/
def busyRecord : List Byte :=
  [2, 1, 1, 4, 3, 2, 1, 1, 0x0B, 0x0A, 1, 0x0D, 0x0C, 0x10, 3, 2, 1, 1, 0, 0, 0, 1, 35, 2, 1, 1, 0, 1] ++
    [1, 0, 2, 0, 3, 0, 4, 0, 5, 0, 1, 9, 0x25, 12, 1, 3]

def statusCases : List Case :=
  [{ state := busyTile, payload := [0], result := .ok, reply := busyRecord, post := fun t => t.li.passDrop == 3 },
   { state := busyTile, payload := [1], result := .ok, reply := busyRecord,
     post := fun t => t.li.passDrop == 0 && t.ru.reqDrop == 0 && t.ft.glitch == 0 && t.ru.lost == 3 },
   { state := busyTile, payload := [2], result := .badArg }]

theorem test_status : good .status .status statusCases = true := by decide +kernel

/-- The identity record but for the serial, of a tile in groups 15 and 2. -/
theorem test_identify :
    leaves (exec (.identify (ask .identify []))
        (asked { base with li := { base.li with groups := [15, 2] } } (ask .identify [])))
      (fun t => t.ru.replies.map (fun r => (r.payload.length, r.payload.take 3, r.payload.drop 9)) ==
        [(17, [0x20, 0x46, 2], [5, 2, 2, 15, 0xFF, 0xFF, 0, 0])]) = true := by decide +kernel

theorem witness_IdentityAndStatusRead :
    (asked base (ask .identify [])).Serving (ask .identify []) { req := (ask .identify []).req, tag := 0 } [] .identify ∧
    ∀ c ∈ statusCases, c.Meets .status := ⟨serving_of (by decide +kernel), meets_of test_status⟩

/-- The tile with a group set. -/
def inGroups (gs : List (Fin 16)) : State := { base with li := { base.li with groups := gs } }

def joinCases : List Case :=
  [{ state := base, payload := [15], result := .ok, reply := [1, 15, 255, 255, 255], post := fun t => t.li.groups == [15] },
   { state := base, payload := [16], result := .badArg },
   { state := inGroups [1, 2, 3, 4], payload := [3], result := .ok, reply := [4, 1, 2, 3, 4] },
   { state := inGroups [1, 2, 3, 4], payload := [0], result := .groupFull }]

def leaveCases : List Case :=
  [{ state := inGroups [9, 0], payload := [9], result := .ok, reply := [1, 0, 255, 255, 255], post := fun t => t.li.groups == [0] },
   { state := inGroups [9], payload := [0], result := .ok, reply := [1, 9, 255, 255, 255] },
   { state := base, payload := [16], result := .badArg }]

theorem test_join : good .joinGroup .joinGroup joinCases = true := by decide +kernel
theorem test_leave : good .leaveGroup .leaveGroup leaveCases = true := by decide +kernel

theorem witness_GroupsJoinedAndLeft : (∀ c ∈ joinCases, c.Meets .joinGroup) ∧ ∀ c ∈ leaveCases, c.Meets .leaveGroup :=
  ⟨meets_of test_join, meets_of test_leave⟩

/-- A COPY_DONE notice. -/
def copyNotice (n : Byte) (sent : Bool) : Notice :=
  { number := n, frame := 0x0102, lost := 0, details := .copyDone .B, unit := 5, sent := sent }

/-- The tile with a notice log. -/
def logged (l : List Notice) : State := { base with ru := { base.ru with log := l, nextNotice := 1 } }

def readNoticesCases : List Case :=
  [{ state := logged [copyNotice 255 true, copyNotice 1 false], payload := [], result := .ok,
     reply := [2, 255, 4, 2, 1, 0, 0, 0, 1, 0, 0, 0, 0, 0, 0, 0, 0, 1, 4, 2, 1, 0, 0, 0, 1, 0, 0, 0, 0, 0, 0, 0, 0],
     post := fun t => t.ru.log.all Notice.sent }]

def ackCases : List Case :=
  [{ state := logged [copyNotice 255 true, copyNotice 1 false], payload := [255], result := .ok, reply := [1],
     post := fun t => t.ru.log == [copyNotice 1 false] },
   { state := logged [copyNotice 255 true, copyNotice 1 false], payload := [1], result := .ok, reply := [0] },
   { state := logged [copyNotice 255 true], payload := [2], result := .badArg }]

theorem test_readNotices : good .readNotices .readNotices readNoticesCases = true := by decide +kernel
theorem test_ackNotices : good .ackNotices .ackNotices ackCases = true := by decide +kernel

theorem witness_NoticesReadAndAcknowledged :
    (∀ c ∈ readNoticesCases, c.Meets .readNotices) ∧ (∀ c ∈ ackCases, c.Meets .ackNotices) ∧
    (logged [copyNotice 255 true, copyNotice 1 false]).ru.log = [copyNotice 255 true] ++ copyNotice 1 false :: [] ∧
    (∀ x ∈ (logged [copyNotice 255 true]).ru.log, x.number ≠ 2) :=
  ⟨meets_of test_readNotices, meets_of test_ackNotices, rfl, by decide⟩

/-! ## Modes and restart -/

/-- Segment 2, primary 5, spare 2.16. -/
def subject : Subject := { seg := 2, primary := 5, spare := .s16 }

/-- The tile with the burn engine in a state. -/
def burning (b : BurnEngine) : State := { inMode .maintenance with fz := { FuseStore.cold with burn := b, entered := 1000 } }

/-- A running scan with two channels tested. -/
def scanning (g : GlobalChannel) : State :=
  { inMode .maintenance with tu := { TestUnit.cold with scan := .running g, tested := 2, testStart := 1000 } }

/-- A tile that shows a picture, with a patrol test in progress. -/
def showing : State :=
  { inMode .showMode with
    pu := { Presentation.cold with output := .showing, phase := .scanning, latched := View.default }
    tu := { TestUnit.cold with patrolOn := true, cursor := 104, patrolTest := some 104 } }

def setModeCases : List Case :=
  [{ state := burning (.write subject), payload := [0], result := .busy },
   { state := base, payload := [4], result := .badArg },
   { state := inMode .standby, payload := [1], result := .ok, reply := [1, 1] },
   { state := inMode .standby, payload := [2], result := .ok, reply := [1, 2], post := fun t => t.pu.output == .blank },
   { state := showing, payload := [3], result := .ok, reply := [2, 3],
     post := fun t => t.pu.output == .blank && t.tu.patrolTest == none && t.tu.cursor == 104 && t.ru.log == [] },
   { state := showing, payload := [1], result := .ok, reply := [2, 1], post := fun t => t.tu.patrolTest == some 104 },
   { state := scanning 5, payload := [0], result := .ok, reply := [3, 0],
     post := fun t => t.tu.scan == .idle && t.tu.outcome == .aborted &&
       t.ru.log.map Notice.details == [.scanDone .aborted 2 0 false 0] }]

theorem test_setMode : good .setMode .setMode setModeCases = true := by decide +kernel

theorem witness_ModeSet : ∀ c ∈ setModeCases, c.Meets .setMode := meets_of test_setMode

def restartCases : List Case :=
  [{ state := burning (.mark subject), payload := [], result := .busy },
   { state := base, payload := [], result := .ok, reply := [0] },
   { state := { showing with fs := { FrameStore.cold with front := .B, copy := .copying .B } }, payload := [], result := .ok,
     reply := [1],
     post := fun t => t.fs.front == .A && t.fs.copy == .idle && t.pu.output == .blank && t.tu.patrolTest == some 104 },
   { state := { scanning 5 with ru := { RequestUnit.cold with log := [copyNotice 1 false], nextNotice := 2, lost := 3 } },
     payload := [], result := .ok, reply := [1],
     post := fun t => t.tu.scan == .idle && t.tu.outcome == .none && t.ru.log == [] && t.ru.nextNotice == 2 && t.ru.lost == 0 }]

theorem test_restart : good .restart .restart restartCases = true := by decide +kernel

theorem witness_WarmRestart : ∀ c ∈ restartCases, c.Meets .restart := meets_of test_restart

/-! ## Frame Store -/

/-- An open set with an id. -/
def setOf (id : Half) : ChangeSet := { id := id, journal := [], projected := defaultBands }

/-- The tile with slots. -/
def withSlots (o : Option ChangeSet) (z : Option SealedSet) : State := { base with cs := { openSlot := o, sealedSlot := z } }

/-- A sealed set for NEXT. -/
def sealedNext (id : Half) (flip : Bool) : SealedSet := { set := setOf id, target := .next, flip := flip, notify := true }

/-- A tile whose copy engine runs. -/
def copying : State := { base with fs := { FrameStore.cold with copy := .copying .A } }

def setCanvasCases : List Case :=
  [{ state := inMode .showMode, payload := [0, 1], result := .badState },
   { state := inMode .maintenance, payload := [0, 1], result := .badState },
   { state := withSlots (some (setOf 1)) none, payload := [0, 1], result := .badState },
   { state := withSlots none (some (sealedNext 1 false)), payload := [0, 1], result := .badState },
   { state := copying, payload := [0, 1], result := .busy },
   { state := base, payload := [96, 0], result := .badArg },
   { state := base, payload := [129, 0], result := .badArg },
   { state := base, payload := [32, 2], result := .badArg },
   { state := inMode .standby, payload := [0, 2], result := .ok, reply := [0, 2, 96, 0], post := fun t => t.fs.width == 512 },
   { state := base, payload := [160, 0], result := .ok, reply := [160, 0, 0x33, 1], post := fun t => t.fs.width == 160 }]

theorem test_setCanvas : good .setCanvas .setCanvas setCanvasCases = true := by decide +kernel

theorem witness_CanvasSet : ∀ c ∈ setCanvasCases, c.Meets .setCanvas := meets_of test_setCanvas

def writeCases : List Case :=
  [{ state := base, payload := [255, 0, 191, 0, 9], result := .ok,
     post := fun t => t.fs.pageB.read 49151 == 9 && t.fs.pageB.read 49150 == 0 && t.fs.pageA == [] },
   { state := base, payload := [255, 0, 191, 0, 9, 9], result := .badArg },
   { state := base, payload := [0, 0, 192, 0, 9], result := .badArg },
   { state := withSlots none (some (sealedNext 1 true)), payload := [0, 0, 0, 0, 9], result := .flipPending },
   { state := copying, payload := [0, 0, 0, 0, 9], result := .busy }]

theorem test_writePixels : good .writePixels .writePixels writeCases = true := by decide +kernel

theorem witness_PixelsWritten :
    (∀ c ∈ writeCases, c.Meets .writePixels) ∧ (base.fs.page base.fs.back).wf = true := ⟨meets_of test_writePixels, rfl⟩

def fillRefusals : List Case :=
  [{ state := base, payload := [0, 0, 0, 0, 0, 0, 1, 0, 9], result := .badArg },
   { state := base, payload := [0, 0, 0, 0, 1, 0, 0, 0, 9], result := .badArg },
   { state := base, payload := [255, 0, 0, 0, 2, 0, 1, 0, 9], result := .badArg },
   { state := base, payload := [0, 0, 191, 0, 1, 0, 2, 0, 9], result := .badArg },
   { state := withSlots none (some (sealedNext 1 true)), payload := [0, 0, 0, 0, 1, 0, 1, 0, 9], result := .flipPending },
   { state := copying, payload := [0, 0, 0, 0, 1, 0, 1, 0, 9], result := .busy }]

theorem test_fillRect_refused : good .fillRect .fillRect fillRefusals = true := by decide +kernel

/-- The last two cells of the last two canvas rows. -/
def cornerFill : Take := ask .fillRect [254, 0, 190, 0, 2, 0, 2, 0, 9]

/-- That fill, executing. -/
def filling : State :=
  { base with ru := { base.ru with executing := some {
      entry := { req := cornerFill.req, tag := 0 }
      job := { page := .B, x := 254, y := 190, w := 2, h := 2, index := 9 } } } }

theorem test_fillRect_taken :
    leaves (exec (.fillRect cornerFill) (asked base cornerFill))
      (fun t => t.ru.executing == filling.ru.executing && t.ru.replies == [] && t.ru.queue == [] && t.fs == base.fs) = true := by
  decide +kernel

theorem test_fillComplete :
    leaves (exec .fillComplete filling)
      (fun t => t.ru.executing == none && t.ru.replies.map Reply.result == [.ok] &&
        t.fs.pageB == [(48894, 9), (48895, 9), (49150, 9), (49151, 9)] && t.fs.pageA == []) = true := by decide +kernel

theorem witness_FillTakenAndCompleted :
    (∀ c ∈ fillRefusals, c.Meets .fillRect) ∧
    (asked base cornerFill).Serving cornerFill { req := cornerFill.req, tag := 0 } [] .fillRect ∧
    (∃ e, filling.ru.executing = some e ∧ rectInside filling.fs.width e.job.x e.job.y e.job.w e.job.h = true ∧
      (filling.fs.page e.job.page).wf = true) :=
  ⟨meets_of test_fillRect_refused, serving_of (by decide +kernel), ⟨_, rfl, by decide, rfl⟩⟩

/-- Page A holds 7 in its last cell. -/
def painted : State := { base with fs := { FrameStore.cold with pageA := [(49151, 7)] } }

def readPixelsCases : List Case :=
  [{ state := painted, payload := [2, 0, 0, 0, 0, 1], result := .badArg },
   { state := painted, payload := [0, 0, 0, 0, 0, 0], result := .badArg },
   { state := painted, payload := [0, 0, 0, 0, 0, 225], result := .badArg },
   { state := painted, payload := [0, 0, 0, 192, 0, 1], result := .badArg },
   { state := painted, payload := [0, 255, 0, 0, 0, 2], result := .badArg },
   { state := copying, payload := [1, 0, 0, 0, 0, 1], result := .busy },
   { state := copying, payload := [0, 0, 0, 0, 0, 1], result := .ok, reply := [0] },
   { state := painted, payload := [0, 254, 0, 191, 0, 2], result := .ok, reply := [0, 7] },
   { state := painted, payload := [1, 255, 0, 191, 0, 1], result := .ok, reply := [0] }]

theorem test_readPixels : good .readPixels .readPixels readPixelsCases = true := by decide +kernel

theorem witness_PixelsRead : ∀ c ∈ readPixelsCases, c.Meets .readPixels := meets_of test_readPixels

def copyCases : List Case :=
  [{ state := copying, payload := [], result := .busy },
   { state := withSlots none (some (sealedNext 1 true)), payload := [], result := .flipPending },
   { state := painted, payload := [], result := .ok, post := fun t => t.fs.copy == .copying .A && t.fs.pageB == [] }]

theorem test_copyFront : good .copyFront .copyFront copyCases = true := by decide +kernel

theorem test_copyComplete :
    leaves (exec .copyComplete { painted with fs := { painted.fs with copy := .copying .A } })
      (fun t => t.fs.pageB == [(49151, 7)] && t.fs.copy == .idle && t.ru.log.map Notice.details == [.copyDone .A]) = true := by
  decide +kernel

theorem witness_CopyTakenAndCompleted : (∀ c ∈ copyCases, c.Meets .copyFront) ∧ copying.fs.copy = .copying .A :=
  ⟨meets_of test_copyFront, rfl⟩

/-! ## Change sets -/

def beginCases : List Case :=
  [{ state := base, payload := [0, 0], result := .badArg },
   { state := withSlots (some (setOf 1)) none, payload := [2, 0], result := .setOpen },
   { state := withSlots none (some (sealedNext 2 false)), payload := [2, 0], result := .dupId },
   { state := withSlots none (some (sealedNext 2 false)), payload := [255, 255], result := .ok,
     post := fun t => t.cs.openSlot == some (setOf 0xFFFF) }]

def abandonCases : List Case :=
  [{ state := withSlots (some (setOf 1)) (some (sealedNext 2 false)), payload := [1, 0], result := .ok, reply := [0],
     post := fun t => t.cs.openSlot == none && t.cs.sealedSlot.isSome },
   { state := withSlots (some (setOf 1)) (some (sealedNext 2 false)), payload := [2, 0], result := .ok, reply := [1],
     post := fun t => t.cs.sealedSlot == none && t.cs.openSlot.isSome },
   { state := withSlots (some (setOf 1)) none, payload := [2, 0], result := .noSet }]

theorem test_begin : good .beginSet .beginSet beginCases = true := by decide +kernel
theorem test_abandon : good .abandon .abandon abandonCases = true := by decide +kernel

theorem witness_SetBegunAndAbandoned : (∀ c ∈ beginCases, c.Meets .beginSet) ∧ ∀ c ∈ abandonCases, c.Meets .abandon :=
  ⟨meets_of test_begin, meets_of test_abandon⟩

/-- The table of the worked example of 2.8. -/
def threeBands : List Band :=
  [{ top := 0, sx := 0, sy := 0, bank := 0 }, { top := 40, sx := 128, sy := 10, bank := 1 },
   { top := 88, sx := 64, sy := 180, bank := 2 }]

/-- The table meets the law, and each bound is sharp. -/
theorem test_three_bands_lawful :
    (bandsLegal 256 threeBands && panFits 256 threeBands 2 128 184 && !panFits 256 threeBands 2 129 184 &&
      !panFits 256 threeBands 2 128 185 && !panFits 256 threeBands 3 0 0 && !bandsLegal 256 [] &&
      !bandsLegal 256 [{ top := 0, sx := 0, sy := 0, bank := 4 }] && !bandsLegal 256 [{ top := 1, sx := 0, sy := 0, bank := 0 }] &&
      !bandsLegal 256 [{ top := 0, sx := 0, sy := 0, bank := 0 }, { top := 93, sx := 0, sy := 0, bank := 0 }] &&
      bandsLegal 256 [{ top := 0, sx := 0, sy := 0, bank := 3 }, { top := 92, sx := 0, sy := 0, bank := 0 }]) = true := by
  decide +kernel

/-- The tile with an open set of id 1. -/
def open1 : State := withSlots (some (setOf 1)) none

/-- A full journal. -/
def fullSet : State := withSlots (some { setOf 1 with journal := List.replicate 48 (.level 0) }) none

/-- The bands of the worked example as bytes. -/
def threeBandBytes : List Byte := [0, 0, 0, 0, 0, 0, 40, 128, 0, 10, 0, 1, 88, 64, 0, 180, 0, 2]

def stageBandsCases : List Case :=
  [{ state := base, payload := [1, 0, 1, 0, 0, 0, 0, 0, 0], result := .noSet },
   { state := open1, payload := [2, 0, 1, 0, 0, 0, 0, 0, 0], result := .noSet },
   { state := fullSet, payload := [1, 0, 1, 0, 0, 0, 0, 0, 0], result := .setFull },
   { state := open1, payload := [1, 0, 1, 1, 0, 0, 0, 0, 0], result := .badArg },
   { state := open1, payload := [1, 0, 3] ++ threeBandBytes, result := .ok, reply := [1],
     post := fun t => t.cs.openSlot == some { id := 1, journal := [.bands threeBands], projected := threeBands } }]

def stagePanCases : List Case :=
  [{ state := open1, payload := [1, 0, 1, 0, 0, 0, 0], result := .badArg },
   { state := open1, payload := [1, 0, 0, 129, 0, 0, 0], result := .badArg },
   { state := open1, payload := [1, 0, 0, 128, 0, 96, 0], result := .ok, reply := [1],
     post := fun t => t.cs.openSlot.map ChangeSet.projected == some [{ top := 0, sx := 128, sy := 96, bank := 0 }] }]

def stagePaletteCases : List Case :=
  [{ state := open1, payload := [1, 0, 4, 0, 1, 0, 0, 0, 0, 0, 0], result := .badArg },
   { state := open1, payload := [1, 0, 0, 0, 0], result := .badArg },
   { state := open1, payload := [1, 0, 0, 255, 2, 0, 0, 0, 0, 0, 0, 0, 0, 0, 0, 0, 0], result := .badArg },
   { state := open1, payload := [1, 0, 0, 0, 1, 0, 4, 0, 0, 0, 0], result := .badArg },
   { state := open1, payload := [1, 0, 3, 255, 1, 255, 3, 1, 0, 0, 2], result := .ok, reply := [1],
     post := fun t => t.cs.openSlot.map ChangeSet.journal == some [.palette 3 255 [{ red := 1023, green := 1, blue := 512 }]] }]

theorem test_stageBands : good .stageBands .stageBands stageBandsCases = true := by decide +kernel
theorem test_stagePan : good .stagePan .stagePan stagePanCases = true := by decide +kernel
theorem test_stagePalette : good .stagePalette .stagePalette stagePaletteCases = true := by decide +kernel

/-- A palette run of 33 entries, one too many; the executor does not read the check value again, which is left 0 here. -/
def longRun : Take :=
  { req := { cls := .unit, body := [5, 7, 0x23, 1, 0, 0, 0, 33] ++ List.replicate 200 0 }, moment := 0 }

theorem witness_EditsStaged :
    (∀ c ∈ stageBandsCases, c.Meets .stageBands) ∧ (∀ c ∈ stagePanCases, c.Meets .stagePan) ∧
    (∀ c ∈ stagePaletteCases, c.Meets .stagePalette) ∧
    (asked open1 longRun).Serving longRun { req := longRun.req, tag := 0 } [] .stagePalette ∧
    (byteAt longRun.req.payload 4).toNat = 33 :=
  ⟨meets_of test_stageBands, meets_of test_stagePan, meets_of test_stagePalette, serving_of (by decide +kernel), by decide +kernel⟩

def stageLevelCases : List Case :=
  [{ state := base, payload := [1, 0, 0], result := .noSet },
   { state := open1, payload := [2, 0, 0], result := .noSet },
   { state := fullSet, payload := [1, 0, 0], result := .setFull },
   { state := open1, payload := [1, 0, 255], result := .ok, reply := [1],
     post := fun t => t.cs.openSlot == some { id := 1, journal := [.level 255], projected := defaultBands } }]

theorem test_stageLevel : good .stageLevel .stageLevel stageLevelCases = true := by decide +kernel

theorem witness_LevelStaged : ∀ c ∈ stageLevelCases, c.Meets .stageLevel := meets_of test_stageLevel

/-- N stands at 10 and a set with id 1 is open. -/
def atTen : State := { open1 with ft := { open1.ft with counter := 10 } }

def commitCases : List Case :=
  [{ state := base, payload := [1, 0, 0, 0, 0, 0, 0], result := .noSet },
   { state := atTen, payload := [2, 0, 0, 0, 0, 0, 0], result := .noSet },
   { state := withSlots (some (setOf 1)) (some (sealedNext 2 false)), payload := [1, 0, 0, 0, 0, 0, 0], result := .sealedBusy },
   { state := { atTen with fs := copying.fs }, payload := [1, 0, 0, 0, 0, 0, 1], result := .busy },
   { state := atTen, payload := [1, 0, 10, 0, 0, 0, 0], result := .late },
   { state := atTen, payload := [1, 0, 10, 0, 0, 0x80, 0], result := .late },
   { state := atTen, payload := [1, 0, 10, 0, 1, 0, 0], result := .far },
   { state := atTen, payload := [1, 0, 9, 0, 0, 0x80, 0], result := .far },
   { state := { atTen with fs := copying.fs }, payload := [1, 0, 9, 0, 1, 0, 0xFE], result := .ok, reply := [10, 0, 0, 0],
     post := fun t => t.cs == { openSlot := none, sealedSlot := some { set := setOf 1, target := .frame 65545, flip := false,
                                                                       notify := true } } },
   { state := atTen, payload := [1, 0, 0, 0, 0, 0, 1], result := .ok, reply := [10, 0, 0, 0],
     post := fun t => t.cs.sealedSlot == some { set := setOf 1, target := .next, flip := true, notify := false } }]

theorem test_commit : good .commit .commit commitCases = true := by decide +kernel

theorem witness_SetCommitted : ∀ c ∈ commitCases, c.Meets .commit := meets_of test_commit

/-- The table of R69. -/
theorem test_due :
    ((Target.frame 5000).due 5000 && (Target.frame 5000).due 5003 && !(Target.frame 5000).due 4000 &&
      !(Target.frame 5000).due 2147488648 && (Target.frame 5000).due 2147488647 && !(Target.frame 2).due 0 &&
      (Target.frame 2).due 2 && Target.next.due 0) = true := by decide +kernel

/-- The premises of JournalApplies' clauses: a pan that fits, one that does not, a palette run. -/
theorem witness_JournalApplies :
    panFits 256 (applyJournal 256 View.default []).1.bands 0 128 96 = true ∧
    panFits 256 (applyJournal 256 View.default []).1.bands 1 0 0 = false ∧
    ((applyJournal 256 View.default []).1.palette.wf = true ∧ 3 < 4 ∧ 255 + [(⟨1, 2, 3⟩ : Colour)].length ≤ 256) := by decide +kernel

/-! ## The view -/

def readBandsCases : List Case :=
  [{ state := { base with pu := { Presentation.cold with live := { View.default with bands := threeBands, level := 9 } } },
     payload := [], result := .ok, reply := [3] ++ threeBandBytes ++ [9] }]

def readPaletteCases : List Case :=
  [{ state := base, payload := [4, 0, 1], result := .badArg },
   { state := base, payload := [0, 0, 0], result := .badArg },
   { state := base, payload := [0, 0, 33], result := .badArg },
   { state := base, payload := [0, 255, 2], result := .badArg },
   { state := base, payload := [3, 254, 2], result := .ok,
     reply := [3, 254, 2, 0xF8, 3, 0xF8, 3, 0xF8, 3, 0xFC, 3, 0xFC, 3, 0xFC, 3] }]

theorem test_readBands : good .readBands .readBands readBandsCases = true := by decide +kernel
theorem test_readPalette : good .readPalette .readPalette readPaletteCases = true := by decide +kernel

theorem witness_ViewRead : (∀ c ∈ readBandsCases, c.Meets .readBands) ∧ ∀ c ∈ readPaletteCases, c.Meets .readPalette :=
  ⟨meets_of test_readBands, meets_of test_readPalette⟩

/-- RESTART with no burn, and SET_CANVAS with all its checks passed, each served (R22). -/
theorem witness_DefaultTable :
    (asked base (ask .restart [])).Serving (ask .restart []) { req := (ask .restart []).req, tag := 0 } [] .restart ∧
    base.fz.burn = .idle ∧
    (asked base (ask .setCanvas [0, 2])).Serving (ask .setCanvas [0, 2]) { req := (ask .setCanvas [0, 2]).req, tag := 0 } []
      .setCanvas ∧
    base.mc.mode = .off ∧ base.cs.openSlot = none ∧ base.cs.sealedSlot = none ∧ base.fs.copy = .idle ∧
    field (ask .setCanvas [0, 2]).req.payload 0 2 ∈ canvasWidths :=
  ⟨serving_of (by decide +kernel), rfl, serving_of (by decide +kernel), rfl, rfl, rfl, rfl, by decide +kernel⟩

/-- The tile of the worked example of 2.8: cell 5,251 of page A holds 100, whose entry in bank 1 is (1023, 512, 0). -/
def threeBandTile : State :=
  { showing with
    fs := { FrameStore.cold with pageA := [(5251, 100)] }
    pu := { Presentation.cold with
      output := .showing, phase := .scanning,
      latched := { bands := threeBands, palette := [(356, { red := 1023, green := 512, blue := 0 })], level := 128 } }
    rd := { RowDrive.cold with latch := Vector.replicate 96 (some .primary) } }

/-- The emitter at panel row 50, column 3, is driven at (513, 257, 0); the same index in band 0 at (200, 200, 200). -/
theorem test_three_band_picture :
    threeBandTile.emitted 50 3 = some (513, 257, 0) ∧ threeBandTile.panelOffset 50 3 = some 5251 ∧
    threeBandTile.panelOffset 95 0 = some (187 * 256 + 64) ∧
    ({ threeBandTile with fs := { threeBandTile.fs with pageA := [(3, 100)] } } : State).emitted 0 3 = some (200, 200, 200) := by
  decide +kernel

/-- The premises of PanelComposed: each ground for a dark row, and a lit row in band 1. -/
theorem witness_PanelComposed :
    base.pu.output = .blank ∧ base.pu.phase ≠ .scanning ∧ base.rd.latch.get 0 = none ∧
    threeBandTile.pu.output = .showing ∧ threeBandTile.pu.phase = .scanning ∧ threeBandTile.rd.latch.get 50 ≠ none ∧
    (∀ i b c, threeBandTile.pu.latched.bands[i]? = some b → threeBandTile.pu.latched.bands[i + 1]? = some c → b.top < c.top) ∧
    (threeBandTile.pu.latched.bands[1]? = some { top := 40, sx := 128, sy := 10, bank := 1 } ∧ 40 ≤ (50 : Fin 96).val) ∧
    (∀ c, threeBandTile.pu.latched.bands[2]? = some c → (50 : Fin 96).val < c.top) ∧
    ({ base with pu := { base.pu with phase := .blanking } } : State).pu.phase = .blanking := by
  refine ⟨rfl, by decide, by decide +kernel, rfl, rfl, by decide +kernel, ?_, ⟨rfl, by decide⟩, ?_, rfl⟩
  · intro i b c h1 h2
    match i with
    | 0 => cases h1; cases h2; decide
    | 1 => cases h1; cases h2; decide
    | n + 2 => simp [threeBandTile, threeBands] at h2
  · intro c h; cases h; decide

/-- The premise of DrivenValue's clause about an emitter. -/
theorem witness_DrivenValue : threeBandTile.emitted 50 3 = some (513, 257, 0) := test_three_band_picture.1

/-- The blanking interval ends 0.5 ms after the frame start. -/
theorem test_blankingIntervalEnd :
    leaves (exec .blankingIntervalEnd
        { base with pu := { base.pu with phase := .blanking }, ft := { base.ft with frameStart := 1000 } })
      (fun t => t.pu.phase == .scanning && t.now == 501000) = true := by decide +kernel

/-! ## Frame timing -/

/-- The tile in a sync state, last edge at 1 ms, timer started at 2 ms, T = 4,000 µs, a set sealed for NEXT with flip. -/
def timed (x : SyncState) : State :=
  { withSlots none (some (sealedNext 7 true)) with
    ft := { FrameTiming.cold with
      syncState := x, period := 4000, lastEdge := 1000000, timerStart := 2000000, counter := 0xFFFFFFFF, glitch := 65535,
      holdover := 3 } }

/-- In LOCKED an edge 1 ns before T/2 is a glitch, one at T/2 is a counted frame start. -/
theorem test_syncEdge_locked :
    (leaves (exec (.syncEdge 2999999) (timed .locked)) (fun t => t.ft.glitch == 65535 && t.ft.counter == 0xFFFFFFFF) &&
      leaves (exec (.syncEdge 3000000) (timed .locked))
        (fun t => t.ft.counter == 0 && t.ft.lastEdge == 3000000 && t.ft.frameStart == 3000000 && t.fs.front == .B &&
          t.cs.sealedSlot == none && t.ru.log.map Notice.details == [.setApplied 7 0 0 false] && t.pu.latchedFront == .B &&
          t.pu.phase == .blanking && t.pu.output == .blank)) = true := by decide +kernel

/-- In HOLDOVER sync returns; in SEEKING the first edge locks; in FREE and before the end of start-up nothing happens. -/
theorem test_syncEdge_others :
    (leaves (exec (.syncEdge 5) (timed .holdover))
        (fun t => t.ft.syncState == .locked && t.ru.log.map Notice.details == [.syncRestored 3, .setApplied 7 0 0 false] &&
          t.ru.log.map Notice.frame == [0, 0]) &&
      leaves (exec (.syncEdge 5) (timed .seeking)) (fun t => t.ft.syncState == .locked && t.ft.counter == 0) &&
      leaves (exec (.syncEdge 5) (timed .free)) (fun t => t.ft == (timed .free).ft && t.now == 5) &&
      leaves (exec (.syncEdge 5) State.reset) (fun t => t == State.reset)) = true := by decide +kernel

theorem witness_EdgeBySyncState :
    State.reset.ready = false ∧ (timed .free).ready = true ∧ (timed .seeking).ft.syncState = .seeking ∧
    max (timed .locked).now 2999999 - (timed .locked).ft.lastEdge < 500 * (timed .locked).ft.period ∧
    ¬ max (timed .locked).now 3000000 - (timed .locked).ft.lastEdge < 500 * (timed .locked).ft.period ∧
    (timed .holdover).ft.syncState = .holdover ∧ 2999999 ≤ (timed .locked).ft.deadline ∧ 3000000 ≤ (timed .locked).ft.deadline ∧
    5 ≤ (timed .holdover).ft.deadline := by decide +kernel

/-- An edge 1 ms after supervision was due comes in HOLDOVER; one 5 ms after it, after a second frame; a request 9 ms after the free-run timer was
due, after three counted frames; one due at the moment itself does not expire first. -/
theorem test_due_first :
    let k : Take := { ask .identify [] with moment := 15000000 }
    (leaves (exec (.syncEdge 8000000) (timed .locked))
        (fun t => t.now == 8000000 && t.ft.syncState == .locked &&
          t.ru.log.map Notice.details == [.syncLost 65535, .syncRestored 1, .setApplied 7 0 0 false]) &&
      leaves (exec (.syncEdge 12000000) (timed .locked)) (fun t => t.ft.holdover == 2 && t.ft.frameStart == 12000000) &&
      leaves (exec (.syncEdge 7000000) (timed .locked)) (fun t => t.ft.syncState == .locked && t.ft.holdover == 3) &&
      leaves (exec (.identify k) (asked (timed .free) k))
        (fun t => t.ft.counter == 2 && t.ft.timerStart == 14000000 && t.now == 15000000 && t.ru.replies.length == 1)) = true := by
  decide +kernel

/-- The four expiries, each at its moment. -/
theorem test_timer_expiries :
    (leaves (exec .seekingTimerExpiry (timed .seeking))
        (fun t => t.now == 6000000 && t.ft.timerStart == 6000000 && t.ft.counter == 0xFFFFFFFF && t.cs.sealedSlot.isSome) &&
      leaves (exec .holdoverTimerExpiry (timed .holdover)) (fun t => t.now == 6000000 && t.ft.holdover == 4) &&
      leaves (exec .freeRunTimerExpiry (timed .free)) (fun t => t.now == 6000000 && t.ft.counter == 0 && t.fs.front == .B) &&
      leaves (exec .supervisionTimerExpiry (timed .locked))
        (fun t => t.now == 7000000 && t.ft.syncState == .holdover && t.ft.holdover == 1 && t.ft.timerStart == 7000000 &&
          t.ru.log.map Notice.details == [.syncLost 65535])) = true := by decide +kernel

theorem witness_TimersExpire :
    (timed .seeking).ready = true ∧ (timed .seeking).ft.syncState = .seeking ∧ (timed .holdover).ft.syncState = .holdover ∧
    (timed .free).ft.syncState = .free ∧ (timed .locked).ready = true ∧ (timed .locked).ft.syncState = .locked ∧
    State.reset.ready = false ∧ (timed .locked).ft.syncState ≠ .seeking ∧
    0 < (timed .locked).ft.period ∧ (timed .locked).momentOf (.syncEdge 7000001) = some 7000001 ∧
    (timed .locked).CanHappen (.syncEdge 7000001) ∧ ¬ (timed .locked).OnTime 7000001 ∧ (timed .locked).OnTime 7000000 :=
  ⟨by decide, by decide, by decide, by decide, by decide, by decide, by decide, by decide, by decide, rfl,
    fun kind k h => (by cases h), fun h => absurd (onTime_iff.1 h) (by decide), onTime_iff.2 (by decide)⟩

def setSyncCases : List Case :=
  [{ state := timed .locked, payload := [2, 0xA0, 0x0F], result := .badArg },
   { state := timed .locked, payload := [0, 0x9F, 0x0F], result := .badArg },
   { state := timed .locked, payload := [0, 0x51, 0xC3], result := .badArg },
   { state := timed .locked, payload := [1, 0x50, 0xC3], result := .ok, reply := [3],
     post := fun t => t.ft.syncState == .free && t.ft.period == 50000 && t.ft.counter == 0xFFFFFFFF },
   { state := timed .free, payload := [0, 0xA0, 0x0F], result := .ok, reply := [0], post := fun t => t.ft.syncState == .seeking },
   { state := timed .locked, payload := [0, 0xA0, 0x0F], result := .ok, reply := [1], post := fun t => t.ft == (timed .locked).ft },
   { state := { timed .free with now := 7000001 }, payload := [1, 0x88, 0x13], result := .ok, reply := [3],
     post := fun t => t.ft.period == 5000 && t.ft.counter == 0 && t.ft.timerStart == 7000001 },
   { state := { timed .free with now := 7000000 }, payload := [1, 0x88, 0x13], result := .ok, reply := [3],
     post := fun t => t.ft.period == 5000 && t.ft.counter == 0xFFFFFFFF },
   { state := { timed .seeking with now := 7000001 }, payload := [0, 0x88, 0x13], result := .ok, reply := [0],
     post := fun t => t.ft.timerStart == 7000001 },
   { state := { timed .locked with now := 8500001 }, payload := [0, 0x88, 0x13], result := .ok, reply := [1],
     post := fun t => t.ft.syncState == .holdover && t.ru.log.map Notice.details == [.syncLost 65535] },
   { state := { timed .holdover with now := 7000001 }, payload := [0, 0x88, 0x13], result := .ok, reply := [2],
     post := fun t => t.ft.holdover == 4 }]

def setFrameNumberCases : List Case :=
  [{ state := timed .locked, payload := [1, 2, 3, 4], result := .ok,
     post := fun t => t.ft.pendingNumber == some 0x04030201 && t.ft.counter == 0xFFFFFFFF }]

theorem test_setSync : good .setSync .setSync setSyncCases = true := by decide +kernel
theorem test_setFrameNumber : good .setFrameNumber .setFrameNumber setFrameNumberCases = true := by decide +kernel

theorem witness_SyncSelectedAndNumberSet :
    (∀ c ∈ setSyncCases, c.Meets .setSync) ∧ ∀ c ∈ setFrameNumberCases, c.Meets .setFrameNumber :=
  ⟨meets_of test_setSync, meets_of test_setFrameNumber⟩

/-- The premises of FrameNumberCarried: each sync state, an accepted edge at T/2, a free-run timer overdue under a new T. -/
theorem witness_FrameNumberCarried :
    let u : State := { timed .free with now := 7000001 }
    let k := ask .setSync [1, 0x88, 0x13]
    (timed .locked).ready = true ∧
    (500 * (timed .locked).ft.period ≤ max (timed .locked).now 3000000 - (timed .locked).ft.lastEdge) ∧
    (timed .locked).OnTime 3000000 ∧ (timed .locked).ft.pendingNumber = none ∧ (timed .locked).cs.sealedSlot = some (sealedNext 7 true) ∧
    ({ timed .locked with ft := { (timed .locked).ft with pendingNumber := some 0 } } : State).ft.pendingNumber = some 0 ∧
    (asked u k).Serving k { req := k.req, tag := 0 } [] .setSync ∧ u.ft.syncState = .free ∧ byteAt k.req.payload 0 = 1 ∧
    4000 ≤ field k.req.payload 1 2 ∧ field k.req.payload 1 2 ≤ 50000 ∧ field k.req.payload 1 2 ≠ u.ft.period ∧
    u.ft.timerStart + 1000 * field k.req.payload 1 2 < max u.now k.moment ∧
    (asked (timed .locked) k).Serving k { req := k.req, tag := 0 } [] .setSync ∧ (timed .locked).ft.syncState ≠ .free := by
  refine ⟨by decide, by decide, onTime_iff.2 (by decide), rfl, rfl, rfl, serving_of (by decide +kernel), rfl, by decide +kernel, by decide +kernel,
    by decide +kernel, by decide +kernel, by decide +kernel, serving_of (by decide +kernel), by decide⟩

/-! ## Repair map -/

/-- Segment 2 of the worked example of 5.13: 2.5 is OPEN and SOFT(16), 2.16 SOUND and SOFT(5), 2.17 SOUND and FREE. -/
def segment2 : Segment := (Segment.fresh.setCondition (.primary 5) .openFault).makeSoft 5 .s16

/-- A tile with that segment and a policy. -/
def routed (p : Policy) : State :=
  { inMode .showMode with rd := { RowDrive.cold.putSegment 2 segment2 with policy := p } }

/-- The same with 2.5 HARD. -/
def hardRouted : State := { inMode .showMode with rd := RowDrive.cold.putSegment 2 (segment2.makeHard 5 .s16) }

/-- Segment 2 with both spares taken. -/
def fullSegment : State := { inMode .showMode with rd := RowDrive.cold.putSegment 2 (segment2.makeSoft 6 .s17) }

/-- That tile with the burn of 2.5 in progress. -/
def routedBurning : State := { routed .manual with fz := { FuseStore.cold with burn := .check subject } }

def readMapCases : List Case :=
  [{ state := routed .auto, payload := [6], result := .badArg },
   { state := routed .auto, payload := [2], result := .ok,
     reply := [2, 0, 0, 0, 0, 0, 0, 0, 0, 0, 0, 0, 0, 0, 0, 0, 1, 1, 16] ++ List.replicate 30 0 ++ [0, 1, 5, 0, 0, 0] },
   { state := hardRouted, payload := [5], result := .ok, reply := [5] ++ List.replicate 54 0 }]

/-- Record 0.16 PROGRAMMED(15), record 5.17 INCONSISTENT. -/
def twoClasses : FuseStore :=
  (FuseStore.cold.putHeld ⟨0, 0, .s16⟩ (.programmed 15)).putHeld ⟨5, 0, .s17⟩ .inconsistent

def readFusesCases : List Case :=
  [{ state := { base with fz := twoClasses }, payload := [], result := .ok,
     reply := [1, 15] ++ List.replicate 20 0 ++ [3, 0] },
   { state := { base with fz := { FuseStore.cold.putHeld subject .writing with burn := .check subject } }, payload := [], result := .ok,
     reply := List.replicate 8 0 ++ [4, 5] ++ List.replicate 14 0 }]

theorem test_readMap : good .readMap .readMap readMapCases = true := by decide +kernel
theorem test_readFuses : good .readFuses .readFuses readFusesCases = true := by decide +kernel

theorem witness_MapAndFusesRead : (∀ c ∈ readMapCases, c.Meets .readMap) ∧ ∀ c ∈ readFusesCases, c.Meets .readFuses :=
  ⟨meets_of test_readMap, meets_of test_readFuses⟩

def repairCases : List Case :=
  [{ state := base, payload := [6, 0], result := .badArg },
   { state := base, payload := [0, 16], result := .badArg },
   { state := hardRouted, payload := [2, 5], result := .alreadyHard },
   { state := routed .manual, payload := [2, 5], result := .ok, reply := [16, 0] },
   { state := base, payload := [5, 15], result := .ok, reply := [16, 1],
     post := fun t => t.rd == RowDrive.cold.putSegment 5 (Segment.fresh.makeSoft 15 .s16) },
   { state := routed .manual, payload := [2, 6], result := .ok, reply := [17, 1] },
   { state := fullSegment, payload := [2, 7], result := .noSpare }]

def releaseCases : List Case :=
  [{ state := base, payload := [6, 0], result := .badArg },
   { state := hardRouted, payload := [2, 5], result := .alreadyHard },
   { state := base, payload := [0, 0], result := .notSoft },
   { state := routedBurning, payload := [2, 5], result := .busy },
   { state := routed .manual, payload := [2, 5], result := .ok, reply := [16],
     post := fun t => t.rd == RowDrive.cold.putSegment 2 (Segment.fresh.setCondition (.primary 5) .openFault) }]

theorem test_repair : good .repair .repair repairCases = true := by decide +kernel
theorem test_release : good .release .release releaseCases = true := by decide +kernel

theorem witness_SoftRoutesMadeAndRemoved : (∀ c ∈ repairCases, c.Meets .repair) ∧ ∀ c ∈ releaseCases, c.Meets .release :=
  ⟨meets_of test_repair, meets_of test_release⟩

def markCases : List Case :=
  [{ state := base, payload := [6, 0], result := .badArg },
   { state := base, payload := [0, 18], result := .badArg },
   { state := routedBurning, payload := [2, 16], result := .busy },
   { state := routedBurning, payload := [2, 5], result := .busy },
   { state := { base with rd := RowDrive.cold.putSegment 0 (Segment.fresh.setCondition (.primary 0) .marked) }, payload := [0, 0],
     result := .ok, reply := [0, 0] },
   { state := routed .auto, payload := [2, 5], result := .ok, reply := [0, 0],
     post := fun t => (t.rd.segment 2).condition (.primary 5) == .marked },
   { state := routed .auto, payload := [2, 16], result := .ok, reply := [1, 17] },
   { state := routed .manual, payload := [2, 16], result := .ok, reply := [3, 0] }]

def clearCases : List Case :=
  [{ state := base, payload := [0, 18], result := .badArg },
   { state := routed .auto, payload := [2, 5], result := .ok, reply := [1],
     post := fun t => (t.rd.segment 2).primary 5 == { condition := .sound, route := .soft .s16 } },
   { state := base, payload := [5, 17], result := .ok, reply := [0] }]

theorem test_markFaulty : good .markFaulty .markFaulty markCases = true := by decide +kernel
theorem test_clearFault : good .clearFault .clearFault clearCases = true := by decide +kernel

theorem witness_FaultsMarkedAndCleared : (∀ c ∈ markCases, c.Meets .markFaulty) ∧ ∀ c ∈ clearCases, c.Meets .clearFault :=
  ⟨meets_of test_markFaulty, meets_of test_clearFault⟩

def policyCases : List Case :=
  [{ state := base, payload := [2], result := .badArg },
   { state := scanning 3, payload := [1], result := .ok, post := fun t => t.rd.policy == .auto },
   { state := routedBurning, payload := [0], result := .ok, post := fun t => t.rd.policy == .manual }]

theorem test_setRepairPolicy : good .setRepairPolicy .setRepairPolicy policyCases = true := by decide +kernel

theorem witness_PolicySet : ∀ c ∈ policyCases, c.Meets .setRepairPolicy := meets_of test_setRepairPolicy

/-- Steps 2 and 4 of the worked example of 5.13. -/
theorem test_fault_example :
    let a := (segment2.applyTest .auto (.spare .s16) .shortFault)
    let b := (a.1.applyTest .auto (.spare .s17) .openFault)
    a.2 = { changed := true, fired := true, action := .repaired .s17 } ∧ (a.1.primary 5).route = .soft .s17 ∧
    a.1.spare .s16 = { condition := .shortFault, use := .free } ∧ b.2.action = .routeDropped ∧
    b.1.primary 5 = { condition := .openFault, route := .direct } ∧ b.1.spare .s17 = { condition := .openFault, use := .free } := by
  decide +kernel

/-- The premises of FaultHandlingAndTestResults: a spare free and one not, for a primary and for the other spare of a SOFT-used one. -/
theorem witness_FaultHandlingAndTestResults :
    let free : Segment → SpareId → Prop := fun a x => (a.spare x).use = .free ∧ (a.spare x).condition = .sound
    free Segment.fresh .s16 ∧ ¬ free segment2 .s16 ∧ free segment2 .s17 ∧ ¬ free (segment2.makeSoft 6 .s17) .s17 ∧
    (segment2.spare .s16).use = .soft 5 ∧ (segment2.primary 5).route = .soft .s16 ∧ (Segment.fresh.primary 0).route = .direct := by
  decide +kernel

/-- Panel row 37 is primary 2.5 (R81). -/
theorem witness_LitRowRule :
    (37 : Fin 96).val = 16 * (2 : Fin 6).val + (5 : Fin 16).val ∧ (routed .auto).rd.source 37 = some (.spare .s16) ∧
    ((routed .auto).rd.putSegment 2 (segment2.dropSoft 5 .s16)).darkRows = 1 ∧
    ((routed .auto).rd.putSegment 2 (segment2.dropSoft 5 .s16)).updatePending = true ∧ RowDrive.cold.latched.updatePending = false ∧
    (routed .auto).rd.hardCount = 0 ∧ (RowDrive.cold.putSegment 2 (segment2.makeHard 5 .s16)).hardCount = 1 := by decide +kernel

/-! ## Fuses -/

/-- Every blow takes. -/
def allTake : Blows := { index := 15, complement := 15, damage := 3 }

/-- A write of 11 cut short after one fuse reads INCONSISTENT (6.10); a whole one reads PROGRAMMED. -/
theorem test_classify :
    (FuseRecord.blank.blowWrite 11 allTake).classify = .programmed 11 ∧
    (FuseRecord.blank.blowWrite 11 { allTake with index := 1 }).classify = .inconsistent ∧
    (FuseRecord.blank.blowDamage { allTake with damage := 1 }).classify = .damaged ∧
    readPair { v16 := FuseRecord.blank.blowWrite 3 allTake, v17 := FuseRecord.blank.blowWrite 3 allTake } =
      { v16 := .programmed 3, v17 := .damaged } := by decide +kernel

/-- The premises of FusesBlownAndClassified's clauses: how many of the four fuses of a write have blown. -/
theorem witness_FusesBlownAndClassified :
    (FuseRecord.blank.blowWrite 0 { index := 0, complement := 0, damage := 0 }).blownCount = 0 ∧
    (FuseRecord.blank.blowWrite 0 allTake).blownCount = 4 ∧ (FuseRecord.blank.blowWrite 15 allTake).blownCount = 4 ∧
    (FuseRecord.blank.blowWrite 11 { allTake with index := 1 }).blownCount = 2 := by decide +kernel

/-- A tile in MAINTENANCE with the soft route of 2.5 to 2.16. -/
def burnable : State := { routed .manual with mc := { mode := .maintenance, startUp := .ready } }

def burnCases : List Case :=
  [{ state := routed .manual, payload := [2, 5], result := .badState },
   { state := burning (.recheck subject), payload := [2, 5], result := .busy },
   { state := scanning 0, payload := [2, 5], result := .busy },
   { state := burnable, payload := [6, 0], result := .badArg },
   { state := { hardRouted with mc := burnable.mc }, payload := [2, 5], result := .alreadyHard },
   { state := burnable, payload := [2, 4], result := .notSoft },
   { state := { burnable with now := 77 }, payload := [2, 5], result := .ok, reply := [16],
     post := fun t => t.fz.burn == .write subject && t.fz.classOf 2 .s16 == .writing && t.fz.entered == 77 && t.rd == burnable.rd }]

theorem test_burn : good .burn .burn burnCases = true := by decide +kernel

theorem witness_BurnTaken : ∀ c ∈ burnCases, c.Meets .burn := meets_of test_burn

/-- A burn of 2.5 in an engine state, with a fuse record. -/
def atBurn (b : BurnEngine) (r : FuseRecord) : State :=
  { burnable with fz := { (FuseStore.cold.putRecord subject r).putHeld subject .writing with burn := b, entered := 1000 } }

/-- That tile 150 ms on, the last frame start 1 ms ago. -/
def atBurnEnd (b : BurnEngine) : State :=
  { atBurn b FuseRecord.blank with now := 150000000, ft := { FrameTiming.cold with timerStart := 149000000, frameStart := 149000000 } }

/-- WRITE and MARK end 150 ms after entry. -/
theorem test_burn_steps :
    (leaves (exec (.burnWriteExpiry allTake) (atBurn (.write subject) FuseRecord.blank))
        (fun t => t.fz.burn == .check subject && t.now == 150001000 &&
          t.fz.record subject == { index := 5, complement := 10, damage := 0 }) &&
      leaves (exec (.burnMarkExpiry { allTake with damage := 2 }) (atBurn (.mark subject) FuseRecord.blank))
        (fun t => t.fz.burn == .recheck subject && t.fz.record subject == { index := 0, complement := 0, damage := 2 })) = true := by
  decide +kernel

theorem witness_BurnStepsExpire :
    (atBurnEnd (.write subject)).fz.burn = .write subject ∧ (atBurnEnd (.mark subject)).fz.burn = .mark subject ∧
    (atBurnEnd (.write subject)).Timely ((atBurnEnd (.write subject)).fz.entered + 150000000) ∧
    (atBurnEnd (.mark subject)).Timely ((atBurnEnd (.mark subject)).fz.entered + 150000000) :=
  ⟨rfl, rfl, fun _ => onTime_iff.2 (by decide), fun _ => onTime_iff.2 (by decide)⟩

/-- CHECK and RECHECK, each way. -/
theorem test_burn_reads :
    (leaves (exec (.burnCheckRead 9) (atBurn (.check subject) (FuseRecord.blank.blowWrite 5 allTake)))
        (fun t => t.fz.burn == .idle && t.fz.classOf 2 .s16 == .programmed 5 && t.rd == hardRouted.rd &&
          t.ru.log.map Notice.details == [.burnDone subject (.programmed 5)]) &&
      leaves (exec (.burnCheckRead 9) (atBurn (.check subject) FuseRecord.blank)) (fun t => t.fz.burn == .mark subject && t.ru.log == []) &&
      leaves (exec (.burnRecheckRead 9) (atBurn (.recheck subject) (FuseRecord.blank.blowDamage allTake)))
        (fun t => t.fz.classOf 2 .s16 == .damaged && (t.rd.segment 2).primary 5 == { condition := .openFault, route := .direct } &&
          ((t.rd.segment 2).spare .s16).use == .damaged) &&
      leaves (exec (.burnRecheckRead 9) (atBurn (.recheck subject) FuseRecord.blank))
        (fun t => t.ru.log.map Notice.details == [.burnDone subject .inconsistent])) = true := by decide +kernel

theorem witness_BurnReadsBack :
    (atBurn (.check subject) FuseRecord.blank).fz.burn = .check subject ∧
    (atBurn (.recheck subject) FuseRecord.blank).fz.burn = .recheck subject ∧
    (atBurn (.check subject) FuseRecord.blank).Timely 9 ∧ (atBurn (.recheck subject) FuseRecord.blank).Timely 9 ∧
    (FuseRecord.blank.blowWrite 5 allTake).classify = .programmed 5 ∧ FuseRecord.blank.classify ≠ .programmed 5 := by
  exact ⟨rfl, rfl, fun _ => onTime_iff.2 (by decide), fun _ => onTime_iff.2 (by decide), by decide +kernel, by decide +kernel⟩

/-! ## Tests of channels -/

/-- A finding on channel 5.17. -/
def finding : Finding := { channel := 107, result := .shortFault, action := .repaired .s17 }

def scanCases : List Case :=
  [{ state := base, payload := [], result := .badState },
   { state := scanning 4, payload := [], result := .busy },
   { state := burning (.check subject), payload := [], result := .busy },
   { state := { burnable with tu := { TestUnit.cold with tested := 108, findings := [finding], overflow := true, outcome := .clean } },
     payload := [], result := .ok,
     post := fun t => t.tu.scan == .running 0 && t.tu.findings == [] && t.tu.tested == 0 && t.tu.outcome == .none }]

def scanAbortCases : List Case :=
  [{ state := burnable, payload := [], result := .badState },
   { state := scanning 4, payload := [], result := .ok, reply := [2],
     post := fun t => t.tu.scan == .idle && t.tu.tested == 2 && t.ru.log.map Notice.details == [.scanDone .aborted 2 0 false 0] }]

def readScanCases : List Case :=
  [{ state := base, payload := [0, 33], result := .badArg },
   { state := base, payload := [1, 32], result := .badArg },
   { state := base, payload := [0, 0], result := .ok, reply := [0, 255, 255, 0, 0, 0, 0] },
   { state := { scanning 34 with tu := { (scanning 34).tu with findings := [finding] } }, payload := [0, 32], result := .ok,
     reply := [1, 1, 16, 2, 1, 0, 0, 5, 17, 2, 1, 17] }]

theorem test_scan : good .scan .scan scanCases = true := by decide +kernel
theorem test_scanAbort : good .scanAbort .scanAbort scanAbortCases = true := by decide +kernel
theorem test_readScan : good .readScan .readScan readScanCases = true := by decide +kernel

theorem witness_ScanRequests :
    (∀ c ∈ scanCases, c.Meets .scan) ∧ (∀ c ∈ scanAbortCases, c.Meets .scanAbort) ∧ ∀ c ∈ readScanCases, c.Meets .readScan :=
  ⟨meets_of test_scan, meets_of test_scanAbort, meets_of test_readScan⟩

/-- Spare 5.17 DAMAGED. -/
def lastDamaged : RowDrive := RowDrive.cold.putSegment 5 (Segment.fresh.setUse .s17 .damaged)

/-- A scan of that map at channel 5.16, the last one it tests, with 32 findings in the list; and one at 5.15, with none. -/
def fullList : State := { scanning 106 with rd := lastDamaged, tu := { (scanning 106).tu with findings := List.replicate 32 finding } }
def nearEnd : State := { scanning 105 with rd := lastDamaged }

/-- The next channel; completion with an overflow. -/
theorem test_scanTestEnd :
    (leaves (exec (.scanTestEnd .openFault) nearEnd)
        (fun t => t.tu.scan == .running 106 && t.tu.tested == 3 && t.now == 401000 && t.tu.testStart == 401000 &&
          t.tu.findings == [{ channel := 105, result := .openFault, action := .none }]) &&
      leaves (exec (.scanTestEnd .shortFault) fullList)
        (fun t => t.tu.scan == .idle && t.tu.overflow && t.tu.findings.length == 32 && t.tu.outcome == .repaired &&
          t.ru.log.map Notice.details == [.scanDone .repaired 3 32 true 0])) = true := by decide +kernel

theorem witness_ScanTestEnds :
    nearEnd.tu.scan = .running 105 ∧ nearEnd.Timely (nearEnd.tu.testStart + 400000) ∧ fullList.Timely (fullList.tu.testStart + 400000) ∧
    lastDamaged.skips 106 = false ∧ lastDamaged.skips 107 = true ∧
    fullList.tu.scan = .running 106 ∧ (∀ h : GlobalChannel, 106 < h.val → lastDamaged.skips h = true) := by
  refine ⟨rfl, fun _ => onTime_iff.2 (by decide), fun _ => onTime_iff.2 (by decide), by decide +kernel, by decide +kernel, rfl, ?_⟩
  intro h hh
  have : h = 107 := Fin.ext (by have := h.isLt; show h.val = 107; omega)
  subst this
  decide +kernel

/-- The patrol of the worked example of 7.9: spare 5.16 DAMAGED, lap count 311. -/
def patrolling (cursor : GlobalChannel) (test : Option GlobalChannel) : State :=
  { inMode .showMode with
    rd := RowDrive.cold.putSegment 5 (Segment.fresh.setUse .s16 .damaged)
    tu := { TestUnit.cold with patrolOn := true, cursor := cursor, patrolTest := test, lapCount := 311, testStart := 1000 } }

def setPatrolCases : List Case :=
  [{ state := base, payload := [2], result := .badArg },
   { state := base, payload := [1], result := .ok, reply := [1, 0, 0, 0], post := fun t => t.tu.patrolOn },
   { state := patrolling 104 (some 104), payload := [1], result := .ok, reply := [1, 104, 55, 1],
     post := fun t => t.tu.patrolTest == some 104 },
   { state := patrolling 104 (some 104), payload := [0], result := .ok, reply := [0, 104, 55, 1],
     post := fun t => !t.tu.patrolOn && t.tu.patrolTest == none }]

theorem test_setPatrol : good .setPatrol .setPatrol setPatrolCases = true := by decide +kernel

theorem witness_PatrolSet : ∀ c ∈ setPatrolCases, c.Meets .setPatrol := meets_of test_setPatrol

/-- Steps 4 to 6 of 7.9, and a fault that the patrol finds under AUTO. -/
theorem test_patrol :
    (leaves (exec (.patrolTestEnd .ok) (patrolling 105 (some 105)))
        (fun t => t.tu.cursor == 107 && t.tu.lapCount == 311 && t.now == 401000 && t.ru.log == []) &&
      leaves (exec (.patrolTestEnd .ok) (patrolling 107 (some 107))) (fun t => t.tu.cursor == 0 && t.tu.lapCount == 312) &&
      leaves (exec .seekingTimerExpiry (patrolling 106 none))
        (fun t => t.tu.patrolTest == some 107 && t.tu.cursor == 107 && t.pu.output == .showing) &&
      leaves (exec (.patrolTestEnd .shortFault)
          { routed .auto with tu := { TestUnit.cold with patrolOn := true, cursor := 52, patrolTest := some 52 } })
        (fun t => t.tu.cursor == 53 && t.ru.log.map Notice.details == [.channelFault 52 .shortFault (.repaired .s17)])) = true := by
  decide +kernel

theorem witness_PatrolTestEnds :
    (patrolling 107 (some 107)).tu.patrolTest = some 107 ∧
    (patrolling 107 (some 107)).Timely ((patrolling 107 (some 107)).tu.testStart + 400000) :=
  ⟨rfl, fun _ => onTime_iff.2 (by decide)⟩

/-! ## The link -/

/-- The tile with the first bytes of a frame received, at most three, and its decisions latched. -/
def arriving (body : List Byte) (held : Option Bool) : State :=
  let l := base.li.decisions (byteAt body 0)
  { base with li := { base.li with upIn := some (body.take 3), rx := some { l with held := held } } }

/-- What is still to come of the frame, and the symbol that ends it. -/
def restOf (body : List Byte) (y : Symbol) : List Symbol := (body.drop 3).map .data ++ [y]

def goodFrame : List Byte := withCheck [5, 7, 0x03, 0]

/-- The receiver: a frame cut off by START, one closed, one cut off by IDLE, what stands outside discarded. -/
theorem test_receiver :
    (Receiver.upTo upArrival none [.data 1, .finish, .idle, .start, .data 9] == some (some [9], .destination 9) &&
      Receiver.upTo upArrival (some [9]) [.data 1, .data 2] == some (some [9, 1, 2], .kindByte [9, 1, 2]) &&
      Receiver.upTo upArrival (some [9, 1, 2]) [.data 3, .start] ==
        some (some [], .ended { body := [9, 1, 2, 3], ending := .cutOff }) &&
      Receiver.upTo upArrival (some [9]) [.idle] == some (none, .ended { body := [9], ending := .cutOff }) &&
      Receiver.upTo upArrival none [.data 3, .finish] == none &&
      Receiver.upTo upArrival none [.start, .data 1, .data 2, .data 3] == none) = true := by decide +kernel

/-- The decision; the repeat of a frame for another unit, for this unit, of an all-tile ENUMERATE; the end of a frame for no tile here. -/
theorem test_downstreamRepeat :
    (leaves (exec (.downstreamRepeat .destinationByte [.idle, .start, .data 5]) base)
        (fun t => t.li.rx.map RxLatch.cls == some (some .unit) && t.li.upIn == some [5]) &&
      leaves (exec (.downstreamRepeat .repeatBegins [.data 1, .data 2]) (arriving [6] none))
        (fun t => t.li.repeating == some [6, 1, 2]) &&
      leaves (exec (.downstreamRepeat .repeatBegins [.data 7, .data 3]) (arriving [5] none)) (fun t => t.li.repeating == none) &&
      leaves (exec (.downstreamRepeat .repeatBegins [.data 0, .data 1]) (arriving [127] none))
        (fun t => t.li.repeating == none && t.li.rx.map RxLatch.held == some (some true)) &&
      leaves (exec (.downstreamRepeat .frameEnds [.data 8, .idle]) (arriving [6, 1, 2] (some false)))
        (fun t => t.li.downOut == [{ body := [6, 1, 2, 8], ending := .cutOff }] && t.li.rx == none)) = true := by decide +kernel

/-- Unit 62 of groups 0 and 15, a destination of each kind; a frame at each of its three events; a symbol outside a frame; a held tile. -/
theorem witness_FramesDecidedAndRepeated :
    let x : LinkInterface := { LinkInterface.cold with unit := 62, groups := [0, 15] }
    x.unit.toNat ≤ 62 ∧ x.classFor 62 = some .unit ∧ x.classFor 64 = some (.group 0) ∧ x.classFor 79 = some (.group 15) ∧
    x.classFor 127 = some .allTiles ∧ x.classFor 0 = none ∧ x.classFor 65 = none ∧ x.classFor 80 = none ∧
    base.running = true ∧ base.li.upIn.Opens [.idle, .start] [] ∧
    (∃ l, (arriving [127] none).li.upIn = some [127] ∧ (arriving [127] none).li.rx = some l ∧ l.held = none) ∧
    (arriving [6, 1, 2] (some false)).li.FrameEnds [.data 8, .idle] { body := [6, 1, 2, 8], ending := .cutOff } none ∧
    (∀ l, (arriving [6, 1, 2] (some false)).li.rx = some l → l.cls = none ∧ l.held ≠ some true) ∧
    (base.li.upIn = none ∧ Symbol.start ∉ [Symbol.data 1, .finish]) ∧
    ({ base with resetLine := true } : State).running = false := by
  refine ⟨by decide, by decide, by decide, by decide, by decide, by decide, by decide, by decide, by decide,
    Or.inr ⟨[.idle], rfl, by decide, rfl⟩, ⟨_, rfl, rfl, rfl⟩,
    ⟨[.data 8], .idle, rfl, rfl, Or.inr ⟨[6, 1, 2], [8], by decide, rfl, by decide, rfl, rfl, Or.inl (by decide)⟩⟩,
    ?_, ⟨rfl, by decide⟩, by decide⟩
  intro l h; cases h; decide

/-- The tests of R157 on a frame for this tile; one for no tile here; one whose START was never seen. -/
theorem test_downstreamFrameEnd :
    (leaves (exec (.downstreamFrameEnd (restOf goodFrame .finish)) (arriving goodFrame (some false)))
        (fun t => t.ru.queue.length == 1 && t.li.rx == none && t.li.upIn == none && t.li.downOut == []) &&
      leaves (exec (.downstreamFrameEnd (restOf goodFrame .start)) (arriving goodFrame (some false)))
        (fun t => t.li.rxMalformed == 1 && t.ru.queue == [] && t.li.upIn == some []) &&
      leaves (exec (.downstreamFrameEnd (restOf [5, 7, 3, 0, 0, 0] .finish)) (arriving [5, 7, 3, 0, 0, 0] (some false)))
        (fun t => t.li.rxBadCheck == 1 && t.ru.queue == []) &&
      leaves (exec (.downstreamFrameEnd (restOf [6, 7] .finish)) (arriving [6, 7] none))
        (fun t => t.li.rxMalformed == 0 && t.li.downOut == [{ body := [6, 7], ending := .complete }]) &&
      leaves (exec (.downstreamFrameEnd (goodFrame.map .data ++ [.finish])) base) (fun t => t == base)) = true := by decide +kernel

/-- A good frame, a damaged one, one that is too short, and one with no body. -/
theorem witness_FrameForThisTileTested :
    (arriving goodFrame (some false)).running = true ∧
    (arriving goodFrame (some false)).li.FrameEnds (restOf goodFrame .finish) { body := goodFrame, ending := .complete } none ∧
    (∀ l, (arriving goodFrame (some false)).li.rx = some l → l.held ≠ some true) ∧
    (arriving goodFrame (some false)).li.rx.bind RxLatch.cls = some .unit ∧ checkGood goodFrame = true ∧ lengthGood goodFrame = true ∧
    checkGood [5, 7, 3, 0, 0, 0] = false ∧ ({ base with resetLine := true } : State).running = false ∧
    (arriving [5] none).li.FrameEnds [.data 7, .finish] { body := [5, 7], ending := .complete } none ∧
    base.li.FrameEnds [.start, .idle] { body := [], ending := .cutOff } none ∧
    (base.li.upIn = none ∧ Symbol.start ∉ [Symbol.data 1, .finish]) := by
  refine ⟨by decide, ⟨(goodFrame.drop 3).map .data, .finish, rfl, rfl,
      Or.inr ⟨goodFrame.take 3, goodFrame.drop 3, by decide, rfl, by decide +kernel, rfl, (List.take_append_drop 3 goodFrame).symm,
        Or.inl (by decide +kernel)⟩⟩, ?_, by decide +kernel, by decide +kernel, by decide +kernel, by decide +kernel, by decide,
    ⟨[.data 7], .finish, rfl, rfl, Or.inr ⟨[5], [7], by decide, rfl, by decide, rfl, rfl, Or.inr (by decide)⟩⟩,
    ⟨[.start], .idle, rfl, rfl, Or.inl ⟨rfl, Or.inr ⟨[], rfl, by decide, rfl⟩, rfl⟩⟩, ⟨rfl, by decide⟩⟩
  intro l h; cases h; decide

/-- A Request Unit whose filter holds the frame of IDENTIFY with sequence 7, in each state of the entry. -/
def filtering (x : FilterState) : RequestUnit :=
  { RequestUnit.cold with filter := some { seq := 7, check := (ask .identify []).req.check, tag := 3, state := x } }

/-- A reply, cached. -/
def cached : Reply := queueFullReply 5 (ask .identify []).req

/-- A duplicate in each state; a frame that joins; a full queue, unit-addressed and not. -/
theorem test_arrive :
    let r := (ask .identify []).req
    let full : RequestUnit := { RequestUnit.cold with queue := List.replicate 8 { req := (ask .scan []).req, tag := 0 } }
    ((filtering .waiting).arrive 5 r == filtering .waiting) = true ∧
    (((filtering (.replySent cached)).arrive 5 r).replies == [cached]) = true ∧
    ((RequestUnit.cold.arrive 5 r).queue.length == 1 && (RequestUnit.cold.arrive 5 r).filter.map FilterEntry.state == some .waiting) = true ∧
    ((full.arrive 5 r).replies.map Reply.result == [.queueFull]) = true ∧
    ((full.arrive 5 { r with cls := .allTiles }).reqDrop == 1) = true := by decide +kernel

theorem witness_RequestArrives :
    (∃ e, (filtering .waiting).filter = some e ∧ (ask .identify []).req.cls = .unit ∧ e.seq = byteAt (ask .identify []).req.body 1 ∧
      e.check = (ask .identify []).req.check) ∧
    (∀ e, RequestUnit.cold.filter = some e → ¬ ((ask .identify []).req.cls = .unit ∧
      e.seq = byteAt (ask .identify []).req.body 1 ∧ e.check = (ask .identify []).req.check)) := by
  refine ⟨⟨_, rfl, rfl, by decide +kernel, rfl⟩, ?_⟩
  intro e h; cases h

/-- ENUMERATE with base 4, 63 and 64, one of a wrong length and one damaged. -/
theorem test_enumerate :
    let run := fun b => exec (.enumerate (restOf b .finish)) (arriving b (some true))
    (leaves (run (withCheck [127, 0, 1, 4]))
        (fun t => t.li.unit == 4 && t.li.downOut == [{ body := withCheck [127, 0, 1, 5], ending := .complete }] &&
          t.ru.log.map Notice.unit == [4]) &&
      leaves (run (withCheck [127, 0, 1, 63])) (fun t => t.li.unit == 0 && t.li.downOut.map LinkFrame.body == [withCheck [127, 0, 1, 63]]) &&
      leaves (run (withCheck [127, 0, 1, 64])) (fun t => t.li.unit == 5 && t.ru.log == [] && t.li.downOut.length == 1) &&
      leaves (run (withCheck [127, 0, 1])) (fun t => t.ru.queue.map (fun q => q.req.cls) == [.allTiles] && t.li.downOut.length == 1) &&
      leaves (run [127, 0, 1, 4, 0, 0]) (fun t => t.li.rxBadCheck == 1 && t.li.downOut == [])) = true := by decide +kernel

theorem witness_Enumeration :
    let b := withCheck [127, 0, 1, 62]
    (∃ l : RxLatch, (arriving b (some true)).li.rx = some l ∧ l.held = some true ∧ (arriving b (some true)).running = true ∧
      (arriving b (some true)).li.FrameEnds (restOf b .finish) { body := b, ending := .complete } none) ∧
    ({ base with powerGood := false } : State).running = false ∧ (base.li.upIn = none ∧ Symbol.start ∉ [Symbol.data 1, .finish]) := by
  refine ⟨⟨_, rfl, rfl, by decide, ((withCheck [127, 0, 1, 62]).drop 3).map .data, .finish, rfl, rfl,
    Or.inr ⟨(withCheck [127, 0, 1, 62]).take 3, (withCheck [127, 0, 1, 62]).drop 3, by decide, rfl, by decide +kernel, rfl,
      (List.take_append_drop 3 _).symm, Or.inl (by decide +kernel)⟩⟩, by decide, rfl, by decide⟩

/-- A full pass-through queue, and a tile with its two sides ready. -/
def passFull : State := { base with li := { base.li with passThrough := List.replicate 6 [1] } }
def bothReady : State := { base with li := { base.li with passThrough := [[1], [2]] }, ru := { base.ru with log := [copyNotice 1 false] } }

theorem test_upstreamFrameEnd :
    (leaves (exec (.upstreamFrameEnd [.start, .data 9, .finish]) base) (fun t => t.li.passThrough == [[9]] && t.li.downIn == none) &&
      leaves (exec (.upstreamFrameEnd [.start, .data 9, .finish]) passFull)
        (fun t => t.li.passDrop == 1 && t.ru.log.map Notice.details == [.linkOverrun 1]) &&
      leaves (exec (.upstreamFrameEnd [.start, .data 9, .start]) base) (fun t => t.li.passThrough == [] && t.li.downIn == some []) &&
      leaves (exec (.upstreamFrameEnd [.data 9, .finish]) base) (fun t => t == base)) = true := by
  decide +kernel

theorem witness_UpstreamFrameQueued :
    base.running = true ∧ base.li.passThrough.length < 6 ∧ ¬ passFull.li.passThrough.length < 6 ∧
    base.li.downIn.Opens [.start, .data 9] [9] ∧ passFull.li.downIn.Opens [.start, .data 9] [9] ∧
    symbolEnds .finish = some (.complete, none) ∧ symbolEnds .idle = some (.cutOff, none) ∧
    ({ base with resetLine := true } : State).running = false ∧ (base.li.downIn = none ∧ Symbol.start ∉ [Symbol.data 9, .finish]) :=
  ⟨by decide, by decide, by decide, Or.inr ⟨[], rfl, by decide, rfl⟩, Or.inr ⟨[], rfl, by decide, rfl⟩, rfl, rfl, by decide, rfl,
    by decide⟩

/-- The own side was served last, so pass-through goes first; then the notice. -/
theorem test_upOut :
    (leaves (exec .upOutFrameBegin bothReady) (fun t => t.li.upOut == some { side := .passThrough, body := [1] } &&
        leaves (exec .upOutFrameEnd t) (fun u => u.li.upOut == none && u.li.passThrough == [[2]] &&
          leaves (exec .upOutFrameBegin u) (fun v => v.li.upOut.map Sending.side == some .own && v.ru.log.all Notice.sent)))) = true := by
  decide +kernel

theorem witness_UpOutArbitrated :
    bothReady.running = true ∧ bothReady.li.upOut = none ∧ bothReady.li.passThrough ≠ [] ∧
    (bothReady.ru.replies ≠ [] ∨ ∃ n ∈ bothReady.ru.log, n.sent = false) ∧ bothReady.li.lastSide = .own ∧
    ({ bothReady with li := { bothReady.li with lastSide := .passThrough } } : State).li.lastSide = .passThrough ∧
    ({ bothReady with powerGood := false } : State).running = false ∧
    (∃ y : Sending, y.side = .passThrough ∧ (bothReady.beginPass [1]).li.upOut = some y) ∧
    (∃ y : Sending, y.side = .own ∧ (bothReady.beginOwn [1] bothReady.ru).li.upOut = some y) ∧
    base.li.passThrough = [] ∧ ¬ (base.ru.replies ≠ [] ∨ ∃ n ∈ base.ru.log, n.sent = false) := by
  refine ⟨by decide, rfl, by decide, Or.inr ⟨_, List.mem_cons_self, rfl⟩, rfl, rfl, by decide, ⟨_, rfl, rfl⟩, ⟨_, rfl, rfl⟩, rfl, ?_⟩
  simp [base, inMode, State.reset, RequestUnit.cold]

/-! ## Cold reset and start-up -/

/-- A burn cut short by the loss of power leaves what took (R116); the tile is held until both lines allow. -/
theorem test_coldReset :
    (leaves (exec (.coldReset .powerLost { allTake with complement := 0 }) (atBurn (.write subject) FuseRecord.blank))
        (fun t => t.fz.record subject == { index := 5, complement := 0, damage := 0 } && t.mc == ModeControl.cold && t.running == false) &&
      leaves (exec (.startupBegin .powerGood) { State.reset with powerGood := false, resetLine := true })
        (fun t => t.running == false) &&
      leaves (exec (.startupBegin .lineReleased) { State.reset with resetLine := true })
        (fun t => t.running && t.mc.startUp == .starting)) = true := by decide +kernel

/-- Start-up reads the fuses and builds the map. -/
theorem test_startupEnd :
    leaves (exec (.startupEnd 3000000)
        { State.reset with fz := FuseStore.cold.putRecord subject (FuseRecord.blank.blowWrite 5 allTake) })
      (fun t => t.ready && t.mc.mode == .off && t.now == 3000000 && t.ft.timerStart == 3000000 &&
        (t.rd.segment 2).primary 5 == { condition := .sound, route := .hard .s16 } && t.rd.hardCount == 1 &&
        t.ru.log.length == 1) = true := by decide +kernel

/-- A burn in WRITE and one in MARK, cut short with some blows taken; one in CHECK, where no fuse is blown. -/
theorem test_coldReset_burn :
    (leaves (exec (.coldReset .lineAsserted { allTake with damage := 2 }) (atBurn (.mark subject) { index := 1, complement := 0, damage := 0 }))
        (fun t => t.fz.record subject == { index := 1, complement := 0, damage := 2 }) &&
      leaves (exec (.coldReset .lineAsserted allTake) (atBurn (.check subject) { index := 1, complement := 0, damage := 0 }))
        (fun t => t.fz.record subject == { index := 1, complement := 0, damage := 0 })) = true := by decide +kernel

theorem witness_ColdResetAndStartupBegin :
    base.fz.burn = .idle ∧ (burning (.write subject)).fz.burn = .write subject ∧ (burning (.mark subject)).fz.burn = .mark subject :=
  ⟨rfl, rfl, rfl⟩

/-- A tile that each of the two holds, one that both hold, and one that runs. -/
theorem witness_StartupBegins :
    (∃ s : State, s.powerGood = false ∧ s.resetLine = false) ∧ (∃ s : State, s.powerGood = true ∧ s.resetLine = true) ∧
    (∃ s : State, s.powerGood = false ∧ s.resetLine = true) ∧ base.running = true :=
  ⟨⟨{ base with powerGood := false }, rfl, rfl⟩, ⟨{ base with resetLine := true }, rfl, rfl⟩,
    ⟨{ base with powerGood := false, resetLine := true }, rfl, rfl⟩, by decide⟩

theorem witness_StartupEnds : State.reset.running = true ∧ State.reset.mc.startUp = .starting := ⟨rfl, rfl⟩

/-! ## Invariants -/

theorem fresh_cold (g : Fin 6) : State.reset.rd.segment g = Segment.fresh := by
  show RowDrive.cold.segments.get g = Segment.fresh
  unfold RowDrive.cold
  simp [Vector.get_eq_getElem]

/-- A tile whose step sends a pass-through frame. -/
def sending : State := { bothReady with pending := [.upOutFrameBegin] }

theorem witness_QueuesStayBounded :
    sending.QueuesBounded ∧ step sending = .next ({ bothReady with pending := [] }.beginPass [1]) :=
  ⟨⟨by decide, by decide, by decide, by decide, by decide, by decide, by decide⟩, rfl⟩

/-- LOCKED, 6 ms after the last accepted edge, where supervision is due. -/
def lockedOnTime : State :=
  { timed .locked with now := 7000000, ft := { (timed .locked).ft with frameStart := 1000000 } }

/-- A tile in SHOW that lights its panel, a tile with a notice, a tile that copies, one that is LOCKED, each with a step to take. -/
theorem witness_OutputNoticesAndFlipsStayLawful :
    showing.DarkOutsideShow ∧ (∃ t, step { showing with pending := [.seekingTimerExpiry] } = .next t) ∧
    (logged [copyNotice 255 true]).NoticesNumbered ∧
    copying.FlipAndCopyApart ∧ (∃ t, step { copying with pending := [.copyComplete] } = .next t) ∧
    lockedOnTime.FramesOnTime ∧ (∃ t, step { lockedOnTime with pending := [.supervisionTimerExpiry] } = .next t) := by
  refine ⟨⟨by decide, by decide, by decide⟩, ⟨_, rfl⟩, ⟨by decide, by decide, ⟨255, rfl, rfl⟩⟩, ?_, ⟨_, rfl⟩,
    ⟨by decide, by decide, fun _ => onTime_iff.2 (by decide), fun _ _ => rfl, fun _ h => (by cases h),
      fun _ h => (by rcases h with h | h <;> cases h)⟩, ⟨_, rfl⟩⟩
  intro p h; cases h; exact ⟨rfl, rfl⟩

/-- Each change that ChangesOnlyWhereNamed speaks of takes place somewhere. -/
theorem witness_ChangesOnlyWhereNamed :
    (leaves (exec (.syncEdge 3000000) (timed .locked)) (fun t => t.ft.counter != (timed .locked).ft.counter && t.fs.front != .A) &&
      leaves (exec (.coldReset .powerLost allTake) (timed .locked)) (fun t => t.li.unit != (timed .locked).li.unit) &&
      leaves (exec (.startupEnd 0) { State.reset with mc := { mode := .standby, startUp := .starting } })
        (fun t => t.mc.mode == .off)) = true ∧
    (∀ m, (timed .locked).momentOf (.syncEdge 3000000) = some m → (timed .locked).Timely m) := by
  refine ⟨by decide +kernel, ?_⟩
  intro m h; cases h; exact fun _ => onTime_iff.2 (by decide)

/-- A tile in SHOW whose primary 2.5 has a HARD route. -/
def hardTile : State :=
  { hardRouted with fz := (FuseStore.cold.putRecord subject (FuseRecord.blank.blowWrite 5 allTake)).putHeld subject (.programmed 5) }

theorem hardTile_segment (g : Fin 6) : hardTile.rd.segment g = if g = 2 then segment2.makeHard 5 .s16 else Segment.fresh := by
  show (RowDrive.cold.putSegment 2 (segment2.makeHard 5 .s16)).segment g = _
  rw [segment_putSegment]
  split
  · rfl
  · exact fresh_cold g

theorem segment2_matched : segment2.Matched :=
  makeSoft_matched (setCondition_matched fresh_matched _ _ (Or.inr (by simp))) (by decide +kernel) (by decide +kernel)

theorem witness_MapStaysConsistent : hardTile.MapConsistent ∧ ((hardTile.rd.segment 2).primary 5).route = .hard .s16 := by
  refine ⟨⟨?_, ?_, ?_, ?_, by decide, by decide, by decide, by decide, by decide⟩, by decide +kernel⟩
  · intro g
    rw [hardTile_segment]
    split
    · exact makeHard_matched segment2_matched (by decide +kernel)
    · exact fresh_matched
  · intro g k
    fin_cases g <;> cases k <;> exact ⟨by decide +kernel, by decide +kernel, by decide +kernel⟩
  · intro g k
    constructor
    · fin_cases g <;> cases k <;> intro h <;> revert h <;> decide +kernel
    · rintro ⟨x, h, _⟩; cases h
  · intro x h; cases h

theorem witness_FusesAndHardRoutesStay :
    hardTile.MapConsistent ∧ (∃ t, exec .seekingTimerExpiry hardTile = .next t) ∧
    (∀ r b, Instr.seekingTimerExpiry ≠ .coldReset r b) ∧ (∀ m, Instr.seekingTimerExpiry ≠ .startupEnd m) ∧
    ((hardTile.rd.segment 2).primary 5).route = .hard .s16 ∧ hardTile.FusesBearOut ∧ hardTile.HardForGood 2 5 .s16 := by
  refine ⟨witness_MapStaysConsistent.1, ⟨_, rfl⟩, by simp, by simp, witness_MapStaysConsistent.2, ⟨?_, ?_, ?_, trivial⟩,
    ⟨by decide +kernel, by simp⟩, fun _ => witness_MapStaysConsistent.2⟩
  · intro _ g k p
    revert g k p
    unfold FuseStore.ReadsHard
    exact fun g k p => by fin_cases g <;> cases k <;> fin_cases p <;> decide +kernel
  · intro _ g k
    fin_cases g <;> cases k <;> decide +kernel
  · intro _ g
    fin_cases g <;> intro h <;> revert h <;> decide +kernel

/-- A burn in WRITE on a blank record. -/
theorem witness_FusesBearOut_burning :
    (match (atBurn (.write subject) FuseRecord.blank).fz.burn with
      | .write y => ((atBurn (.write subject) FuseRecord.blank).fz.fuses.get y.seg).get y.spare = FuseRecord.blank
      | _ => False) := by
  show _ = _
  decide +kernel

/-- A hard-routed tile is cold reset and started again: the route is back (R106). -/
theorem test_hard_again :
    leaves (exec (.coldReset .lineAsserted allTake) hardTile) (fun t =>
      leaves (exec (.startupBegin .lineReleased) t) (fun u =>
        leaves (exec (.startupEnd 5) u) (fun v =>
          ((t.rd.segment 2).primary 5).route == .direct && ((v.rd.segment 2).primary 5).route == .hard .s16 && v.ready))) = true := by
  decide +kernel

theorem witness_PictureStaysLawful :
    State.PictureLawful
      { threeBandTile with
        pu := { threeBandTile.pu with live := threeBandTile.pu.latched }
        cs := { openSlot := some (setOf 1), sealedSlot := some (sealedNext 2 true) } } := by
  refine ⟨by decide +kernel, by decide +kernel, by decide, by decide +kernel, by decide +kernel, ?_, by decide +kernel, ?_, ?_, ?_⟩
  · intro e h; cases h
  · intro o h; cases h; exact ⟨by decide, by decide, by simp [setOf], by decide +kernel⟩
  · intro z h; cases h; exact ⟨by decide, by decide, by simp [setOf, sealedNext], by decide +kernel⟩
  · intro o z h1 h2; cases h1; cases h2; decide

end Sys2Proof.Tests
end

section
/-! SUPPORT. Rules that requests of several chapters share: a request whose own rule answers OK, the canvas widths of R4, and the flags that the
checks of SET_CANVAS and RESTART read. -/

namespace Sys2Proof.Machine

/-- A request that can be taken, passes the common checks and is answered OK by its own rule. -/
theorem serve_ok {s t : State} {k : Take} {q : Queued} {rest : List Queued} {kind : Kind} {own : State → List Byte → Answered}
    {p : List Byte} (h : s.Serving k q rest kind) (hown : own (s.taken k) k.req.payload = .ok (t, p)) :
    s.serve k kind own = .next (t.answer q .ok p) := by
  rw [serve_serving h, hown]

/-- The width check of the model is membership in the table of R4. -/
theorem legalWidth_iff {w : Nat} : legalWidth w = true ↔ w ∈ canvasWidths := by
  simp only [legalWidth, canvasWidths, Bool.and_eq_true, decide_eq_true_eq, beq_iff_eq, List.mem_cons, List.not_mem_nil, or_false]
  omega

/-- Every canvas is at least as wide as the panel, and at most 512 cells wide (R4). -/
theorem canvasWidth_bounds {w : Nat} (h : w ∈ canvasWidths) : 128 ≤ w ∧ w ≤ 512 := by
  have hlegal := legalWidth_iff.2 h
  simp only [legalWidth, Bool.and_eq_true, decide_eq_true_eq] at hlegal
  exact hlegal.1

/-- Every canvas is at least as high as the panel (R4): a page holds 96 rows of 512 cells. -/
theorem panel_le_canvasHeight {w : Nat} (h : w ∈ canvasWidths) : 96 ≤ canvasHeight w := by
  obtain ⟨hmin, hmax⟩ := canvasWidth_bounds h
  rw [canvasHeight, pageCells, Nat.le_div_iff_mul_le (by omega)]
  omega

/-- The copy-busy flag is clear exactly when no copy is in flight (R14). -/
theorem copyBusy_eq_false_iff {s : State} : s.copyBusy = false ↔ s.fs.copy = .idle := by
  simp [State.copyBusy]

/-- The burn-busy flag is clear exactly when the burn engine is IDLE (R114). -/
theorem burnBusy_eq_false_iff {x : BurnEngine} : x.busy = false ↔ x = .idle := by
  cases x <;> simp [BurnEngine.busy]

end Sys2Proof.Machine
end

section
/-! SUPPORT. The default band table and the events that put it in force (R22); the value driven for a colour (R30). -/

namespace Sys2Proof.Machine

/-! ## The default band table (R22) -/

/-- The one band of the default table covers the whole panel. -/
theorem heightOf_defaultBands (b : Band) (h : defaultBands[0]? = some b) : heightOf defaultBands 0 b = 96 := by
  cases h
  rfl

/-- The default table fits every canvas: a rectangle of the panel's size at (0, 0) lies inside each of them (R4, R20). -/
theorem defaultBands_lawful {w : Nat} (hw : w ∈ canvasWidths) : TableLawful w defaultBands where
  count := by decide
  first b hb := by cases hb; rfl
  ascending i b c _ hc := by simp [defaultBands] at hc
  lastRow b hb := by
    obtain rfl := List.mem_singleton.1 hb
    decide
  bands i b hb := by
    cases i with
    | zero =>
      have hwide : 128 ≤ w := (canvasWidth_bounds hw).1
      have hhigh : 96 ≤ 49152 / w := panel_le_canvasHeight hw
      rw [heightOf_defaultBands b hb]
      cases hb
      exact ⟨by decide, by decide, by simpa using hwide, by simpa using hhigh⟩
    | succ i => simp [defaultBands] at hb

/-- COLD_RESET leaves the Presentation Unit at its cold-reset values (R25). -/
theorem exec_coldReset_pu (s : State) (c : ResetCause) (b : Blows) :
    ∃ t, exec (.coldReset c b) s = .next t ∧ t.pu = Presentation.cold := by
  cases c with
  | powerLost => exact ⟨_, rfl, rfl⟩
  | lineAsserted => exact ⟨_, rfl, rfl⟩

/-- With no burn, RESTART is the warm restart, and its reply carries the mode after it (R147, R149). -/
theorem restartRequest_idle {s : State} (h : s.fz.burn = .idle) (p : List Byte) :
    s.restartRequest p = .ok (s.warmRestart, [s.mc.mode.afterRestart.code]) :=
  if_neg (by simp [burnBusy_eq_false_iff.2 h])

/-- A RESTART that is served with no burn leaves the Presentation Unit at its warm-restart values (R26). -/
theorem exec_restart_pu {k : Take} {s : State} {q : Queued} {rest : List Queued} (h : s.Serving k q rest .restart)
    (hburn : s.fz.burn = .idle) : ∃ t, exec (.restart k) s = .next t ∧ t.pu = s.pu.warm := by
  have hown := restartRequest_idle (s := s.taken k) hburn k.req.payload
  exact ⟨_, serve_ok h hown, by rw [answer_pu]; rfl⟩

/-- SET_CANVAS where every check of R7 passes: the new width with the default table in force (R8), and W and H as the reply (R17). -/
theorem setCanvas_taken {s : State} {p : List Byte} (hmode : s.mc.mode = .off ∨ s.mc.mode = .standby)
    (hopen : s.cs.openSlot = none) (hsealed : s.cs.sealedSlot = none) (hcopy : s.fs.copy = .idle)
    (hwidth : field p 0 2 ∈ canvasWidths) :
    s.setCanvas p = .ok
      ((s.withFs { s.fs with width := field p 0 2 }).withPu { s.pu with live := { s.pu.live with bands := defaultBands } },
        natField 2 (field p 0 2) ++ natField 2 (canvasHeight (field p 0 2))) := by
  have hmodes : ¬ (s.mc.mode ≠ .off ∧ s.mc.mode ≠ .standby) := fun h => hmode.elim h.1 h.2
  have hslots : ¬ (s.cs.openSlot.isSome ∨ s.cs.sealedSlot.isSome) := by simp [hopen, hsealed]
  have hidle : ¬ s.copyBusy = true := by simp [copyBusy_eq_false_iff.2 hcopy]
  exact (if_neg hmodes).trans <| (if_neg hslots).trans <| (if_neg hidle).trans <| if_pos (legalWidth_iff.2 hwidth)

/-- A SET_CANVAS that is served and passes its checks puts the default table in force and keeps the rest of the Presentation Unit (R8). -/
theorem exec_setCanvas_pu {k : Take} {s : State} {q : Queued} {rest : List Queued} (h : s.Serving k q rest .setCanvas)
    (hmode : s.mc.mode = .off ∨ s.mc.mode = .standby) (hopen : s.cs.openSlot = none) (hsealed : s.cs.sealedSlot = none)
    (hcopy : s.fs.copy = .idle) (hwidth : field k.req.payload 0 2 ∈ canvasWidths) :
    ∃ t, exec (.setCanvas k) s = .next t ∧ t.pu = { s.pu with live := { s.pu.live with bands := defaultBands } } := by
  have hown := setCanvas_taken (s := s.taken k) hmode hopen hsealed hcopy hwidth
  exact ⟨_, serve_ok h hown, by rw [answer_pu]; rfl⟩

/-! ## The driven value (R30) -/

/-- The level dims and never brightens: it is at most 255. -/
theorem drivenValue_le_entry (v : BitVec 10) (l : Byte) : drivenValue v l ≤ v.toNat := by
  have hlevel : l.toNat ≤ 255 := Nat.le_of_lt_succ l.isLt
  apply Nat.div_le_of_le_mul
  calc v.toNat * l.toNat ≤ v.toNat * 255 := Nat.mul_le_mul_left _ hlevel
    _ = 255 * v.toNat := Nat.mul_comm ..

/-- A driven value has the range of an entry value. -/
theorem drivenValue_le_max (v : BitVec 10) (l : Byte) : drivenValue v l ≤ 1023 :=
  (drivenValue_le_entry v l).trans (Nat.le_of_lt_succ v.isLt)

/-- Level 0 drives nothing. -/
@[simp] theorem drivenValue_zero (v : BitVec 10) : drivenValue v 0 = 0 := by
  simp [drivenValue]

/-- Level 255 drives the entry value itself. -/
@[simp] theorem drivenValue_full (v : BitVec 10) : drivenValue v 255 = v.toNat :=
  Nat.mul_div_cancel v.toNat (by decide : 0 < 255)

/-- The default level, 128 (R24). -/
theorem drivenValue_default (v : BitVec 10) : drivenValue v 128 = 128 * v.toNat / 255 :=
  congrArg (· / 255) (Nat.mul_comm v.toNat 128)

/-- An emitter is driven exactly when its row is lit, by its colour of the latched palettes at the latched level (R29-R32). -/
theorem emitted_eq_some_iff {s : State} {r : Fin 96} {j : Fin 128} {x : Nat × Nat × Nat} :
    s.emitted r j = some x ↔ s.rowLit r = true ∧ ∃ c, s.panelColour r.val j.val = some c ∧
      x = (drivenValue c.red s.pu.latched.level, drivenValue c.green s.pu.latched.level, drivenValue c.blue s.pu.latched.level) := by
  unfold State.emitted
  cases s.rowLit r with
  | false => simp
  | true => simp [eq_comm]

end Sys2Proof.Machine
end

section
/-! SUPPORT. The statements of chapter 2 settled. They stand outside the model's namespace, where `drivenValue` names the model's function. -/

namespace Sys2Proof.Settled

open Sys2Proof.Machine

/-- Settles O23: the table fits by `defaultBands_lawful`, and each of the three events leaves a view that holds it. -/
theorem defaultTable : Obligations.DefaultTable := by
  refine ⟨heightOf_defaultBands, fun w hw => defaultBands_lawful hw, fun s c b => ?_, fun k s q rest => ⟨fun h hburn => ?_,
    fun h hmode hopen hsealed hcopy hwidth => ?_⟩⟩
  · obtain ⟨t, ht, hpu⟩ := exec_coldReset_pu s c b
    exact ⟨t, ht, by rw [hpu]; rfl⟩
  · obtain ⟨t, ht, hpu⟩ := exec_restart_pu h hburn
    exact ⟨t, ht, by rw [hpu]; rfl⟩
  · obtain ⟨t, ht, hpu⟩ := exec_setCanvas_pu h hmode hopen hsealed hcopy hwidth
    exact ⟨t, ht, by rw [hpu]; rfl⟩

/-- Settles O25: the value's formula and range by the lemmas above, the panel's triple by `emitted_eq_some_iff`. -/
theorem drivenValue : Obligations.DrivenValue := by
  refine ⟨fun v l => ⟨rfl, drivenValue_le_max v l, drivenValue_zero v, drivenValue_full v, drivenValue_default v⟩,
    by decide, by decide, fun s r j x hx => ?_⟩
  exact (emitted_eq_some_iff.1 hx).2

end Sys2Proof.Settled
end

section
/-! SUPPORT. The number that a frame start carries (R45): a counted one takes it before the other blocks act, an uncounted one leaves it alone; and
which of the two each expiry, each edge and each SET_SYNC makes. -/

namespace Sys2Proof.Machine

/-- From `s` to `u` one counted frame start took place: N took the pending number, which is cleared, or else N + 1 modulo 2^32; a sealed set
applied exactly when it was due at the new N; and every notice created carries the new N (R45, R68). -/
def State.CarriesNumber (s u : State) : Prop :=
  (∀ v, s.ft.pendingNumber = some v → u.ft.counter = v) ∧
  (s.ft.pendingNumber = none → u.ft.counter.toNat = (s.ft.counter.toNat + 1) % 4294967296) ∧ u.ft.pendingNumber = none ∧
  (∀ z, s.cs.sealedSlot = some z → (z.Due u.ft.counter ↔ u.cs.sealedSlot = none)) ∧
  ∀ x ∈ u.ru.log, x ∈ s.ru.log ∨ x.frame = u.ft.counter

/-- From `s` to `u` no number is taken: N and the pending number stand as they were (R45). -/
def State.KeepsNumber (s u : State) : Prop :=
  u.ft.counter = s.ft.counter ∧ u.ft.pendingNumber = s.ft.pendingNumber

/-! ## The number -/

/-- With a pending number, that is the number carried. -/
theorem numberCarried_of_pending {x : FrameTiming} {v : FrameNo} (h : x.pendingNumber = some v) : x.numberCarried = v := by
  simp [FrameTiming.numberCarried, h]

/-- With no pending number, the number carried is N + 1 modulo 2^32. -/
theorem numberCarried_toNat_of_none {x : FrameTiming} (h : x.pendingNumber = none) :
    x.numberCarried.toNat = (x.counter.toNat + 1) % 4294967296 := by
  simp [FrameTiming.numberCarried, h, BitVec.toNat_add]

/-! ## The frame-start event of a counted frame start -/

/-- The blocks act on N and change neither it nor the pending number. -/
theorem countedEvent_keepsNumber (s : State) : s.KeepsNumber s.countedEvent := by
  rw [State.KeepsNumber, State.countedEvent, latchFrame_ft, applyDue_ft]
  exact ⟨rfl, rfl⟩

/-- The sealed slot is empty after a counted frame start exactly when the set in it was due (R68, R73). -/
theorem due_iff_applyDue_sealedSlot {s : State} {z : SealedSet} (hz : s.cs.sealedSlot = some z) :
    z.Due s.ft.counter ↔ s.applyDue.cs.sealedSlot = none := by
  by_cases hdue : z.Due s.ft.counter
  · simp [applyDue_applies s z hz hdue, hdue]
  · simp [applyDue_waits s z hz hdue, hdue, hz]

/-- An application creates no notice but one that carries N (R73, R179). -/
theorem applySet_frames (s : State) (z : SealedSet) :
    ∀ x ∈ (s.applySet z).ru.log, x ∈ s.ru.log ∨ x.frame = s.ft.counter := by
  rw [applySet_ru]
  split
  · exact createNotice_frames _ _ _ _
  · exact fun x hx => Or.inl hx

/-- Dealing with the sealed set creates no notice but one that carries N. -/
theorem applyDue_frames (s : State) : ∀ x ∈ s.applyDue.ru.log, x ∈ s.ru.log ∨ x.frame = s.ft.counter := by
  cases hz : s.cs.sealedSlot with
  | none =>
    rw [applyDue_none s hz]
    exact fun x hx => Or.inl hx
  | some z =>
    by_cases hdue : z.Due s.ft.counter
    · rw [applyDue_applies s z hz hdue]
      exact applySet_frames s z
    · rw [applyDue_waits s z hz hdue]
      exact fun x hx => Or.inl hx

/-- The event in a state `a` where N holds the number that `s` gives, the sealed slot is as in `s`, and any notice created since `s` carries that
number. -/
theorem carriesNumber_countedEvent {s a : State} (hcounter : a.ft.counter = s.ft.numberCarried)
    (hpending : a.ft.pendingNumber = none) (hcs : a.cs = s.cs)
    (hlog : ∀ x ∈ a.ru.log, x ∈ s.ru.log ∨ x.frame = s.ft.numberCarried) : s.CarriesNumber a.countedEvent := by
  obtain ⟨hN, hP⟩ := countedEvent_keepsNumber a
  rw [hcounter] at hN
  refine ⟨fun v hv => hN.trans (numberCarried_of_pending hv), fun hnone => ?_, hP.trans hpending, fun z hz => ?_, fun x hx => ?_⟩
  · rw [hN, numberCarried_toNat_of_none hnone]
  · rw [hN, ← hcounter]
    exact due_iff_applyDue_sealedSlot (by rw [hcs, hz])
  · rw [hN]
    rcases applyDue_frames a x hx with hold | hnew
    · exact hlog x hold
    · exact Or.inr (hnew.trans hcounter)

/-- A counted frame start carries its number. -/
theorem countedStart_carriesNumber (s : State) : s.CarriesNumber s.countedStart :=
  carriesNumber_countedEvent (takeNumber_counter s.ft) rfl rfl fun _ hx => Or.inl hx

/-- A counted frame start after a change that leaves N, the pending number, the slots and the notices as they were. -/
theorem State.CarriesNumber.of_unchanged {s a u : State} (h : a.CarriesNumber u) (hN : s.KeepsNumber a) (hcs : a.cs = s.cs)
    (hlog : a.ru.log = s.ru.log) : s.CarriesNumber u := by
  rw [State.CarriesNumber, hN.1, hN.2, hcs, hlog] at h
  exact h

/-- The answer to a request takes no part in the frame start before it. -/
theorem State.CarriesNumber.answer {s u : State} (h : s.CarriesNumber u) (q : Queued) (r : Result) (p : List Byte) :
    s.CarriesNumber (u.answer q r p) := by
  rw [State.CarriesNumber, answer_ft, answer_cs, answer_log]
  exact h

/-! ## The timers (R38, R40, R41, R42) -/

/-- The free-run timer's expiry is a counted frame start. -/
theorem frameTimerExpires_carriesNumber {s : State} (hfree : s.ft.syncState = .free) : s.CarriesNumber s.frameTimerExpires := by
  have hexpires : s.frameTimerExpires = s.freeRunExpires := by rw [State.frameTimerExpires, hfree]
  rw [hexpires]
  exact (countedStart_carriesNumber _).of_unchanged ⟨rfl, rfl⟩ rfl rfl

/-- The expiry of any other timer is an uncounted frame start. -/
theorem frameTimerExpires_keepsNumber {s : State} (hother : s.ft.syncState ≠ .free) : s.KeepsNumber s.frameTimerExpires := by
  unfold State.frameTimerExpires
  cases hsync : s.ft.syncState with
  | seeking => exact ⟨rfl, rfl⟩
  | locked => exact ⟨rfl, rfl⟩
  | holdover => exact ⟨rfl, rfl⟩
  | free => exact absurd hsync hother

/-! ## Edges (R38, R39, R41) -/

/-- An edge that no frame timer precedes takes place at its moment. -/
theorem exec_syncEdge_onTime {s : State} {t : Nat} (hready : s.ready = true) (htime : s.OnTime t) :
    exec (.syncEdge t) s = .next (s.tick t).edge := by
  have hexec : exec (.syncEdge t) s = .next (s.passTo t).edge := if_pos hready
  rw [hexec, passTo_eq fun _ => htime]

/-- An accepted edge is a counted frame start: any edge in SEEKING and in HOLDOVER, and in LOCKED one that comes T/2 or more after the last. -/
theorem edge_carriesNumber {s : State} (haccepted : s.ft.syncState = .seeking ∨ s.ft.syncState = .holdover ∨
      (s.ft.syncState = .locked ∧ s.ft.halfPeriod ≤ s.now - s.ft.lastEdge)) : s.CarriesNumber s.edge := by
  rcases haccepted with hseeking | hholdover | ⟨hlocked, hlate⟩
  · have hedge : s.edge = (s.withFt (s.ft.acceptEdge s.now)).countedStart := by rw [State.edge, hseeking]
    rw [hedge]
    exact (countedStart_carriesNumber _).of_unchanged ⟨rfl, rfl⟩ rfl rfl
  · have hedge : s.edge =
        ((s.withFt (s.ft.acceptEdge s.now).takeNumber).notify (.syncRestored s.ft.holdover)).countedEvent := by
      rw [State.edge, hholdover]; rfl
    have hcounter : (s.ft.acceptEdge s.now).takeNumber.counter = s.ft.numberCarried := takeNumber_counter _
    rw [hedge]
    refine carriesNumber_countedEvent hcounter rfl rfl fun x hx => ?_
    exact (createNotice_frames _ _ _ _ x hx).imp_right fun hframe => hframe.trans hcounter
  · have hedge : s.edge = (s.withFt (s.ft.acceptEdge s.now)).countedStart := by
      rw [State.edge, hlocked]
      exact if_neg (Nat.not_lt.2 hlate)
    rw [hedge]
    exact (countedStart_carriesNumber _).of_unchanged ⟨rfl, rfl⟩ rfl rfl

/-! ## SET_SYNC (R47, R48) -/

/-- A timer already past its moment expires. -/
theorem expireOverdue_of_late {s : State} (h : s.ft.deadline < s.now) : s.expireOverdue = s.frameTimerExpires := if_pos h

/-- A timer not past its moment goes on. -/
theorem expireOverdue_of_onTime {s : State} (h : s.now ≤ s.ft.deadline) : s.expireOverdue = s := if_neg (Nat.not_lt.2 h)

/-- Outside FREE an overdue timer makes an uncounted frame start. -/
theorem expireOverdue_keepsNumber {s : State} (hother : s.ft.syncState ≠ .free) : s.KeepsNumber s.expireOverdue := by
  rcases Nat.lt_or_ge s.ft.deadline s.now with hlate | htime
  · rw [expireOverdue_of_late hlate]
    exact frameTimerExpires_keepsNumber hother
  · rw [expireOverdue_of_onTime htime]
    exact ⟨rfl, rfl⟩

/-- With the EXTERNAL source the tile is not in FREE. -/
theorem applySync_external_ne_free (s : State) (t : Nat) : (s.applySync .external t).ft.syncState ≠ .free := by
  unfold State.applySync
  cases hsync : s.ft.syncState <;> simp [hsync]

/-- Entry into FREE starts its timer, which is then not overdue (R42, R47). -/
theorem applySync_internal_onTime {s : State} (hother : s.ft.syncState ≠ .free) (t : Nat) :
    (s.applySync .internal t).now ≤ (s.applySync .internal t).ft.deadline := by
  have hentered : s.applySync .internal t =
      s.withFt { s.ft with syncState := .free, period := t, timerStart := s.now } := by
    unfold State.applySync
    cases hsync : s.ft.syncState with
    | seeking => rfl
    | locked => rfl
    | holdover => rfl
    | free => exact absurd hsync hother
  rw [hentered]
  exact Nat.le_add_right s.now _

/-- Outside FREE, no expiry that SET_SYNC brings on at once takes a number. -/
theorem applySync_expireOverdue_keepsNumber {s : State} (hother : s.ft.syncState ≠ .free) (x : SyncSource) (t : Nat) :
    (s.applySync x t).KeepsNumber (s.applySync x t).expireOverdue := by
  cases x with
  | external => exact expireOverdue_keepsNumber (applySync_external_ne_free s t)
  | internal =>
    rw [expireOverdue_of_onTime (applySync_internal_onTime hother t)]
    exact ⟨rfl, rfl⟩

/-- SET_SYNC that passes its checks takes the source and T; then an overdue timer expires, unless the request names the source and T in force. -/
theorem setSync_taken {s : State} {p : List Byte} {x : SyncSource} (hsource : SyncSource.ofCode (byteAt p 0) = some x)
    (hmin : 4000 ≤ field p 1 2) (hmax : field p 1 2 ≤ 50000) :
    let u := s.applySync x (field p 1 2)
    s.setSync p = .ok (if s.ft.syncState.source = x ∧ s.ft.period = field p 1 2 then u else u.expireOverdue,
      [u.ft.syncState.code]) := by
  have hrange : ¬ (field p 1 2 < 4000 ∨ 50000 < field p 1 2) := by omega
  simp only [State.setSync, hsource, if_neg hrange]

/-- SET_SYNC that is not refused takes a source and a T in the range of R47. -/
theorem setSync_ok_checks {s u : State} {p reply : List Byte} (h : s.setSync p = .ok (u, reply)) :
    ∃ x, SyncSource.ofCode (byteAt p 0) = some x ∧ 4000 ≤ field p 1 2 ∧ field p 1 2 ≤ 50000 := by
  unfold State.setSync at h
  dsimp only at h
  cases hsource : SyncSource.ofCode (byteAt p 0) with
  | none => rw [hsource] at h; cases h
  | some x =>
    by_cases hrange : field p 1 2 < 4000 ∨ 50000 < field p 1 2
    · simp only [hsource, if_pos hrange] at h; cases h
    · exact ⟨x, rfl, by omega, by omega⟩

/-- SET_SYNC taken outside FREE changes neither N nor the pending number. -/
theorem setSync_keepsNumber {s u : State} {p reply : List Byte} (hother : s.ft.syncState ≠ .free)
    (h : s.setSync p = .ok (u, reply)) : s.KeepsNumber u := by
  obtain ⟨x, hsource, hmin, hmax⟩ := setSync_ok_checks h
  obtain ⟨-, -, hN, hP⟩ := applySync_keeps s x (field p 1 2)
  obtain ⟨hN', hP'⟩ := applySync_expireOverdue_keepsNumber hother x (field p 1 2)
  rw [setSync_taken hsource hmin hmax] at h
  split at h
  · cases h; exact ⟨hN, hP⟩
  · cases h; exact ⟨hN'.trans hN, hP'.trans hP⟩

/-- SET_SYNC in FREE with the INTERNAL source and a new T under which the free-run timer is overdue: the timer expires at once (R48). -/
theorem setSync_overdue {s : State} {p : List Byte} (hfree : s.ft.syncState = .free) (hsource : byteAt p 0 = 1)
    (hmin : 4000 ≤ field p 1 2) (hmax : field p 1 2 ≤ 50000) (hnew : field p 1 2 ≠ s.ft.period)
    (hlate : s.ft.timerStart + 1000 * field p 1 2 < s.now) :
    s.setSync p = .ok ((s.withFt { s.ft with period := field p 1 2 }).frameTimerExpires, [s.ft.syncState.code]) := by
  have hcode : SyncSource.ofCode (byteAt p 0) = some .internal := by rw [hsource]; rfl
  have hdiffers : ¬ (s.ft.syncState.source = .internal ∧ s.ft.period = field p 1 2) := fun h => hnew h.2.symm
  have happly : s.applySync .internal (field p 1 2) = s.withFt { s.ft with period := field p 1 2 } := by
    unfold State.applySync
    rw [hfree]
  have hoverdue : (s.withFt { s.ft with period := field p 1 2 }).ft.deadline < s.now := by
    simpa [FrameTiming.deadline, FrameTiming.fullPeriod, hfree] using hlate
  rw [setSync_taken hcode hmin hmax, if_neg hdiffers, happly, expireOverdue_of_late hoverdue]
  rfl

/-- A SET_SYNC served outside FREE changes neither N nor the pending number, refused or taken. -/
theorem exec_setSync_keepsNumber {s : State} {k : Take} {q : Queued} {rest : List Queued} (h : s.Serving k q rest .setSync)
    (hother : s.ft.syncState ≠ .free) : ∃ u, exec (.setSync k) s = .next u ∧ s.KeepsNumber u := by
  have hexec : exec (.setSync k) s = s.serve k .setSync State.setSync := rfl
  rw [hexec]
  cases hown : (s.taken k).setSync k.req.payload with
  | error r =>
    refine ⟨(s.taken k).answer q r [], by rw [serve_serving h, hown], ?_⟩
    rw [State.KeepsNumber, answer_ft]
    exact ⟨rfl, rfl⟩
  | ok result =>
    obtain ⟨u, reply⟩ := result
    refine ⟨u.answer q .ok reply, serve_ok h hown, ?_⟩
    rw [State.KeepsNumber, answer_ft]
    exact setSync_keepsNumber (s := s.taken k) hother hown

/-- A SET_SYNC that makes the free-run timer expire at once makes a counted frame start. -/
theorem exec_setSync_carriesNumber {s : State} {k : Take} {q : Queued} {rest : List Queued} (h : s.Serving k q rest .setSync)
    (hfree : s.ft.syncState = .free) (hsource : byteAt k.req.payload 0 = 1) (hmin : 4000 ≤ field k.req.payload 1 2)
    (hmax : field k.req.payload 1 2 ≤ 50000) (hnew : field k.req.payload 1 2 ≠ s.ft.period)
    (hlate : s.ft.timerStart + 1000 * field k.req.payload 1 2 < max s.now k.moment) :
    ∃ u, exec (.setSync k) s = .next u ∧ s.CarriesNumber u := by
  have hown := setSync_overdue (s := s.taken k) hfree hsource hmin hmax hnew hlate
  refine ⟨_, serve_ok h hown, State.CarriesNumber.answer ?_ _ _ _⟩
  exact State.CarriesNumber.of_unchanged (frameTimerExpires_carriesNumber hfree) ⟨rfl, rfl⟩ rfl rfl

end Sys2Proof.Machine
end

section
/-! SUPPORT. The statement on the frame number (chapter 3) settled. -/

namespace Sys2Proof.Settled

open Sys2Proof.Machine

/-- Settles O28: a clause for each row that makes a frame start. The row of the timer in use is its expiry (`exec_expiryRow`). -/
theorem frameNumberCarried : Obligations.FrameNumberCarried := by
  intro s t hready
  have hrow := exec_expiryRow hready
  refine ⟨fun haccepted htime => ⟨_, exec_syncEdge_onTime hready htime, edge_carriesNumber (s := s.tick t) haccepted⟩,
    fun hfree => ?_, fun k q rest => exec_setSync_carriesNumber,
    fun hseeking => ?_, fun hholdover => ?_, fun hlocked => ?_, fun k q rest => exec_setSync_keepsNumber⟩
  · rw [hfree] at hrow
    exact ⟨_, hrow, frameTimerExpires_carriesNumber hfree⟩
  · rw [hseeking] at hrow
    exact ⟨_, hrow, frameTimerExpires_keepsNumber (by simp [hseeking])⟩
  · rw [hholdover] at hrow
    exact ⟨_, hrow, frameTimerExpires_keepsNumber (by simp [hholdover])⟩
  · rw [hlocked] at hrow
    exact ⟨_, hrow, frameTimerExpires_keepsNumber (by simp [hlocked])⟩

end Sys2Proof.Settled
end

section
/-! SUPPORT. The staging requests of chapter 4: the checks of R59 case by case, and the rule that what `stage` does is what `StagesBy` says, for any
edit. A row whose own rule is `stage` needs no more than this. -/

namespace Sys2Proof.Machine

/-! ## Requests refused by their own rule, and requests that change the Change-Set Unit alone -/

/-- A request that can be taken, passes the common checks and is refused by its own rule changes nothing else (R172, R173). -/
theorem refuses_of_own {s : State} {c : Instr} {k : Take} {q : Queued} {rest : List Queued} {kind : Kind}
    {own : State → List Byte → Answered} {r : Result} (h : s.Serving k q rest kind) (hexec : exec c s = s.serve k kind own)
    (hown : own (s.taken k) k.req.payload = .error r) : s.Refuses c k q rest r :=
  refuses_of h.taking (by rw [hexec, serve_serving h, hown])

/-- An answer after a change of the Change-Set Unit leaves every block but that one and the Request Unit as it was. -/
theorem answer_withCs_sameExcept (s : State) (k : Take) (x : ChangeSets) (q : Queued) (r : Result) (p : List Byte) :
    s.SameExcept (((s.taken k).withCs x).answer q r p) [.ru, .cs] := by
  refine sameExcept_of (fun b hb => ?_) (by simp) (by simp) (by simp) (by simp)
  cases b with
  | ru | cs => simp at hb
  | li | fs | pu | ft | rd | fz | tu | mc => simp [State.sameBlock]

/-- A request whose own rule puts `x` in the Change-Set Unit and answers `p`. -/
theorem exec_withCs {s : State} {c : Instr} {k : Take} {q : Queued} {rest : List Queued} {kind : Kind}
    {own : State → List Byte → Answered} {x : ChangeSets} {p : List Byte} (h : s.Serving k q rest kind)
    (hexec : exec c s = s.serve k kind own) (hown : own (s.taken k) k.req.payload = .ok ((s.taken k).withCs x, p)) :
    ∃ t, exec c s = .next t ∧ s.Completes t k q rest .ok p ∧ t.cs = x ∧ s.SameExcept t [.ru, .cs] :=
  ⟨_, hexec.trans (serve_ok h hown), completes_answer h.taking rfl rfl rfl, answer_cs .., answer_withCs_sameExcept s k x q .ok p⟩

/-! ## The checks of R59 -/

section Stage
variable {s : State} {o : ChangeSet} {id : Half} {edit : ChangeSet → Option (Edit × List Band)}

/-- No set is open: NO_SET. -/
theorem stage_noOpenSet (hopen : s.cs.openSlot = none) : s.stage id edit = .error .noSet := by
  simp only [State.stage, hopen]

/-- The open set has another id: NO_SET. -/
theorem stage_otherId (hopen : s.cs.openSlot = some o) (hid : o.id ≠ id) : s.stage id edit = .error .noSet := by
  simp only [State.stage, hopen, if_pos hid]

/-- The journal of the named set is full: SET_FULL. -/
theorem stage_journalFull (hopen : s.cs.openSlot = some o) (hid : o.id = id) (hfull : 48 ≤ o.journal.length) :
    s.stage id edit = .error .setFull := by
  simp only [State.stage, hopen, if_neg (not_not.2 hid), if_pos hfull]

/-- The named set has room, and the request's own check fails: BAD_ARG. -/
theorem stage_badEdit (hopen : s.cs.openSlot = some o) (hid : o.id = id) (hroom : ¬ 48 ≤ o.journal.length)
    (hedit : edit o = none) : s.stage id edit = .error .badArg := by
  simp only [State.stage, hopen, if_neg (not_not.2 hid), if_neg hroom, hedit]

/-- The named set has room, and the request's own check passes: the entry joins the journal, and the reply is the journal count. -/
theorem stage_taken (hopen : s.cs.openSlot = some o) (hid : o.id = id) (hroom : ¬ 48 ≤ o.journal.length) {e : Edit}
    {table : List Band} (hedit : edit o = some (e, table)) :
    s.stage id edit =
      .ok (s.withCs { s.cs with openSlot := some { id := o.id, journal := o.journal ++ [e], projected := table } },
        [oneByte (o.journal.length + 1)]) := by
  simp only [State.stage, hopen, if_neg (not_not.2 hid), if_neg hroom, hedit]

end Stage

/-- A row whose own rule is to stage `edit` for the set `id` stages it as R59 says. -/
theorem stagesBy_of_stage {s : State} {c : Instr} {k : Take} {q : Queued} {rest : List Queued} {kind : Kind}
    {own : State → List Byte → Answered} {id : Half} {edit : ChangeSet → Option (Edit × List Band)}
    (h : s.Serving k q rest kind) (hexec : exec c s = s.serve k kind own)
    (hown : own (s.taken k) k.req.payload = (s.taken k).stage id edit) : s.StagesBy c k q rest id edit := by
  unfold State.StagesBy
  cases hopen : s.cs.openSlot with
  | none => exact refuses_of_own h hexec (hown.trans (stage_noOpenSet hopen))
  | some o =>
    by_cases hid : o.id = id
    · by_cases hfull : 48 ≤ o.journal.length
      · simpa only [if_neg (not_not.2 hid), if_pos hfull] using
          refuses_of_own h hexec (hown.trans (stage_journalFull hopen hid hfull))
      · simp only [if_neg (not_not.2 hid), if_neg hfull]
        cases hedit : edit o with
        | none => exact refuses_of_own h hexec (hown.trans (stage_badEdit hopen hid hfull hedit))
        | some entry =>
          obtain ⟨e, table⟩ := entry
          exact exec_withCs h hexec (hown.trans (stage_taken (s := s.taken k) hopen hid hfull hedit))
    · simpa only [if_pos hid] using refuses_of_own h hexec (hown.trans (stage_otherId hopen hid))

end Sys2Proof.Machine
end

section
/-! SUPPORT. The statement on STAGE_LEVEL (chapter 4) settled. -/

namespace Sys2Proof.Settled

open Sys2Proof.Machine

/-- Settles O19: the row's own rule is `stage` with an edit that takes every level and keeps the projected table (R63), so R59 is all it does. -/
theorem levelStaged : Obligations.LevelStaged := by
  intro k s q rest hserving
  have hexec : exec (.stageLevel k) s = s.serve k .stageLevel State.stageLevel := rfl
  exact stagesBy_of_stage hserving hexec rfl

end Sys2Proof.Settled
end

section
/-! SUPPORT. Requests whose own rule changes the Row Drive alone, and the check and effect of SET_REPAIR_POLICY (R89). -/

namespace Sys2Proof.Machine

/-! ## Requests that change the Row Drive alone -/

/-- An answer after a change of the Row Drive leaves every block but that one and the Request Unit as it was. -/
theorem answer_withRd_sameExcept (s : State) (k : Take) (x : RowDrive) (q : Queued) (r : Result) (p : List Byte) :
    s.SameExcept (((s.taken k).withRd x).answer q r p) [.ru, .rd] := by
  refine sameExcept_of (fun b hb => ?_) (by simp) (by simp) (by simp) (by simp)
  cases b with
  | ru | rd => simp at hb
  | li | fs | pu | ft | cs | fz | tu | mc => simp [State.sameBlock]

/-- A request whose own rule puts `x` in the Row Drive and answers `p`. -/
theorem exec_withRd {s : State} {c : Instr} {k : Take} {q : Queued} {rest : List Queued} {kind : Kind}
    {own : State → List Byte → Answered} {x : RowDrive} {p : List Byte} (h : s.Serving k q rest kind)
    (hexec : exec c s = s.serve k kind own) (hown : own (s.taken k) k.req.payload = .ok ((s.taken k).withRd x, p)) :
    ∃ t, exec c s = .next t ∧ s.Completes t k q rest .ok p ∧ t.rd = x ∧ s.SameExcept t [.ru, .rd] :=
  ⟨_, hexec.trans (serve_ok h hown), completes_answer h.taking rfl rfl rfl, answer_rd .., answer_withRd_sameExcept s k x q .ok p⟩

/-! ## The policy's code and SET_REPAIR_POLICY's own rule (R89) -/

/-- A code of 2 or more names no policy. -/
theorem policyOfCode_none {b : Byte} (h : 2 ≤ b.toNat) : Policy.ofCode b = none := by
  have hmanual : b ≠ 0 := by rintro rfl; simp at h
  have hauto : b ≠ 1 := by rintro rfl; simp at h
  rw [Policy.ofCode, if_neg hmanual, if_neg hauto]

/-- A code below 2 names MANUAL if it is 0, else AUTO. -/
theorem policyOfCode_some {b : Byte} (h : b.toNat < 2) : Policy.ofCode b = some (if b = 0 then .manual else .auto) := by
  by_cases hmanual : b = 0
  · rw [Policy.ofCode, if_pos hmanual, if_pos hmanual]
  · have hauto : b = 1 := by bv_omega
    rw [Policy.ofCode, if_neg hmanual, if_neg hmanual, if_pos hauto]

/-- A policy byte that is no policy's code: BAD_ARG. -/
theorem setRepairPolicy_badArg {s : State} {p : List Byte} (h : Policy.ofCode (byteAt p 0) = none) :
    s.setRepairPolicy p = .error .badArg := by
  rw [State.setRepairPolicy, h]

/-- A policy byte that names `x` puts `x` in force and answers no payload. -/
theorem setRepairPolicy_taken {s : State} {p : List Byte} {x : Policy} (h : Policy.ofCode (byteAt p 0) = some x) :
    s.setRepairPolicy p = .ok (s.withRd { s.rd with policy := x }, []) := by
  rw [State.setRepairPolicy, h]

end Sys2Proof.Machine
end

section
/-! SUPPORT. The statement on SET_REPAIR_POLICY (chapter 5) settled. -/

namespace Sys2Proof.Settled

open Sys2Proof.Machine

/-- Settles O33: the row's own rule reads the policy byte and nothing of the tile's mode, scan or burn, so the two ranges of the byte are all the
cases there are. -/
theorem policySet : Obligations.PolicySet := by
  intro k s q rest hserving v
  have hexec : exec (.setRepairPolicy k) s = s.serve k .setRepairPolicy State.setRepairPolicy := rfl
  by_cases hrange : 2 ≤ v.toNat
  · rw [if_pos hrange]
    exact refuses_of_own hserving hexec (setRepairPolicy_badArg (policyOfCode_none hrange))
  · rw [if_neg hrange]
    exact exec_withRd hserving hexec (setRepairPolicy_taken (s := s.taken k) (policyOfCode_some (Nat.lt_of_not_le hrange)))

end Sys2Proof.Settled
end

section
/-! SUPPORT. Fuse records weight by weight: which fuses a write of a primary on a blank record blows (R101), how many have blown, and the class of a
record row by row of the table of R102. -/

namespace Sys2Proof.Machine

/-! ## One fuse of each weight (R101, R102) -/

/-- Exactly one fuse of each weight is blown. -/
def FuseRecord.OneOfEach (r : FuseRecord) : Prop := ∀ i, i < 4 → (r.index.getLsbD i != r.complement.getLsbD i) = true

/-- No weight has both of its fuses blown. -/
def FuseRecord.NoneTwice (r : FuseRecord) : Prop := ∀ i, i < 4 → (r.index.getLsbD i && r.complement.getLsbD i) = false

/-- The comparison that `classify` makes is the rule of one fuse of each weight. -/
theorem xor_eq_fifteen_iff {r : FuseRecord} : r.index ^^^ r.complement = 15 ↔ r.OneOfEach := by
  have hones : (15 : BitVec 4) = BitVec.allOnes 4 := rfl
  rw [hones, BitVec.eq_of_getLsbD_eq_iff]
  refine forall₂_congr fun i hi => ?_
  rw [BitVec.getLsbD_xor, BitVec.getLsbD_allOnes, decide_eq_true hi, Bool.bne_eq_xor]

/-- A record is blank when none of its three groups of fuses has a blown one. -/
theorem eq_blank_iff {r : FuseRecord} : r = FuseRecord.blank ↔ r.index = 0 ∧ r.complement = 0 ∧ r.damage = 0 := by
  cases r
  rw [FuseRecord.blank, FuseRecord.mk.injEq]

/-- A record with one fuse of each weight blown is not blank. -/
theorem FuseRecord.OneOfEach.ne_blank {r : FuseRecord} (h : r.OneOfEach) : r ≠ FuseRecord.blank := by
  rintro rfl
  exact absurd (h 0 (by decide)) (by decide)

/-! ## The class of a record (R102) -/

section Classes

variable {r : FuseRecord}

/-- The first row of the table: no fuse of the record is blown. -/
theorem classify_of_blank (h : r = FuseRecord.blank) : r.classify = .blank := if_pos h

/-- The second row: a damage fuse is blown. -/
theorem classify_of_damage (hblank : r ≠ FuseRecord.blank) (hdamage : r.damage ≠ 0) : r.classify = .damaged := by
  rw [FuseRecord.classify, if_neg hblank, if_pos hdamage]

/-- The third row: one fuse of each weight, and the blown index fuses spell the primary. -/
theorem classify_of_oneOfEach (hdamage : r.damage = 0) (heach : r.OneOfEach) :
    r.classify = .programmed ⟨r.index.toNat, r.index.isLt⟩ := by
  rw [FuseRecord.classify, if_neg heach.ne_blank, if_neg (not_not.2 hdamage), if_pos (xor_eq_fifteen_iff.2 heach)]

/-- The last row: some weight has none or both of its fuses blown. -/
theorem classify_of_not_oneOfEach (hblank : r ≠ FuseRecord.blank) (hdamage : r.damage = 0) (heach : ¬ r.OneOfEach) :
    r.classify = .inconsistent := by
  rw [FuseRecord.classify, if_neg hblank, if_neg (not_not.2 hdamage), if_neg (mt xor_eq_fifteen_iff.1 heach)]

end Classes

/-! ## How many fuses have blown -/

/-- Where no element satisfies both of two tests, those that pass one or the other are as many as those on which the tests differ. -/
theorem length_filter_add_eq_countP_bne {α : Type} {f g : α → Bool} {l : List α} (h : ∀ x ∈ l, (f x && g x) = false) :
    (l.filter f).length + (l.filter g).length = l.countP (fun x => f x != g x) := by
  induction l with
  | nil => rfl
  | cons x xs ih =>
    have hx := h x List.mem_cons_self
    have hxs := ih fun y hy => h y (List.mem_cons_of_mem x hy)
    rw [List.countP_cons, ← hxs]
    cases hf : f x with
    | false => cases hg : g x <;> simp [hf, hg, Nat.add_assoc]
    | true =>
      have hg : g x = false := by simpa [hf] using hx
      simp [hf, hg, Nat.add_right_comm]

/-- No index fuse and no complement fuse counts as blown exactly when both groups are blank. -/
theorem blownCount_eq_zero_iff {r : FuseRecord} : r.blownCount = 0 ↔ r.index = 0 ∧ r.complement = 0 := by
  simp [FuseRecord.blownCount, BitVec.eq_of_getLsbD_eq_iff]

/-- Where no weight has both fuses blown, four blown fuses are one of each weight. -/
theorem blownCount_eq_four_iff {r : FuseRecord} (h : r.NoneTwice) : r.blownCount = 4 ↔ r.OneOfEach := by
  have hcount : r.blownCount = (List.range 4).countP (fun i => r.index.getLsbD i != r.complement.getLsbD i) :=
    length_filter_add_eq_countP_bne fun i hi => h i (List.mem_range.1 hi)
  rw [hcount]
  calc _ ↔ (List.range 4).countP (fun i => r.index.getLsbD i != r.complement.getLsbD i) = (List.range 4).length := Iff.rfl
    _ ↔ ∀ i ∈ List.range 4, (r.index.getLsbD i != r.complement.getLsbD i) = true := List.countP_eq_length
    _ ↔ r.OneOfEach := forall_congr' fun i => by rw [List.mem_range]

/-! ## A write on a blank record (R101) -/

section Write

variable {p : Fin 16} {b : Blows} {i : Nat}

/-- The index fuse of a weight is blown when the weight is part of p and the blow took. -/
theorem blowWrite_blank_index (hi : i < 4) :
    (FuseRecord.blank.blowWrite p b).index.getLsbD i = (p.val.testBit i && b.index.getLsbD i) := by
  simp [FuseRecord.blowWrite, FuseRecord.blank, hi]

/-- The complement fuse of a weight is blown when the weight is not part of p and the blow took. -/
theorem blowWrite_blank_complement (hi : i < 4) :
    (FuseRecord.blank.blowWrite p b).complement.getLsbD i = (!p.val.testBit i && b.complement.getLsbD i) := by
  simp [FuseRecord.blowWrite, FuseRecord.blank, hi]

/-- A write blows no damage fuse. -/
theorem blowWrite_blank_damage : (FuseRecord.blank.blowWrite p b).damage = 0 := rfl

/-- A write goes for one fuse of each weight, so it never blows both. -/
theorem blowWrite_blank_noneTwice : (FuseRecord.blank.blowWrite p b).NoneTwice := by
  intro i hi
  rw [blowWrite_blank_index hi, blowWrite_blank_complement hi]
  cases p.val.testBit i <;> simp

/-- A write that blew one fuse of each weight blew the index fuses of p: where a weight is part of p the complement fuse is blank, so the index fuse
is the blown one. -/
theorem blowWrite_blank_index_of_oneOfEach (h : (FuseRecord.blank.blowWrite p b).OneOfEach) :
    (FuseRecord.blank.blowWrite p b).index = BitVec.ofNat 4 p.val := by
  refine BitVec.eq_of_getLsbD_eq fun i hi => ?_
  have hone := h i hi
  rw [blowWrite_blank_index hi, blowWrite_blank_complement hi] at hone
  rw [blowWrite_blank_index hi, BitVec.getLsbD_ofNat, decide_eq_true hi]
  cases hweight : p.val.testBit i with
  | false => rfl
  | true => simpa [hweight] using hone

/-- A write leaves the record blank exactly when none of its fuses has blown. -/
theorem blowWrite_blank_eq_blank_iff :
    FuseRecord.blank.blowWrite p b = FuseRecord.blank ↔ (FuseRecord.blank.blowWrite p b).blownCount = 0 := by
  rw [eq_blank_iff, blownCount_eq_zero_iff, and_iff_left blowWrite_blank_damage]

/-- A write that blew one fuse of each weight reads PROGRAMMED(p), and no other primary. -/
theorem classify_blowWrite_blank_of_oneOfEach (heach : (FuseRecord.blank.blowWrite p b).OneOfEach) :
    (FuseRecord.blank.blowWrite p b).classify = .programmed p := by
  have hindex : (FuseRecord.blank.blowWrite p b).index.toNat = p.val := by
    rw [blowWrite_blank_index_of_oneOfEach heach, BitVec.toNat_ofNat, Nat.mod_eq_of_lt p.isLt]
  exact (classify_of_oneOfEach blowWrite_blank_damage heach).trans (congrArg FuseClass.programmed (Fin.ext hindex))

/-- Where all four blows take, the index fuse of a weight is blown exactly when the weight is part of p. -/
theorem blowWrite_blank_index_allTake (hi : i < 4) (htook : b.index = BitVec.allOnes 4) :
    (FuseRecord.blank.blowWrite p b).index.getLsbD i = p.val.testBit i := by
  rw [blowWrite_blank_index hi, htook, BitVec.getLsbD_allOnes, decide_eq_true hi, Bool.and_true]

/-- Where all four blows take, the complement fuse of a weight is blown exactly when the weight is not part of p. -/
theorem blowWrite_blank_complement_allTake (hi : i < 4) (htook : b.complement = BitVec.allOnes 4) :
    (FuseRecord.blank.blowWrite p b).complement.getLsbD i = !p.val.testBit i := by
  rw [blowWrite_blank_complement hi, htook, BitVec.getLsbD_allOnes, decide_eq_true hi, Bool.and_true]

/-- Where all four blows take, one fuse of each weight is blown. -/
theorem blowWrite_blank_oneOfEach (hindex : b.index = BitVec.allOnes 4) (hcomplement : b.complement = BitVec.allOnes 4) :
    (FuseRecord.blank.blowWrite p b).OneOfEach := by
  intro i hi
  rw [blowWrite_blank_index_allTake hi hindex, blowWrite_blank_complement_allTake hi hcomplement]
  cases p.val.testBit i <;> rfl

end Write

end Sys2Proof.Machine
end

section
/-! SUPPORT. The statement on the fuses that a write blows and the class of a record (chapter 6) settled. -/

namespace Sys2Proof.Settled

open Sys2Proof.Machine

/-- Settles O36: a write goes for one fuse of each weight, so that four blown fuses are one of each weight and spell p; and the table of R102 is read
row by row. -/
theorem fusesBlownAndClassified : Obligations.FusesBlownAndClassified := by
  refine ⟨fun p i hi => ?_, fun r => ?_, fun p b => ⟨fun hzero => ?_, fun hfour => ?_, fun hzero hfour => ?_⟩⟩
  · intro all r
    have hindex : r.index.getLsbD i = p.val.testBit i := blowWrite_blank_index_allTake hi rfl
    have hcomplement : r.complement.getLsbD i = !p.val.testBit i := blowWrite_blank_complement_allTake hi rfl
    have heach : r.OneOfEach := blowWrite_blank_oneOfEach rfl rfl
    exact ⟨by rw [hindex], by rw [hcomplement, Bool.not_eq_true'], heach i hi,
      (blownCount_eq_four_iff blowWrite_blank_noneTwice).2 heach, blowWrite_blank_damage⟩
  · intro blank oneEach
    exact ⟨fun hblank => classify_of_blank (eq_blank_iff.2 hblank),
      fun hblank => classify_of_damage (mt eq_blank_iff.1 hblank),
      fun _ => classify_of_oneOfEach,
      fun hblank => classify_of_not_oneOfEach (mt eq_blank_iff.1 hblank)⟩
  · exact classify_of_blank (blowWrite_blank_eq_blank_iff.2 hzero)
  · exact classify_blowWrite_blank_of_oneOfEach ((blownCount_eq_four_iff blowWrite_blank_noneTwice).1 hfour)
  · exact classify_of_not_oneOfEach (mt blowWrite_blank_eq_blank_iff.1 hzero) blowWrite_blank_damage
      (mt (blownCount_eq_four_iff blowWrite_blank_noneTwice).2 hfour)

end Sys2Proof.Settled
end

section
/-! SUPPORT. The requests in one form: the own rule of each kind, and the blocks that a request touches; then everything that a command can
do, said once for all the commands (`Does`), and what holds of every step because each of these effects keeps it (`exec_keeps`). -/

namespace Sys2Proof.Machine

/-! ## The own rule of each kind -/

/-- The own rule of the requests of a kind, the argument that its row gives to `serve`; none for FILL_RECT, which is not answered when it is
taken (R11). -/
def ownRule : Kind → Option (State → List Byte → Answered)
  | .enumerate => some State.queuedEnumerate
  | .identify => some State.identify
  | .status => some State.statusRequest
  | .joinGroup => some State.joinGroup
  | .leaveGroup => some State.leaveGroup
  | .restart => some State.restartRequest
  | .readNotices => some State.readNotices
  | .ackNotices => some State.ackNotices
  | .setMode => some State.setMode
  | .setCanvas => some State.setCanvas
  | .writePixels => some State.writePixels
  | .fillRect => none
  | .readPixels => some State.readPixels
  | .copyFront => some State.copyFront
  | .beginSet => some State.beginSet
  | .stageBands => some State.stageBands
  | .stagePan => some State.stagePan
  | .stagePalette => some State.stagePalette
  | .stageLevel => some State.stageLevel
  | .commit => some State.commitSet
  | .abandon => some State.abandonSet
  | .readBands => some State.readBands
  | .readPalette => some State.readPalette
  | .setSync => some State.setSync
  | .setFrameNumber => some State.setFrameNumber
  | .readMap => some State.readMap
  | .repair => some State.repair
  | .release => some State.release
  | .markFaulty => some State.markFaulty
  | .clearFault => some State.clearFault
  | .setRepairPolicy => some State.setRepairPolicy
  | .burn => some State.burnRequest
  | .readFuses => some State.readFuses
  | .scan => some State.startScan
  | .scanAbort => some State.scanAbort
  | .readScan => some State.readScan
  | .setPatrol => some State.setPatrol

/-- A request row serves its frame by the own rule of its kind. -/
theorem exec_serves {c : Instr} {kind : Kind} {k : Take} {own : State → List Byte → Answered} (hrow : requestOf c = some (kind, k))
    (hown : ownRule kind = some own) (s : State) : exec c s = s.serve k kind own := by
  cases c <;> cases hrow <;> cases hown <;> rfl

/-- FILL_RECT's is the one row whose kind has no own rule of this form. -/
theorem eq_fillRect_of_ownRule {c : Instr} {kind : Kind} {k : Take} (hrow : requestOf c = some (kind, k))
    (hown : ownRule kind = none) : c = .fillRect k := by
  cases c <;> cases hrow <;> first | rfl | cases hown

/-! ## Everything that a command can do -/

/-- The tile after the expiries due before the moment of a request, with the request taken. -/
def State.takes (s : State) (k : Take) : State := (s.reach k.moment).taken k

/-- Everything that a command can do to a tile: what its row leads to, one constructor per effect. A change of the Link Interface alone that keeps
the unit number and the groups, and the bound of the pass-through queue, is one effect whatever the row. -/
inductive Does (s : State) : Instr → State → Prop
  | idles (c : Instr) : Does s c s
  | refuses {c : Instr} {k : Take} {q : Queued} {rest : List Queued} (r : Result)
      (hrow : c = .unknownKind k ∨ ∃ kind, requestOf c = some (kind, k)) (hq : s.AtHead k q rest) :
      Does s c ((s.takes k).answer q r [])
  | answers {c : Instr} {kind : Kind} {k : Take} {q : Queued} {rest : List Queued} {own : State → List Byte → Answered} {u : State}
      {p : List Byte} (hrow : requestOf c = some (kind, k)) (hown : ownRule kind = some own) (hq : s.AtHead k q rest)
      (hu : own (s.takes k) k.req.payload = .ok (u, p)) : Does s c (u.answer q .ok p)
  | fills {k : Take} {q : Queued} {rest : List Queued} {job : FillJob} (hq : s.AtHead k q rest)
      (hjob : (s.takes k).fillAnswer k.req.payload = .ok job) :
      Does s (.fillRect k) ((s.takes k).withRu { (s.takes k).ru with executing := some { entry := q, job := job } })
  | fillEnds {e : Executing} (he : s.ru.executing = some e) :
      Does s .fillComplete (((s.withFs (s.fs.filled e.job)).withRu { s.ru with executing := none }).answer e.entry .ok [])
  | copyEnds {p : Page} (hp : s.fs.copy = .copying p) : Does s .copyComplete ((s.withFs (s.fs.copyDone p)).notify (.copyDone p))
  | writeEnds {x : Subject} {u : State} (b : Blows) (hx : s.fz.burn = .write x) (hu : u = s.passTo (s.fz.entered + burnStepTime)) :
      Does s (.burnWriteExpiry b) (u.withFz { u.fz.blow b with burn := .check x, entered := u.now })
  | checkPasses {x : Subject} {u : State} (t : Nat) (hx : s.fz.burn = .check x) (hu : u = s.passTo t)
      (hread : (u.fz.record x).classify = .programmed x.primary) :
      Does s (.burnCheckRead t) (u.endBurn x (.programmed x.primary) ((u.rd.segment x.seg).makeHard x.primary x.spare))
  | checkFails {x : Subject} {u : State} (t : Nat) (hx : s.fz.burn = .check x) (hu : u = s.passTo t)
      (hread : (u.fz.record x).classify ≠ .programmed x.primary) :
      Does s (.burnCheckRead t) (u.withFz { u.fz with burn := .mark x, entered := u.now })
  | markEnds {x : Subject} {u : State} (b : Blows) (hx : s.fz.burn = .mark x) (hu : u = s.passTo (s.fz.entered + burnStepTime)) :
      Does s (.burnMarkExpiry b) (u.withFz { u.fz.blow b with burn := .recheck x, entered := u.now })
  | burnFails {x : Subject} {u : State} (t : Nat) (hx : s.fz.burn = .recheck x) (hu : u = s.passTo t) :
      Does s (.burnRecheckRead t) (u.endBurn x (if (u.fz.record x).damage ≠ 0 then .damaged else .inconsistent)
        ((u.rd.segment x.seg).spoil x.primary x.spare))
  | scanGoesOn {g h : GlobalChannel} {u v : State} (r : TestResult) (hg : s.tu.scan = .running g)
      (hu : u = s.passTo (s.tu.testStart + testTime))
      (hv : v = (u.withRd (u.rd.applyTest g r).1).withTu (u.tu.recordTest g r (u.rd.applyTest g r).2))
      (hnext : v.rd.scanNext g = some h) : Does s (.scanTestEnd r) (v.withTu { v.tu with scan := .running h, testStart := v.now })
  | scanEnds {g : GlobalChannel} {u v : State} (r : TestResult) (hg : s.tu.scan = .running g)
      (hu : u = s.passTo (s.tu.testStart + testTime))
      (hv : v = (u.withRd (u.rd.applyTest g r).1).withTu (u.tu.recordTest g r (u.rd.applyTest g r).2))
      (hnext : v.rd.scanNext g = none) :
      Does s (.scanTestEnd r)
        (v.withTu { v.tu with scan := .idle, outcome := scanOutcome v.rd.darkRows v.tu.findings }).scanDone
  | patrolEnds {g : GlobalChannel} {u v : State} (r : TestResult) (hg : s.tu.patrolTest = some g)
      (hu : u = s.passTo (s.tu.testStart + testTime))
      (hv : v = u.withRd (u.rd.applyTest g r).1 ∨
        v = (u.withRd (u.rd.applyTest g r).1).notify (.channelFault g (conditionOf r) (u.rd.applyTest g r).2.action)) :
      Does s (.patrolTestEnd r) (v.withTu (v.tu.patrolAdvance v.rd g))
  | edges (t : Nat) (hready : s.ready = true) : Does s (.syncEdge t) (s.passTo t).edge
  | expires (hready : s.ready = true) : Does s s.ft.syncState.expiryRow s.frameTimerExpires
  | scansOut (hphase : s.pu.phase = .blanking) :
      Does s .blankingIntervalEnd ((s.tick (s.ft.frameStart + blankingTime)).withPu { s.pu with phase := .scanning })
  | links (c : Instr) {x : LinkInterface} (hunit : x.unit = s.li.unit) (hgroups : x.groups = s.li.groups)
      (hpass : s.li.passThrough.length ≤ 6 → x.passThrough.length ≤ 6) : Does s c (s.withLi x)
  | receives (c : Instr) {x : LinkInterface} (r : Request) (hunit : x.unit = s.li.unit) (hgroups : x.groups = s.li.groups)
      (hpass : x.passThrough = s.li.passThrough) : Does s c ((s.withLi x).arrive r)
  | joins (ys : List Symbol) {x : LinkInterface} (n : Byte) (f : LinkFrame) (hpass : x.passThrough = s.li.passThrough) :
      Does s (.enumerate ys) (((s.withLi x).takeUnit n).sendDown f)
  | drops (ys : List Symbol) {x : LinkInterface} (hunit : x.unit = s.li.unit) (hgroups : x.groups = s.li.groups)
      (hpass : x.passThrough = s.li.passThrough) : Does s (.upstreamFrameEnd ys) ((s.withLi x).notify (.linkOverrun x.passDrop))
  | sends {body : List Byte} {x : RequestUnit} (hx : s.ru.ownCandidate = some (body, x)) :
      Does s .upOutFrameBegin (s.beginOwn body x)
  | goesCold {t : State} (c : ResetCause) (b : Blows)
      (ht : t = { s.toCold b with powerGood := false } ∨ t = { s.toCold b with resetLine := true }) : Does s (.coldReset c b) t
  | linesChange {power line : Bool} (c : StartCause)
      (hmore : (s.powerGood = true → power = true) ∧ (line = true → s.resetLine = true)) :
      Does s (.startupBegin c) (s.afterLines power line)
  | startsUp (t : Nat) (hrunning : s.running = true) (hstarting : s.mc.startUp = .starting) : Does s (.startupEnd t) (s.finishStartup t)

/-- What `serve` can do, in the terms of `Does`. -/
theorem does_of_serve {s t : State} {c : Instr} {kind : Kind} {k : Take} {own : State → List Byte → Answered}
    (hrow : requestOf c = some (kind, k)) (hown : ownRule kind = some own) (h : s.serve k kind own = .next t) : Does s c t := by
  rcases serve_cases h with rfl | ⟨q, rest, hq, ⟨r, rfl⟩ | ⟨u, p, hu, rfl⟩⟩
  · exact .idles c
  · exact .refuses r (Or.inr ⟨kind, hrow⟩) hq
  · exact .answers hrow hown hq hu

/-- What FILL_RECT can do, in the terms of `Does`. -/
theorem does_of_fillRect {s t : State} {k : Take} (h : exec (.fillRect k) s = .next t) : Does s (.fillRect k) t := by
  rcases fillRect_cases h with rfl | ⟨q, rest, hq, ⟨r, rfl⟩ | ⟨job, hjob, rfl⟩⟩
  · exact .idles _
  · exact .refuses r (Or.inr ⟨_, rfl⟩) hq
  · exact .fills hq hjob

/-- What UNKNOWN_KIND can do, in the terms of `Does`. -/
theorem does_of_unknownKind {s t : State} {k : Take} (h : exec (.unknownKind k) s = .next t) : Does s (.unknownKind k) t := by
  simp only [exec, execUnknownKind] at h
  cases hk : s.taking k with
  | none => rw [hk] at h; cases h; exact .idles _
  | some q =>
    obtain ⟨rest, hq⟩ := taking_eq_some.1 hk
    rw [hk] at h
    simp only at h
    split at h
    · cases h; exact .refuses _ (Or.inl rfl) hq
    · cases h; exact .idles _

/-- The rows of the frame timers: nothing, or the expiry of the timer in use. -/
theorem does_of_expiryRow {s t : State} {c : Instr} {x : SyncState} (hc : c = x.expiryRow)
    (h : (if s.ready ∧ s.ft.syncState = x then .next s.frameTimerExpires else .next s : Outcome) = .next t) : Does s c t := by
  split at h
  · rename_i hx
    cases h
    rw [hc, ← hx.2]
    exact .expires hx.1
  · cases h; exact .idles c

/-- The end of the tests on a frame that UP-in has ended touches the counters alone. -/
theorem tests_keeps {x y : LinkInterface} {f : LinkFrame} (h : x.tests f = some y) :
    y.unit = x.unit ∧ y.groups = x.groups ∧ y.passThrough = x.passThrough := by
  unfold LinkInterface.tests at h
  split at h
  · cases h; exact ⟨rfl, rfl, rfl⟩
  · split at h
    · cases h
    · cases h; exact ⟨rfl, rfl, rfl⟩

/-! ## The rows of the link in those terms -/

theorem does_of_downstreamRepeat {s t : State} {stage : RepeatStage} {ys : List Symbol}
    (h : exec (.downstreamRepeat stage ys) s = .next t) : Does s (.downstreamRepeat stage ys) t := by
  simp only [exec, execDownstreamRepeat] at h
  split at h
  · split at h
    · cases h; exact .links _ rfl rfl id
    · cases h; exact .links _ rfl rfl id
    · split at h
      · cases h; exact .idles _
      · cases h; exact .links _ rfl rfl id
    · cases h; exact .idles _
  · cases h; exact .idles _

theorem does_of_downstreamFrameEnd {s t : State} {ys : List Symbol} (h : exec (.downstreamFrameEnd ys) s = .next t) :
    Does s (.downstreamFrameEnd ys) t := by
  simp only [exec, execDownstreamFrameEnd] at h
  split at h
  · split at h
    · split at h
      · cases h; exact .idles _
      · split at h
        · cases h; exact .links _ rfl rfl id
        · split at h
          · rename_i hx
            obtain ⟨hunit, hgroups, hpass⟩ := tests_keeps hx
            cases h
            exact .links _ hunit hgroups (by rw [hpass]; exact id)
          · cases h; exact .receives _ _ rfl rfl rfl
    · cases h; exact .idles _
    · cases h; exact .idles _
    · cases h; exact .idles _
  · cases h; exact .idles _

theorem does_of_enumerateBase {s : State} {x : LinkInterface} (ys : List Symbol) (f : LinkFrame) (hunit : x.unit = s.li.unit)
    (hgroups : x.groups = s.li.groups) (hpass : x.passThrough = s.li.passThrough) :
    Does s (.enumerate ys) ((s.withLi x).enumerateBase f) := by
  unfold State.enumerateBase
  dsimp only
  split
  · exact .joins ys _ _ hpass
  · split
    · exact .joins ys _ _ hpass
    · exact .links (s := s) (x := { x with downOut := x.downOut ++ [f] }) _ hunit hgroups (by rw [hpass]; exact id)

theorem does_of_enumerate {s t : State} {ys : List Symbol} (h : exec (.enumerate ys) s = .next t) : Does s (.enumerate ys) t := by
  simp only [exec, execEnumerate] at h
  split at h
  · split at h
    · split at h
      · split at h
        · rename_i hx
          obtain ⟨hunit, hgroups, hpass⟩ := tests_keeps hx
          cases h
          exact .links (s := s) _ hunit hgroups (by rw [hpass]; exact id)
        · split at h
          · cases h; exact does_of_enumerateBase ys _ rfl rfl rfl
          · cases h
            exact .receives (s := s) _ _ rfl rfl rfl
      · cases h; exact .idles _
    · cases h; exact .idles _
    · cases h; exact .idles _
    · cases h; exact .idles _
  · cases h; exact .idles _

theorem does_of_upstreamFrameEnd {s t : State} {ys : List Symbol} (h : exec (.upstreamFrameEnd ys) s = .next t) :
    Does s (.upstreamFrameEnd ys) t := by
  simp only [exec, execUpstreamFrameEnd] at h
  split at h
  · split at h
    · cases h; exact .idles _
    · split at h
      · split at h
        · rename_i hroom
          cases h
          exact .links (s := s) _ rfl rfl fun _ => by simpa using hroom
        · cases h
          unfold State.passDropped
          dsimp only
          split
          · exact .links (s := s) _ rfl rfl id
          · exact .drops (s := s) ys rfl rfl rfl
      · cases h; exact .links _ rfl rfl id
  · cases h; exact .idles _

theorem does_of_upOutFrameBegin {s t : State} (h : exec .upOutFrameBegin s = .next t) : Does s .upOutFrameBegin t := by
  simp only [exec, execUpOutFrameBegin] at h
  split at h
  · split at h
    · cases h; exact .idles _
    · cases h; exact .links _ rfl rfl id
    · rename_i hx; cases h; exact .sends hx
    · rename_i hx
      split at h
      · cases h; exact .links _ rfl rfl id
      · cases h; exact .sends hx
  · cases h; exact .idles _

theorem does_of_upOutFrameEnd {s t : State} (h : exec .upOutFrameEnd s = .next t) : Does s .upOutFrameEnd t := by
  simp only [exec, execUpOutFrameEnd] at h
  split at h
  · split at h
    · cases h; exact .idles _
    · split at h
      · cases h; exact .links _ rfl rfl fun hl => le_trans (by simp) hl
      · cases h; exact .links _ rfl rfl id
  · cases h; exact .idles _

/-! ## The rows of the burn engine, the tests and start-up in those terms -/

theorem does_of_burnStep {s t : State} {c : Instr}
    (hc : (∃ b, c = .burnWriteExpiry b) ∨ (∃ m, c = .burnCheckRead m) ∨ (∃ b, c = .burnMarkExpiry b) ∨ ∃ m, c = .burnRecheckRead m)
    (h : exec c s = .next t) : Does s c t := by
  rcases hc with ⟨b, rfl⟩ | ⟨m, rfl⟩ | ⟨b, rfl⟩ | ⟨m, rfl⟩
  · simp only [exec, execBurnWriteExpiry] at h
    split at h <;> cases h
    case h_1 hx => exact .writeEnds b hx rfl
    all_goals exact .idles _
  · simp only [exec, execBurnCheckRead] at h
    split at h
    case h_1 hx =>
      split at h
      · rename_i hread; cases h; exact .checkPasses m hx rfl hread
      · rename_i hread; cases h; exact .checkFails m hx rfl hread
    all_goals cases h; exact .idles _
  · simp only [exec, execBurnMarkExpiry] at h
    split at h <;> cases h
    case h_1 hx => exact .markEnds b hx rfl
    all_goals exact .idles _
  · simp only [exec, execBurnRecheckRead] at h
    split at h <;> cases h
    case h_1 hx => exact .burnFails m hx rfl
    all_goals exact .idles _

theorem does_of_scanTestEnd {s t : State} {r : TestResult} (h : exec (.scanTestEnd r) s = .next t) : Does s (.scanTestEnd r) t := by
  simp only [exec, execScanTestEnd] at h
  split at h
  · cases h; exact .idles _
  · rename_i g hg
    split at h
    · rename_i hnext; cases h; exact .scanGoesOn r hg rfl rfl hnext
    · rename_i hnext; cases h; exact .scanEnds r hg rfl rfl hnext

theorem does_of_patrolTestEnd {s t : State} {r : TestResult} (h : exec (.patrolTestEnd r) s = .next t) :
    Does s (.patrolTestEnd r) t := by
  simp only [exec, execPatrolTestEnd] at h
  split at h
  · cases h; exact .idles _
  · rename_i g hg
    split at h <;> cases h
    · exact .patrolEnds r hg rfl (Or.inr rfl)
    · exact .patrolEnds r hg rfl (Or.inl rfl)

theorem does_of_startup {s t : State} {c : Instr}
    (hc : (∃ x b, c = .coldReset x b) ∨ (∃ x, c = .startupBegin x) ∨ ∃ m, c = .startupEnd m) (h : exec c s = .next t) : Does s c t := by
  rcases hc with ⟨x, b, rfl⟩ | ⟨x, rfl⟩ | ⟨m, rfl⟩
  · cases x <;> cases h
    · exact .goesCold _ b (Or.inl rfl)
    · exact .goesCold _ b (Or.inr rfl)
  · cases x <;> cases h
    · exact .linesChange _ ⟨fun _ => rfl, id⟩
    · exact .linesChange _ ⟨id, fun hline => by cases hline⟩
  · simp only [exec, execStartupEnd] at h
    split at h
    · rename_i hs; cases h; exact .startsUp m hs.1 hs.2
    · cases h; exact .idles _

/-! ## Every command -/

/-- A row that takes no request does one of the effects. -/
theorem does_of_event {c : Instr} {s t : State} (hrow : requestOf c = none) (h : exec c s = .next t) : Does s c t := by
  cases c
  case enumerate => exact does_of_enumerate h
  case fillComplete =>
    simp only [exec, execFillComplete] at h
    split at h <;> cases h
    · exact .idles _
    · rename_i he; exact .fillEnds he
  case copyComplete =>
    simp only [exec, execCopyComplete] at h
    split at h <;> cases h
    · exact .idles _
    · rename_i hp; exact .copyEnds hp
  case burnWriteExpiry b => exact does_of_burnStep (Or.inl ⟨b, rfl⟩) h
  case burnCheckRead m => exact does_of_burnStep (Or.inr (Or.inl ⟨m, rfl⟩)) h
  case burnMarkExpiry b => exact does_of_burnStep (Or.inr (Or.inr (Or.inl ⟨b, rfl⟩))) h
  case burnRecheckRead m => exact does_of_burnStep (Or.inr (Or.inr (Or.inr ⟨m, rfl⟩))) h
  case scanTestEnd => exact does_of_scanTestEnd h
  case patrolTestEnd => exact does_of_patrolTestEnd h
  case unknownKind => exact does_of_unknownKind h
  case syncEdge m =>
    simp only [exec, execSyncEdge] at h
    split at h <;> cases h
    · rename_i hready; exact .edges m hready
    · exact .idles _
  case seekingTimerExpiry =>
    refine does_of_expiryRow (x := .seeking) rfl (Eq.trans ?_ h)
    simp only [exec, execSeekingTimerExpiry]
    split <;> simp_all [State.frameTimerExpires]
  case supervisionTimerExpiry =>
    refine does_of_expiryRow (x := .locked) rfl (Eq.trans ?_ h)
    simp only [exec, execSupervisionTimerExpiry]
    split <;> simp_all [State.frameTimerExpires]
  case holdoverTimerExpiry =>
    refine does_of_expiryRow (x := .holdover) rfl (Eq.trans ?_ h)
    simp only [exec, execHoldoverTimerExpiry]
    split <;> simp_all [State.frameTimerExpires]
  case freeRunTimerExpiry =>
    refine does_of_expiryRow (x := .free) rfl (Eq.trans ?_ h)
    simp only [exec, execFreeRunTimerExpiry]
    split <;> simp_all [State.frameTimerExpires]
  case blankingIntervalEnd =>
    simp only [exec, execBlankingIntervalEnd] at h
    split at h <;> cases h
    · rename_i hphase; exact .scansOut hphase
    · exact .idles _
    · exact .idles _
  case downstreamFrameEnd => exact does_of_downstreamFrameEnd h
  case downstreamRepeat => exact does_of_downstreamRepeat h
  case upstreamFrameEnd => exact does_of_upstreamFrameEnd h
  case upOutFrameBegin => exact does_of_upOutFrameBegin h
  case upOutFrameEnd => exact does_of_upOutFrameEnd h
  case coldReset x b => exact does_of_startup (Or.inl ⟨x, b, rfl⟩) h
  case startupBegin x => exact does_of_startup (Or.inr (Or.inl ⟨x, rfl⟩)) h
  case startupEnd m => exact does_of_startup (Or.inr (Or.inr ⟨m, rfl⟩)) h
  all_goals cases hrow

/-- Everything that any command can do. -/
theorem exec_does {c : Instr} {s t : State} (h : exec c s = .next t) : Does s c t := by
  cases hrow : requestOf c with
  | none => exact does_of_event hrow h
  | some x =>
    obtain ⟨kind, k⟩ := x
    cases hown : ownRule kind with
    | some own => exact does_of_serve hrow hown (by rw [← exec_serves hrow hown s, h])
    | none =>
      obtain rfl := eq_fillRect_of_ownRule hrow hown
      exact does_of_fillRect h

end Sys2Proof.Machine
end

section
/-! SUPPORT. The blocks that each request touches: what its own rule leaves unchanged, said once for all the kinds. -/

namespace Sys2Proof.Machine

/-- Every block but the named ones is unchanged, and so are the two lines, the waiting commands and the moment. -/
def State.SameBlocks (s t : State) (bs : List Block) : Prop :=
  (∀ b, b ∉ bs → s.sameBlock t b) ∧ t.powerGood = s.powerGood ∧ t.resetLine = s.resetLine ∧ t.pending = s.pending ∧ t.now = s.now

/-- The blocks that the own rule of a kind may touch. -/
def ownBlocks : Kind → List Block
  | .enumerate | .identify | .readPixels | .readBands | .readPalette | .readMap | .readFuses | .readScan | .fillRect => []
  | .status => [.li, .ru, .ft]
  | .joinGroup | .leaveGroup => [.li]
  | .restart => [.ru, .fs, .pu, .ft, .cs, .tu, .mc]
  | .readNotices | .ackNotices => [.ru]
  | .setMode => [.ru, .pu, .tu, .mc]
  | .setCanvas => [.fs, .pu]
  | .writePixels | .copyFront => [.fs]
  | .beginSet | .stageBands | .stagePan | .stagePalette | .stageLevel | .commit | .abandon => [.cs]
  | .setSync => [.ru, .fs, .pu, .ft, .cs, .rd, .tu]
  | .setFrameNumber => [.ft]
  | .repair | .release | .markFaulty | .clearFault | .setRepairPolicy => [.rd]
  | .burn => [.fz]
  | .scan | .setPatrol => [.tu]
  | .scanAbort => [.ru, .tu]

theorem State.SameBlocks.mono {s t : State} {as bs : List Block} (h : s.SameBlocks t as) (hsub : ∀ b ∈ as, b ∈ bs) : s.SameBlocks t bs :=
  ⟨fun b hb => h.1 b fun ha => hb (hsub b ha), h.2⟩

section Untouched
variable {s t : State} {bs : List Block}

/-- Where each block that is not named, and each of the other four parts, is the same by the way the state is made. -/
theorem sameBlocks_of_untouched (blocks : ∀ b, b ∉ bs → s.sameBlock t b := by intro b hb; cases b <;> simp at hb <;> rfl)
    (power : t.powerGood = s.powerGood := by rfl) (line : t.resetLine = s.resetLine := by rfl)
    (pending : t.pending = s.pending := by rfl) (now : t.now = s.now := by rfl) : s.SameBlocks t bs :=
  ⟨blocks, power, line, pending, now⟩

theorem sameExcept_of_untouched (blocks : ∀ b, b ∉ bs → s.sameBlock t b := by intro b hb; cases b <;> simp at hb <;> rfl)
    (power : t.powerGood = s.powerGood := by rfl) (line : t.resetLine = s.resetLine := by rfl)
    (free : t.freeCount = s.freeCount := by rfl) (pending : t.pending = s.pending := by rfl) : s.SameExcept t bs :=
  ⟨blocks, power, line, free, pending⟩

end Untouched

theorem sameBlocks_refl (s : State) (bs : List Block) : s.SameBlocks s bs :=
  ⟨fun b _ => by cases b <;> rfl, rfl, rfl, rfl, rfl⟩

section Updates
variable (s : State)

theorem withLi_sameBlocks (x : LinkInterface) : s.SameBlocks (s.withLi x) [.li] :=
  sameBlocks_of_untouched
theorem withRu_sameBlocks (x : RequestUnit) : s.SameBlocks (s.withRu x) [.ru] :=
  sameBlocks_of_untouched
theorem withFs_sameBlocks (x : FrameStore) : s.SameBlocks (s.withFs x) [.fs] :=
  sameBlocks_of_untouched
theorem withFt_sameBlocks (x : FrameTiming) : s.SameBlocks (s.withFt x) [.ft] :=
  sameBlocks_of_untouched
theorem withCs_sameBlocks (x : ChangeSets) : s.SameBlocks (s.withCs x) [.cs] :=
  sameBlocks_of_untouched
theorem withRd_sameBlocks (x : RowDrive) : s.SameBlocks (s.withRd x) [.rd] :=
  sameBlocks_of_untouched
theorem withFz_sameBlocks (x : FuseStore) : s.SameBlocks (s.withFz x) [.fz] :=
  sameBlocks_of_untouched
theorem withTu_sameBlocks (x : TestUnit) : s.SameBlocks (s.withTu x) [.tu] :=
  sameBlocks_of_untouched

end Updates

/-! ## What a request taken with OK did, chapter by chapter -/

section Own
variable {s t : State} {p reply : List Byte}

/-- A staging request puts a journal entry and a projected table in the open set, and touches nothing else (R59). -/
theorem stage_ok {id : Half} {edit : ChangeSet → Option (Edit × List Band)} (h : s.stage id edit = .ok (t, reply)) :
    ∃ o e table, s.cs.openSlot = some o ∧ o.journal.length < 48 ∧ edit o = some (e, table) ∧
      t = s.withCs { s.cs with openSlot := some { o with journal := o.journal ++ [e], projected := table } } := by
  unfold State.stage at h
  cases hopen : s.cs.openSlot with
  | none => rw [hopen] at h; cases h
  | some o =>
    rw [hopen] at h
    dsimp only at h
    split at h
    · cases h
    · split at h
      · cases h
      · rename_i hroom
        cases hedit : edit o with
        | none => rw [hedit] at h; cases h
        | some y =>
          rw [hedit] at h
          cases h
          exact ⟨o, y.1, y.2, rfl, by omega, hedit, rfl⟩

theorem stage_sameBlocks {id : Half} {edit : ChangeSet → Option (Edit × List Band)} (h : s.stage id edit = .ok (t, reply)) :
    s.SameBlocks t [.cs] := by
  obtain ⟨o, e, table, -, -, -, rfl⟩ := stage_ok h
  exact withCs_sameBlocks s _

/-- JOIN_GROUP keeps the group set or adds a group that was not in it to fewer than four (R161). -/
theorem joinGroup_ok (h : s.joinGroup p = .ok (t, reply)) :
    t = s ∨ ∃ g, g ∉ s.li.groups ∧ s.li.groups.length < 4 ∧ t = s.withLi { s.li with groups := s.li.groups ++ [g] } := by
  unfold State.joinGroup at h
  split at h
  · cases h
  · rename_i g _
    split at h
    · cases h; exact Or.inl rfl
    · split at h
      · cases h
      · cases h; exact Or.inr ⟨g, by assumption, by omega, rfl⟩

/-- LEAVE_GROUP takes a group out of the set (R162). -/
theorem leaveGroup_ok (h : s.leaveGroup p = .ok (t, reply)) :
    ∃ g : Fin 16, t = s.withLi { s.li with groups := s.li.groups.filter (fun x => decide (x ≠ g)) } := by
  unfold State.leaveGroup at h
  split at h
  · cases h
  · cases h; exact ⟨_, rfl⟩

theorem status_ok (h : s.statusRequest p = .ok (t, reply)) : t = s ∨ t = s.clearCounters := by
  unfold State.statusRequest at h
  split at h
  · cases h; exact Or.inl rfl
  · split at h <;> cases h
    exact Or.inr rfl

theorem ackNotices_ok (h : s.ackNotices p = .ok (t, reply)) :
    ∃ l, ackedLog (byteAt p 0) s.ru.log = some l ∧ t = s.withRu { s.ru with log := l } := by
  unfold State.ackNotices at h
  split at h
  · cases h
  · rename_i l hl; cases h; exact ⟨l, hl, rfl⟩

theorem setMode_ok (h : s.setMode p = .ok (t, reply)) :
    s.fz.burn.busy = false ∧ (t = s ∨ ∃ m, m ≠ s.mc.mode ∧ t = s.changeMode m) := by
  unfold State.setMode at h
  split at h
  · cases h
  · rename_i hb
    refine ⟨by simpa using hb, ?_⟩
    split at h
    · cases h
    · rename_i m _
      cases h
      split
      · exact Or.inl rfl
      · exact Or.inr ⟨m, by assumption, rfl⟩

theorem restart_ok (h : s.restartRequest p = .ok (t, reply)) : s.fz.burn.busy = false ∧ t = s.warmRestart := by
  unfold State.restartRequest at h
  split at h
  · cases h
  · rename_i hb; cases h; exact ⟨by simpa using hb, rfl⟩

/-- SET_CANVAS that is not refused found both slots empty and takes a legal width (R7, R8). -/
theorem setCanvas_ok (h : s.setCanvas p = .ok (t, reply)) :
    ∃ w, legalWidth w = true ∧ s.cs.openSlot = none ∧ s.cs.sealedSlot = none ∧
      t = (s.withFs { s.fs with width := w }).withPu { s.pu with live := { s.pu.live with bands := defaultBands } } := by
  unfold State.setCanvas at h
  dsimp only at h
  split at h
  · cases h
  · split at h
    · cases h
    · rename_i hslots
      split at h
      · cases h
      · split at h <;> cases h
        rename_i hw
        simp only [not_or, Option.not_isSome_iff_eq_none] at hslots
        exact ⟨_, hw, hslots.1, hslots.2, rfl⟩

theorem writePixels_ok (h : s.writePixels p = .ok (t, reply)) :
    ∃ x y indices, runInside s.fs.width x y indices.length = true ∧ s.flipPending = false ∧ s.copyBusy = false ∧
      t = s.withFs (s.fs.putPage s.fs.back ((s.fs.page s.fs.back).writeRun (y * s.fs.width + x) indices)) := by
  unfold State.writePixels at h
  dsimp only at h
  split at h
  · rename_i hrun
    split at h
    · cases h
    · rename_i hflip
      split at h <;> cases h
      rename_i hcopy
      exact ⟨_, _, _, hrun, by simpa using hflip, by simpa using hcopy, rfl⟩
  · cases h

theorem copyFront_ok (h : s.copyFront p = .ok (t, reply)) :
    s.copyBusy = false ∧ s.flipPending = false ∧ t = s.withFs { s.fs with copy := .copying s.fs.front } := by
  unfold State.copyFront at h
  split at h
  · cases h
  · rename_i hcopy
    split at h <;> cases h
    rename_i hflip
    exact ⟨by simpa using hcopy, by simpa using hflip, rfl⟩

/-- BEGIN opens an empty set whose id is not 0 and not the sealed set's (R57). -/
theorem beginSet_ok (h : s.beginSet p = .ok (t, reply)) :
    ∃ id, id ≠ 0 ∧ s.cs.sealedId ≠ some id ∧
      t = s.withCs { s.cs with openSlot := some { id := id, journal := [], projected := s.projectionBase } } := by
  unfold State.beginSet at h
  dsimp only at h
  split at h
  · cases h
  · rename_i hid
    split at h
    · cases h
    · split at h <;> cases h
      rename_i hdup
      exact ⟨_, hid, hdup, rfl⟩

/-- COMMIT seals the open set in the empty slot; with the flip flag set no copy is in flight (R64, R65). -/
theorem commit_ok (h : s.commitSet p = .ok (t, reply)) :
    ∃ o target flip notify, s.cs.openSlot = some o ∧ s.cs.sealedSlot = none ∧ (flip = true → s.copyBusy = false) ∧
      t = s.withCs { openSlot := none, sealedSlot := some { set := o, target := target, flip := flip, notify := notify } } := by
  unfold State.commitSet at h
  dsimp only at h
  cases hopen : s.cs.openSlot with
  | none => rw [hopen] at h; cases h
  | some o =>
    rw [hopen] at h
    dsimp only at h
    split at h
    · cases h
    · split at h
      · cases h
      · rename_i hsealed
        split at h
        · cases h
        · rename_i hcopy
          split at h <;> cases h
          refine ⟨o, _, _, _, rfl, by simpa using hsealed, fun hflip => ?_, rfl⟩
          simpa [hflip] using hcopy

theorem abandon_ok (h : s.abandonSet p = .ok (t, reply)) :
    t = s.withCs { s.cs with openSlot := none } ∨ t = s.withCs { s.cs with sealedSlot := none } := by
  unfold State.abandonSet at h
  dsimp only at h
  split at h
  · cases h; exact Or.inl rfl
  · split at h <;> cases h
    exact Or.inr rfl

theorem repair_ok (h : s.repair p = .ok (t, reply)) :
    t = s ∨ ∃ g c k, ((s.rd.segment g).primary c).route = .direct ∧ (s.rd.segment g).available k = true ∧
      t = s.withRd (s.rd.putSegment g ((s.rd.segment g).makeSoft c k)) := by
  unfold State.repair at h
  split at h
  · cases h
  · split at h
    · cases h
    · cases h; exact Or.inl rfl
    · rename_i hroute
      split at h <;> cases h
      rename_i hfree
      exact Or.inr ⟨_, _, _, hroute, (firstAvailable_some hfree).1, rfl⟩

theorem release_ok (h : s.release p = .ok (t, reply)) :
    ∃ g c k, ((s.rd.segment g).primary c).route = .soft k ∧ s.fz.burn.burnsPrimary g c = false ∧
      t = s.withRd (s.rd.putSegment g ((s.rd.segment g).dropSoft c k)) := by
  unfold State.release at h
  split at h
  · cases h
  · split at h
    · cases h
    · cases h
    · rename_i hroute
      split at h <;> cases h
      rename_i hburn
      exact ⟨_, _, _, hroute, by simpa using hburn, rfl⟩

theorem markFaulty_ok (h : s.markFaulty p = .ok (t, reply)) :
    ∃ g, s.fz.burn.burnsChannel g = false ∧
      t = s.withRd (s.rd.putSegment (segmentOf g) ((s.rd.segment (segmentOf g)).mark s.rd.policy (channelOf g)).1) := by
  unfold State.markFaulty at h
  split at h
  · cases h
  · split at h <;> cases h
    rename_i hburn
    exact ⟨_, by simpa using hburn, rfl⟩

theorem clearFault_ok (h : s.clearFault p = .ok (t, reply)) :
    ∃ g, t = s.withRd (s.rd.putSegment (segmentOf g) ((s.rd.segment (segmentOf g)).setCondition (channelOf g) .sound)) := by
  unfold State.clearFault at h
  split at h <;> cases h
  exact ⟨_, rfl⟩

theorem setRepairPolicy_ok (h : s.setRepairPolicy p = .ok (t, reply)) : ∃ x, t = s.withRd { s.rd with policy := x } := by
  unfold State.setRepairPolicy at h
  split at h <;> cases h
  exact ⟨_, rfl⟩

/-- BURN starts WRITE for a SOFT-routed primary, in MAINTENANCE with no scan and no burn (R108, R109). -/
theorem burnRequest_ok (h : s.burnRequest p = .ok (t, reply)) :
    ∃ x : Subject, s.mc.mode = .maintenance ∧ s.fz.burn = .idle ∧ s.tu.scan = .idle ∧
      ((s.rd.segment x.seg).primary x.primary).route = .soft x.spare ∧
      t = s.withFz { s.fz.putHeld x .writing with burn := .write x, entered := s.now } := by
  unfold State.burnRequest at h
  split at h
  · cases h
  · rename_i hmode
    split at h
    · cases h
    · rename_i hbusy
      split at h
      · cases h
      · split at h <;> cases h
        rename_i hroute
        simp only [not_or, Bool.not_eq_true] at hbusy
        refine ⟨⟨_, _, _⟩, by simpa using hmode, burnBusy_eq_false_iff.1 hbusy.1, ?_, hroute, rfl⟩
        cases hscan : s.tu.scan with
        | idle => rfl
        | running g => rw [hscan] at hbusy; cases hbusy.2

theorem startScan_ok (h : s.startScan p = .ok (t, reply)) :
    s.mc.mode = .maintenance ∧ s.fz.burn = .idle ∧
      t = s.withTu { s.tu with scan := .running 0, tested := 0, findings := [], overflow := false, outcome := .none,
                               testStart := s.now } := by
  unfold State.startScan at h
  split at h
  · cases h
  · rename_i hmode
    split at h <;> cases h
    rename_i hbusy
    simp only [not_or, Bool.not_eq_true] at hbusy
    exact ⟨by simpa using hmode, burnBusy_eq_false_iff.1 hbusy.2, rfl⟩

theorem scanAbort_ok (h : s.scanAbort p = .ok (t, reply)) : t = s.abortScan := by
  unfold State.scanAbort at h
  split at h <;> cases h
  rfl

theorem setPatrol_ok (h : s.setPatrol p = .ok (t, reply)) :
    t = s.withTu { s.tu with patrolOn := true } ∨ t = s.withTu { s.tu with patrolOn := false, patrolTest := none } := by
  unfold State.setPatrol at h
  dsimp only at h
  split at h
  · cases h; exact Or.inl rfl
  · split at h <;> cases h
    exact Or.inr rfl

theorem setFrameNumber_ok (h : s.setFrameNumber p = .ok (t, reply)) : ∃ v, t = s.withFt { s.ft with pendingNumber := some v } := by
  cases h; exact ⟨_, rfl⟩

theorem readPixels_ok (h : s.readPixels p = .ok (t, reply)) : t = s := by
  unfold State.readPixels at h
  dsimp only at h
  repeat' split at h
  all_goals cases h
  all_goals rfl

theorem readPalette_ok (h : s.readPalette p = .ok (t, reply)) : t = s := by
  unfold State.readPalette at h
  dsimp only at h
  repeat' split at h
  all_goals cases h
  rfl

theorem readMap_ok (h : s.readMap p = .ok (t, reply)) : t = s := by
  unfold State.readMap at h
  split at h <;> cases h
  rfl

theorem readScan_ok (h : s.readScan p = .ok (t, reply)) : t = s := by
  unfold State.readScan at h
  dsimp only at h
  repeat' split at h
  all_goals cases h
  rfl

/-- SET_SYNC takes a source and a period in range; and then an overdue timer may expire (R47, R48). -/
theorem setSync_ok (h : s.setSync p = .ok (t, reply)) :
    ∃ x m, 4000 ≤ m ∧ m ≤ 50000 ∧
      ((s.ft.syncState.source = x ∧ s.ft.period = m ∧ t = s.applySync x m) ∨ t = (s.applySync x m).expireOverdue) := by
  obtain ⟨x, hx, hmin, hmax⟩ := setSync_ok_checks h
  rw [setSync_taken hx hmin hmax] at h
  refine ⟨x, field p 1 2, hmin, hmax, ?_⟩
  split at h
  · rename_i hsame; cases h; exact Or.inl ⟨hsame.1, hsame.2, rfl⟩
  · cases h; exact Or.inr rfl

end Own

/-! ## Frame starts and expiries -/

/-- The blocks that a frame start may touch. -/
def frameBlocks : List Block := [.ru, .fs, .pu, .ft, .cs, .rd, .tu]

theorem sameExcept_trans {s t u : State} {bs : List Block} (h : s.SameExcept t bs) (g : t.SameExcept u bs) : s.SameExcept u bs := by
  refine ⟨fun b hb => ?_, g.2.1.trans h.2.1, g.2.2.1.trans h.2.2.1, g.2.2.2.1.trans h.2.2.2.1, g.2.2.2.2.trans h.2.2.2.2⟩
  have h1 := h.1 b hb
  have h2 := g.1 b hb
  cases b <;> exact Eq.trans h2 h1

theorem sameExcept_mono {s t : State} {as bs : List Block} (h : s.SameExcept t as) (hsub : ∀ b ∈ as, b ∈ bs) : s.SameExcept t bs :=
  ⟨fun b hb => h.1 b fun ha => hb (hsub b ha), h.2⟩

theorem sameExcept_refl (s : State) (bs : List Block) : s.SameExcept s bs :=
  ⟨fun b _ => by cases b <;> rfl, rfl, rfl, rfl, rfl⟩

theorem applyDue_same (s : State) : s.SameExcept s.applyDue frameBlocks := by
  unfold State.applyDue
  split
  · exact sameExcept_refl s _
  · split
    · exact sameExcept_mono (applySet_same s _).1 (by decide)
    · exact sameExcept_refl s _

theorem latchFrame_same (s : State) : s.SameExcept s.latchFrame frameBlocks :=
  sameExcept_mono (latchFrame_latches s).2.2.2.2.1 (by decide)

theorem countedEvent_same (s : State) : s.SameExcept s.countedEvent frameBlocks :=
  sameExcept_trans (applyDue_same s) (latchFrame_same _)

theorem notify_same (s : State) (d : Details) : s.SameExcept (s.notify d) frameBlocks :=
  ⟨fun b hb => by cases b <;> simp [frameBlocks] at hb <;> rfl, rfl, rfl, rfl, rfl⟩

theorem withFt_same (s : State) (x : FrameTiming) : s.SameExcept (s.withFt x) frameBlocks :=
  ⟨fun b hb => by cases b <;> simp [frameBlocks] at hb <;> rfl, rfl, rfl, rfl, rfl⟩

theorem tick_same (s : State) (t : Nat) : s.SameExcept (s.tick t) frameBlocks :=
  ⟨fun b _ => by cases b <;> rfl, rfl, rfl, rfl, rfl⟩

/-- An expiry touches what a frame start may touch, and no more. -/
theorem frameTimerExpires_same (s : State) : s.SameExcept s.frameTimerExpires frameBlocks := by
  unfold State.frameTimerExpires
  split
  · exact sameExcept_trans (tick_same s _) (sameExcept_trans (withFt_same _ _) (latchFrame_same _))
  · exact sameExcept_trans (tick_same s _) (sameExcept_trans (withFt_same _ _) (sameExcept_trans (latchFrame_same _) (notify_same _ _)))
  · exact sameExcept_trans (tick_same s _) (sameExcept_trans (withFt_same _ _) (latchFrame_same _))
  · exact sameExcept_trans (tick_same s _)
      (sameExcept_trans (withFt_same _ _) (sameExcept_trans (withFt_same _ _) (countedEvent_same _)))

/-- The passing of time touches what a frame start may touch, and no more. -/
theorem reach_same (s : State) (t : Nat) : s.SameExcept (s.reach t) frameBlocks :=
  reach_keeps (P := fun u => s.SameExcept u frameBlocks) (fun u _ hu => sameExcept_trans hu (frameTimerExpires_same u)) t
    (sameExcept_refl s _)

theorem passTo_same (s : State) (t : Nat) : s.SameExcept (s.passTo t) frameBlocks := sameExcept_trans (reach_same s t) (tick_same _ t)

/-- An accepted edge touches what a frame start may touch, and no more. -/
theorem edge_same (s : State) : s.SameExcept s.edge frameBlocks := by
  unfold State.edge
  split
  · exact sameExcept_trans (withFt_same s _) (sameExcept_trans (withFt_same _ _) (countedEvent_same _))
  · split
    · exact withFt_same s _
    · exact sameExcept_trans (withFt_same s _) (sameExcept_trans (withFt_same _ _) (countedEvent_same _))
  · exact sameExcept_trans (withFt_same s _) (sameExcept_trans (notify_same _ _) (countedEvent_same _))
  · exact sameExcept_refl s _

/-- An overdue timer expires now. -/
theorem expireOverdue_same (s : State) : s.SameExcept s.expireOverdue frameBlocks ∧ s.expireOverdue.now = s.now := by
  unfold State.expireOverdue
  split
  · rename_i hlate
    obtain ⟨-, -, -, -, hnow, -⟩ := frameTimerExpires_ft s
    exact ⟨frameTimerExpires_same s, by rw [hnow]; omega⟩
  · exact ⟨sameExcept_refl s _, rfl⟩

theorem setSync_same {s t : State} {p reply : List Byte} (h : s.setSync p = .ok (t, reply)) : s.SameBlocks t frameBlocks := by
  obtain ⟨x, m, -, -, ht⟩ := setSync_ok h
  obtain ⟨⟨hb, h1, h2, h3, h4⟩, hnow, -, -⟩ := applySync_keeps s x m
  have hsync : s.SameExcept (s.applySync x m) frameBlocks := by
    refine ⟨fun b hne => ?_, h1.symm, h2.symm, h3.symm, h4.symm⟩
    have := hb b (fun hm => hne (by simp at hm; subst hm; decide))
    cases b <;> exact Eq.symm this
  obtain ⟨-, -, rfl⟩ | rfl := ht
  · exact ⟨hsync.1, hsync.2.1, hsync.2.2.1, hsync.2.2.2.2, hnow⟩
  · obtain ⟨hover, hnow'⟩ := expireOverdue_same (s.applySync x m)
    obtain ⟨g1, g2, g3, -, g5⟩ := sameExcept_trans hsync hover
    exact ⟨g1, g2, g3, g5, hnow'.trans hnow⟩

/-! ## Every own rule -/

theorem changeMode_same (s : State) (m : Mode) : s.SameBlocks (s.changeMode m) [.ru, .pu, .tu, .mc] := by
  have hif : ∀ (c : Prop) [Decidable c] (x y : State), s.SameBlocks x [.ru, .pu, .tu, .mc] → s.SameBlocks y [.ru, .pu, .tu, .mc] →
      s.SameBlocks (if c then x else y) [.ru, .pu, .tu, .mc] := by
    intro c _ x y hx hy
    split
    · exact hx
    · exact hy
  exact hif _ _ _ sameBlocks_of_untouched
    sameBlocks_of_untouched

/-- The own rule of a request touches the blocks of its kind and no other. -/
theorem own_sameBlocks {kind : Kind} {own : State → List Byte → Answered} {s t : State} {p reply : List Byte}
    (hown : ownRule kind = some own) (h : own s p = .ok (t, reply)) : s.SameBlocks t (ownBlocks kind) := by
  cases kind <;> cases hown
  case enumerate => cases h
  case identify => cases h; exact sameBlocks_refl _ _
  case status =>
    obtain rfl | rfl := status_ok h
    · exact sameBlocks_refl _ _
    · exact ⟨fun b hb => by cases b <;> simp [ownBlocks] at hb <;> rfl, rfl, rfl, rfl, rfl⟩
  case joinGroup =>
    obtain rfl | ⟨g, -, -, rfl⟩ := joinGroup_ok h
    · exact sameBlocks_refl _ _
    · exact withLi_sameBlocks s _
  case leaveGroup => obtain ⟨g, rfl⟩ := leaveGroup_ok h; exact withLi_sameBlocks s _
  case restart =>
    obtain ⟨-, rfl⟩ := restart_ok h
    exact ⟨fun b hb => by cases b <;> simp [ownBlocks] at hb <;> rfl, rfl, rfl, rfl, rfl⟩
  case readNotices => cases h; exact withRu_sameBlocks s _
  case ackNotices => obtain ⟨l, -, rfl⟩ := ackNotices_ok h; exact withRu_sameBlocks s _
  case setMode =>
    obtain ⟨-, rfl | ⟨m, -, rfl⟩⟩ := setMode_ok h
    · exact sameBlocks_refl _ _
    · exact changeMode_same s m
  case setCanvas =>
    obtain ⟨w, -, -, -, rfl⟩ := setCanvas_ok h
    exact ⟨fun b hb => by cases b <;> simp [ownBlocks] at hb <;> rfl, rfl, rfl, rfl, rfl⟩
  case writePixels => obtain ⟨x, y, l, -, -, -, rfl⟩ := writePixels_ok h; exact withFs_sameBlocks s _
  case readPixels => obtain rfl := readPixels_ok h; exact sameBlocks_refl _ _
  case copyFront => obtain ⟨-, -, rfl⟩ := copyFront_ok h; exact withFs_sameBlocks s _
  case beginSet => obtain ⟨id, -, -, rfl⟩ := beginSet_ok h; exact withCs_sameBlocks s _
  case stageBands => exact stage_sameBlocks h
  case stagePan => exact stage_sameBlocks h
  case stagePalette => exact stage_sameBlocks h
  case stageLevel => exact stage_sameBlocks h
  case commit => obtain ⟨o, n, f, y, -, -, -, rfl⟩ := commit_ok h; exact withCs_sameBlocks s _
  case abandon => obtain rfl | rfl := abandon_ok h <;> exact withCs_sameBlocks s _
  case readBands => cases h; exact sameBlocks_refl _ _
  case readPalette => obtain rfl := readPalette_ok h; exact sameBlocks_refl _ _
  case setSync => exact setSync_same h
  case setFrameNumber => obtain ⟨v, rfl⟩ := setFrameNumber_ok h; exact withFt_sameBlocks s _
  case readMap => obtain rfl := readMap_ok h; exact sameBlocks_refl _ _
  case repair =>
    obtain rfl | ⟨g, c, k, -, -, rfl⟩ := repair_ok h
    · exact sameBlocks_refl _ _
    · exact withRd_sameBlocks s _
  case release => obtain ⟨g, c, k, -, -, rfl⟩ := release_ok h; exact withRd_sameBlocks s _
  case markFaulty => obtain ⟨g, -, rfl⟩ := markFaulty_ok h; exact withRd_sameBlocks s _
  case clearFault => obtain ⟨g, rfl⟩ := clearFault_ok h; exact withRd_sameBlocks s _
  case setRepairPolicy => obtain ⟨x, rfl⟩ := setRepairPolicy_ok h; exact withRd_sameBlocks s _
  case burn => obtain ⟨x, -, -, -, -, rfl⟩ := burnRequest_ok h; exact withFz_sameBlocks s _
  case readFuses => cases h; exact sameBlocks_refl _ _
  case scan => obtain ⟨-, -, rfl⟩ := startScan_ok h; exact withTu_sameBlocks s _
  case scanAbort =>
    obtain rfl := scanAbort_ok h
    exact ⟨fun b hb => by cases b <;> simp [ownBlocks] at hb <;> rfl, rfl, rfl, rfl, rfl⟩
  case readScan => obtain rfl := readScan_ok h; exact sameBlocks_refl _ _
  case setPatrol => obtain rfl | rfl := setPatrol_ok h <;> exact withTu_sameBlocks s _

end Sys2Proof.Machine
end

section
/-! SUPPORT. The queue of commands and the executor: every command answers and leaves the waiting commands alone; a request row stalls where the
executor cannot take its frame (R171); the common checks (R172). -/

namespace Sys2Proof.Machine

/-! ## The waiting commands -/

theorem takes_same (s : State) (k : Take) : s.SameExcept (s.takes k) frameBlocks :=
  sameExcept_trans (reach_same s k.moment)
    ⟨fun b hb => by cases b <;> simp [frameBlocks] at hb <;> rfl, rfl, rfl, rfl, rfl⟩

/-- The waiting commands are as they were when the request was taken, and as they were when the moment came. -/
theorem takes_pending (s : State) (k : Take) : (s.takes k).pending = s.pending := (takes_same s k).2.2.2.2

theorem passTo_pending (s : State) (t : Nat) : (s.passTo t).pending = s.pending := (passTo_same s t).2.2.2.2

/-- No command touches the waiting commands. -/
theorem Does.pending {s t : State} {c : Instr} (h : Does s c t) : t.pending = s.pending := by
  cases h with
  | idles => rfl
  | refuses r hrow hq => rw [answer_pending, takes_pending]
  | answers hrow hown hq hu => rw [answer_pending, (own_sameBlocks hown hu).2.2.2.1, takes_pending]
  | fills hq hjob => exact takes_pending s _
  | fillEnds he => rw [answer_pending]; rfl
  | copyEnds hp => rfl
  | writeEnds b hx hu => exact (congrArg State.pending hu).trans (passTo_pending s _)
  | checkPasses m hx hu hread => exact (congrArg State.pending hu).trans (passTo_pending s _)
  | checkFails m hx hu hread => exact (congrArg State.pending hu).trans (passTo_pending s _)
  | markEnds b hx hu => exact (congrArg State.pending hu).trans (passTo_pending s _)
  | burnFails m hx hu => exact (congrArg State.pending hu).trans (passTo_pending s _)
  | scanGoesOn r hg hu hv hnext => subst hv; exact (congrArg State.pending hu).trans (passTo_pending s _)
  | scanEnds r hg hu hv hnext => subst hv; exact (congrArg State.pending hu).trans (passTo_pending s _)
  | patrolEnds r hg hu hv => rcases hv with rfl | rfl <;> exact (congrArg State.pending hu).trans (passTo_pending s _)
  | edges m hready => exact (edge_same _).2.2.2.2.trans (passTo_pending s m)
  | expires hready => exact (frameTimerExpires_same s).2.2.2.2
  | scansOut hphase => rfl
  | links c => rfl
  | receives c r => rfl
  | joins ys n f => rfl
  | drops ys => rfl
  | sends hx => rfl
  | goesCold c b ht => rcases ht with rfl | rfl <;> rfl
  | linesChange c hmore => unfold State.afterLines; dsimp only; split <;> rfl
  | startsUp m hrunning hstarting => rfl

/-! ## Every command answers -/

theorem execFillRect_next (k : Take) (s : State) : ∃ t, execFillRect k s = .next t := by
  unfold execFillRect
  dsimp only
  repeat' split
  all_goals exact ⟨_, rfl⟩

/-- A row that takes no request answers a next state, whatever branch of its meaning it takes. -/
theorem event_next {c : Instr} (hrow : requestOf c = none) (s : State) : ∃ t, exec c s = .next t := by
  cases c
  case enumerate => simp only [exec, execEnumerate]; repeat' split
                    all_goals exact ⟨_, rfl⟩
  case fillComplete => simp only [exec, execFillComplete]; split <;> exact ⟨_, rfl⟩
  case copyComplete => simp only [exec, execCopyComplete]; split <;> exact ⟨_, rfl⟩
  case burnWriteExpiry => simp only [exec, execBurnWriteExpiry]; split <;> exact ⟨_, rfl⟩
  case burnCheckRead => simp only [exec, execBurnCheckRead]; repeat' split
                        all_goals exact ⟨_, rfl⟩
  case burnMarkExpiry => simp only [exec, execBurnMarkExpiry]; split <;> exact ⟨_, rfl⟩
  case burnRecheckRead => simp only [exec, execBurnRecheckRead]; split <;> exact ⟨_, rfl⟩
  case scanTestEnd => simp only [exec, execScanTestEnd]; repeat' split
                      all_goals exact ⟨_, rfl⟩
  case patrolTestEnd => simp only [exec, execPatrolTestEnd]; split <;> exact ⟨_, rfl⟩
  case unknownKind => simp only [exec, execUnknownKind]; repeat' split
                      all_goals exact ⟨_, rfl⟩
  case syncEdge => simp only [exec, execSyncEdge]; split <;> exact ⟨_, rfl⟩
  case seekingTimerExpiry => simp only [exec, execSeekingTimerExpiry]; split <;> exact ⟨_, rfl⟩
  case supervisionTimerExpiry => simp only [exec, execSupervisionTimerExpiry]; split <;> exact ⟨_, rfl⟩
  case holdoverTimerExpiry => simp only [exec, execHoldoverTimerExpiry]; split <;> exact ⟨_, rfl⟩
  case freeRunTimerExpiry => simp only [exec, execFreeRunTimerExpiry]; split <;> exact ⟨_, rfl⟩
  case blankingIntervalEnd => simp only [exec, execBlankingIntervalEnd]; split <;> exact ⟨_, rfl⟩
  case downstreamFrameEnd => simp only [exec, execDownstreamFrameEnd]; repeat' split
                             all_goals exact ⟨_, rfl⟩
  case downstreamRepeat => simp only [exec, execDownstreamRepeat]; repeat' split
                           all_goals exact ⟨_, rfl⟩
  case upstreamFrameEnd => simp only [exec, execUpstreamFrameEnd]; repeat' split
                           all_goals exact ⟨_, rfl⟩
  case upOutFrameBegin => simp only [exec, execUpOutFrameBegin]; repeat' split
                          all_goals exact ⟨_, rfl⟩
  case upOutFrameEnd => simp only [exec, execUpOutFrameEnd]; repeat' split
                        all_goals exact ⟨_, rfl⟩
  case coldReset x b => cases x <;> exact ⟨_, rfl⟩
  case startupBegin x => cases x <;> exact ⟨_, rfl⟩
  case startupEnd => simp only [exec, execStartupEnd]; split <;> exact ⟨_, rfl⟩
  all_goals cases hrow

/-- Every command answers a next state, in every state. -/
theorem exec_next (c : Instr) (s : State) : ∃ t, exec c s = .next t := by
  cases hrow : requestOf c with
  | none => exact event_next hrow s
  | some x =>
    cases hown : ownRule x.1 with
    | some own => rw [exec_serves hrow hown]; exact serve_next s x.2 x.1 own
    | none => rw [eq_fillRect_of_ownRule hrow hown]; exact execFillRect_next x.2 s

/-! ## Stalls -/

/-- Where the executor takes nothing, a request row does nothing (log 2). -/
theorem exec_of_taking_none {c : Instr} {kind : Kind} {k : Take} {s : State} (hc : requestOf c = some (kind, k) ∨ c = .unknownKind k)
    (hnone : s.taking k = none) : exec c s = .next s := by
  rcases hc with hrow | rfl
  · cases hown : ownRule kind with
    | some own => rw [exec_serves hrow hown, State.serve, hnone]
    | none => rw [eq_fillRect_of_ownRule hrow hown, exec, execFillRect, hnone]
  · rw [exec, execUnknownKind, hnone]

/-! ## The common checks (R172) -/

/-- A request that fails a common check is refused with its result, and its own rule has no say. -/
theorem exec_of_commonRefusal {c : Instr} {kind : Kind} {k : Take} {s : State} {q : Queued} {rest : List Queued} {r : Result}
    (hrow : requestOf c = some (kind, k)) (h : s.Taking k q rest) (hkind : k.req.kind = kind.code)
    (hr : commonRefusal kind k.req = some r) : exec c s = .next ((s.taken k).answer q r []) := by
  cases hown : ownRule kind with
  | some own =>
    rw [exec_serves hrow hown, State.serve, h.eq_some]
    simp only [if_pos hkind, hr, h.reach_eq]
  | none =>
    obtain rfl := eq_fillRect_of_ownRule hrow hown
    cases hrow
    rw [exec, execFillRect, h.eq_some]
    simp only [if_pos hkind, hr, h.reach_eq]

theorem commonRefusal_length {kind : Kind} {r : Request} (h : kind.lengthSuits r.payload = false) :
    commonRefusal kind r = some .badLength := by
  simp [commonRefusal, h]

theorem commonRefusal_class {kind : Kind} {r : Request} (hl : kind.lengthSuits r.payload = true) (h : kind.mayBeSent r.cls = false) :
    commonRefusal kind r = some .unitOnly := by
  simp [commonRefusal, hl, h]

/-- A byte inside a payload is the byte read there. -/
theorem getElem?_eq_byteAt {p : List Byte} {i : Nat} (h : i < p.length) : p[i]? = some (byteAt p i) := by
  simp [byteAt, List.getElem?_eq_getElem h]

/-- A payload that carries a count at offset `i`, then that many records of six bytes from offset `i + 1`. -/
theorem counted_length_iff {p : List Byte} {i : Nat} :
    (i + 1 ≤ p.length ∧ p.length = i + 1 + 6 * (byteAt p i).toNat) ↔
      ∃ count : Byte, p[i]? = some count ∧ p.length = i + 1 + 6 * count.toNat := by
  constructor
  · rintro ⟨hi, hl⟩
    exact ⟨_, getElem?_eq_byteAt hi, hl⟩
  · rintro ⟨count, hc, hl⟩
    have hi : i < p.length := (List.getElem?_eq_some_iff.1 hc).1
    rw [getElem?_eq_byteAt hi] at hc
    cases hc
    exact ⟨hi, hl⟩

/-- A kind with no code in the table is the kind of no code. -/
theorem ofCode_eq_none {b : Byte} (h : ∀ kind : Kind, kind.code ≠ b) : Kind.ofCode b = none := by
  simp only [Kind.ofCode, List.find?_eq_none]
  intro kind _
  simpa using h kind

end Sys2Proof.Machine
end

section
/-! SUPPORT. The statements on the queue of commands and the executor (chapter 10) settled. -/

namespace Sys2Proof.Settled

open Sys2Proof.Machine

/-- Settles O1. -/
theorem stepRunsFrontCommand : Obligations.StepRunsFrontCommand := by
  intro c rest s h
  rw [step, h]

/-- Settles O2: `exec_next` gives the next state, and no effect of a command is on the waiting ones. -/
theorem everyCommandAnswers : Obligations.EveryCommandAnswers := by
  refine ⟨fun c s => ?_, fun s h => ?_⟩
  · obtain ⟨t, ht⟩ := exec_next c s
    exact ⟨t, ht, (exec_does ht).pending⟩
  · rw [step, h]

/-- Settles O4: where a condition of R171 fails the executor takes nothing, and the row does no more. -/
theorem executorStalls : Obligations.ExecutorStalls := by
  intro c kind k s hc h
  exact exec_of_taking_none hc (taking_eq_none h)

/-- Settles O5: the tables of lengths and classes kind by kind; then each check in its place before the own rule. -/
theorem commonChecks : Obligations.CommonChecks := by
  refine ⟨fun kind p => ?_, fun kind c => ?_, fun c kind k s q rest hrow h hkind => ?_, fun k s q rest => ⟨fun h hnone => ?_, fun h => ?_⟩⟩
  · cases kind
    case writePixels =>
      simp only [Kind.lengthSuits, Bool.and_eq_true, decide_eq_true_eq]
      exact ⟨fun h => ⟨p.length - 4, by omega⟩, fun ⟨n, h⟩ => by omega⟩
    case stageBands =>
      simp only [Kind.lengthSuits, Bool.and_eq_true, decide_eq_true_eq, beq_iff_eq]
      exact counted_length_iff
    case stagePalette =>
      simp only [Kind.lengthSuits, Bool.and_eq_true, decide_eq_true_eq, beq_iff_eq]
      exact counted_length_iff
    all_goals simp [Kind.lengthSuits]
  · cases kind <;> simp [Kind.mayBeSent]
  · split
    · rename_i hlength
      exact refuses_of h (exec_of_commonRefusal hrow h hkind (commonRefusal_length hlength))
    · rename_i hlength
      split
      · rename_i hclass
        exact refuses_of h (exec_of_commonRefusal hrow h hkind (commonRefusal_class (by simpa using hlength) hclass))
      · trivial
  · refine refuses_of h ?_
    rw [exec, execUnknownKind, h.eq_some]
    simp only [if_pos (ofCode_eq_none hnone), h.reach_eq]
  · exact refuses_of_own h (exec_serves rfl rfl s) rfl

end Sys2Proof.Settled
end

section
/-! SUPPORT. The bounds of the queues and lists (R161, R163, R169, R174, R179) kept by every effect of a command. -/

namespace Sys2Proof.Machine

/-- The bounds, in a tile whose executor is free and whose reply queue has a place: what the taking of a request finds and its own rule keeps. -/
structure State.RoomToAnswer (s : State) : Prop where
  bounded : s.QueuesBounded
  idle : s.ru.executing = none
  place : s.ru.replies.length < 8

theorem reserved_congr {x y : RequestUnit} (h : y.executing = x.executing) : y.reserved = x.reserved := by
  simp only [RequestUnit.reserved, h]

theorem reserved_le_one (x : RequestUnit) : x.reserved ≤ 1 := by
  unfold RequestUnit.reserved
  split
  · split <;> omega
  · omega

/-- A change that keeps the requests, the bound of the log, the queues of the link and the findings keeps every bound. -/
theorem State.QueuesBounded.of_keeps {s t : State} (h : s.QueuesBounded) (hru : s.ru.KeepsRequests t.ru) (hlog : t.ru.log.length ≤ 8)
    (hpass : t.li.passThrough.length ≤ 6) (hgroups : t.li.groups = s.li.groups) (hfindings : t.tu.findings.length ≤ 32) :
    t.QueuesBounded := by
  obtain ⟨hqueue, hexec, hreplies, -⟩ := hru
  exact ⟨by rw [hqueue]; exact h.requests, by rw [hreplies, reserved_congr hexec]; exact h.replies, hlog, hpass, hfindings,
    by rw [hgroups]; exact h.groups, by rw [hgroups]; exact h.groupsDistinct⟩

/-- A change of other blocks than the Request Unit, the Link Interface and the Test Unit keeps every bound. -/
theorem State.QueuesBounded.of_same {s t : State} (h : s.QueuesBounded) (hru : t.ru = s.ru) (hli : t.li = s.li) (htu : t.tu = s.tu) :
    t.QueuesBounded :=
  h.of_keeps (by rw [hru]; exact keepsRequests_refl _) (by rw [hru]; exact h.notices) (by rw [hli]; exact h.passThrough) (by rw [hli])
    (by rw [htu]; exact h.findings)

theorem notify_queuesBounded {s : State} (h : s.QueuesBounded) (d : Details) : (s.notify d).QueuesBounded :=
  h.of_keeps (createNotice_keepsRequests _ _ _ _) (createNotice_log_bound _ _ _ _ h.notices) h.passThrough rfl h.findings

theorem frameTimerExpires_queuesBounded {s : State} (h : s.QueuesBounded) : s.frameTimerExpires.QueuesBounded := by
  obtain ⟨hru, hlog, hli, -, -, -, -, -, hfindings, -⟩ := frameTimerExpires_keeps s
  exact h.of_keeps hru (hlog h.notices) (by rw [hli]; exact h.passThrough) (by rw [hli]) (by rw [hfindings]; exact h.findings)

theorem reach_queuesBounded {s : State} (h : s.QueuesBounded) (t : Nat) : (s.reach t).QueuesBounded :=
  reach_keeps (P := State.QueuesBounded) (fun _ _ => frameTimerExpires_queuesBounded) t h

theorem passTo_queuesBounded {s : State} (h : s.QueuesBounded) (t : Nat) : (s.passTo t).QueuesBounded :=
  (reach_queuesBounded h t).of_same rfl rfl rfl

theorem countedEvent_queuesBounded {s : State} (h : s.QueuesBounded) : s.countedEvent.QueuesBounded := by
  obtain ⟨hli, htu, -, -, -, -, hru, hlog⟩ := applyDue_keeps s
  obtain ⟨kru, kli, -, -, -, -, -, -, kfindings, -⟩ := latchFrame_keeps s.applyDue
  refine h.of_keeps ?_ ?_ ?_ ?_ ?_
  · rw [State.countedEvent, kru]; exact hru
  · rw [State.countedEvent, kru]; exact hlog h.notices
  · rw [State.countedEvent, kli, hli]; exact h.passThrough
  · rw [State.countedEvent, kli, hli]
  · rw [State.countedEvent, kfindings, htu]; exact h.findings

theorem edge_queuesBounded {s : State} (h : s.QueuesBounded) : s.edge.QueuesBounded := by
  have counted : ∀ x y, ((s.withFt x).withFt y).countedEvent.QueuesBounded := fun x y =>
    countedEvent_queuesBounded (h.of_same rfl rfl rfl)
  unfold State.edge
  split
  · exact counted _ _
  · split
    · exact h.of_same rfl rfl rfl
    · exact counted _ _
  · refine countedEvent_queuesBounded (notify_queuesBounded ?_ _)
    exact h.of_same rfl rfl rfl
  · exact h

/-! ## Requests -/

theorem takes_roomToAnswer {s : State} {k : Take} {q : Queued} {rest : List Queued} (h : s.QueuesBounded) (hq : s.AtHead k q rest) :
    (s.takes k).RoomToAnswer := by
  have hr := reach_queuesBounded h k.moment
  have hq' := hq.reach k.moment
  refine ⟨⟨?_, hr.replies, hr.notices, hr.passThrough, hr.findings, hr.groups, hr.groupsDistinct⟩, hq'.idle, hq'.place⟩
  exact le_trans (by simp [State.takes]) hr.requests

/-- The answer fills at most one place of the reply queue. -/
theorem answer_queuesBounded {s : State} (h : s.RoomToAnswer) (q : Queued) (r : Result) (p : List Byte) :
    (s.answer q r p).QueuesBounded := by
  obtain ⟨hb, hidle, hplace⟩ := h
  have hlen := answer_replies_length s q r p
  have hreserved : (s.answer q r p).ru.reserved = 0 := by rw [reserved_congr (answer_executing s q r p), RequestUnit.reserved, hidle]
  refine ⟨by rw [answer_queue]; exact hb.requests, ?_, by rw [answer_log]; exact hb.notices, by rw [answer_li]; exact hb.passThrough,
    by rw [answer_tu]; exact hb.findings, by rw [answer_li]; exact hb.groups, by rw [answer_li]; exact hb.groupsDistinct⟩
  rw [hreserved]
  split at hlen <;> omega

/-- As `of_keeps`, with the executor free and a place in the reply queue. -/
theorem State.RoomToAnswer.of_keeps {s t : State} (h : s.RoomToAnswer) (hru : s.ru.KeepsRequests t.ru) (ht : t.QueuesBounded) :
    t.RoomToAnswer := by
  obtain ⟨-, hexec, hreplies, -⟩ := hru
  exact ⟨ht, by rw [hexec]; exact h.idle, by rw [hreplies]; exact h.place⟩

theorem ackedLog_length {n : Byte} {log l : List Notice} (h : ackedLog n log = some l) : l.length ≤ log.length := by
  induction log with
  | nil => cases h
  | cons x xs ih =>
    rw [ackedLog] at h
    split at h
    · cases h; simp
    · exact (ih h).trans (by simp)

/-- The own rule of a request keeps the bounds. -/
theorem own_roomToAnswer {kind : Kind} {own : State → List Byte → Answered} {s t : State} {p reply : List Byte} (h : s.RoomToAnswer)
    (hown : ownRule kind = some own) (ht : own s p = .ok (t, reply)) : t.RoomToAnswer := by
  obtain ⟨hb, hidle, hplace⟩ := h
  have untouched : Block.ru ∉ ownBlocks kind → Block.li ∉ ownBlocks kind → Block.tu ∉ ownBlocks kind → t.RoomToAnswer := by
    intro hru hli htu
    have same := (own_sameBlocks hown ht).1
    have hru' : t.ru = s.ru := same .ru hru
    exact ⟨hb.of_same hru' (same .li hli) (same .tu htu), by rw [hru']; exact hidle, by rw [hru']; exact hplace⟩
  have keeps : s.ru.KeepsRequests t.ru → t.QueuesBounded → t.RoomToAnswer := State.RoomToAnswer.of_keeps ⟨hb, hidle, hplace⟩
  cases kind <;> cases hown
  case status =>
    obtain rfl | rfl := status_ok ht
    · exact ⟨hb, hidle, hplace⟩
    · exact ⟨⟨hb.requests, hb.replies, hb.notices, hb.passThrough, hb.findings, hb.groups, hb.groupsDistinct⟩, hidle, hplace⟩
  case joinGroup =>
    obtain rfl | ⟨g, hnew, hroom, rfl⟩ := joinGroup_ok ht
    · exact ⟨hb, hidle, hplace⟩
    · refine ⟨⟨hb.requests, hb.replies, hb.notices, hb.passThrough, hb.findings, ?_, ?_⟩, hidle, hplace⟩
      · simp only [withLi_li, List.length_append, List.length_singleton]; omega
      · exact List.Nodup.append hb.groupsDistinct (List.nodup_singleton g) (by simpa using hnew)
  case leaveGroup =>
    obtain ⟨g, rfl⟩ := leaveGroup_ok ht
    exact ⟨⟨hb.requests, hb.replies, hb.notices, hb.passThrough, hb.findings, (List.length_filter_le _ _).trans hb.groups,
      hb.groupsDistinct.filter _⟩, hidle, hplace⟩
  case restart =>
    obtain ⟨-, rfl⟩ := restart_ok ht
    have hreserved : s.warmRestart.ru.reserved = 0 := by
      rw [reserved_congr (x := s.ru) (y := s.warmRestart.ru) rfl, RequestUnit.reserved, hidle]
    refine ⟨⟨hb.requests, ?_, Nat.zero_le _, hb.passThrough, Nat.zero_le _, hb.groups, hb.groupsDistinct⟩, hidle, Nat.zero_lt_succ _⟩
    rw [hreserved]
    exact Nat.zero_le _
  case readNotices =>
    cases ht
    exact ⟨⟨hb.requests, hb.replies, by simpa using hb.notices, hb.passThrough, hb.findings, hb.groups, hb.groupsDistinct⟩, hidle, hplace⟩
  case ackNotices =>
    obtain ⟨l, hl, rfl⟩ := ackNotices_ok ht
    exact ⟨⟨hb.requests, hb.replies, (ackedLog_length hl).trans hb.notices, hb.passThrough, hb.findings, hb.groups, hb.groupsDistinct⟩,
      hidle, hplace⟩
  case setMode =>
    obtain ⟨-, rfl | ⟨m, -, rfl⟩⟩ := setMode_ok ht
    · exact ⟨hb, hidle, hplace⟩
    · obtain ⟨-, -, hli, -, -, -, -, -, -, -, -, hfindings, -, hru⟩ := changeMode_fields s m
      refine keeps ?_ (hb.of_keeps ?_ ?_ (by rw [hli]; exact hb.passThrough) (by rw [hli]) (by rw [hfindings]; exact hb.findings))
      · rw [hru]; split
        · exact createNotice_keepsRequests _ _ _ _
        · exact keepsRequests_refl _
      · rw [hru]; split
        · exact createNotice_keepsRequests _ _ _ _
        · exact keepsRequests_refl _
      · rw [hru]; split
        · exact createNotice_log_bound _ _ _ _ hb.notices
        · exact hb.notices
  case setSync =>
    obtain ⟨x, m, -, -, hx⟩ := setSync_ok ht
    obtain ⟨⟨same, -⟩, -⟩ := applySync_keeps s x m
    have hru : (s.applySync x m).ru = s.ru := (same .ru (by decide)).symm
    have hli : (s.applySync x m).li = s.li := (same .li (by decide)).symm
    have htu : (s.applySync x m).tu = s.tu := (same .tu (by decide)).symm
    have hsync : (s.applySync x m).QueuesBounded := hb.of_same hru hli htu
    obtain ⟨-, -, rfl⟩ | rfl := hx
    · exact keeps (by rw [hru]; exact keepsRequests_refl _) hsync
    · refine keeps (by rw [← hru]; exact expireOverdue_requests _) ?_
      unfold State.expireOverdue
      split
      · exact frameTimerExpires_queuesBounded hsync
      · exact hsync
  case scan =>
    obtain ⟨-, -, rfl⟩ := startScan_ok ht
    exact keeps (keepsRequests_refl _) (hb.of_keeps (keepsRequests_refl _) hb.notices hb.passThrough rfl (Nat.zero_le _))
  case scanAbort =>
    obtain rfl := scanAbort_ok ht
    refine keeps (createNotice_keepsRequests _ _ _ _) (notify_queuesBounded ?_ _)
    exact hb.of_keeps (keepsRequests_refl _) hb.notices hb.passThrough rfl hb.findings
  case setPatrol =>
    obtain rfl | rfl := setPatrol_ok ht <;>
      exact keeps (keepsRequests_refl _) (hb.of_keeps (keepsRequests_refl _) hb.notices hb.passThrough rfl hb.findings)
  all_goals exact untouched (by decide) (by decide) (by decide)

/-! ## Arrivals and frames sent -/

/-- The arrival rule keeps the bounds: a frame joins only a queue of fewer than 8, a reply is placed only where there is a place (R170, R174). -/
theorem arrive_queuesBounded {s : State} (h : s.QueuesBounded) (r : Request) : (s.arrive r).QueuesBounded := by
  obtain ⟨hexec, hlog, -⟩ := arrive_keeps s.ru s.li.unit r
  have hreserved := reserved_congr hexec
  refine ⟨?_, ?_, by rw [arrive_ru, hlog]; exact h.notices, h.passThrough, h.findings, h.groups, h.groupsDistinct⟩
  · rw [arrive_ru]
    obtain e | ⟨hroom, e⟩ | ⟨-, y, e⟩ | e := arrive_cases s.ru s.li.unit r
    · rw [e]; exact h.requests
    · rw [e, (join_fields s.ru r).1, List.length_append]; exact hroom
    · rw [e]
      obtain ⟨-, e'⟩ | ⟨-, e'⟩ := place_cases s.ru y <;> rw [e'] <;> exact h.requests
    · rw [e]; exact h.requests
  · rw [arrive_ru, hreserved]
    obtain e | ⟨-, e⟩ | ⟨-, y, e⟩ | e := arrive_cases s.ru s.li.unit r
    · rw [e]; exact h.replies
    · obtain ⟨-, -, -, hreplies, -⟩ := join_fields s.ru r
      rw [e, hreplies]; exact h.replies
    · rw [e]
      obtain ⟨hplace, e'⟩ | ⟨-, e'⟩ := place_cases s.ru y
      · rw [e']
        simp only [RequestUnit.hasPlace, decide_eq_true_eq] at hplace
        simp only [List.length_append, List.length_singleton]
        omega
      · rw [e']; exact h.replies
    · rw [e]; exact h.replies

theorem markOldestSent_length (l : List Notice) : (markOldestSent l).length = l.length := by
  induction l with
  | nil => rfl
  | cons n ns ih =>
    rw [markOldestSent]
    split <;> simp [ih]

/-- An own frame begun takes a reply from its queue or marks a notice SENT (R165, R181). -/
theorem ownCandidate_cases {x y : RequestUnit} {body : List Byte} (h : x.ownCandidate = some (body, y)) :
    (∃ r rs, x.replies = r :: rs ∧ body = r.frameBody ∧ y = { x with replies := rs, filter := markReplySent r x.filter }) ∨
    (x.replies = [] ∧ ∃ n, x.log.find? (fun n => !n.sent) = some n ∧ body = n.frameBody ∧
      y = { x with log := markOldestSent x.log }) := by
  unfold RequestUnit.ownCandidate at h
  split at h
  · rename_i r rs hr
    cases h; exact Or.inl ⟨r, rs, hr, rfl, rfl⟩
  · rename_i hr
    split at h <;> cases h
    rename_i n hn
    exact Or.inr ⟨hr, n, hn, rfl, rfl⟩

theorem beginOwn_queuesBounded {s : State} (h : s.QueuesBounded) {body : List Byte} {x : RequestUnit}
    (hx : s.ru.ownCandidate = some (body, x)) : (s.beginOwn body x).QueuesBounded := by
  obtain ⟨r, rs, hr, -, rfl⟩ | ⟨-, n, -, -, rfl⟩ := ownCandidate_cases hx
  · refine ⟨h.requests, ?_, h.notices, h.passThrough, h.findings, h.groups, h.groupsDistinct⟩
    have hreplies := h.replies
    have hreserved : ({ s.ru with replies := rs, filter := markReplySent r s.ru.filter } : RequestUnit).reserved = s.ru.reserved := rfl
    rw [hr, List.length_cons] at hreplies
    show rs.length + _ ≤ 8
    rw [State.beginOwn, withLi_ru, withRu_ru, hreserved]
    omega
  · exact ⟨h.requests, h.replies, (markOldestSent_length s.ru.log).trans_le h.notices, h.passThrough, h.findings, h.groups,
      h.groupsDistinct⟩

/-! ## Every effect -/

/-- The burn's end touches of the Request Unit the notices alone. -/
theorem endBurn_queuesBounded {s : State} (h : s.QueuesBounded) (x : Subject) (c : FuseClass) (g : Segment) :
    (s.endBurn x c g).QueuesBounded := by
  refine notify_queuesBounded ?_ _
  exact h.of_same rfl rfl rfl

/-- The bounds hold after a fill completes: its reply takes the place that was reserved for it (R171). -/
theorem fillEnds_queuesBounded {s : State} {e : Executing} (h : s.QueuesBounded) (he : s.ru.executing = some e) (x : FrameStore) :
    (((s.withFs x).withRu { s.ru with executing := none }).answer e.entry .ok []).QueuesBounded := by
  generalize hu : (s.withFs x).withRu { s.ru with executing := none } = u
  have hlen := answer_replies_length u e.entry .ok []
  have hreserved : (u.answer e.entry .ok []).ru.reserved = 0 := by
    rw [reserved_congr (answer_executing u e.entry .ok []), RequestUnit.reserved, ← hu]; rfl
  have hreplies := h.replies
  simp only [RequestUnit.reserved, he] at hreplies
  have hur : u.ru.replies = s.ru.replies := by rw [← hu]; rfl
  refine ⟨by rw [answer_queue, ← hu]; exact h.requests, ?_, by rw [answer_log, ← hu]; exact h.notices,
    by rw [answer_li, ← hu]; exact h.passThrough, by rw [answer_tu, ← hu]; exact h.findings,
    by rw [answer_li, ← hu]; exact h.groups, by rw [answer_li, ← hu]; exact h.groupsDistinct⟩
  rw [hreserved]
  rw [hur] at hlen
  omega

theorem afterLines_blocks (s : State) (power line : Bool) :
    (s.afterLines power line).SameExcept { s with powerGood := power, resetLine := line } [.mc] ∧
    (s.afterLines power line).now = s.now ∧ (s.afterLines power line).mc.mode = s.mc.mode := by
  unfold State.afterLines
  dsimp only
  split <;> exact ⟨sameExcept_of_untouched, rfl, rfl⟩

/-- Every effect of a command keeps the bounds. -/
theorem Does.queuesBounded {s t : State} {c : Instr} (h : Does s c t) (hs : s.QueuesBounded) : t.QueuesBounded := by
  cases h with
  | idles => exact hs
  | refuses r hrow hq => exact answer_queuesBounded (takes_roomToAnswer hs hq) _ _ _
  | answers hrow hown hq hu => exact answer_queuesBounded (own_roomToAnswer (takes_roomToAnswer hs hq) hown hu) _ _ _
  | fills hq hjob =>
    obtain ⟨hb, -, hplace⟩ := takes_roomToAnswer hs hq
    refine ⟨hb.requests, ?_, hb.notices, hb.passThrough, hb.findings, hb.groups, hb.groupsDistinct⟩
    exact Nat.add_le_add (Nat.le_of_lt_succ hplace) (reserved_le_one _)
  | fillEnds he => exact fillEnds_queuesBounded hs he _
  | copyEnds hp =>
    refine notify_queuesBounded ?_ _
    exact hs.of_same rfl rfl rfl
  | writeEnds b hx hu => exact (hu ▸ passTo_queuesBounded hs _).of_same rfl rfl rfl
  | checkPasses m hx hu hread => exact endBurn_queuesBounded (hu ▸ passTo_queuesBounded hs _) _ _ _
  | checkFails m hx hu hread => exact (hu ▸ passTo_queuesBounded hs _).of_same rfl rfl rfl
  | markEnds b hx hu => exact (hu ▸ passTo_queuesBounded hs _).of_same rfl rfl rfl
  | burnFails m hx hu => exact endBurn_queuesBounded (hu ▸ passTo_queuesBounded hs _) _ _ _
  | scanGoesOn r hg hu hv hnext =>
    subst hv
    have hq := passTo_queuesBounded hs (s.tu.testStart + testTime)
    rw [← hu] at hq
    exact hq.of_keeps (keepsRequests_refl _) hq.notices hq.passThrough rfl ((recordTest_fields _ _ _ _).2.2.2.2.2.2 hq.findings)
  | scanEnds r hg hu hv hnext =>
    subst hv
    have hq := passTo_queuesBounded hs (s.tu.testStart + testTime)
    rw [← hu] at hq
    refine notify_queuesBounded ?_ _
    exact hq.of_keeps (keepsRequests_refl _) hq.notices hq.passThrough rfl ((recordTest_fields _ _ _ _).2.2.2.2.2.2 hq.findings)
  | @patrolEnds g u v r hg hu hv =>
    have hq := passTo_queuesBounded hs (s.tu.testStart + testTime)
    rw [← hu] at hq
    have hvq : v.QueuesBounded := by
      obtain hv | hv := hv
      · rw [hv]; exact hq.of_same rfl rfl rfl
      · rw [hv]
        refine notify_queuesBounded ?_ _
        exact hq.of_same rfl rfl rfl
    exact hvq.of_keeps (keepsRequests_refl _) hvq.notices hvq.passThrough rfl hvq.findings
  | edges m hready => exact edge_queuesBounded (passTo_queuesBounded hs m)
  | expires hready => exact frameTimerExpires_queuesBounded hs
  | scansOut hphase => exact hs.of_same rfl rfl rfl
  | links c hunit hgroups hpass => exact hs.of_keeps (keepsRequests_refl _) hs.notices (hpass hs.passThrough) hgroups hs.findings
  | receives c r hunit hgroups hpass =>
    refine arrive_queuesBounded ?_ r
    exact hs.of_keeps (keepsRequests_refl _) hs.notices (by rw [withLi_li, hpass]; exact hs.passThrough) hgroups hs.findings
  | @joins ys x n f hpass =>
    have hcleared : ((s.withLi { x with unit := n, groups := [] }).withRu s.ru.clearFilter).QueuesBounded :=
      ⟨hs.requests, hs.replies, hs.notices, by rw [withRu_li, withLi_li, hpass]; exact hs.passThrough, hs.findings, Nat.zero_le _,
        List.nodup_nil⟩
    have hjoined := notify_queuesBounded hcleared (.joined Config.serial n)
    exact hjoined.of_keeps (keepsRequests_refl _) hjoined.notices hjoined.passThrough rfl hjoined.findings
  | drops ys hunit hgroups hpass =>
    refine notify_queuesBounded ?_ _
    exact hs.of_keeps (keepsRequests_refl _) hs.notices (by rw [withLi_li, hpass]; exact hs.passThrough) hgroups hs.findings
  | sends hx => exact beginOwn_queuesBounded hs hx
  | goesCold c b ht =>
    have hcold : (s.toCold b).QueuesBounded := ⟨Nat.zero_le _, Nat.zero_le _, Nat.zero_le _, Nat.zero_le _, Nat.zero_le _, Nat.zero_le _,
      List.nodup_nil⟩
    obtain rfl | rfl := ht <;> exact hcold.of_same rfl rfl rfl
  | linesChange c hmore =>
    obtain ⟨same, -⟩ := (afterLines_blocks s _ _).1
    exact hs.of_same (same .ru (by decide)).symm (same .li (by decide)).symm (same .tu (by decide)).symm
  | startsUp m hrunning hstarting =>
    refine notify_queuesBounded ?_ _
    exact hs.of_same rfl rfl rfl

/-- A step is one effect of a command on the tile with one command fewer waiting, or nothing. -/
theorem step_does {s t : State} (h : step s = .next t) : t = s ∨ ∃ c rest, Does { s with pending := rest } c t := by
  unfold step at h
  split at h
  · cases h; exact Or.inl rfl
  · exact Or.inr ⟨_, _, exec_does h⟩

end Sys2Proof.Machine
end

section
/-! SUPPORT. The statement on the bounds settled. -/

namespace Sys2Proof.Settled

open Sys2Proof.Machine

/-- Settles O53: the commands that wait are in no bound, and every effect of a command keeps them all. -/
theorem queuesStayBounded : Obligations.QueuesStayBounded := by
  intro s t hs ht
  obtain rfl | ⟨c, rest, hc⟩ := step_does ht
  · exact hs
  · exact hc.queuesBounded (hs.of_same rfl rfl rfl)

end Sys2Proof.Settled
end

section
/-! SUPPORT. The law of the band table (R19, R20): what the model's checks of a table and of a pan say, band by band. -/

namespace Sys2Proof.Machine

/-- The height of a band further down the table does not depend on the bands above it. -/
theorem heightOf_cons (a b : Band) (t : List Band) (i : Nat) : heightOf (a :: t) (i + 1) b = heightOf t i b := by
  simp [heightOf]

/-- The heights that the checks compute are those of R19. -/
theorem bandHeights_getElem? (t : List Band) (i : Nat) : (bandHeights t)[i]? = (t[i]?).map (heightOf t i) := by
  induction t generalizing i with
  | nil => rfl
  | cons b t ih =>
    cases t with
    | nil => cases i <;> simp [bandHeights, heightOf]
    | cons c t =>
      cases i with
      | zero => simp [bandHeights, heightOf]
      | succ i =>
        rw [bandHeights, List.getElem?_cons_succ, ih, List.getElem?_cons_succ]
        cases (c :: t)[i]? <;> simp [heightOf_cons]

/-- A source rectangle of the panel's width and a band's height lies inside the canvas (R19). -/
theorem sourceInside_iff {w sx sy height : Nat} : sourceInside w sx sy height = true ↔ sx + 128 ≤ w ∧ sy + height ≤ 49152 / w := by
  rw [sourceInside, Bool.and_eq_true, decide_eq_true_eq, decide_eq_true_eq]
  exact Iff.rfl

/-- The check of a pan (R61). -/
theorem panFits_iff {w : Nat} {t : List Band} {i sx sy : Nat} :
    panFits w t i sx sy = true ↔ ∃ b, t[i]? = some b ∧ sx + 128 ≤ w ∧ sy + heightOf t i b ≤ 49152 / w := by
  rw [panFits, bandHeights_getElem?]
  cases t[i]? with
  | none => simp
  | some b => simpa using sourceInside_iff

/-- What R20 asks of band `i` of a table. -/
def BandLawful (w : Nat) (t : List Band) (i : Nat) (b : Band) : Prop :=
  4 ≤ heightOf t i b ∧ b.bank ≤ 3 ∧ b.sx + 128 ≤ w ∧ b.sy + heightOf t i b ≤ 49152 / w

/-- The part of the check that goes down the bands is the law of each. -/
theorem bandsLegalFrom_iff {w : Nat} {t : List Band} :
    bandsLegalFrom w t = true ↔ ∀ i b, t[i]? = some b → BandLawful w t i b := by
  induction t with
  | nil => simp [bandsLegalFrom]
  | cons b t ih =>
    have hsplit : (∀ i x, (b :: t)[i]? = some x → BandLawful w (b :: t) i x) ↔
        BandLawful w (b :: t) 0 b ∧ ∀ i x, t[i]? = some x → BandLawful w t i x := by
      refine ⟨fun h => ⟨h 0 b rfl, fun i x hx => ?_⟩, fun h i x hx => ?_⟩
      · simpa [BandLawful, heightOf_cons] using h (i + 1) x hx
      · cases i with
        | zero => cases hx; exact h.1
        | succ i => simpa [BandLawful, heightOf_cons] using h.2 i x hx
    rw [hsplit]
    cases t with
    | nil =>
      simp only [bandsLegalFrom, Bool.and_eq_true, decide_eq_true_eq, sourceInside_iff, BandLawful, heightOf]
      simp
      omega
    | cons c t =>
      rw [← ih]
      simp only [bandsLegalFrom, Bool.and_eq_true, decide_eq_true_eq, sourceInside_iff, BandLawful, heightOf]
      simp
      omega

/-- No band of a table whose bands are lawful begins below row 92. -/
theorem top_le_of_bandsLegalFrom {w : Nat} {t : List Band} (h : bandsLegalFrom w t = true) : ∀ b ∈ t, b.top ≤ 92 := by
  induction t with
  | nil => simp
  | cons b t ih =>
    cases t with
    | nil =>
      simp only [bandsLegalFrom, Bool.and_eq_true, decide_eq_true_eq] at h
      simp only [List.mem_singleton, forall_eq]
      omega
    | cons c t =>
      simp only [bandsLegalFrom, Bool.and_eq_true, decide_eq_true_eq] at h
      have hrest := ih h.2
      have hc := hrest c List.mem_cons_self
      intro x hx
      rcases List.mem_cons.1 hx with rfl | hx
      · omega
      · exact hrest x hx

/-- The check of a staged table is the law of R20 with the ranges of R19. -/
theorem bandsLegal_iff {w : Nat} {t : List Band} : bandsLegal w t = true ↔ TableLawful w t := by
  have hfirst : ((t.map Band.top).head? == some 0) = true ∧ 1 ≤ t.length ↔ (∀ b, t[0]? = some b → b.top = 0) ∧ 1 ≤ t.length := by
    cases t <;> simp
  constructor
  · intro h
    simp only [bandsLegal, Bool.and_eq_true, decide_eq_true_eq] at h
    obtain ⟨⟨⟨hmin, hmax⟩, hhead⟩, hfrom⟩ := h
    have hbands := bandsLegalFrom_iff.1 hfrom
    refine ⟨⟨hmin, hmax⟩, (hfirst.1 ⟨hhead, hmin⟩).1, fun i b c hb hc => ?_, fun b hb => ?_, hbands⟩
    · have hheight := (hbands i b hb).1
      simp only [heightOf, hc] at hheight
      omega
    · have := top_le_of_bandsLegalFrom hfrom b hb
      omega
  · rintro ⟨⟨hmin, hmax⟩, hzero, -, -, hbands⟩
    simp only [bandsLegal, Bool.and_eq_true, decide_eq_true_eq]
    exact ⟨⟨⟨hmin, hmax⟩, (hfirst.2 ⟨hzero, hmin⟩).1⟩, bandsLegalFrom_iff.2 hbands⟩

end Sys2Proof.Machine
end

section
/-! SUPPORT. The statement on the checks of a table and of a pan settled. -/

namespace Sys2Proof.Settled

open Sys2Proof.Machine

/-- Settles O17. -/
theorem tableChecksAreTheLaw : Obligations.TableChecksAreTheLaw := fun _ _ => ⟨bandsLegal_iff, fun _ _ _ => panFits_iff⟩

end Sys2Proof.Settled
end

section
/-! SUPPORT. The picture's laws (R4, R20, R53-R55) kept by every effect of a command. -/

namespace Sys2Proof.Machine

/-! ## Pages -/

theorem pages_wf_iff {x : FrameStore} : (x.pageA.wf = true ∧ x.pageB.wf = true) ↔ ∀ p, (x.page p).wf = true :=
  ⟨fun h p => by cases p; exacts [h.1, h.2], fun h => ⟨h .A, h .B⟩⟩

theorem putPage_wf {x : FrameStore} (h : ∀ p, (x.page p).wf = true) {p : Page} {m : Cells} (hm : m.wf = true) :
    ∀ q, ((x.putPage p m).page q).wf = true := by
  intro q
  rw [page_putPage]
  split
  · exact hm
  · exact h q

theorem State.PictureLawful.pages {s : State} (h : s.PictureLawful) : ∀ p, (s.fs.page p).wf = true := pages_wf_iff.1 ⟨h.pageA, h.pageB⟩

theorem rectInside_iff {width x y w h : Nat} :
    rectInside width x y w h = true ↔ w ≠ 0 ∧ h ≠ 0 ∧ x + w ≤ width ∧ y + h ≤ canvasHeight width := by
  simp [rectInside, and_assoc]

theorem fillAnswer_ok {s : State} {p : List Byte} {job : FillJob} (h : s.fillAnswer p = .ok job) :
    rectInside s.fs.width job.x job.y job.w job.h = true := by
  unfold State.fillAnswer at h
  dsimp only at h
  split at h
  · rename_i hrect
    split at h
    · cases h
    · split at h <;> cases h
      exact hrect
  · cases h

/-! ## The default table and the sets -/

theorem defaultBands_legal {w : Nat} (h : w ∈ canvasWidths) : bandsLegal w defaultBands = true := bandsLegal_iff.2 (defaultBands_lawful h)

/-- A legal set stays legal with a legal entry at the end of a journal that had room, and a legal projected table. -/
theorem ChangeSet.Legal.stage {o : ChangeSet} {w : Nat} (h : o.Legal w) (hroom : o.journal.length < 48) {e : Edit} (he : editLegal w e)
    {table : List Band} (ht : bandsLegal w table = true) :
    ({ o with journal := o.journal ++ [e], projected := table } : ChangeSet).Legal w := by
  refine ⟨h.idNonzero, by simpa using hroom, fun x hx => ?_, ht⟩
  rcases List.mem_append.1 hx with hx | hx
  · exact h.edits x hx
  · rw [List.mem_singleton.1 hx]; exact he

/-! ## Changes that keep the laws -/

section Keep
variable {s t : State}

/-- A change that keeps the pages' form, the canvas, the view, the slots and the executor keeps the laws. -/
theorem State.PictureLawful.of_same (h : s.PictureLawful) (hpages : ∀ p, (t.fs.page p).wf = true) (hwidth : t.fs.width = s.fs.width)
    (hlive : t.pu.live = s.pu.live) (hlatched : t.pu.latched.palette.wf = true) (hcs : t.cs = s.cs)
    (hexec : ∀ e, t.ru.executing = some e → s.ru.executing = some e) : t.PictureLawful := by
  obtain ⟨hA, hB⟩ := pages_wf_iff.2 hpages
  refine ⟨hA, hB, by rw [hwidth]; exact h.width, by rw [hlive]; exact h.livePalette, hlatched,
    fun e he => by rw [hwidth]; exact h.fill e (hexec e he), by rw [hwidth, hlive]; exact h.bands, ?_, ?_, ?_⟩
  · rw [hcs, hwidth]; exact h.openSet
  · rw [hcs, hwidth]; exact h.sealedSet
  · rw [hcs]; exact h.idsDiffer

/-- A change of other blocks than the Frame Store, the Presentation Unit and the Change-Set Unit, and not of the executor, keeps the laws. -/
theorem State.PictureLawful.of_blocks (h : s.PictureLawful) (hfs : t.fs = s.fs) (hpu : t.pu = s.pu) (hcs : t.cs = s.cs)
    (hexec : t.ru.executing = s.ru.executing) : t.PictureLawful :=
  h.of_same (by rw [hfs]; exact h.pages) (by rw [hfs]) (by rw [hpu]) (by rw [hpu]; exact h.latchedPalette) hcs
    (fun e he => by rw [← hexec]; exact he)

theorem notify_pictureLawful (h : s.PictureLawful) (d : Details) : (s.notify d).PictureLawful :=
  h.of_blocks rfl rfl rfl (createNotice_executing _ _ _ _)

/-- The application of a legal set leaves a lawful view and the sealed slot empty. -/
theorem applySet_pictureLawful (h : s.PictureLawful) {z : SealedSet} (hz : s.cs.sealedSlot = some z) : (s.applySet z).PictureLawful := by
  have hset := h.sealedSet z hz
  obtain ⟨hbands, hpalette⟩ := applyJournal_keeps s.fs.width s.pu.live z.set.journal hset.edits h.bands h.livePalette
  have hfs : (s.applySet z).fs.width = s.fs.width ∧ ∀ p, (s.applySet z).fs.page p = s.fs.page p := by
    rw [applySet_fs]
    split
    · exact ⟨rfl, fun p => by cases p <;> rfl⟩
    · exact ⟨rfl, fun _ => rfl⟩
  obtain ⟨hwidth, hpage⟩ := hfs
  obtain ⟨hA, hB⟩ := pages_wf_iff.2 fun p => by rw [hpage p]; exact h.pages p
  have hexec : (s.applySet z).ru.executing = s.ru.executing := by
    rw [applySet_ru]
    split
    · exact createNotice_executing _ _ _ _
    · rfl
  refine ⟨hA, hB, by rw [hwidth]; exact h.width, by rw [applySet_pu]; exact hpalette, by rw [applySet_pu]; exact h.latchedPalette,
    fun e he => by rw [hwidth]; exact h.fill e (by rw [← hexec]; exact he), by rw [hwidth, applySet_pu]; exact hbands, ?_, ?_, ?_⟩
  · rw [applySet_cs, hwidth]; exact h.openSet
  · rw [applySet_cs]; intro z' hz'; cases hz'
  · rw [applySet_cs]; intro o z' _ hz'; cases hz'

theorem applyDue_pictureLawful (h : s.PictureLawful) : s.applyDue.PictureLawful := by
  unfold State.applyDue
  split
  · exact h
  · rename_i z hz
    split
    · exact applySet_pictureLawful h hz
    · exact h

/-- The latches take the live palettes, which are in form. -/
theorem latchFrame_pictureLawful (h : s.PictureLawful) : s.latchFrame.PictureLawful :=
  h.of_same h.pages rfl rfl h.livePalette rfl (fun _ he => he)

theorem countedEvent_pictureLawful (h : s.PictureLawful) : s.countedEvent.PictureLawful :=
  latchFrame_pictureLawful (applyDue_pictureLawful h)

theorem frameTimerExpires_pictureLawful (h : s.PictureLawful) : s.frameTimerExpires.PictureLawful := by
  unfold State.frameTimerExpires
  split
  · refine latchFrame_pictureLawful ?_; exact h.of_blocks rfl rfl rfl rfl
  · refine notify_pictureLawful (latchFrame_pictureLawful ?_) _; exact h.of_blocks rfl rfl rfl rfl
  · refine latchFrame_pictureLawful ?_; exact h.of_blocks rfl rfl rfl rfl
  · refine countedEvent_pictureLawful ?_; exact h.of_blocks rfl rfl rfl rfl

theorem reach_pictureLawful (h : s.PictureLawful) (m : Nat) : (s.reach m).PictureLawful :=
  reach_keeps (P := State.PictureLawful) (fun _ _ => frameTimerExpires_pictureLawful) m h

theorem passTo_pictureLawful (h : s.PictureLawful) (m : Nat) : (s.passTo m).PictureLawful :=
  (reach_pictureLawful h m).of_blocks rfl rfl rfl rfl

theorem edge_pictureLawful (h : s.PictureLawful) : s.edge.PictureLawful := by
  unfold State.edge
  split
  · refine countedEvent_pictureLawful ?_; exact h.of_blocks rfl rfl rfl rfl
  · split
    · exact h.of_blocks rfl rfl rfl rfl
    · refine countedEvent_pictureLawful ?_; exact h.of_blocks rfl rfl rfl rfl
  · refine countedEvent_pictureLawful (notify_pictureLawful ?_ _); exact h.of_blocks rfl rfl rfl rfl
  · exact h

theorem takes_pictureLawful (h : s.PictureLawful) (k : Take) : (s.takes k).PictureLawful :=
  (reach_pictureLawful h k.moment).of_blocks rfl rfl rfl rfl

theorem answer_pictureLawful (h : s.PictureLawful) (q : Queued) (r : Result) (p : List Byte) : (s.answer q r p).PictureLawful :=
  h.of_blocks (answer_fs ..) (answer_pu ..) (answer_cs ..) (answer_executing ..)

/-- A change of the slots alone keeps the laws when the sets it leaves are legal and differ in their ids. -/
theorem withCs_pictureLawful (h : s.PictureLawful) {x : ChangeSets} (hopen : ∀ o, x.openSlot = some o → o.Legal s.fs.width)
    (hsealed : ∀ z, x.sealedSlot = some z → z.set.Legal s.fs.width)
    (hdiffer : ∀ o z, x.openSlot = some o → x.sealedSlot = some z → o.id ≠ z.set.id) : (s.withCs x).PictureLawful :=
  ⟨h.pageA, h.pageB, h.width, h.livePalette, h.latchedPalette, h.fill, h.bands, hopen, hsealed, hdiffer⟩

end Keep

/-! ## Requests -/

section Own
variable {s t : State} {p reply : List Byte}

/-- A staging request keeps the laws when its edit gives a legal entry and a legal projected table. -/
theorem stage_pictureLawful (h : s.PictureLawful) {id : Half} {edit : ChangeSet → Option (Edit × List Band)}
    (hedit : ∀ o e table, s.cs.openSlot = some o → edit o = some (e, table) →
      editLegal s.fs.width e ∧ bandsLegal s.fs.width table = true)
    (ht : s.stage id edit = .ok (t, reply)) : t.PictureLawful := by
  obtain ⟨o, e, table, ho, hroom, he, rfl⟩ := stage_ok ht
  obtain ⟨hlegal, htable⟩ := hedit o e table ho he
  refine withCs_pictureLawful h (fun o' ho' => ?_) h.sealedSet (fun o' z ho' hz => ?_)
  · cases ho'; exact (h.openSet o ho).stage hroom hlegal htable
  · cases ho'; exact h.idsDiffer o z ho hz

theorem stageBands_pictureLawful (h : s.PictureLawful) (ht : s.stageBands p = .ok (t, reply)) : t.PictureLawful := by
  refine stage_pictureLawful h (fun o e table ho he => ?_) ht
  split at he
  · rename_i hlegal; cases he; exact ⟨hlegal, hlegal⟩
  · cases he

theorem stagePan_pictureLawful (h : s.PictureLawful) (ht : s.stagePan p = .ok (t, reply)) : t.PictureLawful := by
  refine stage_pictureLawful h (fun o e table ho he => ?_) ht
  split at he
  · rename_i hfits; cases he; exact ⟨trivial, bandsLegal_setSource _ _ _ _ _ (h.openSet o ho).projected hfits⟩
  · cases he

theorem stagePalette_pictureLawful (h : s.PictureLawful) (ht : s.stagePalette p = .ok (t, reply)) : t.PictureLawful := by
  refine stage_pictureLawful h (fun o e table ho he => ?_) ht
  split at he
  · rename_i hchecks
    cases he
    exact ⟨⟨hchecks.1, by simpa [entryRecords_eq] using hchecks.2.2.2.1⟩, (h.openSet o ho).projected⟩
  · cases he

theorem stageLevel_pictureLawful (h : s.PictureLawful) (ht : s.stageLevel p = .ok (t, reply)) : t.PictureLawful := by
  refine stage_pictureLawful h (fun o e table ho he => ?_) ht
  cases he
  exact ⟨trivial, (h.openSet o ho).projected⟩

theorem beginSet_pictureLawful (h : s.PictureLawful) (ht : s.beginSet p = .ok (t, reply)) : t.PictureLawful := by
  obtain ⟨id, hid, hdup, rfl⟩ := beginSet_ok ht
  refine withCs_pictureLawful h (fun o ho => ?_) h.sealedSet (fun o z ho hz => ?_)
  · cases ho
    refine ⟨hid, Nat.zero_le _, by simp, ?_⟩
    unfold State.projectionBase
    cases hz : s.cs.sealedSlot with
    | none => exact h.bands
    | some z => exact (h.sealedSet z hz).projected
  · cases ho
    have hz' : s.cs.sealedSlot = some z := hz
    rintro rfl
    exact hdup (by simp [ChangeSets.sealedId, hz'])

theorem commit_pictureLawful (h : s.PictureLawful) (ht : s.commitSet p = .ok (t, reply)) : t.PictureLawful := by
  obtain ⟨o, target, flip, notify, ho, -, -, rfl⟩ := commit_ok ht
  refine withCs_pictureLawful h (fun o' ho' => by cases ho') (fun z hz => ?_) (fun o' z ho' => by cases ho')
  cases hz
  exact h.openSet o ho

theorem abandon_pictureLawful (h : s.PictureLawful) (ht : s.abandonSet p = .ok (t, reply)) : t.PictureLawful := by
  obtain rfl | rfl := abandon_ok ht
  · exact withCs_pictureLawful h (fun o ho => by cases ho) h.sealedSet (fun o z ho => by cases ho)
  · exact withCs_pictureLawful h h.openSet (fun z hz => by cases hz) (fun o z _ hz => by cases hz)

theorem setCanvas_pictureLawful (h : s.PictureLawful) (hidle : s.ru.executing = none) (ht : s.setCanvas p = .ok (t, reply)) :
    t.PictureLawful := by
  obtain ⟨w, hw, hopen, hsealed, rfl⟩ := setCanvas_ok ht
  have hw' := legalWidth_iff.1 hw
  refine ⟨h.pageA, h.pageB, hw', h.livePalette, h.latchedPalette, fun e he => ?_, defaultBands_legal hw', fun o ho => ?_, fun z hz => ?_,
    fun o z ho => ?_⟩
  · exact absurd (hidle.symm.trans he) (by simp)
  · exact absurd (hopen.symm.trans ho) (by simp)
  · exact absurd (hsealed.symm.trans hz) (by simp)
  · exact absurd (hopen.symm.trans ho) (by simp)

/-- A warm restart keeps the pages' form, also of a page to which a copy had partly come (R6). -/
theorem warm_pages {x : FrameStore} (h : ∀ p, (x.page p).wf = true) (n : Nat) : ∀ p, ((x.warm n).page p).wf = true := by
  intro p
  unfold FrameStore.warm
  split
  · cases p; exacts [h .A, h .B]
  · rename_i source hs
    have := putPage_wf h (p := source.other) (copiedTo_wf _ _ (h source) (h source.other) n) p
    cases p <;> exact this

theorem warm_width (x : FrameStore) (n : Nat) : (x.warm n).width = x.width := by
  unfold FrameStore.warm
  split
  · rfl
  · exact putPage_width _ _ _

theorem restart_pictureLawful (h : s.PictureLawful) (ht : s.restartRequest p = .ok (t, reply)) : t.PictureLawful := by
  obtain ⟨-, rfl⟩ := restart_ok ht
  have hwidth := warm_width s.fs (Config.copyProgress s.freeCount)
  obtain ⟨hA, hB⟩ := pages_wf_iff.2 (warm_pages h.pages (Config.copyProgress s.freeCount))
  refine ⟨hA, hB, hwidth ▸ h.width, rfl, h.latchedPalette, fun e he => hwidth ▸ h.fill e he, hwidth ▸ defaultBands_legal h.width,
    fun o ho => ?_, fun z hz => ?_, fun o z ho => ?_⟩
  · cases ho
  · cases hz
  · cases ho

theorem setSync_pictureLawful (h : s.PictureLawful) (ht : s.setSync p = .ok (t, reply)) : t.PictureLawful := by
  obtain ⟨x, m, -, -, hx⟩ := setSync_ok ht
  obtain ⟨⟨same, -⟩, -⟩ := applySync_keeps s x m
  have hru : (s.applySync x m).ru = s.ru := (same .ru (by decide)).symm
  have hsync : (s.applySync x m).PictureLawful := h.of_blocks (same .fs (by decide)).symm (same .pu (by decide)).symm
    (same .cs (by decide)).symm (by rw [hru])
  obtain ⟨-, -, rfl⟩ | rfl := hx
  · exact hsync
  · unfold State.expireOverdue
    split
    · exact frameTimerExpires_pictureLawful hsync
    · exact hsync

/-- The own rule of a request keeps the laws, while no fill executes. -/
theorem own_pictureLawful {kind : Kind} {own : State → List Byte → Answered} (h : s.PictureLawful) (hidle : s.ru.executing = none)
    (hown : ownRule kind = some own) (ht : own s p = .ok (t, reply)) : t.PictureLawful := by
  have untouched : Block.ru ∉ ownBlocks kind → Block.fs ∉ ownBlocks kind → Block.pu ∉ ownBlocks kind → Block.cs ∉ ownBlocks kind →
      t.PictureLawful := by
    intro hru hfs hpu hcs
    have same := (own_sameBlocks hown ht).1
    have hru' : t.ru = s.ru := same .ru hru
    exact h.of_blocks (same .fs hfs) (same .pu hpu) (same .cs hcs) (by rw [hru'])
  cases kind <;> cases hown
  case status =>
    obtain rfl | rfl := status_ok ht
    · exact h
    · exact h.of_blocks rfl rfl rfl rfl
  case restart => exact restart_pictureLawful h ht
  case readNotices => cases ht; exact h.of_blocks rfl rfl rfl rfl
  case ackNotices => obtain ⟨l, -, rfl⟩ := ackNotices_ok ht; exact h.of_blocks rfl rfl rfl rfl
  case setMode =>
    obtain ⟨-, rfl | ⟨m, -, rfl⟩⟩ := setMode_ok ht
    · exact h
    · obtain ⟨-, hpu, -, hfs, -, hcs, -, -, -, -, -, -, -, hru⟩ := changeMode_fields s m
      refine h.of_same (by rw [hfs]; exact h.pages) (by rw [hfs]) (by rw [hpu]) (by rw [hpu]; exact h.latchedPalette) hcs fun e he => ?_
      rw [hru] at he
      split at he
      · rwa [createNotice_executing] at he
      · exact he
  case setCanvas => exact setCanvas_pictureLawful h hidle ht
  case writePixels =>
    obtain ⟨x, y, indices, hrun, -, -, rfl⟩ := writePixels_ok ht
    exact h.of_same (putPage_wf h.pages (writeRun_wf _ (h.pages _) indices hrun)) (putPage_width ..) rfl h.latchedPalette rfl
      (fun _ he => he)
  case copyFront =>
    obtain ⟨-, -, rfl⟩ := copyFront_ok ht
    exact h.of_same h.pages rfl rfl h.latchedPalette rfl (fun _ he => he)
  case beginSet => exact beginSet_pictureLawful h ht
  case stageBands => exact stageBands_pictureLawful h ht
  case stagePan => exact stagePan_pictureLawful h ht
  case stagePalette => exact stagePalette_pictureLawful h ht
  case stageLevel => exact stageLevel_pictureLawful h ht
  case commit => exact commit_pictureLawful h ht
  case abandon => exact abandon_pictureLawful h ht
  case setSync => exact setSync_pictureLawful h ht
  case scanAbort =>
    obtain rfl := scanAbort_ok ht
    refine notify_pictureLawful ?_ _
    exact h.of_blocks rfl rfl rfl rfl
  all_goals exact untouched (by decide) (by decide) (by decide) (by decide)

end Own

/-! ## Every effect -/

theorem takes_idle {s : State} {k : Take} {q : Queued} {rest : List Queued} (hq : s.AtHead k q rest) : (s.takes k).ru.executing = none :=
  (hq.reach k.moment).idle

theorem copyDone_pages {x : FrameStore} (h : ∀ p, (x.page p).wf = true) (source : Page) : ∀ p, ((x.copyDone source).page p).wf = true := by
  intro p
  have := putPage_wf h (p := source.other) (h source) p
  cases p <;> exact this

/-- Every effect of a command keeps the picture's laws. -/
theorem Does.pictureLawful {s t : State} {c : Instr} (h : Does s c t) (hs : s.PictureLawful) : t.PictureLawful := by
  cases h with
  | idles => exact hs
  | refuses r hrow hq => exact answer_pictureLawful (takes_pictureLawful hs _) _ _ _
  | answers hrow hown hq hu =>
    exact answer_pictureLawful (own_pictureLawful (takes_pictureLawful hs _) (takes_idle hq) hown hu) _ _ _
  | fills hq hjob =>
    obtain ⟨hA, hB, hwidth, hlive, hlatched, -, hbands, hopen, hsealed, hdiffer⟩ := takes_pictureLawful hs _
    exact ⟨hA, hB, hwidth, hlive, hlatched, fun e he => by cases he; exact fillAnswer_ok hjob, hbands, hopen, hsealed, hdiffer⟩
  | @fillEnds e he =>
    obtain ⟨-, -, hx, hy⟩ := rectInside_iff.1 (hs.fill e he)
    refine answer_pictureLawful ?_ _ _ _
    exact hs.of_same (putPage_wf hs.pages (fill_wf _ (hs.pages _) _ ⟨hx, hy⟩)) (putPage_width ..) rfl hs.latchedPalette rfl
      (fun _ he => by cases he)
  | copyEnds hp =>
    refine notify_pictureLawful ?_ _
    exact hs.of_same (copyDone_pages hs.pages _) (putPage_width ..) rfl hs.latchedPalette rfl (fun _ he => he)
  | writeEnds b hx hu => exact (hu ▸ passTo_pictureLawful hs _).of_blocks rfl rfl rfl rfl
  | checkPasses m hx hu hread =>
    refine notify_pictureLawful ?_ _
    exact (hu ▸ passTo_pictureLawful hs _).of_blocks rfl rfl rfl rfl
  | checkFails m hx hu hread => exact (hu ▸ passTo_pictureLawful hs _).of_blocks rfl rfl rfl rfl
  | markEnds b hx hu => exact (hu ▸ passTo_pictureLawful hs _).of_blocks rfl rfl rfl rfl
  | burnFails m hx hu =>
    refine notify_pictureLawful ?_ _
    exact (hu ▸ passTo_pictureLawful hs _).of_blocks rfl rfl rfl rfl
  | scanGoesOn r hg hu hv hnext =>
    subst hv
    exact (hu ▸ passTo_pictureLawful hs _).of_blocks rfl rfl rfl rfl
  | scanEnds r hg hu hv hnext =>
    subst hv
    refine notify_pictureLawful ?_ _
    exact (hu ▸ passTo_pictureLawful hs _).of_blocks rfl rfl rfl rfl
  | @patrolEnds g u v r hg hu hv =>
    have hq := passTo_pictureLawful hs (s.tu.testStart + testTime)
    rw [← hu] at hq
    have hvq : v.PictureLawful := by
      obtain hv | hv := hv <;> rw [hv]
      · exact hq.of_blocks rfl rfl rfl rfl
      · refine notify_pictureLawful ?_ _
        exact hq.of_blocks rfl rfl rfl rfl
    exact hvq.of_blocks rfl rfl rfl rfl
  | edges m hready => exact edge_pictureLawful (passTo_pictureLawful hs m)
  | expires hready => exact frameTimerExpires_pictureLawful hs
  | scansOut hphase => exact hs.of_same hs.pages rfl rfl hs.latchedPalette rfl (fun _ he => he)
  | links c => exact hs.of_blocks rfl rfl rfl rfl
  | receives c r => exact hs.of_blocks rfl rfl rfl (arrive_keeps _ _ _).1
  | joins ys n f =>
    refine State.PictureLawful.of_blocks (s := s) hs rfl rfl rfl ?_
    exact createNotice_executing _ _ _ _
  | drops ys =>
    refine notify_pictureLawful ?_ _
    exact hs.of_blocks rfl rfl rfl rfl
  | sends hx =>
    obtain ⟨r, rs, -, -, rfl⟩ | ⟨-, n, -, -, rfl⟩ := ownCandidate_cases hx <;> exact hs.of_blocks rfl rfl rfl rfl
  | goesCold c b ht =>
    have hcold : (s.toCold b).PictureLawful := by
      have hwidth : 256 ∈ canvasWidths := by decide
      refine ⟨hs.pageA, hs.pageB, hwidth, rfl, rfl, fun e he => ?_, defaultBands_legal hwidth, fun o ho => ?_, fun z hz => ?_, fun o z ho => ?_⟩
      · cases he
      · cases ho
      · cases hz
      · cases ho
    obtain rfl | rfl := ht <;> exact hcold.of_blocks rfl rfl rfl rfl
  | linesChange c hmore =>
    obtain ⟨same, -⟩ := (afterLines_blocks s _ _).1
    have hru := same .ru (by decide)
    exact hs.of_blocks (same .fs (by decide)).symm (same .pu (by decide)).symm (same .cs (by decide)).symm
      (congrArg RequestUnit.executing hru).symm
  | startsUp m hrunning hstarting =>
    refine notify_pictureLawful ?_ _
    exact hs.of_same (fun p => by cases p <;> rfl) rfl rfl hs.latchedPalette rfl (fun _ he => he)

end Sys2Proof.Machine
end

section
/-! SUPPORT. The statement on the picture's laws settled. -/

namespace Sys2Proof.Settled

open Sys2Proof.Machine

/-- Settles O54: every effect of a command keeps the laws, and the commands that wait are in none of them. -/
theorem pictureStaysLawful : Obligations.PictureStaysLawful := by
  intro s t hs ht
  obtain rfl | ⟨c, rest, hc⟩ := step_does ht
  · exact hs
  · exact hc.pictureLawful (hs.of_blocks rfl rfl rfl rfl)

end Sys2Proof.Settled
end

section
/-! SUPPORT. The map's consistency (R79, R80, R94, R109, R114, R118, R131) in two halves: what the repair map and the fuse store hold of each other,
and in which mode each engine runs; and each half kept by every effect of a command. -/

namespace Sys2Proof.Machine

/-- The half on the map and the fuses: routes and uses match, uses and classifications agree, and a burn's subject is WRITING and SOFT-routed. -/
structure MapAgrees (x : RowDrive) (f : FuseStore) : Prop where
  matched : ∀ g, (x.segment g).Matched
  agrees : ∀ g k, useAgrees ((x.segment g).spare k).use (f.classOf g k)
  writing : ∀ g k, f.classOf g k = .writing ↔ ∃ y, f.burn.subject = some y ∧ y.seg = g ∧ y.spare = k
  subject : ∀ y, f.burn.subject = some y → ((x.segment y.seg).primary y.primary).route = .soft y.spare

/-- The half on the engines and the mode: burn and scan in MAINTENANCE, the patrol test while the patrol is active, none while held or STARTING. -/
structure State.EnginesLawful (s : State) : Prop where
  burnMode : s.fz.burn.busy = true → s.mc.mode = .maintenance ∧ s.tu.scan = .idle
  scanMode : s.tu.scan ≠ .idle → s.mc.mode = .maintenance
  patrolMode : s.tu.patrolTest ≠ none → patrolActive s.tu.patrolOn s.mc.mode = true
  held : s.running = false → s.mc.startUp = .starting
  starting : s.mc.startUp = .starting → s.mc.mode = .off

/-- The two halves are the whole. -/
theorem mapConsistent_iff {s : State} : s.MapConsistent ↔ MapAgrees s.rd s.fz ∧ s.EnginesLawful :=
  ⟨fun h => ⟨⟨h.matched, h.agrees, h.writing, h.subject⟩, ⟨h.burnMode, h.scanMode, h.patrolMode, h.held, h.starting⟩⟩,
    fun ⟨a, b⟩ => ⟨a.matched, a.agrees, a.writing, a.subject, b.burnMode, b.scanMode, b.patrolMode, b.held, b.starting⟩⟩

/-- The engine is out of IDLE exactly while it has a subject. -/
theorem busy_iff_subject {b : BurnEngine} : b.busy = true ↔ b.subject ≠ none := by cases b <;> simp [BurnEngine.busy, BurnEngine.subject]

/-! ## The map and the fuses -/

section Map
variable {x y : RowDrive} {f f' : FuseStore}

/-- Only the routes and uses, the classifications and the subject matter. -/
theorem MapAgrees.congr (h : MapAgrees x f) (hx : y.segments = x.segments) (hheld : f'.held = f.held)
    (hsubject : f'.burn.subject = f.burn.subject) : MapAgrees y f' := by
  have hsegment : ∀ g, y.segment g = x.segment g := fun g => by rw [RowDrive.segment, hx]; rfl
  have hclass : ∀ g k, f'.classOf g k = f.classOf g k := fun g k => by rw [FuseStore.classOf, hheld]; rfl
  refine ⟨fun g => hsegment g ▸ h.matched g, fun g k => ?_, fun g k => ?_, fun z hz => ?_⟩
  · rw [hsegment, hclass]; exact h.agrees g k
  · rw [hclass, hsubject]; exact h.writing g k
  · rw [hsegment]; exact h.subject z (hsubject ▸ hz)

/-- One segment may change to a matched one with the same HARD and DAMAGED uses, in which the burn's primary keeps its route. -/
theorem MapAgrees.putSegment (h : MapAgrees x f) {g : Fin 6} {a : Segment} (hm : a.Matched) (hk : (x.segment g).KeepsHard a)
    (hsubject : ∀ z, f.burn.subject = some z → z.seg = g → (a.primary z.primary).route = .soft z.spare) :
    MapAgrees (x.putSegment g a) f := by
  have hsub : ∀ z, f.burn.subject = some z → (((x.putSegment g a).segment z.seg).primary z.primary).route = .soft z.spare := by
    intro z hz
    rw [segment_putSegment]
    split
    · rename_i hg; exact hsubject z hz hg
    · exact h.subject z hz
  have hmatched : ∀ g', ((x.putSegment g a).segment g').Matched := by
    intro g'
    rw [segment_putSegment]
    split
    · exact hm
    · exact h.matched g'
  refine ⟨hmatched, fun g' k => ?_, h.writing, hsub⟩
  refine ⟨fun p => ?_, ?_, fun hw => ?_⟩
  · rw [← (h.agrees g' k).hard p, segment_putSegment]
    split
    · rename_i hg; subst hg; exact (hk k).1 p
    · exact Iff.rfl
  · rw [← (h.agrees g' k).damaged, segment_putSegment]
    split
    · rename_i hg; subst hg; exact (hk k).2
    · exact Iff.rfl
  · obtain ⟨z, hz, rfl, rfl⟩ := (h.writing g' k).1 hw
    exact ⟨z.primary, ((hmatched z.seg).soft _ _).1 (hsub z hz)⟩

/-- A burn of a SOFT-routed primary begins: WRITING on a record that is the only one (R109). -/
theorem MapAgrees.beginBurn (h : MapAgrees x f) (hidle : f.burn = .idle) {z : Subject}
    (hroute : ((x.segment z.seg).primary z.primary).route = .soft z.spare) (m : Nat) :
    MapAgrees x { f.putHeld z .writing with burn := .write z, entered := m } := by
  have hclass : ∀ g k, ({ f.putHeld z .writing with burn := .write z, entered := m } : FuseStore).classOf g k =
      if g = z.seg ∧ k = z.spare then .writing else f.classOf g k := get_set_held f z .writing
  have hnone : ∀ g k, f.classOf g k ≠ .writing := fun g k hw => by
    obtain ⟨y, hy, -⟩ := (h.writing g k).1 hw
    rw [hidle] at hy; cases hy
  refine ⟨h.matched, fun g k => ?_, fun g k => ?_, fun y hy => ?_⟩
  · rw [hclass]
    split
    · rename_i hgk
      obtain ⟨rfl, rfl⟩ := hgk
      rw [((h.matched z.seg).soft _ _).1 hroute]
      exact ⟨by simp, by simp, fun _ => ⟨_, rfl⟩⟩
    · exact h.agrees g k
  · rw [hclass]
    refine ⟨fun hw => ?_, fun ⟨y, hy, hg, hk⟩ => ?_⟩
    · split at hw
      · rename_i hgk; exact ⟨z, rfl, hgk.1.symm, hgk.2.symm⟩
      · exact absurd hw (hnone g k)
    · cases hy; rw [if_pos ⟨hg.symm, hk.symm⟩]
  · cases hy; exact hroute

/-- A burn ends: its record's class and its spare's use change together, from WRITING and SOFT to a pair that agrees (R111, R112). -/
theorem MapAgrees.endBurn (h : MapAgrees x f) {z : Subject} (hz : f.burn.subject = some z) {c : FuseClass} {a : Segment}
    (hm : a.Matched) (huse : useAgrees (a.spare z.spare).use c) (hc : c ≠ .writing)
    (hother : ∀ k, k ≠ z.spare → (a.spare k).use = ((x.segment z.seg).spare k).use) (m : Nat) :
    MapAgrees (x.putSegment z.seg a) { f.putHeld z c with burn := .idle, entered := m } := by
  have hclass : ∀ g k, ({ f.putHeld z c with burn := .idle, entered := m } : FuseStore).classOf g k =
      if g = z.seg ∧ k = z.spare then c else f.classOf g k := get_set_held f z c
  have hnone : ∀ g k, (if g = z.seg ∧ k = z.spare then c else f.classOf g k) ≠ .writing := fun g k hw => by
    split at hw
    · exact hc hw
    · rename_i hne
      obtain ⟨y, hy, hg, hk⟩ := (h.writing g k).1 hw
      rw [hz] at hy
      cases hy
      exact hne ⟨hg.symm, hk.symm⟩
  refine ⟨fun g => ?_, fun g k => ?_, fun g k => ?_, fun y hy => by cases hy⟩
  · rw [segment_putSegment]
    split
    · exact hm
    · exact h.matched g
  · rw [hclass, segment_putSegment]
    by_cases hg : g = z.seg
    · rw [if_pos hg]
      by_cases hk : k = z.spare
      · rw [if_pos ⟨hg, hk⟩, hk]; exact huse
      · rw [if_neg fun e => hk e.2, hother k hk, hg]; exact h.agrees z.seg k
    · rw [if_neg hg, if_neg fun e => hg e.1]; exact h.agrees g k
  · rw [hclass]
    exact ⟨fun hw => absurd hw (hnone g k), fun ⟨y, hy, _⟩ => by cases hy⟩

/-- A burn that passed its check: HARD (R111). -/
theorem MapAgrees.burnPasses (h : MapAgrees x f) {z : Subject} (hz : f.burn.subject = some z) (m : Nat) :
    MapAgrees (x.putSegment z.seg ((x.segment z.seg).makeHard z.primary z.spare))
      { f.putHeld z (.programmed z.primary) with burn := .idle, entered := m } := by
  refine h.endBurn hz (makeHard_matched (h.matched _) (h.subject z hz)) ?_ (by simp) (fun k hk => ?_) m
  · rw [makeHard_use, if_pos rfl]
    exact ⟨by simp, by simp, by simp⟩
  · rw [makeHard_use, if_neg hk]

/-- A burn that failed: DAMAGED (R112). -/
theorem MapAgrees.burnFails (h : MapAgrees x f) {z : Subject} (hz : f.burn.subject = some z) {c : FuseClass}
    (hc : c = .damaged ∨ c = .inconsistent) (m : Nat) :
    MapAgrees (x.putSegment z.seg ((x.segment z.seg).spoil z.primary z.spare)) { f.putHeld z c with burn := .idle, entered := m } := by
  have huse := (spoil_reroutes (x.segment z.seg) z.primary z.spare).2
  refine h.endBurn hz (spoil_matched (h.matched _) (h.subject z hz)) ?_ (by rintro rfl; simp at hc) (fun k hk => ?_) m
  · rw [huse, if_pos rfl]
    refine ⟨fun p => ?_, by simpa using hc, fun hw => ?_⟩
    · rcases hc with rfl | rfl <;> simp
    · rw [hw] at hc; simp at hc
  · rw [huse, if_neg hk]

/-- A map just built agrees with the classifications it was built from, when none is WRITING and no burn runs (R83, R104). -/
theorem build_mapAgrees {f : FuseStore} (hidle : f.burn = .idle) (hwriting : ∀ g k, f.classOf g k ≠ .writing)
    (hne : ∀ g p, ¬ ((f.held.get g).v16 = .programmed p ∧ (f.held.get g).v17 = .programmed p)) : MapAgrees (RowDrive.build f.held) f := by
  have hroute : ∀ g p k, (((RowDrive.build f.held).segment g).primary p).route = .hard k ↔ f.classOf g k = .programmed p := by
    intro g p k; rw [build_segment]; exact ((build_records _ (hne g)).1 p).2.1 k
  have hdirect : ∀ g p, (∀ k, f.classOf g k ≠ .programmed p) → (((RowDrive.build f.held).segment g).primary p).route = .direct := by
    intro g p; rw [build_segment]; exact ((build_records _ (hne g)).1 p).2.2
  have huse : ∀ g k, (((RowDrive.build f.held).segment g).spare k).use =
      (match f.classOf g k with
        | .programmed p => .hard p
        | .damaged | .inconsistent => .damaged
        | .blank | .writing => .free) := by
    intro g k; rw [build_segment]; exact ((build_records _ (hne g)).2 k).2
  have hnosoft : ∀ g p k, (((RowDrive.build f.held).segment g).spare k).use ≠ .soft p := by
    intro g p k
    rw [huse]
    cases f.classOf g k <;> simp
  refine ⟨fun g => ⟨fun p k => ?_, fun p k => ?_, fun p k hk => absurd hk (hnosoft g p k)⟩, fun g k => ?_, fun g k => ?_, fun y hy => ?_⟩
  · refine iff_of_false (fun hr => ?_) (hnosoft g p k)
    by_cases hp : ∃ k', f.classOf g k' = .programmed p
    · obtain ⟨k', hk'⟩ := hp
      rw [(hroute g p k').2 hk'] at hr; cases hr
    · rw [hdirect g p fun k' hk' => hp ⟨k', hk'⟩] at hr; cases hr
  · rw [hroute, huse]
    cases f.classOf g k <;> simp [eq_comm]
  · rw [huse]
    have := hwriting g k
    cases hc : f.classOf g k <;> first | exact absurd hc this | exact ⟨by simp, by simp, by simp⟩
  · exact iff_of_false (hwriting g k) (by rw [hidle]; rintro ⟨y, hy, -⟩; cases hy)
  · rw [hidle] at hy; cases hy

end Map

/-! ## The engines and the mode -/

section Engines
variable {s t : State}

/-- A change that keeps the burn's subject, the scan, the mode and the lines, and starts a patrol test only while the patrol is active. -/
theorem State.EnginesLawful.of_same (h : s.EnginesLawful) (hsubject : t.fz.burn.subject = s.fz.burn.subject)
    (hscan : t.tu.scan = s.tu.scan) (hpatrol : t.tu.patrolTest ≠ none → patrolActive t.tu.patrolOn t.mc.mode = true)
    (hmc : t.mc = s.mc) (hrunning : t.running = s.running) : t.EnginesLawful := by
  refine ⟨fun hb => ?_, fun hne => ?_, hpatrol, fun hr => ?_, fun hst => ?_⟩
  · rw [busy_iff_subject, hsubject, ← busy_iff_subject] at hb
    rw [hmc, hscan]; exact h.burnMode hb
  · rw [hmc]; exact h.scanMode (hscan ▸ hne)
  · rw [hmc]; exact h.held (hrunning ▸ hr)
  · rw [hmc] at hst ⊢; exact h.starting hst

end Engines

/-! ## The whole, under each change -/

section Whole
variable {s t : State}

/-- A change of other blocks than the map, the fuses, the tests and the mode keeps the map consistent. -/
theorem State.MapConsistent.of_blocks (h : s.MapConsistent) (hrd : t.rd.segments = s.rd.segments) (hfz : t.fz = s.fz) (htu : t.tu = s.tu)
    (hmc : t.mc = s.mc) (hrunning : t.running = s.running) : t.MapConsistent := by
  obtain ⟨ha, he⟩ := mapConsistent_iff.1 h
  exact mapConsistent_iff.2 ⟨ha.congr hrd (by rw [hfz]) (by rw [hfz]),
    he.of_same (by rw [hfz]) (by rw [htu]) (by rw [htu, hmc]; exact he.patrolMode) hmc hrunning⟩

/-- A change of the map or the fuses that keeps them agreed, and the burn's subject. -/
theorem State.MapConsistent.of_map (h : s.MapConsistent) (hmap : MapAgrees t.rd t.fz) (hsubject : t.fz.burn.subject = s.fz.burn.subject)
    (htu : t.tu = s.tu) (hmc : t.mc = s.mc) (hrunning : t.running = s.running) : t.MapConsistent := by
  have he := (mapConsistent_iff.1 h).2
  exact mapConsistent_iff.2 ⟨hmap, he.of_same hsubject (by rw [htu]) (by rw [htu, hmc]; exact he.patrolMode) hmc hrunning⟩

/-- A change of the tests or the mode. -/
theorem State.MapConsistent.of_engines (h : s.MapConsistent) (hrd : t.rd.segments = s.rd.segments) (hfz : t.fz = s.fz)
    (he : t.EnginesLawful) : t.MapConsistent :=
  mapConsistent_iff.2 ⟨(mapConsistent_iff.1 h).1.congr hrd (by rw [hfz]) (by rw [hfz]), he⟩

theorem latchFrame_mapConsistent (h : s.MapConsistent) : s.latchFrame.MapConsistent := by
  refine h.of_engines rfl rfl ((mapConsistent_iff.1 h).2.of_same rfl (latchFrame_keeps s).2.2.2.2.2.2.2.1 (fun hp => ?_) rfl rfl)
  have hon := (latchFrame_keeps s).2.2.2.2.2.2.2.2.2
  rw [hon]
  obtain hsame | hactive := latchFrame_patrolTest s
  · exact h.patrolMode (hsame ▸ hp)
  · exact hactive

theorem running_congr (hp : t.powerGood = s.powerGood) (hr : t.resetLine = s.resetLine) : t.running = s.running := by
  rw [State.running, State.running, hp, hr]

theorem applyDue_mapConsistent (h : s.MapConsistent) : s.applyDue.MapConsistent := by
  obtain ⟨-, htu, hrd, hfz, hmc, -⟩ := applyDue_keeps s
  obtain ⟨-, hp, hr, -⟩ := applyDue_lines s
  exact h.of_blocks (by rw [hrd]) hfz htu hmc (running_congr hp hr)

theorem countedEvent_mapConsistent (h : s.MapConsistent) : s.countedEvent.MapConsistent :=
  latchFrame_mapConsistent (applyDue_mapConsistent h)

theorem notify_mapConsistent (h : s.MapConsistent) (d : Details) : (s.notify d).MapConsistent := h.of_blocks rfl rfl rfl rfl rfl

theorem frameTimerExpires_mapConsistent (h : s.MapConsistent) : s.frameTimerExpires.MapConsistent := by
  unfold State.frameTimerExpires
  split
  · refine latchFrame_mapConsistent ?_; exact h.of_blocks rfl rfl rfl rfl rfl
  · refine notify_mapConsistent (latchFrame_mapConsistent ?_) _; exact h.of_blocks rfl rfl rfl rfl rfl
  · refine latchFrame_mapConsistent ?_; exact h.of_blocks rfl rfl rfl rfl rfl
  · refine countedEvent_mapConsistent ?_; exact h.of_blocks rfl rfl rfl rfl rfl

theorem reach_mapConsistent (h : s.MapConsistent) (m : Nat) : (s.reach m).MapConsistent :=
  reach_keeps (P := State.MapConsistent) (fun _ _ => frameTimerExpires_mapConsistent) m h

theorem passTo_mapConsistent (h : s.MapConsistent) (m : Nat) : (s.passTo m).MapConsistent :=
  (reach_mapConsistent h m).of_blocks rfl rfl rfl rfl rfl

theorem edge_mapConsistent (h : s.MapConsistent) : s.edge.MapConsistent := by
  unfold State.edge
  split
  · refine countedEvent_mapConsistent ?_; exact h.of_blocks rfl rfl rfl rfl rfl
  · split
    · exact h.of_blocks rfl rfl rfl rfl rfl
    · refine countedEvent_mapConsistent ?_; exact h.of_blocks rfl rfl rfl rfl rfl
  · refine countedEvent_mapConsistent (notify_mapConsistent ?_ _); exact h.of_blocks rfl rfl rfl rfl rfl
  · exact h

theorem takes_mapConsistent (h : s.MapConsistent) (k : Take) : (s.takes k).MapConsistent :=
  (reach_mapConsistent h k.moment).of_blocks rfl rfl rfl rfl rfl

theorem answer_mapConsistent (h : s.MapConsistent) (q : Queued) (r : Result) (p : List Byte) : (s.answer q r p).MapConsistent :=
  h.of_blocks (by rw [answer_rd]) (answer_fz ..) (answer_tu ..) (answer_mc ..) (running_congr (answer_powerGood ..) (answer_resetLine ..))

/-- The passing of time leaves the burn and the tests where they were. -/
theorem passTo_fz (s : State) (m : Nat) : (s.passTo m).fz = s.fz := (reach_fields s m).2.2.1

theorem passTo_mc (s : State) (m : Nat) : (s.passTo m).mc = s.mc := (reach_fields s m).2.2.2.1

/-- One segment changes to one that matches and keeps HARD and DAMAGED uses and the burn's route. -/
theorem putSegment_mapConsistent (h : s.MapConsistent) {g : Fin 6} {a : Segment} (hm : a.Matched) (hk : (s.rd.segment g).KeepsHard a)
    (hsubject : ∀ z, s.fz.burn.subject = some z → z.seg = g → (a.primary z.primary).route = .soft z.spare) :
    (s.withRd (s.rd.putSegment g a)).MapConsistent :=
  h.of_map ((mapConsistent_iff.1 h).1.putSegment hm hk hsubject) rfl rfl rfl rfl

/-- No burn runs while a scan or a patrol test does (R114, R118). -/
theorem burn_idle_of_test (h : s.MapConsistent) (ht : s.tu.scan ≠ .idle ∨ s.tu.patrolTest ≠ none) : s.fz.burn.subject = none := by
  by_contra hne
  obtain ⟨hmode, hscan⟩ := h.burnMode (busy_iff_subject.2 hne)
  rcases ht with ht | ht
  · exact ht hscan
  · have hactive := ((patrolActive_iff _ _).1 (h.patrolMode ht)).2
    rw [hmode] at hactive
    simp at hactive

/-- A test result keeps the map consistent, as no burn runs. -/
theorem applyTest_mapConsistent (h : s.MapConsistent) (hburn : s.fz.burn.subject = none) (g : GlobalChannel) (r : TestResult) :
    (s.withRd (s.rd.applyTest g r).1).MapConsistent := by
  obtain ⟨hm, hk, -⟩ := segment_applyTest_keeps (h.matched (segmentOf g)) s.rd.policy (channelOf g) r
  exact putSegment_mapConsistent h hm hk fun z hz => by rw [hburn] at hz; cases hz

end Whole

/-! ## Requests -/

section Own
variable {s t : State} {p reply : List Byte}

theorem repair_mapConsistent (h : s.MapConsistent) (ht : s.repair p = .ok (t, reply)) : t.MapConsistent := by
  obtain rfl | ⟨g, c, k, hdirect, hfree, rfl⟩ := repair_ok ht
  · exact h
  · refine putSegment_mapConsistent h (makeSoft_matched (h.matched g) hdirect hfree) (makeSoft_keepsHard hfree) fun z hz hg => ?_
    have hz' := h.subject z hz
    subst hg
    rw [makeSoft_route, if_neg]
    · exact hz'
    · rintro rfl; rw [hdirect] at hz'; cases hz'

theorem release_mapConsistent (h : s.MapConsistent) (ht : s.release p = .ok (t, reply)) : t.MapConsistent := by
  obtain ⟨g, c, k, hsoft, hburn, rfl⟩ := release_ok ht
  refine putSegment_mapConsistent h (dropSoft_matched (h.matched g) hsoft)
    (dropSoft_keepsHard (((h.matched g).soft _ _).1 hsoft)) fun z hz hg => ?_
  have hz' := h.subject z hz
  subst hg
  rw [dropSoft_route, if_neg]
  · exact hz'
  · intro hc; simp [BurnEngine.burnsPrimary, hz, hc] at hburn

theorem markFaulty_mapConsistent (h : s.MapConsistent) (ht : s.markFaulty p = .ok (t, reply)) : t.MapConsistent := by
  obtain ⟨g, hburn, rfl⟩ := markFaulty_ok ht
  obtain ⟨hm, hk, hkeep⟩ := mark_keeps (h.matched (segmentOf g)) s.rd.policy (channelOf g)
  refine putSegment_mapConsistent h hm hk fun z hz hg => ?_
  have hz' := h.subject z hz
  rw [hg] at hz'
  refine hkeep _ _ (fun hc => ?_) hz'
  simp [BurnEngine.burnsChannel, hz, hc, hg] at hburn

theorem clearFault_mapConsistent (h : s.MapConsistent) (ht : s.clearFault p = .ok (t, reply)) : t.MapConsistent := by
  obtain ⟨g, rfl⟩ := clearFault_ok ht
  refine putSegment_mapConsistent h (setCondition_matched (h.matched _) _ _ (Or.inl rfl)) (setCondition_keepsHard _ _ _) fun z hz hg => ?_
  rw [setCondition_route, ← hg]
  exact h.subject z hz

theorem burnRequest_mapConsistent (h : s.MapConsistent) (ht : s.burnRequest p = .ok (t, reply)) : t.MapConsistent := by
  obtain ⟨z, hmode, hidle, hscan, hroute, rfl⟩ := burnRequest_ok ht
  refine mapConsistent_iff.2 ⟨(mapConsistent_iff.1 h).1.beginBurn hidle hroute s.now, ?_⟩
  exact ⟨fun _ => ⟨hmode, hscan⟩, fun hne => absurd hscan hne, h.patrolMode, h.held, h.starting⟩

theorem scan_isRunning_iff {x : ScanEngine} : x.isRunning = true ↔ x ≠ .idle := by cases x <;> simp [ScanEngine.isRunning]

/-- A change of mode, with no burn and after start-up, stops what the new mode does not allow (R126, R133, R141). -/
theorem changeMode_mapConsistent (h : s.MapConsistent) (hready : s.mc.startUp = .ready) (hburn : s.fz.burn.busy = false) {m : Mode}
    (hm : m ≠ s.mc.mode) : (s.changeMode m).MapConsistent := by
  obtain ⟨hmc, -, -, -, -, -, hrd, hfz, -, hpatrol, hon, -, hscan, -⟩ := changeMode_fields s m
  have hst : (s.changeMode m).mc.startUp = .ready := by rw [hmc]; exact hready
  refine h.of_engines (by rw [hrd]) hfz ⟨fun hb => ?_, fun hne => ?_, fun hp => ?_, fun hr => ?_, fun hs => ?_⟩
  · rw [hfz, hburn] at hb; cases hb
  · rw [hscan] at hne
    split at hne
    · exact absurd rfl hne
    · rename_i hc
      exact absurd ⟨h.scanMode hne, scan_isRunning_iff.2 hne⟩ hc
  · rw [hpatrol] at hp
    split at hp
    · exact absurd rfl hp
    · rename_i hmode
      obtain ⟨hon', -⟩ := (patrolActive_iff _ _).1 (h.patrolMode hp)
      rw [hon, hmc, patrolActive_iff]
      refine ⟨hon', ?_⟩
      cases m <;> simp at hmode ⊢
  · obtain ⟨-, hpw, hrl, -⟩ := changeMode_same s m
    rw [running_congr hpw hrl] at hr
    rw [h.held hr] at hready; cases hready
  · rw [hst] at hs; cases hs

theorem restart_mapConsistent (h : s.MapConsistent) (hready : s.mc.startUp = .ready) (ht : s.restartRequest p = .ok (t, reply)) :
    t.MapConsistent := by
  obtain ⟨hburn, rfl⟩ := restart_ok ht
  refine h.of_engines rfl rfl ⟨fun hb => ?_, fun hne => absurd rfl hne, fun hp => ?_, h.held, fun hs => ?_⟩
  · exact absurd (hburn.symm.trans hb) (by simp)
  · by_cases hc : patrolActive s.tu.patrolOn s.mc.mode.afterRestart = true
    · exact hc
    · exact absurd (if_neg hc) hp
  · exact absurd (hready.symm.trans hs) (by simp)

theorem setPatrol_mapConsistent (h : s.MapConsistent) (ht : s.setPatrol p = .ok (t, reply)) : t.MapConsistent := by
  obtain rfl | rfl := setPatrol_ok ht
  · refine h.of_engines rfl rfl ((mapConsistent_iff.1 h).2.of_same rfl rfl (fun hp => ?_) rfl rfl)
    exact (patrolActive_iff _ _).2 ⟨rfl, ((patrolActive_iff _ _).1 (h.patrolMode hp)).2⟩
  · exact h.of_engines rfl rfl ((mapConsistent_iff.1 h).2.of_same rfl rfl (fun hp => absurd rfl hp) rfl rfl)

theorem setSync_mapConsistent (h : s.MapConsistent) (ht : s.setSync p = .ok (t, reply)) : t.MapConsistent := by
  obtain ⟨x, m, -, -, hx⟩ := setSync_ok ht
  obtain ⟨⟨same, hpw, hrl, -⟩, -⟩ := applySync_keeps s x m
  have hrd : (s.applySync x m).rd = s.rd := (same .rd (by decide)).symm
  have hsync : (s.applySync x m).MapConsistent := h.of_blocks (by rw [hrd]) (same .fz (by decide)).symm
    (same .tu (by decide)).symm (same .mc (by decide)).symm (running_congr hpw.symm hrl.symm)
  obtain ⟨-, -, rfl⟩ | rfl := hx
  · exact hsync
  · unfold State.expireOverdue
    split
    · exact frameTimerExpires_mapConsistent hsync
    · exact hsync

/-- The own rule of a request keeps the map consistent, after start-up. -/
theorem own_mapConsistent {kind : Kind} {own : State → List Byte → Answered} (h : s.MapConsistent) (hready : s.mc.startUp = .ready)
    (hown : ownRule kind = some own) (ht : own s p = .ok (t, reply)) : t.MapConsistent := by
  have untouched : Block.rd ∉ ownBlocks kind → Block.fz ∉ ownBlocks kind → Block.tu ∉ ownBlocks kind → Block.mc ∉ ownBlocks kind →
      t.MapConsistent := by
    intro hrd hfz htu hmc
    obtain ⟨same, hpw, hrl, -⟩ := own_sameBlocks hown ht
    have hrd' : t.rd = s.rd := same .rd hrd
    exact h.of_blocks (by rw [hrd']) (same .fz hfz) (same .tu htu) (same .mc hmc) (running_congr hpw hrl)
  cases kind <;> cases hown
  case restart => exact restart_mapConsistent h hready ht
  case setMode =>
    obtain ⟨hburn, rfl | ⟨m, hm, rfl⟩⟩ := setMode_ok ht
    · exact h
    · exact changeMode_mapConsistent h hready hburn hm
  case setSync => exact setSync_mapConsistent h ht
  case repair => exact repair_mapConsistent h ht
  case release => exact release_mapConsistent h ht
  case markFaulty => exact markFaulty_mapConsistent h ht
  case clearFault => exact clearFault_mapConsistent h ht
  case setRepairPolicy => obtain ⟨x, rfl⟩ := setRepairPolicy_ok ht; exact h.of_blocks rfl rfl rfl rfl rfl
  case burn => exact burnRequest_mapConsistent h ht
  case scan =>
    obtain ⟨hmode, hidle, rfl⟩ := startScan_ok ht
    refine h.of_engines rfl rfl ⟨fun hb => ?_, fun _ => hmode, h.patrolMode, h.held, h.starting⟩
    exact absurd ((burnBusy_eq_false_iff.2 hidle).symm.trans hb) (by simp)
  case scanAbort =>
    obtain rfl := scanAbort_ok ht
    refine notify_mapConsistent ?_ _
    exact h.of_engines rfl rfl ⟨fun hb => ⟨(h.burnMode hb).1, rfl⟩, fun hne => absurd rfl hne, h.patrolMode, h.held, h.starting⟩
  case setPatrol => exact setPatrol_mapConsistent h ht
  all_goals exact untouched (by decide) (by decide) (by decide) (by decide)

end Own

/-! ## Every effect -/

theorem State.AtHead.startUp_ready {s : State} {k : Take} {q : Queued} {rest : List Queued} (hq : s.AtHead k q rest) :
    s.mc.startUp = .ready := by
  have := hq.ready
  simp only [State.ready, Bool.and_eq_true, beq_iff_eq] at this
  exact this.2

theorem takes_startUp {s : State} {k : Take} {q : Queued} {rest : List Queued} (hq : s.AtHead k q rest) :
    (s.takes k).mc.startUp = .ready := by
  show (s.reach k.moment).mc.startUp = .ready
  exact (hq.reach k.moment).startUp_ready

/-- Cold-reset values agree: every channel fresh, every classification BLANK, no engine running (R83, R105). -/
theorem toCold_mapConsistent (s : State) (b : Blows) : (s.toCold b).MapConsistent := by
  have hsegment : ∀ g, (s.toCold b).rd.segment g = Segment.fresh := by
    intro g; simp [State.toCold, RowDrive.cold, RowDrive.segment, Vector.get_eq_getElem]
  have hclass : ∀ g k, (s.toCold b).fz.classOf g k = .blank := by
    intro g k
    cases k <;> simp [State.toCold, FuseStore.coldReset, FuseStore.classOf, heldBlank, Vector.get_eq_getElem, SparePair.get]
  refine mapConsistent_iff.2 ⟨⟨fun g => ?_, fun g k => ?_, fun g k => ?_, fun y hy => (by cases hy)⟩,
    ⟨fun hb => (by cases hb), fun hne => absurd rfl hne, fun hp => absurd rfl hp, fun _ => rfl, fun _ => rfl⟩⟩
  · rw [hsegment]; exact fresh_matched
  · rw [hsegment, hclass, fresh_spare]; exact ⟨by simp, by simp, by simp⟩
  · rw [hclass]; exact iff_of_false (by simp) (by rintro ⟨y, hy, -⟩; cases hy)

/-- A burn's events keep the map consistent. -/
theorem Does.mapConsistent_burn {s u : State} {m : Nat} {x : Subject} (hs : s.MapConsistent) (hu : u = s.passTo m)
    (hx : s.fz.burn.subject = some x) : u.MapConsistent ∧ u.fz.burn.subject = some x := by
  rw [hu]
  exact ⟨passTo_mapConsistent hs m, by rw [passTo_fz]; exact hx⟩

/-- The end of a burn keeps the map consistent when it keeps map and fuses agreed. -/
theorem endBurn_mapConsistent {s : State} {x : Subject} {c : FuseClass} {a : Segment} (h : s.MapConsistent)
    (hmap : MapAgrees (s.rd.putSegment x.seg a) { s.fz.putHeld x c with burn := .idle, entered := s.now }) :
    (s.endBurn x c a).MapConsistent := by
  refine notify_mapConsistent (mapConsistent_iff.2 ⟨hmap, ?_⟩) _
  exact ⟨fun hb => (by cases hb), h.scanMode, h.patrolMode, h.held, h.starting⟩

/-- Every effect of a command keeps the map consistent. -/
theorem Does.mapConsistent {s t : State} {c : Instr} (h : Does s c t) (hs : s.MapConsistent) : t.MapConsistent := by
  cases h with
  | idles => exact hs
  | refuses r hrow hq => exact answer_mapConsistent (takes_mapConsistent hs _) _ _ _
  | answers hrow hown hq hu =>
    exact answer_mapConsistent (own_mapConsistent (takes_mapConsistent hs _) (takes_startUp hq) hown hu) _ _ _
  | fills hq hjob => exact (takes_mapConsistent hs _).of_blocks rfl rfl rfl rfl rfl
  | fillEnds he =>
    refine answer_mapConsistent ?_ _ _ _
    exact hs.of_blocks rfl rfl rfl rfl rfl
  | copyEnds hp =>
    refine notify_mapConsistent ?_ _
    exact hs.of_blocks rfl rfl rfl rfl rfl
  | writeEnds b hx hu =>
    obtain ⟨hc, hsubject⟩ := mapConsistent_burn hs hu (by rw [hx]; rfl)
    exact hc.of_map ((mapConsistent_iff.1 hc).1.congr rfl (blow_keeps _ b).1 hsubject.symm) hsubject.symm rfl rfl rfl
  | checkPasses m hx hu hread =>
    obtain ⟨hc, hsubject⟩ := mapConsistent_burn hs hu (by rw [hx]; rfl)
    exact endBurn_mapConsistent hc ((mapConsistent_iff.1 hc).1.burnPasses hsubject _)
  | checkFails m hx hu hread =>
    obtain ⟨hc, hsubject⟩ := mapConsistent_burn hs hu (by rw [hx]; rfl)
    exact hc.of_map ((mapConsistent_iff.1 hc).1.congr rfl rfl hsubject.symm) hsubject.symm rfl rfl rfl
  | markEnds b hx hu =>
    obtain ⟨hc, hsubject⟩ := mapConsistent_burn hs hu (by rw [hx]; rfl)
    exact hc.of_map ((mapConsistent_iff.1 hc).1.congr rfl (blow_keeps _ b).1 hsubject.symm) hsubject.symm rfl rfl rfl
  | burnFails m hx hu =>
    obtain ⟨hc, hsubject⟩ := mapConsistent_burn hs hu (by rw [hx]; rfl)
    refine endBurn_mapConsistent hc ((mapConsistent_iff.1 hc).1.burnFails hsubject ?_ _)
    split
    · exact Or.inl rfl
    · exact Or.inr rfl
  | @scanGoesOn g h u v r hg hu hv hnext =>
    have hc : u.MapConsistent := hu ▸ passTo_mapConsistent hs _
    have hburn : u.fz.burn.subject = none := by rw [hu, passTo_fz]; exact burn_idle_of_test hs (Or.inl (by simp [hg]))
    have hmode : u.mc.mode = .maintenance := by rw [hu, passTo_mc]; exact hs.scanMode (by simp [hg])
    have hmap := applyTest_mapConsistent hc hburn g r
    subst hv
    refine hmap.of_engines rfl rfl ⟨fun hb => ?_, fun _ => hmode, ?_, hc.held, hc.starting⟩
    · exact absurd hburn (busy_iff_subject.1 hb)
    · obtain ⟨-, hp, hon, -⟩ := recordTest_fields u.tu g r (u.rd.applyTest g r).2
      show (u.tu.recordTest g r (u.rd.applyTest g r).2).patrolTest ≠ none →
        patrolActive (u.tu.recordTest g r (u.rd.applyTest g r).2).patrolOn u.mc.mode = true
      rw [hp, hon]; exact hc.patrolMode
  | @scanEnds g u v r hg hu hv hnext =>
    have hc : u.MapConsistent := hu ▸ passTo_mapConsistent hs _
    have hburn : u.fz.burn.subject = none := by rw [hu, passTo_fz]; exact burn_idle_of_test hs (Or.inl (by simp [hg]))
    have hmap := applyTest_mapConsistent hc hburn g r
    subst hv
    refine notify_mapConsistent ?_ _
    refine hmap.of_engines rfl rfl ⟨fun hb => ?_, fun hne => absurd rfl hne, ?_, hc.held, hc.starting⟩
    · exact absurd hburn (busy_iff_subject.1 hb)
    · obtain ⟨-, hp, hon, -⟩ := recordTest_fields u.tu g r (u.rd.applyTest g r).2
      show (u.tu.recordTest g r (u.rd.applyTest g r).2).patrolTest ≠ none →
        patrolActive (u.tu.recordTest g r (u.rd.applyTest g r).2).patrolOn u.mc.mode = true
      rw [hp, hon]; exact hc.patrolMode
  | @patrolEnds g u v r hg hu hv =>
    have hc : u.MapConsistent := hu ▸ passTo_mapConsistent hs _
    have hburn : u.fz.burn.subject = none := by rw [hu, passTo_fz]; exact burn_idle_of_test hs (Or.inr (by simp [hg]))
    have hmap := applyTest_mapConsistent hc hburn g r
    have hvc : v.MapConsistent := by
      obtain hv | hv := hv <;> rw [hv]
      · exact hmap
      · exact notify_mapConsistent hmap _
    exact hvc.of_engines rfl rfl ((mapConsistent_iff.1 hvc).2.of_same rfl rfl (fun hp => absurd rfl hp) rfl rfl)
  | edges m hready => exact edge_mapConsistent (passTo_mapConsistent hs m)
  | expires hready => exact frameTimerExpires_mapConsistent hs
  | scansOut hphase => exact hs.of_blocks rfl rfl rfl rfl rfl
  | links c => exact hs.of_blocks rfl rfl rfl rfl rfl
  | receives c r => exact hs.of_blocks rfl rfl rfl rfl rfl
  | joins ys n f => exact State.MapConsistent.of_blocks (s := s) hs rfl rfl rfl rfl rfl
  | drops ys => exact hs.of_blocks rfl rfl rfl rfl rfl
  | sends hx => exact hs.of_blocks rfl rfl rfl rfl rfl
  | goesCold c b ht =>
    have hcold := toCold_mapConsistent s b
    obtain rfl | rfl := ht <;>
      exact ⟨hcold.matched, hcold.agrees, hcold.writing, hcold.subject, hcold.burnMode, hcold.scanMode, hcold.patrolMode, fun _ => rfl,
        fun _ => rfl⟩
  | @linesChange power line c hmore =>
    obtain ⟨⟨same, hpw, hrl, -⟩, -, hmode⟩ := afterLines_blocks s power line
    have hrd : (s.afterLines power line).rd = s.rd := (same .rd (by decide)).symm
    have htu : (s.afterLines power line).tu = s.tu := (same .tu (by decide)).symm
    have hfz : (s.afterLines power line).fz = s.fz := (same .fz (by decide)).symm
    have hrun : s.running = true → (s.afterLines power line).running = true := by
      simp only [State.running, ← hpw, ← hrl, Bool.and_eq_true, Bool.not_eq_true']
      exact fun ⟨h1, h2⟩ => ⟨hmore.1 h1, by cases line <;> simp_all⟩
    have hst : (s.afterLines power line).mc.startUp = .starting ↔ s.mc.startUp = .starting := by
      unfold State.afterLines
      dsimp only
      split
      · rename_i hstart; exact iff_of_true rfl (hs.held hstart.1)
      · exact Iff.rfl
    refine hs.of_engines (by rw [hrd]) hfz ⟨?_, ?_, ?_, fun hr => hst.2 (hs.held ?_), fun hstart => ?_⟩
    · rw [hfz, htu, hmode]; exact hs.burnMode
    · rw [htu, hmode]; exact hs.scanMode
    · rw [htu, hmode]; exact hs.patrolMode
    · by_contra hc
      rw [hrun (by simpa using hc)] at hr; cases hr
    · rw [hmode]; exact hs.starting (hst.1 hstart)
  | startsUp m hrunning hstarting =>
    have hoff := hs.starting hstarting
    have hburn : s.fz.burn = .idle := by
      rw [← burnBusy_eq_false_iff]
      by_contra hb
      rw [(hs.burnMode (by simpa using hb)).1] at hoff; cases hoff
    have hscan : s.tu.scan = .idle := by
      by_contra hne
      rw [hs.scanMode hne] at hoff; cases hoff
    have hpatrol : s.tu.patrolTest = none := by
      by_contra hne
      have := ((patrolActive_iff _ _).1 (hs.patrolMode hne)).2
      rw [hoff] at this
      simp at this
    refine notify_mapConsistent (mapConsistent_iff.2 ⟨build_mapAgrees (f := s.fz.startupRead) hburn ?_ ?_, ?_⟩) _
    · intro g k
      rw [FuseStore.classOf, startupRead_held]; exact readPair_ne_writing _ _
    · intro g p
      rw [startupRead_held]; exact readPair_differ _ _
    · refine ⟨fun hb => ?_, fun hne => absurd hscan hne, fun hp => absurd hpatrol hp, fun hr => ?_, fun hst => by cases hst⟩
      · exact absurd ((burnBusy_eq_false_iff.2 hburn).symm.trans hb) (by simp)
      · exact absurd (hrunning.symm.trans hr) (by simp)

end Sys2Proof.Machine
end

section
/-! SUPPORT. The statement on the map's consistency settled. -/

namespace Sys2Proof.Settled

open Sys2Proof.Machine

/-- Settles O55: both halves of the consistency are kept by every effect of a command. -/
theorem mapStaysConsistent : Obligations.MapStaysConsistent := by
  intro s t hs ht
  obtain rfl | ⟨c, rest, hc⟩ := step_does ht
  · exact hs
  · exact hc.mapConsistent (hs.of_blocks rfl rfl rfl rfl rfl)

end Sys2Proof.Settled
end

section
/-! SUPPORT. The panel dark outside SHOW (R31), the notices' numbers (R179), a flip and a copy apart (R13, R72): each kept by every effect of a
command. Nothing of these three is on the moments of the tile: a frame start keeps them when its parts do. -/

namespace Sys2Proof.Machine

/-! ## What frame starts keep when their parts do -/

/-- A property on which the moments have no say, kept by the latches, by a notice and by the application of the sealed set. -/
structure FrameStartsKeep (P : State → Prop) : Prop where
  moment : ∀ s n, P s → P (s.tick n)
  timing : ∀ s x, P s → P (s.withFt x)
  latches : ∀ s, P s → P s.latchFrame
  notices : ∀ s d, P s → P (s.notify d)
  applies : ∀ s z, s.cs.sealedSlot = some z → P s → P (s.applySet z)

namespace FrameStartsKeep
variable {P : State → Prop} (hP : FrameStartsKeep P) {s : State}
include hP

theorem applyDue (h : P s) : P s.applyDue := by
  unfold State.applyDue
  split
  · exact h
  · rename_i z hz
    split
    · exact hP.applies s z hz h
    · exact h

theorem countedEvent (h : P s) : P s.countedEvent := hP.latches _ (hP.applyDue h)

theorem frameTimerExpires (h : P s) : P s.frameTimerExpires := by
  unfold State.frameTimerExpires
  split
  · exact hP.latches _ (hP.timing _ _ (hP.moment _ _ h))
  · exact hP.notices _ _ (hP.latches _ (hP.timing _ _ (hP.moment _ _ h)))
  · exact hP.latches _ (hP.timing _ _ (hP.moment _ _ h))
  · exact hP.countedEvent (hP.timing _ _ (hP.timing _ _ (hP.moment _ _ h)))

theorem reach (h : P s) (m : Nat) : P (s.reach m) := reach_keeps (P := P) (fun _ _ => hP.frameTimerExpires) m h

theorem passTo (h : P s) (m : Nat) : P (s.passTo m) := hP.moment _ m (hP.reach h m)

theorem edge (h : P s) : P s.edge := by
  unfold State.edge
  split
  · exact hP.countedEvent (hP.timing _ _ (hP.timing _ _ h))
  · split
    · exact hP.timing _ _ h
    · exact hP.countedEvent (hP.timing _ _ (hP.timing _ _ h))
  · exact hP.countedEvent (hP.notices _ _ (hP.timing _ _ h))
  · exact h

theorem setSync {t : State} {p reply : List Byte} (h : P s) (ht : s.setSync p = .ok (t, reply)) : P t := by
  obtain ⟨x, m, -, -, hx⟩ := setSync_ok ht
  have hsync : P (s.applySync x m) := by
    unfold State.applySync
    split <;> exact hP.timing _ _ h
  obtain ⟨-, -, rfl⟩ | rfl := hx
  · exact hsync
  · unfold State.expireOverdue
    split
    · exact hP.frameTimerExpires hsync
    · exact hsync

/-- A patrol test's end, when a change of the map and of the tests keeps the property. -/
theorem patrolEnds {g : GlobalChannel} {u v : State} {r : TestResult} (hrd : ∀ s x, P s → P (s.withRd x))
    (htu : ∀ s x, P s → P (s.withTu x)) (hu : u = s.passTo (s.tu.testStart + testTime))
    (hv : v = u.withRd (u.rd.applyTest g r).1 ∨
      v = (u.withRd (u.rd.applyTest g r).1).notify (.channelFault g (conditionOf r) (u.rd.applyTest g r).2.action))
    (h : P s) (x : TestUnit) : P (v.withTu x) := by
  have hq : P u := hu ▸ hP.passTo h _
  obtain rfl | rfl := hv
  · exact htu _ _ (hrd _ _ hq)
  · exact htu _ _ (hP.notices _ _ (hrd _ _ hq))

end FrameStartsKeep

/-! ## Start-up begins -/

section Lines
variable {s : State} {power line : Bool}

/-- The start-up state is STARTING after a change of the lines when it was before, in a tile that is STARTING while it is held. -/
theorem afterLines_startUp (held : s.running = false → s.mc.startUp = .starting) :
    (s.afterLines power line).mc.startUp = .starting ↔ s.mc.startUp = .starting := by
  unfold State.afterLines
  dsimp only
  split
  · rename_i hstart; exact iff_of_true rfl (held hstart.1)
  · exact Iff.rfl

/-- A tile held after power came good or the line was released was held before. -/
theorem held_of_afterLines (hmore : (s.powerGood = true → power = true) ∧ (line = true → s.resetLine = true))
    (h : (s.afterLines power line).running = false) : s.running = false := by
  obtain ⟨⟨-, hpower, hline, -⟩, -⟩ := afterLines_blocks s power line
  have hheld : (power && !line) = false := by rw [← h, State.running, ← hpower, ← hline]
  by_contra hrun
  simp only [State.running, Bool.not_eq_false, Bool.and_eq_true, Bool.not_eq_true'] at hrun
  obtain ⟨hgood, hreleased⟩ := hrun
  have hlow : line = false := by
    by_contra hasserted
    exact absurd ((hmore.2 (by simpa using hasserted)).symm.trans hreleased) (by simp)
  rw [hmore.1 hgood, hlow] at hheld
  cases hheld

/-- A tile READY after power came good or the line was released was READY before. -/
theorem ready_of_afterLines (h : (s.afterLines power line).ready = true) : s.ready = true := by
  simp only [State.ready, Bool.and_eq_true, beq_iff_eq] at h ⊢
  obtain ⟨hrunning, hstart⟩ := h
  by_cases hrun : s.running = true
  · refine ⟨hrun, ?_⟩
    unfold State.afterLines at hstart
    dsimp only at hstart
    rw [if_neg fun hbegins => by simp [hrun] at hbegins] at hstart
    exact hstart
  · exact absurd hrunning (by
      unfold State.afterLines at hstart ⊢
      dsimp only at hstart ⊢
      split at hstart
      · cases hstart
      · rename_i hstays
        rw [if_neg hstays]
        intro hr
        exact hstays ⟨by simpa using hrun, hr⟩)

end Lines

/-! ## Dark outside SHOW -/

section Dark
variable {s t : State}

/-- A change that keeps the mode and the lines, and switches the output on only in SHOW. -/
theorem State.DarkOutsideShow.of_same (h : s.DarkOutsideShow) (hout : t.pu.output = .showing → s.pu.output = .showing) (hmc : t.mc = s.mc)
    (hrunning : t.running = s.running) : t.DarkOutsideShow := by
  refine ⟨fun ho => ?_, fun hr => ?_, fun hst => ?_⟩
  · rw [hmc]; exact h.output (hout ho)
  · rw [hmc]; exact h.held (hrunning ▸ hr)
  · rw [hmc] at hst ⊢; exact h.starting hst

theorem latchFrame_darkOutsideShow (h : s.DarkOutsideShow) : s.latchFrame.DarkOutsideShow := by
  refine ⟨fun ho => ?_, h.held, h.starting⟩
  have hlatch : (if s.mc.mode = .showMode then Output.showing else s.pu.output) = .showing := ho
  split at hlatch
  · assumption
  · exact h.output hlatch

theorem applySet_darkOutsideShow (z : SealedSet) (h : s.DarkOutsideShow) : (s.applySet z).DarkOutsideShow := by
  obtain ⟨hp, hr, -⟩ := applySet_lines s z
  refine h.of_same (fun ho => ?_) (applySet_mc s z) (running_congr hp hr)
  rwa [applySet_pu] at ho

theorem darkOutsideShow_frameStartsKeep : FrameStartsKeep State.DarkOutsideShow where
  moment _ _ h := h.of_same id rfl rfl
  timing _ _ h := h.of_same id rfl rfl
  latches _ := latchFrame_darkOutsideShow
  notices _ _ h := h.of_same id rfl rfl
  applies _ z _ := applySet_darkOutsideShow z

theorem answer_darkOutsideShow (h : s.DarkOutsideShow) (q : Queued) (r : Result) (p : List Byte) : (s.answer q r p).DarkOutsideShow :=
  h.of_same (by rw [answer_pu]; exact id) (answer_mc ..) (running_congr (answer_powerGood ..) (answer_resetLine ..))

/-- A request taken stands in READY: its own rule finds the tile not STARTING. -/
theorem own_darkOutsideShow {kind : Kind} {own : State → List Byte → Answered} {p reply : List Byte} (h : s.DarkOutsideShow)
    (hready : s.mc.startUp = .ready) (hown : ownRule kind = some own) (ht : own s p = .ok (t, reply)) : t.DarkOutsideShow := by
  obtain ⟨same, hp, hr, -, -⟩ := own_sameBlocks hown ht
  have untouched : Block.pu ∉ ownBlocks kind → Block.mc ∉ ownBlocks kind → t.DarkOutsideShow := fun hpu hmc =>
    h.of_same (by rw [show t.pu = s.pu from same .pu hpu]; exact id) (same .mc hmc) (running_congr hp hr)
  have held : t.mc.startUp = s.mc.startUp → (t.pu.output = .showing → t.mc.mode = .showMode) → t.DarkOutsideShow := fun hst ho =>
    ⟨ho, fun hrun => hst.trans (h.held (running_congr hp hr ▸ hrun)), fun hs => absurd (hready.symm.trans (hst.symm.trans hs)) (by simp)⟩
  cases kind <;> cases hown
  case restart =>
    obtain ⟨-, rfl⟩ := restart_ok ht
    exact held rfl fun ho => by cases ho
  case setMode =>
    obtain ⟨-, rfl | ⟨m, -, rfl⟩⟩ := setMode_ok ht
    · exact h
    · obtain ⟨hmc, hpu, -⟩ := changeMode_fields s m
      refine held (by rw [hmc]) fun ho => ?_
      rw [hpu] at ho
      rw [hmc]
      by_cases hm : m = .showMode
      · exact hm
      · simp [hm] at ho
  case setCanvas =>
    obtain ⟨w, -, -, -, rfl⟩ := setCanvas_ok ht
    exact h.of_same id rfl rfl
  case setSync => exact darkOutsideShow_frameStartsKeep.setSync h ht
  all_goals exact untouched (by decide) (by decide)

/-- Every effect of a command keeps the panel dark outside SHOW. -/
theorem Does.darkOutsideShow {c : Instr} (h : Does s c t) (hs : s.DarkOutsideShow) : t.DarkOutsideShow := by
  have keep := darkOutsideShow_frameStartsKeep
  cases h with
  | idles => exact hs
  | refuses r hrow hq =>
    refine answer_darkOutsideShow ?_ _ _ _
    exact (keep.reach hs _).of_same id rfl rfl
  | answers hrow hown hq hu =>
    refine answer_darkOutsideShow (own_darkOutsideShow ?_ (takes_startUp hq) hown hu) _ _ _
    exact (keep.reach hs _).of_same id rfl rfl
  | fills hq hjob => exact (keep.reach hs _).of_same id rfl rfl
  | fillEnds he =>
    refine answer_darkOutsideShow ?_ _ _ _
    exact hs.of_same id rfl rfl
  | copyEnds hp => exact hs.of_same id rfl rfl
  | writeEnds b hx hu => exact (hu ▸ keep.passTo hs _).of_same id rfl rfl
  | checkPasses m hx hu hread => exact (hu ▸ keep.passTo hs _).of_same id rfl rfl
  | checkFails m hx hu hread => exact (hu ▸ keep.passTo hs _).of_same id rfl rfl
  | markEnds b hx hu => exact (hu ▸ keep.passTo hs _).of_same id rfl rfl
  | burnFails m hx hu => exact (hu ▸ keep.passTo hs _).of_same id rfl rfl
  | scanGoesOn r hg hu hv hnext => subst hv; exact (hu ▸ keep.passTo hs _).of_same id rfl rfl
  | scanEnds r hg hu hv hnext => subst hv; exact (hu ▸ keep.passTo hs _).of_same id rfl rfl
  | patrolEnds r hg hu hv =>
    exact keep.patrolEnds (fun _ _ h => h.of_same id rfl rfl) (fun _ _ h => h.of_same id rfl rfl) hu hv hs _
  | edges m hready => exact keep.edge (keep.passTo hs m)
  | expires hready => exact keep.frameTimerExpires hs
  | scansOut hphase => exact hs.of_same id rfl rfl
  | links c => exact hs.of_same id rfl rfl
  | receives c r => exact hs.of_same id rfl rfl
  | joins ys n f => exact hs.of_same id rfl rfl
  | drops ys => exact hs.of_same id rfl rfl
  | sends hx => exact hs.of_same id rfl rfl
  | goesCold c b ht =>
    obtain rfl | rfl := ht <;> exact ⟨fun ho => (by cases ho), fun _ => rfl, fun _ => rfl⟩
  | @linesChange power line c hmore =>
    obtain ⟨⟨same, hpower, hline, -⟩, -, hmode⟩ := afterLines_blocks s power line
    have hpu : (s.afterLines power line).pu = s.pu := (same .pu (by decide)).symm
    refine ⟨fun ho => ?_, fun hr => ?_, fun hst => ?_⟩
    · rw [hmode]; rw [hpu] at ho; exact hs.output ho
    · exact (afterLines_startUp hs.held).2 (hs.held (held_of_afterLines hmore hr))
    · rw [hmode]; exact hs.starting ((afterLines_startUp hs.held).1 hst)
  | startsUp m hrunning hstarting =>
    refine ⟨fun ho => ?_, fun hr => ?_, fun hst => by cases hst⟩
    · exact absurd ((hs.starting hstarting).symm.trans (hs.output ho)) (by simp)
    · exact absurd (hrunning.symm.trans hr) (by simp)

end Dark

/-! ## The notices' numbers -/

section Numbers
variable {s t : State}

/-- Only the numbers matter. -/
theorem numbersRun_congr {n next : Byte} {xs ys : List Notice} (h : ys.map Notice.number = xs.map Notice.number)
    (hx : numbersRun n next xs) : numbersRun n next ys := by
  induction xs generalizing n ys with
  | nil =>
    obtain rfl : ys = [] := by simpa using h
    exact hx
  | cons x xs ih =>
    cases ys with
    | nil => simp at h
    | cons y ys =>
      simp only [List.map_cons, List.cons.injEq] at h
      exact ⟨h.1.trans hx.1, ih h.2 hx.2⟩

/-- A new notice takes the next number. -/
theorem numbersRun_snoc {n next : Byte} {xs : List Notice} {y : Notice} (h : numbersRun n next xs) (hy : y.number = next) :
    numbersRun n (nextNumber next) (xs ++ [y]) := by
  induction xs generalizing n with
  | nil =>
    obtain rfl : n = next := h
    exact ⟨hy, rfl⟩
  | cons x xs ih => exact ⟨h.1, ih h.2⟩

theorem nextNumber_ne_zero (n : Byte) : nextNumber n ≠ 0 := by
  unfold nextNumber
  split <;> bv_omega

/-- The log and the next number alone matter, and of the log its numbers. -/
theorem State.NoticesNumbered.of_same (h : s.NoticesNumbered) (hlog : t.ru.log.map Notice.number = s.ru.log.map Notice.number)
    (hnext : t.ru.nextNotice = s.ru.nextNotice) : t.NoticesNumbered := by
  obtain ⟨hne, hall, n, hrun⟩ := h
  refine ⟨hnext ▸ hne, fun x hx => ?_, n, hnext ▸ numbersRun_congr hlog hrun⟩
  obtain ⟨y, hy, he⟩ := List.mem_map.1 (hlog ▸ List.mem_map_of_mem (f := Notice.number) hx)
  exact he ▸ hall y hy

/-- A log cleared of its oldest notices stays numbered. -/
theorem ackedLog_numbered {m : Byte} {log l : List Notice} (h : ackedLog m log = some l) {n next : Byte} (hrun : numbersRun n next log) :
    (∃ n', numbersRun n' next l) ∧ ∀ x ∈ l, x ∈ log := by
  induction log generalizing n with
  | nil => cases h
  | cons y ys ih =>
    rw [ackedLog] at h
    split at h
    · cases h; exact ⟨⟨_, hrun.2⟩, fun x hx => List.mem_cons_of_mem _ hx⟩
    · obtain ⟨hl, hm⟩ := ih h hrun.2
      exact ⟨hl, fun x hx => List.mem_cons_of_mem _ (hm x hx)⟩

theorem markOldestSent_numbers (l : List Notice) : (markOldestSent l).map Notice.number = l.map Notice.number := by
  induction l with
  | nil => rfl
  | cons n ns ih =>
    rw [markOldestSent]
    split
    · rw [List.map_cons, ih, List.map_cons]
    · rfl

/-- A notice created keeps the numbers in order, whatever else has changed since. -/
theorem createNotice_noticesNumbered (h : s.NoticesNumbered) {unit : Byte} {n : FrameNo} {d : Details}
    (hlog : t.ru.log = (s.ru.createNotice unit n d).log) (hnext : t.ru.nextNotice = (s.ru.createNotice unit n d).nextNotice) :
    t.NoticesNumbered := by
  obtain ⟨hne, hall, m, hrun⟩ := h
  unfold RequestUnit.createNotice at hlog hnext
  split at hlog
  · rename_i hroom
    rw [if_pos hroom] at hnext
    refine ⟨hnext ▸ nextNumber_ne_zero _, fun x hx => ?_, m, ?_⟩
    · rw [hlog, List.mem_append, List.mem_singleton] at hx
      obtain hx | rfl := hx
      · exact hall x hx
      · exact hne
    · rw [hlog, hnext]; exact numbersRun_snoc hrun rfl
  · rename_i hfull
    rw [if_neg hfull] at hnext
    exact State.NoticesNumbered.of_same ⟨hne, hall, m, hrun⟩ (by rw [hlog]) hnext

theorem applySet_noticesNumbered (z : SealedSet) (h : s.NoticesNumbered) : (s.applySet z).NoticesNumbered := by
  have hru := applySet_ru s z
  split at hru
  · exact createNotice_noticesNumbered h (by rw [hru]) (by rw [hru])
  · exact h.of_same (by rw [hru]) (by rw [hru])

theorem noticesNumbered_frameStartsKeep : FrameStartsKeep State.NoticesNumbered where
  moment _ _ h := h.of_same rfl rfl
  timing _ _ h := h.of_same rfl rfl
  latches _ h := h.of_same rfl rfl
  notices _ _ h := createNotice_noticesNumbered h rfl rfl
  applies _ z _ := applySet_noticesNumbered z

theorem answer_noticesNumbered (h : s.NoticesNumbered) (q : Queued) (r : Result) (p : List Byte) : (s.answer q r p).NoticesNumbered :=
  h.of_same (by rw [answer_log]) (answer_nextNotice ..)

theorem own_noticesNumbered {kind : Kind} {own : State → List Byte → Answered} {p reply : List Byte} (h : s.NoticesNumbered)
    (hown : ownRule kind = some own) (ht : own s p = .ok (t, reply)) : t.NoticesNumbered := by
  have untouched : Block.ru ∉ ownBlocks kind → t.NoticesNumbered := fun hru => by
    have same : t.ru = s.ru := (own_sameBlocks hown ht).1 .ru hru
    exact h.of_same (by rw [same]) (by rw [same])
  cases kind <;> cases hown
  case status =>
    obtain rfl | rfl := status_ok ht
    · exact h
    · exact h.of_same rfl rfl
  case restart =>
    obtain ⟨-, rfl⟩ := restart_ok ht
    exact ⟨h.1, fun _ hx => (by cases hx), _, rfl⟩
  case readNotices =>
    cases ht
    exact h.of_same (by simp only [withRu_ru, List.map_map]; rfl) rfl
  case ackNotices =>
    obtain ⟨l, hl, rfl⟩ := ackNotices_ok ht
    obtain ⟨hne, hall, n, hrun⟩ := h
    obtain ⟨hl', hm⟩ := ackedLog_numbered hl hrun
    exact ⟨hne, fun x hx => hall x (hm x hx), hl'⟩
  case setMode =>
    obtain ⟨-, rfl | ⟨m, -, rfl⟩⟩ := setMode_ok ht
    · exact h
    · obtain ⟨-, -, -, -, -, -, -, -, -, -, -, -, -, hru⟩ := changeMode_fields s m
      split at hru
      · exact createNotice_noticesNumbered h (by rw [hru]) (by rw [hru])
      · exact h.of_same (by rw [hru]) (by rw [hru])
  case setSync => exact noticesNumbered_frameStartsKeep.setSync h ht
  case scanAbort =>
    obtain rfl := scanAbort_ok ht
    exact createNotice_noticesNumbered h rfl rfl
  all_goals exact untouched (by decide)

/-- Every effect of a command keeps the notices numbered. -/
theorem Does.noticesNumbered {c : Instr} (h : Does s c t) (hs : s.NoticesNumbered) : t.NoticesNumbered := by
  have keep := noticesNumbered_frameStartsKeep
  cases h with
  | idles => exact hs
  | refuses r hrow hq =>
    refine answer_noticesNumbered ?_ _ _ _
    exact (keep.reach hs _).of_same rfl rfl
  | answers hrow hown hq hu =>
    refine answer_noticesNumbered (own_noticesNumbered ?_ hown hu) _ _ _
    exact (keep.reach hs _).of_same rfl rfl
  | fills hq hjob => exact (keep.reach hs _).of_same rfl rfl
  | fillEnds he =>
    refine answer_noticesNumbered ?_ _ _ _
    exact hs.of_same rfl rfl
  | copyEnds hp => exact createNotice_noticesNumbered hs rfl rfl
  | writeEnds b hx hu => exact (hu ▸ keep.passTo hs _).of_same rfl rfl
  | checkPasses m hx hu hread => exact createNotice_noticesNumbered (hu ▸ keep.passTo hs _) rfl rfl
  | checkFails m hx hu hread => exact (hu ▸ keep.passTo hs _).of_same rfl rfl
  | markEnds b hx hu => exact (hu ▸ keep.passTo hs _).of_same rfl rfl
  | burnFails m hx hu => exact createNotice_noticesNumbered (hu ▸ keep.passTo hs _) rfl rfl
  | scanGoesOn r hg hu hv hnext => subst hv; exact (hu ▸ keep.passTo hs _).of_same rfl rfl
  | @scanEnds g u v r hg hu hv hnext =>
    have hq : u.NoticesNumbered := hu ▸ keep.passTo hs _
    subst hv
    exact createNotice_noticesNumbered hq rfl rfl
  | patrolEnds r hg hu hv =>
    exact keep.patrolEnds (fun _ _ h => h.of_same rfl rfl) (fun _ _ h => h.of_same rfl rfl) hu hv hs _
  | edges m hready => exact keep.edge (keep.passTo hs m)
  | expires hready => exact keep.frameTimerExpires hs
  | scansOut hphase => exact hs.of_same rfl rfl
  | links c => exact hs.of_same rfl rfl
  | @receives c x r hunit hgroups hpass =>
    obtain ⟨-, hlog, hnext, -⟩ := arrive_keeps s.ru x.unit r
    exact hs.of_same (congrArg (List.map Notice.number) hlog) hnext
  | @joins ys x n f hpass =>
    have hcleared : ((s.withLi { x with unit := n, groups := [] }).withRu s.ru.clearFilter).NoticesNumbered := hs.of_same rfl rfl
    have hjoined := keep.notices _ (.joined Config.serial n) hcleared
    exact hjoined.of_same rfl rfl
  | @drops ys x =>
    have hlinked : (s.withLi x).NoticesNumbered := hs.of_same rfl rfl
    exact keep.notices _ _ hlinked
  | sends hx =>
    obtain ⟨r, rs, -, -, rfl⟩ | ⟨-, n, -, -, rfl⟩ := ownCandidate_cases hx
    · exact hs.of_same rfl rfl
    · exact hs.of_same (markOldestSent_numbers _) rfl
  | goesCold c b ht =>
    obtain rfl | rfl := ht <;> exact ⟨show RequestUnit.cold.nextNotice ≠ 0 by decide, fun _ hx => (by cases hx), 1, rfl⟩
  | @linesChange power line c hmore =>
    obtain ⟨⟨same, -⟩, -⟩ := afterLines_blocks s power line
    have hru := same .ru (by decide)
    exact hs.of_same (congrArg (fun x => x.log.map Notice.number) hru).symm (congrArg RequestUnit.nextNotice hru).symm
  | startsUp m hrunning hstarting => exact createNotice_noticesNumbered hs rfl rfl

end Numbers

/-! ## A flip and a copy apart -/

section Flip
variable {s t : State}

/-- A change that keeps the copy and the front page, and makes no flip pending. -/
theorem State.FlipAndCopyApart.of_same (h : s.FlipAndCopyApart) (hcopy : t.fs.copy = s.fs.copy) (hfront : t.fs.front = s.fs.front)
    (hflip : s.flipPending = false → t.flipPending = false) : t.FlipAndCopyApart := fun p hp => by
  obtain ⟨hpage, hnone⟩ := h p (hcopy ▸ hp)
  exact ⟨hpage.trans hfront.symm, hflip hnone⟩

/-- No copy runs. -/
theorem flipAndCopyApart_of_idle (h : s.fs.copy = .idle) : s.FlipAndCopyApart := fun p hp => by rw [h] at hp; cases hp

theorem State.FlipAndCopyApart.of_blocks (h : s.FlipAndCopyApart) (hfs : t.fs = s.fs) (hcs : t.cs = s.cs) : t.FlipAndCopyApart :=
  h.of_same (by rw [hfs]) (by rw [hfs]) (by unfold State.flipPending; rw [hcs]; exact id)

/-- While a copy runs the set that applies has no flip, so the front page stays (R72). -/
theorem applySet_flipAndCopyApart {z : SealedSet} (hz : s.cs.sealedSlot = some z) (h : s.FlipAndCopyApart) :
    (s.applySet z).FlipAndCopyApart := by
  intro p hp
  have hfs := applySet_fs s z
  have hcopy : s.fs.copy = .copying p := by
    rw [hfs] at hp
    split at hp <;> exact hp
  obtain ⟨hpage, hnone⟩ := h p hcopy
  have hflip : z.flip = false := by rwa [State.flipPending, hz] at hnone
  rw [hflip] at hfs
  refine ⟨by rw [hfs]; exact hpage, ?_⟩
  rw [State.flipPending, applySet_cs]

theorem flipAndCopyApart_frameStartsKeep : FrameStartsKeep State.FlipAndCopyApart where
  moment _ _ h := h.of_blocks rfl rfl
  timing _ _ h := h.of_blocks rfl rfl
  latches _ h := h.of_blocks rfl rfl
  notices _ _ h := h.of_blocks rfl rfl
  applies _ _ hz := applySet_flipAndCopyApart hz

theorem answer_flipAndCopyApart (h : s.FlipAndCopyApart) (q : Queued) (r : Result) (p : List Byte) : (s.answer q r p).FlipAndCopyApart :=
  h.of_blocks (answer_fs ..) (answer_cs ..)

/-- A change of the slots that keeps the sealed set or empties its slot. -/
theorem withCs_flipAndCopyApart (h : s.FlipAndCopyApart) {x : ChangeSets} (hx : x.sealedSlot = s.cs.sealedSlot ∨ x.sealedSlot = none) :
    (s.withCs x).FlipAndCopyApart := by
  refine h.of_same rfl rfl fun hnone => ?_
  obtain hx | hx := hx
  · unfold State.flipPending at hnone ⊢; rw [withCs_cs, hx]; exact hnone
  · rw [State.flipPending, withCs_cs, hx]

theorem stage_flipAndCopyApart {id : Half} {edit : ChangeSet → Option (Edit × List Band)} {reply : List Byte} (h : s.FlipAndCopyApart)
    (ht : s.stage id edit = .ok (t, reply)) : t.FlipAndCopyApart := by
  obtain ⟨o, e, table, -, -, -, rfl⟩ := stage_ok ht
  exact withCs_flipAndCopyApart h (Or.inl rfl)

theorem own_flipAndCopyApart {kind : Kind} {own : State → List Byte → Answered} {p reply : List Byte} (h : s.FlipAndCopyApart)
    (hown : ownRule kind = some own) (ht : own s p = .ok (t, reply)) : t.FlipAndCopyApart := by
  have untouched : Block.fs ∉ ownBlocks kind → Block.cs ∉ ownBlocks kind → t.FlipAndCopyApart := fun hfs hcs =>
    h.of_blocks ((own_sameBlocks hown ht).1 .fs hfs) ((own_sameBlocks hown ht).1 .cs hcs)
  cases kind <;> cases hown
  case restart =>
    obtain ⟨-, rfl⟩ := restart_ok ht
    refine flipAndCopyApart_of_idle ?_
    show (s.fs.warm _).copy = .idle
    unfold FrameStore.warm
    split
    · assumption
    · rfl
  case setCanvas =>
    obtain ⟨w, -, -, -, rfl⟩ := setCanvas_ok ht
    exact h.of_same rfl rfl id
  case writePixels =>
    obtain ⟨x, y, l, -, -, -, rfl⟩ := writePixels_ok ht
    exact h.of_same (putPage_copy ..) (putPage_front ..) id
  case copyFront =>
    obtain ⟨-, hnone, rfl⟩ := copyFront_ok ht
    intro p hp
    cases hp
    exact ⟨rfl, hnone⟩
  case beginSet => obtain ⟨id, -, -, rfl⟩ := beginSet_ok ht; exact withCs_flipAndCopyApart h (Or.inl rfl)
  case stageBands => exact stage_flipAndCopyApart h ht
  case stagePan => exact stage_flipAndCopyApart h ht
  case stagePalette => exact stage_flipAndCopyApart h ht
  case stageLevel => exact stage_flipAndCopyApart h ht
  case commit =>
    obtain ⟨o, target, flip, notify, -, -, hbusy, rfl⟩ := commit_ok ht
    intro p hp
    refine ⟨(h p hp).1, ?_⟩
    show flip = false
    by_contra hflip
    have hidle := copyBusy_eq_false_iff.1 (hbusy (by simpa using hflip))
    exact absurd (hidle.symm.trans hp) (by simp)
  case abandon =>
    obtain rfl | rfl := abandon_ok ht
    · exact withCs_flipAndCopyApart h (Or.inl rfl)
    · exact withCs_flipAndCopyApart h (Or.inr rfl)
  case setSync => exact flipAndCopyApart_frameStartsKeep.setSync h ht
  all_goals exact untouched (by decide) (by decide)

/-- Every effect of a command keeps a flip and a copy apart. -/
theorem Does.flipAndCopyApart {c : Instr} (h : Does s c t) (hs : s.FlipAndCopyApart) : t.FlipAndCopyApart := by
  have keep := flipAndCopyApart_frameStartsKeep
  cases h with
  | idles => exact hs
  | refuses r hrow hq =>
    refine answer_flipAndCopyApart ?_ _ _ _
    exact (keep.reach hs _).of_blocks rfl rfl
  | answers hrow hown hq hu =>
    refine answer_flipAndCopyApart (own_flipAndCopyApart ?_ hown hu) _ _ _
    exact (keep.reach hs _).of_blocks rfl rfl
  | fills hq hjob => exact (keep.reach hs _).of_blocks rfl rfl
  | fillEnds he =>
    refine answer_flipAndCopyApart ?_ _ _ _
    exact hs.of_same (putPage_copy ..) (putPage_front ..) id
  | copyEnds hp => exact flipAndCopyApart_of_idle rfl
  | writeEnds b hx hu => exact (hu ▸ keep.passTo hs _).of_blocks rfl rfl
  | checkPasses m hx hu hread => exact (hu ▸ keep.passTo hs _).of_blocks rfl rfl
  | checkFails m hx hu hread => exact (hu ▸ keep.passTo hs _).of_blocks rfl rfl
  | markEnds b hx hu => exact (hu ▸ keep.passTo hs _).of_blocks rfl rfl
  | burnFails m hx hu => exact (hu ▸ keep.passTo hs _).of_blocks rfl rfl
  | scanGoesOn r hg hu hv hnext => subst hv; exact (hu ▸ keep.passTo hs _).of_blocks rfl rfl
  | scanEnds r hg hu hv hnext => subst hv; exact (hu ▸ keep.passTo hs _).of_blocks rfl rfl
  | patrolEnds r hg hu hv =>
    exact keep.patrolEnds (fun _ _ h => h.of_blocks rfl rfl) (fun _ _ h => h.of_blocks rfl rfl) hu hv hs _
  | edges m hready => exact keep.edge (keep.passTo hs m)
  | expires hready => exact keep.frameTimerExpires hs
  | scansOut hphase => exact hs.of_blocks rfl rfl
  | links c => exact hs.of_blocks rfl rfl
  | receives c r => exact hs.of_blocks rfl rfl
  | joins ys n f => exact hs.of_blocks rfl rfl
  | drops ys => exact hs.of_blocks rfl rfl
  | sends hx => exact hs.of_blocks rfl rfl
  | goesCold c b ht => obtain rfl | rfl := ht <;> exact flipAndCopyApart_of_idle rfl
  | @linesChange power line c hmore =>
    obtain ⟨⟨same, -⟩, -⟩ := afterLines_blocks s power line
    exact hs.of_blocks (same .fs (by decide)).symm (same .cs (by decide)).symm
  | startsUp m hrunning hstarting => exact hs.of_same rfl rfl id

end Flip

end Sys2Proof.Machine
end

section
/-! SUPPORT. The bound of R43 on the next frame start, and where a timer starts: both kept by every effect of a command. -/

namespace Sys2Proof.Machine

section OnTime
variable {s t : State}

/-- A change that keeps the timers and the clock, and brings no tile to READY. -/
theorem State.FramesOnTime.of_same (h : s.FramesOnTime) (hstate : t.ft.syncState = s.ft.syncState) (hperiod : t.ft.period = s.ft.period)
    (hedge : t.ft.lastEdge = s.ft.lastEdge) (htimer : t.ft.timerStart = s.ft.timerStart) (hstart : t.ft.frameStart = s.ft.frameStart)
    (hnow : t.now = s.now) (hready : t.ready = true → s.ready = true) : t.FramesOnTime := by
  refine ⟨hperiod ▸ h.period, by rw [hstart, hnow]; exact h.lastStart, fun hr => ?_, fun hr hst => ?_, fun hr hst => ?_, fun hr hst => ?_⟩
  · have := h.due (hready hr)
    unfold State.OnTime at this ⊢
    rw [hstate, hperiod, hedge, htimer, hnow]
    exact this
  · rw [hedge, hstart]; exact h.locked (hready hr) (hstate ▸ hst)
  · rw [htimer, hstart]; exact h.holdover (hready hr) (hstate ▸ hst)
  · rw [htimer, hstart, hnow]; exact h.entered (hready hr) (hstate ▸ hst)

/-- A change of other blocks than the Frame Timing Unit. -/
theorem State.FramesOnTime.of_ft (h : s.FramesOnTime) (hft : t.ft = s.ft) (hnow : t.now = s.now) (hready : t.ready = true → s.ready = true) :
    t.FramesOnTime := h.of_same (by rw [hft]) (by rw [hft]) (by rw [hft]) (by rw [hft]) (by rw [hft]) hnow hready

/-- Time passes to a moment on which no timer falls due before. -/
theorem tick_framesOnTime (h : s.FramesOnTime) {m : Nat} (hm : s.Timely m) : (s.tick m).FramesOnTime := by
  obtain ⟨hperiod, hlast, hdue, hlocked, hholdover, hentered⟩ := h
  refine ⟨hperiod, hlast.trans (le_max_left _ _), fun hr => onTime_iff.2 (max_le ?_ ?_), hlocked, hholdover, fun hr hst => ?_⟩
  · exact onTime_iff.1 (hdue hr)
  · exact onTime_iff.1 (hm hr)
  · obtain ⟨hge, hle⟩ := hentered hr hst
    exact ⟨hge, hle.trans (le_max_left _ _)⟩

/-- An expiry puts the timers on time, whatever they were: the next frame start is due a period later. -/
theorem frameTimerExpires_framesOnTime (h : 4000 ≤ s.ft.period ∧ s.ft.period ≤ 50000) : s.frameTimerExpires.FramesOnTime := by
  obtain ⟨hperiod, htimer, hstart, -, hnow, hdeadline, hstate⟩ := frameTimerExpires_ft s
  refine ⟨hperiod ▸ h, by rw [hstart, hnow], fun _ => onTime_iff.2 (by rw [hnow, hdeadline]; exact Nat.le_add_right _ _),
    fun _ hst => ?_, fun _ _ => htimer.trans hstart.symm, fun _ _ => by rw [hstart, htimer, hnow]; exact ⟨le_rfl, le_rfl⟩⟩
  rw [hstate] at hst
  cases hsync : s.ft.syncState <;> rw [hsync] at hst <;> cases hst

theorem reach_framesOnTime (h : s.FramesOnTime) (m : Nat) : (s.reach m).FramesOnTime :=
  reach_keeps (P := State.FramesOnTime) (fun _ _ hu => frameTimerExpires_framesOnTime hu.period) m h

theorem State.FramesOnTime.reach_timely (h : s.FramesOnTime) (m : Nat) : (s.reach m).Timely m :=
  Sys2Proof.Machine.reach_timely (by have := h.period; omega)

theorem passTo_framesOnTime (h : s.FramesOnTime) (m : Nat) : (s.passTo m).FramesOnTime :=
  tick_framesOnTime (reach_framesOnTime h m) (h.reach_timely m)

theorem takes_framesOnTime (h : s.FramesOnTime) (k : Take) : (s.takes k).FramesOnTime :=
  (tick_framesOnTime (reach_framesOnTime h k.moment) (h.reach_timely k.moment)).of_ft rfl rfl id

/-- A counted frame start that an edge makes: the edge is the last accepted one, and the frame starts with it. -/
theorem countedEvent_framesOnTime (hperiod : 4000 ≤ s.ft.period ∧ s.ft.period ≤ 50000) (hstate : s.ft.syncState = .locked)
    (hedge : s.ft.lastEdge = s.now) : s.countedEvent.FramesOnTime := by
  have hft : s.countedEvent.ft = { s.ft with frameStart := s.now } := by
    rw [State.countedEvent, latchFrame_ft, applyDue_ft, (applyDue_lines s).2.2.2]
  have hnow : s.countedEvent.now = s.now := (applyDue_lines s).2.2.2
  have hlocked : s.countedEvent.ft.syncState = .locked := by rw [hft]; exact hstate
  refine ⟨by rw [hft]; exact hperiod, by rw [hft, hnow], fun _ => onTime_iff.2 ?_, fun _ _ => by rw [hft]; exact hedge,
    fun _ hst => ?_, fun _ hst => ?_⟩
  · rw [hnow, hft]
    simp only [FrameTiming.deadline, hstate, hedge]
    omega
  · rw [hlocked] at hst; cases hst
  · rw [hlocked] at hst; rcases hst with hst | hst <;> cases hst

theorem edge_framesOnTime (h : s.FramesOnTime) : s.edge.FramesOnTime := by
  unfold State.edge
  split
  · exact countedEvent_framesOnTime h.period rfl rfl
  · split
    · exact h.of_same rfl rfl rfl rfl rfl rfl id
    · exact countedEvent_framesOnTime h.period rfl rfl
  · exact countedEvent_framesOnTime h.period rfl rfl
  · exact h

/-- SET_SYNC takes a source and a period: the state is kept, or SEEKING or FREE is entered now and its timer starts (R47, R48). -/
theorem applySync_ft (s : State) (x : SyncSource) (m : Nat) :
    (s.ft.syncState.source = x ∧ (s.applySync x m).ft = { s.ft with period := m }) ∨
    (s.ft.syncState.source ≠ x ∧ ∃ y, (y = .seeking ∨ y = .free) ∧
      (s.applySync x m).ft = { s.ft with syncState := y, period := m, timerStart := s.now }) := by
  unfold State.applySync
  cases s.ft.syncState <;> cases x
  case seeking.external | locked.external | holdover.external | free.internal => exact Or.inl ⟨rfl, rfl⟩
  case seeking.internal | locked.internal | holdover.internal => exact Or.inr ⟨by decide, .free, Or.inr rfl, rfl⟩
  case free.external => exact Or.inr ⟨by decide, .seeking, Or.inl rfl, rfl⟩

/-- With a period in range, SET_SYNC's change leaves the timers on time, if the timer in use is not overdue under it. -/
theorem applySync_framesOnTime (h : s.FramesOnTime) {x : SyncSource} {m : Nat} (hm : 4000 ≤ m ∧ m ≤ 50000)
    (hdue : (s.applySync x m).ready = true → (s.applySync x m).now ≤ (s.applySync x m).ft.deadline) : (s.applySync x m).FramesOnTime := by
  obtain ⟨⟨same, hpower, hline, -⟩, hnow, -⟩ := applySync_keeps s x m
  have hready : (s.applySync x m).ready = s.ready := by
    have hmc : (s.applySync x m).mc = s.mc := (same .mc (by decide)).symm
    rw [State.ready, State.ready, hmc, running_congr hpower.symm hline.symm]
  obtain ⟨-, hft⟩ | ⟨-, y, hy, hft⟩ := applySync_ft s x m
  · refine ⟨by rw [hft]; exact hm, by rw [hft, hnow]; exact h.lastStart, fun hr => onTime_iff.2 (hdue hr), ?_, ?_, ?_⟩ <;>
      rw [hready, hft]
    · exact h.locked
    · exact h.holdover
    · rw [hnow]; exact h.entered
  · refine ⟨by rw [hft]; exact hm, by rw [hft, hnow]; exact h.lastStart, fun hr => onTime_iff.2 (hdue hr), ?_, ?_, ?_⟩ <;> rw [hft]
    · rintro - rfl; simp at hy
    · rintro - rfl; simp at hy
    · rintro - -; rw [hnow]; exact ⟨h.lastStart, le_rfl⟩

theorem setSync_framesOnTime {p reply : List Byte} (h : s.FramesOnTime) (ht : s.setSync p = .ok (t, reply)) : t.FramesOnTime := by
  obtain ⟨x, m, hmin, hmax, ⟨hx, hm, rfl⟩ | rfl⟩ := setSync_ok ht
  · obtain ⟨-, hft⟩ | ⟨hne, -⟩ := applySync_ft s x m
    · refine applySync_framesOnTime h ⟨hmin, hmax⟩ fun hr => ?_
      obtain ⟨⟨same, hpower, hline, -⟩, hnow, -⟩ := applySync_keeps s x m
      have hmc : (s.applySync x m).mc = s.mc := (same .mc (by decide)).symm
      rw [State.ready, hmc, running_congr hpower.symm hline.symm] at hr
      rw [hft, hnow, ← hm]
      exact onTime_iff.1 (h.due hr)
    · exact absurd hx hne
  · unfold State.expireOverdue
    split
    · refine frameTimerExpires_framesOnTime ?_
      obtain ⟨-, hft⟩ | ⟨-, y, -, hft⟩ := applySync_ft s x m <;> rw [hft] <;> exact ⟨hmin, hmax⟩
    · rename_i hdue
      exact applySync_framesOnTime h ⟨hmin, hmax⟩ fun _ => Nat.not_lt.1 hdue

/-- No own rule changes READY. -/
theorem own_ready {kind : Kind} {own : State → List Byte → Answered} {p reply : List Byte} (hown : ownRule kind = some own)
    (ht : own s p = .ok (t, reply)) : t.ready = s.ready := by
  obtain ⟨same, hpower, hline, -⟩ := own_sameBlocks hown ht
  have hstart : t.mc.startUp = s.mc.startUp := by
    have untouched : Block.mc ∉ ownBlocks kind → t.mc.startUp = s.mc.startUp := fun hmc =>
      congrArg ModeControl.startUp (same .mc hmc : t.mc = s.mc)
    cases kind <;> cases hown
    case restart => obtain ⟨-, rfl⟩ := restart_ok ht; rfl
    case setMode =>
      obtain ⟨-, rfl | ⟨m, -, rfl⟩⟩ := setMode_ok ht
      · rfl
      · rw [(changeMode_fields s m).1]
    all_goals exact untouched (by decide)
  rw [State.ready, State.ready, hstart, running_congr hpower hline]

theorem own_framesOnTime {kind : Kind} {own : State → List Byte → Answered} {p reply : List Byte} (h : s.FramesOnTime)
    (hown : ownRule kind = some own) (ht : own s p = .ok (t, reply)) : t.FramesOnTime := by
  obtain ⟨same, -, -, -, hnow⟩ := own_sameBlocks hown ht
  have hready := own_ready hown ht
  have untouched : Block.ft ∉ ownBlocks kind → t.FramesOnTime := fun hft => h.of_ft (same .ft hft) hnow (by rw [hready]; exact id)
  cases kind <;> cases hown
  case status =>
    obtain rfl | rfl := status_ok ht
    · exact h
    · exact h.of_same rfl rfl rfl rfl rfl rfl id
  case restart =>
    obtain ⟨-, rfl⟩ := restart_ok ht
    exact h.of_same rfl rfl rfl rfl rfl rfl id
  case setSync => exact setSync_framesOnTime h ht
  case setFrameNumber =>
    obtain ⟨v, rfl⟩ := setFrameNumber_ok ht
    exact h.of_same rfl rfl rfl rfl rfl rfl id
  all_goals exact untouched (by decide)

theorem answer_framesOnTime (h : s.FramesOnTime) (q : Queued) (r : Result) (p : List Byte) : (s.answer q r p).FramesOnTime := by
  refine h.of_ft (answer_ft ..) (answer_now ..) fun hr => ?_
  rwa [State.ready, answer_mc, running_congr (answer_powerGood ..) (answer_resetLine ..)] at hr

/-- The end of the blanking interval comes before the next frame start is due, as T is at least 4 ms. -/
theorem State.FramesOnTime.blanking_timely (h : s.FramesOnTime) : s.Timely (s.ft.frameStart + blankingTime) := by
  intro hr
  obtain ⟨⟨hmin, -⟩, -, -, hlocked, hholdover, hentered⟩ := h
  unfold State.OnTime
  cases hst : s.ft.syncState with
  | locked =>
    have := hlocked hr hst
    simp only [blankingTime]; omega
  | holdover =>
    have := hholdover hr hst
    simp only [blankingTime]; omega
  | seeking =>
    have := (hentered hr (Or.inl hst)).1
    simp only [blankingTime]; omega
  | free =>
    have := (hentered hr (Or.inr hst)).1
    simp only [blankingTime]; omega

/-- Every effect of a command keeps the bound of R43. -/
theorem Does.framesOnTime {c : Instr} (h : Does s c t) (hs : s.FramesOnTime) : t.FramesOnTime := by
  cases h with
  | idles => exact hs
  | refuses r hrow hq => exact answer_framesOnTime (takes_framesOnTime hs _) _ _ _
  | answers hrow hown hq hu => exact answer_framesOnTime (own_framesOnTime (takes_framesOnTime hs _) hown hu) _ _ _
  | fills hq hjob => exact (takes_framesOnTime hs _).of_ft rfl rfl id
  | fillEnds he =>
    refine answer_framesOnTime ?_ _ _ _
    exact hs.of_ft rfl rfl id
  | copyEnds hp => exact hs.of_ft rfl rfl id
  | writeEnds b hx hu => exact (hu ▸ passTo_framesOnTime hs _).of_ft rfl rfl id
  | checkPasses m hx hu hread => exact (hu ▸ passTo_framesOnTime hs _).of_ft rfl rfl id
  | checkFails m hx hu hread => exact (hu ▸ passTo_framesOnTime hs _).of_ft rfl rfl id
  | markEnds b hx hu => exact (hu ▸ passTo_framesOnTime hs _).of_ft rfl rfl id
  | burnFails m hx hu => exact (hu ▸ passTo_framesOnTime hs _).of_ft rfl rfl id
  | scanGoesOn r hg hu hv hnext => subst hv; exact (hu ▸ passTo_framesOnTime hs _).of_ft rfl rfl id
  | scanEnds r hg hu hv hnext => subst hv; exact (hu ▸ passTo_framesOnTime hs _).of_ft rfl rfl id
  | patrolEnds r hg hu hv => obtain rfl | rfl := hv <;> exact (hu ▸ passTo_framesOnTime hs _).of_ft rfl rfl id
  | edges m hready => exact edge_framesOnTime (passTo_framesOnTime hs m)
  | expires hready => exact frameTimerExpires_framesOnTime hs.period
  | scansOut hphase => exact (tick_framesOnTime hs hs.blanking_timely).of_ft rfl rfl id
  | links c => exact hs.of_ft rfl rfl id
  | receives c r => exact hs.of_ft rfl rfl id
  | joins ys n f => exact hs.of_ft rfl rfl id
  | drops ys => exact hs.of_ft rfl rfl id
  | sends hx => exact hs.of_ft rfl rfl id
  | goesCold c b ht =>
    have hcold : ∀ r : State, r.ft = .cold → r.mc = .cold → r.FramesOnTime := by
      intro r hft hmc
      have hnot : ¬ r.ready = true := by simp [State.ready, hmc, ModeControl.cold]
      refine ⟨by rw [hft]; decide, by rw [hft]; exact Nat.zero_le _, fun hr => absurd hr hnot, fun hr => absurd hr hnot,
        fun hr => absurd hr hnot, fun hr => absurd hr hnot⟩
    obtain rfl | rfl := ht <;> exact hcold _ rfl rfl
  | @linesChange power line c hmore =>
    obtain ⟨⟨same, -⟩, hnow, -⟩ := afterLines_blocks s power line
    exact hs.of_ft (same .ft (by decide)).symm hnow ready_of_afterLines
  | startsUp m hrunning hstarting =>
    refine ⟨hs.period, hs.lastStart.trans (le_max_left _ _), fun _ => onTime_iff.2 (Nat.le_add_right _ _), fun _ hst => (by cases hst),
      fun _ hst => (by cases hst), fun _ _ => ⟨hs.lastStart.trans (le_max_left _ _), le_rfl⟩⟩

end OnTime

/-! ## Where a timer starts -/

/-- From `s` to `t` the timer has not been started, or it was started with a frame. -/
def State.TimerStartsWithFrame (s t : State) : Prop :=
  t.ft.timerStart = s.ft.timerStart ∨ (t.ft.timerStart ≤ t.ft.frameStart ∧ t.ft.timerStart ≤ t.now)

section TimerStart
variable {s u t : State}

theorem State.TimerStartsWithFrame.of_same (h : s.TimerStartsWithFrame u) (htimer : t.ft.timerStart = u.ft.timerStart)
    (hstart : u.ft.frameStart ≤ t.ft.frameStart ∨ t.ft.frameStart = t.now) (hnow : u.now ≤ t.now) : s.TimerStartsWithFrame t := by
  obtain h | ⟨hframe, hclock⟩ := h
  · exact Or.inl (htimer.trans h)
  · refine Or.inr ⟨?_, by omega⟩
    obtain hstart | hstart := hstart <;> omega

theorem frameTimerExpires_timerStart : s.TimerStartsWithFrame u.frameTimerExpires := by
  obtain ⟨-, htimer, hstart, -, hnow, -⟩ := frameTimerExpires_ft u
  exact Or.inr ⟨by rw [htimer, hstart], by rw [htimer, hnow]⟩

theorem reach_timerStart (m : Nat) : s.TimerStartsWithFrame (s.reach m) :=
  reach_keeps (P := s.TimerStartsWithFrame) (fun _ _ _ => frameTimerExpires_timerStart) m (Or.inl rfl)

theorem passTo_timerStart (m : Nat) : s.TimerStartsWithFrame (s.passTo m) :=
  (reach_timerStart m).of_same rfl (Or.inl le_rfl) (le_max_left _ _)

theorem takes_timerStart (k : Take) : s.TimerStartsWithFrame (s.takes k) :=
  (reach_timerStart k.moment).of_same rfl (Or.inl le_rfl) (le_max_left _ _)

/-- A change of other blocks, at a moment not earlier. -/
theorem State.TimerStartsWithFrame.of_ft (h : s.TimerStartsWithFrame u) (hft : t.ft = u.ft) (hnow : t.now = u.now) :
    s.TimerStartsWithFrame t := h.of_same (by rw [hft]) (Or.inl (by rw [hft])) hnow.ge

theorem countedEvent_timerStart (h : s.TimerStartsWithFrame u) : s.TimerStartsWithFrame u.countedEvent := by
  have hnow : u.countedEvent.now = u.now := (applyDue_lines u).2.2.2
  refine h.of_same (by rw [State.countedEvent, latchFrame_ft, applyDue_ft]) (Or.inr ?_) hnow.ge
  rw [State.countedEvent, latchFrame_ft]
  rfl

theorem edge_timerStart (h : s.TimerStartsWithFrame u) : s.TimerStartsWithFrame u.edge := by
  unfold State.edge
  split
  · refine countedEvent_timerStart ?_
    exact h.of_same rfl (Or.inl le_rfl) le_rfl
  · split
    · exact h.of_same rfl (Or.inl le_rfl) le_rfl
    · refine countedEvent_timerStart ?_
      exact h.of_same rfl (Or.inl le_rfl) le_rfl
  · refine countedEvent_timerStart ?_
    exact h.of_same rfl (Or.inl le_rfl) le_rfl
  · exact h

/-- Of the own rules SET_SYNC's alone starts a timer. -/
theorem own_timerStart {kind : Kind} {own : State → List Byte → Answered} {p reply : List Byte} (hkind : kind ≠ .setSync)
    (hown : ownRule kind = some own) (ht : own u p = .ok (t, reply)) (h : s.TimerStartsWithFrame u) : s.TimerStartsWithFrame t := by
  obtain ⟨same, -, -, -, hnow⟩ := own_sameBlocks hown ht
  have untouched : Block.ft ∉ ownBlocks kind → s.TimerStartsWithFrame t := fun hft => h.of_ft (same .ft hft) hnow
  cases kind <;> cases hown
  case setSync => exact absurd rfl hkind
  case status =>
    obtain rfl | rfl := status_ok ht
    · exact h
    · exact h.of_same rfl (Or.inl le_rfl) le_rfl
  case restart =>
    obtain ⟨-, rfl⟩ := restart_ok ht
    exact h.of_same rfl (Or.inl le_rfl) le_rfl
  case setFrameNumber =>
    obtain ⟨v, rfl⟩ := setFrameNumber_ok ht
    exact h.of_same rfl (Or.inl le_rfl) le_rfl
  all_goals exact untouched (by decide)

theorem answer_timerStart (h : s.TimerStartsWithFrame u) (q : Queued) (r : Result) (p : List Byte) :
    s.TimerStartsWithFrame (u.answer q r p) := h.of_ft (answer_ft ..) (answer_now ..)

/-- Of the commands SET_SYNC and STARTUP_END alone start a timer without a frame. -/
theorem Does.timerStart {c : Instr} (h : Does s c t) :
    s.TimerStartsWithFrame t ∨ (∃ k, c = .setSync k) ∨ ∃ m, c = .startupEnd m := by
  have none : s.TimerStartsWithFrame s := Or.inl rfl
  cases h with
  | idles => exact Or.inl none
  | refuses r hrow hq => exact Or.inl (answer_timerStart (takes_timerStart _) _ _ _)
  | @answers _ kind k _ _ _ _ _ hrow hown hq hu =>
    by_cases hkind : kind = .setSync
    · subst hkind
      refine Or.inr (Or.inl ⟨k, ?_⟩)
      cases c <;> cases hrow
      rfl
    · exact Or.inl (answer_timerStart (own_timerStart hkind hown hu (takes_timerStart _)) _ _ _)
  | fills hq hjob => exact Or.inl ((takes_timerStart _).of_ft rfl rfl)
  | fillEnds he =>
    refine Or.inl (answer_timerStart ?_ _ _ _)
    exact none.of_ft rfl rfl
  | copyEnds hp => exact Or.inl (none.of_ft rfl rfl)
  | writeEnds b hx hu => exact Or.inl ((hu ▸ passTo_timerStart _).of_ft rfl rfl)
  | checkPasses m hx hu hread => exact Or.inl ((hu ▸ passTo_timerStart _).of_ft rfl rfl)
  | checkFails m hx hu hread => exact Or.inl ((hu ▸ passTo_timerStart _).of_ft rfl rfl)
  | markEnds b hx hu => exact Or.inl ((hu ▸ passTo_timerStart _).of_ft rfl rfl)
  | burnFails m hx hu => exact Or.inl ((hu ▸ passTo_timerStart _).of_ft rfl rfl)
  | scanGoesOn r hg hu hv hnext => subst hv; exact Or.inl ((hu ▸ passTo_timerStart _).of_ft rfl rfl)
  | scanEnds r hg hu hv hnext => subst hv; exact Or.inl ((hu ▸ passTo_timerStart _).of_ft rfl rfl)
  | patrolEnds r hg hu hv => obtain rfl | rfl := hv <;> exact Or.inl ((hu ▸ passTo_timerStart _).of_ft rfl rfl)
  | edges m hready => exact Or.inl (edge_timerStart (passTo_timerStart m))
  | expires hready => exact Or.inl frameTimerExpires_timerStart
  | scansOut hphase => exact Or.inl (none.of_same rfl (Or.inl le_rfl) (le_max_left _ _))
  | links c => exact Or.inl (none.of_ft rfl rfl)
  | receives c r => exact Or.inl (none.of_ft rfl rfl)
  | joins ys n f => exact Or.inl (none.of_ft rfl rfl)
  | drops ys => exact Or.inl (none.of_ft rfl rfl)
  | sends hx => exact Or.inl (none.of_ft rfl rfl)
  | goesCold c b ht => obtain rfl | rfl := ht <;> exact Or.inl (Or.inr ⟨Nat.zero_le _, Nat.zero_le _⟩)
  | @linesChange power line c hmore =>
    obtain ⟨⟨same, -⟩, hnow, -⟩ := afterLines_blocks s power line
    exact Or.inl (none.of_ft (same .ft (by decide)).symm hnow)
  | startsUp m hrunning hstarting => exact Or.inr (Or.inr ⟨m, rfl⟩)

end TimerStart

end Sys2Proof.Machine
end

section
/-! SUPPORT. The statement on the output, the notices, the flips and the frame starts settled. -/

namespace Sys2Proof.Settled

open Sys2Proof.Machine

/-- What every effect of a command keeps, and what has no say on the waiting commands, every step keeps. -/
theorem step_keeps {P : State → Prop} (hdoes : ∀ {s t c}, Does s c t → P s → P t) (hpending : ∀ s rest, P s → P { s with pending := rest })
    {s t : State} (hs : P s) (ht : step s = .next t) : P t := by
  obtain rfl | ⟨c, rest, hc⟩ := step_does ht
  · exact hs
  · exact hdoes hc (hpending s rest hs)

/-- Settles O56: each of the four is kept by every effect of a command, and SET_SYNC and STARTUP_END alone start a timer without a frame. -/
theorem outputNoticesAndFlipsStayLawful : Obligations.OutputNoticesAndFlipsStayLawful := by
  refine ⟨⟨fun s t hs ht => ?_, fun s t hs ht => ?_⟩, fun s t hs ht => ?_, fun s t hs ht => ?_, fun c s t ht hne => ?_⟩
  · exact step_keeps (P := State.DarkOutsideShow) Does.darkOutsideShow (fun _ _ h => h.of_same id rfl rfl) hs ht
  · exact step_keeps (P := State.NoticesNumbered) Does.noticesNumbered (fun _ _ h => h.of_same rfl rfl) hs ht
  · exact step_keeps (P := State.FlipAndCopyApart) Does.flipAndCopyApart (fun _ _ h => h.of_blocks rfl rfl) hs ht
  · exact step_keeps (P := State.FramesOnTime) Does.framesOnTime (fun _ _ h => h.of_ft rfl rfl id) hs ht
  · obtain (hsame | ⟨hframe, -⟩) | hnamed := (exec_does ht).timerStart
    · exact absurd hsame hne
    · exact Or.inl hframe
    · exact Or.inr hnamed

end Sys2Proof.Settled
end

section
/-! SUPPORT. The lines at the begin of start-up; the check value (R153, R187), the codes of the kinds (R186) and the notice record (R191). -/

namespace Sys2Proof.Machine

/-! ## The begin of start-up -/

section Lines
variable {s : State} {power line : Bool}

/-- A change of the lines that ends the hold begins start-up (R143). -/
theorem afterLines_begins (hheld : s.running = false) (hruns : (power && !line) = true) :
    s.afterLines power line = { s with powerGood := power, resetLine := line, mc := { s.mc with startUp := .starting } } :=
  if_pos ⟨hheld, hruns⟩

/-- Any other change of the lines is noted and no more. -/
theorem afterLines_stays (h : s.running = true ∨ (power && !line) = false) :
    s.afterLines power line = { s with powerGood := power, resetLine := line } :=
  if_neg fun ⟨hheld, hruns⟩ => by
    obtain h | h := h
    · exact absurd (hheld.symm.trans h) (by simp)
    · exact absurd (h.symm.trans hruns) (by simp)

end Lines

/-! ## The check value -/

/-- The check value over one byte more. -/
theorem crc16_append (bs : List Byte) (b : Byte) : crc16 (bs ++ [b]) = crcByte (crc16 bs) b := by simp [crc16]

/-- One shift of the register, with the bit that leaves the top named by its number (R187). -/
theorem crcShift_eq (x : Half) : crcShift x = if x.getLsbD 15 then (x <<< 1) ^^^ 0x1021 else x <<< 1 := by
  rw [crcShift, BitVec.msb_eq_getLsbD_last]
  rfl

/-- The check-value test on a body whose last two bytes are named (R153). -/
theorem checkGood_append_pair (bs : List Byte) (low high : Byte) :
    checkGood (bs ++ [low, high]) = true ↔ low.toNat + 256 * high.toNat = (crc16 bs).toNat := by
  have hlength : (bs ++ [low, high]).length - 2 = bs.length := by simp
  simp only [checkGood, hlength, List.drop_left, List.take_left, beq_iff_eq, fromLe]
  omega

/-- A body to which the tile adds the check value passes the test. -/
theorem checkGood_withCheck (b : List Byte) : checkGood (withCheck b) = true := by
  refine (checkGood_append_pair b _ _).2 ?_
  have hlt := (crc16 b).isLt
  simp only [BitVec.toNat_ofNat]
  omega

theorem withCheck_length (b : List Byte) : (withCheck b).length = b.length + 2 := by simp [withCheck]

theorem withCheck_take (b : List Byte) : (withCheck b).take b.length = b := by simp [withCheck]

/-! ## The codes of the kinds -/

/-- Every kind is found by its code. -/
theorem ofCode_code (kind : Kind) : Kind.ofCode kind.code = some kind := by cases kind <;> rfl

/-- A byte is the code of the kind that it names, and of no other. -/
theorem ofCode_eq_some_iff {b : Byte} {kind : Kind} : Kind.ofCode b = some kind ↔ kind.code = b := by
  refine ⟨fun h => ?_, fun h => h ▸ ofCode_code kind⟩
  simpa using List.find?_some h

/-! ## The notice record -/

/-- The detail bytes stand from offset 7 on, with zeros after them (R191). -/
theorem byteAt_record_details (n : Notice) (i : Nat) :
    byteAt n.record (7 + i) = byteAt (n.details.bytes ++ List.replicate (9 - n.details.bytes.length) 0) i := by
  have hhead : ([n.number, n.details.code] ++ frameField n.frame ++ [n.lost]).length = 7 := by simp [frameField]
  rw [Notice.record, byteAt, List.getD_append_right _ _ _ _ (by omega), hhead, Nat.add_sub_cancel_left]
  rfl

theorem frameBody_length (n : Notice) : n.frameBody.length = 20 := by
  rw [Notice.frameBody, withCheck_length]
  simp [record_length]

/-- The header fields of a notice record (R191). -/
theorem record_header (n : Notice) :
    byteAt n.record 0 = n.number ∧ byteAt n.record 1 = n.details.code ∧ field n.record 2 4 = n.frame.toNat ∧ byteAt n.record 6 = n.lost := by
  refine ⟨rfl, rfl, ?_, rfl⟩
  have hfield : field n.record 2 4 = fromLe (frameField n.frame) := by
    simp only [Notice.record, List.append_assoc]
    exact field_append [n.number, n.details.code] (frameField n.frame) _ 2 4 rfl (by simp [frameField])
  rw [hfield, frameField, fromLe_toLe_of_lt n.frame.isLt]

/-- A notice frame's body: its three head bytes, then record bytes 1 to 15 (R186). -/
theorem frameBody_parts (n : Notice) : n.frameBody.take 3 = [n.unit, n.number, 0xFF] ∧ (n.frameBody.drop 3).take 15 = n.record.drop 1 := by
  have hrecord : (n.record.drop 1).length = 15 := by rw [List.length_drop, record_length]
  refine ⟨rfl, ?_⟩
  have htail : n.frameBody.drop 3 = n.record.drop 1 ++ toLe 2 (crc16 ([n.unit, n.number, 0xFF] ++ n.record.drop 1)).toNat := rfl
  rw [htail, ← hrecord, List.take_left]

end Sys2Proof.Machine
end

section
/-! SUPPORT. The statements on the values after a cold reset and on the begin of start-up settled. -/

namespace Sys2Proof.Settled

open Sys2Proof.Machine

/-- Settles O3: the values stand in the blocks' cold-reset records; the default palettes are the entries that no list names. -/
theorem resetHoldsColdValues : Obligations.ResetHoldsColdValues := by
  refine ⟨⟨rfl, rfl⟩, ⟨rfl, rfl, rfl, rfl⟩, ⟨rfl, rfl, fun bank i hbank hi => ?_, rfl, rfl, rfl⟩, ⟨rfl, rfl, rfl, rfl, rfl, rfl⟩,
    ⟨rfl, rfl⟩, ⟨rfl, fun r => ?_⟩, rfl, ⟨rfl, rfl, rfl, rfl, rfl, rfl, rfl, rfl, rfl⟩,
    ⟨rfl, rfl, rfl, rfl, rfl, rfl, rfl, rfl, rfl, rfl, rfl, rfl⟩, ⟨rfl, rfl, rfl, rfl, rfl, rfl, rfl, rfl, rfl⟩⟩
  · have hentry : (256 * bank + i) % 256 = i := by omega
    simp only [State.reset, Presentation.cold, View.default, Palette.entry, storeRead, paletteKey, colourDefault, hentry]
  · simp [State.reset, RowDrive.cold, Vector.get_eq_getElem]

/-- Reset's tile meets the fuses' part while it is STARTING: no burn runs. -/
theorem reset_fusesBearOut : State.reset.FusesBearOut :=
  ⟨fun h => (by cases h), fun h => (by cases h), fun h => (by cases h), trivial⟩

/-- Settles O57. -/
theorem resetMeetsInvariants : Obligations.ResetMeetsInvariants := by
  have hwidth : (256 : Nat) ∈ canvasWidths := by decide
  refine ⟨⟨Nat.zero_le _, Nat.zero_le _, Nat.zero_le _, Nat.zero_le _, Nat.zero_le _, Nat.zero_le _, List.nodup_nil⟩,
    ⟨rfl, rfl, hwidth, rfl, rfl, fun _ he => (by cases he), defaultBands_legal hwidth, fun _ ho => (by cases ho), fun _ hz => (by cases hz),
      fun _ _ ho => (by cases ho)⟩,
    flipAndCopyApart_of_idle rfl, ?_, ⟨fun ho => (by cases ho), fun hr => (by cases hr), fun _ => rfl⟩,
    ⟨show RequestUnit.cold.nextNotice ≠ 0 by decide, fun _ hx => (by cases hx), 1, rfl⟩, ?_, reset_fusesBearOut⟩
  · exact (toCold_mapConsistent State.reset { index := 0, complement := 0, damage := 0 }).of_blocks rfl rfl rfl rfl rfl
  · have hnot : ¬ State.reset.ready = true := by decide
    exact ⟨by decide, le_rfl, fun hr => absurd hr hnot, fun hr => absurd hr hnot, fun hr => absurd hr hnot, fun hr => absurd hr hnot⟩

/-- Settles O60. -/
theorem startupBegins : Obligations.StartupBegins := by
  intro s
  have held : s.powerGood = false ∨ s.resetLine = true → s.running = false := by
    rintro (h | h) <;> simp [State.running, h]
  refine ⟨fun hp hr => ?_, fun hp hr => ?_, fun hr => ⟨_, rfl, ?_, ?_⟩, fun hp => ⟨_, rfl, ?_, ?_⟩, fun hrun c => ?_⟩
  · exact congrArg Host.Outcome.next ((afterLines_begins (held (Or.inl hp)) (by simp [hr])).trans (by simp))
  · exact congrArg Host.Outcome.next ((afterLines_begins (held (Or.inr hr)) (by simp [hp])).trans (by simp))
  · exact afterLines_stays (Or.inr (by simp [hr]))
  · rw [afterLines_stays (Or.inr (by simp [hr]))]; simp [State.running, hr]
  · exact afterLines_stays (Or.inr (by simp [hp]))
  · rw [afterLines_stays (Or.inr (by simp [hp]))]; simp [State.running, hp]
  · have hlines : s.powerGood = true ∧ s.resetLine = false := by simpa [State.running] using hrun
    obtain ⟨hp, hr⟩ := hlines
    cases c
    · exact congrArg Host.Outcome.next ((afterLines_stays (Or.inl hrun)).trans (by rw [← hp]))
    · exact congrArg Host.Outcome.next ((afterLines_stays (Or.inl hrun)).trans (by rw [← hr]))

/-- Settles O48, part by part: the receiver, the check value, the codes, the notice record and frame. -/
theorem frameFormats : Obligations.FrameFormats := by
  refine ⟨fun x b d => ?_, ⟨rfl, fun bs b => ?_, checkGood_append_pair⟩, ⟨fun b => ?_, ?_⟩, ⟨fun b kind => ?_, fun b kind => ?_⟩, rfl,
    ?_, fun n => ?_⟩
  · cases x <;> exact ⟨rfl, rfl, rfl, rfl, rfl, rfl, rfl, rfl, rfl⟩
  · rw [crc16_append, crcByte]
    simp only [crcShift_eq]
    rfl
  · exact ⟨checkGood_withCheck b, withCheck_length b, withCheck_take b⟩
  · refine ⟨Sys2Proof.Tests.test_check_value, ?_⟩
    rw [withCheck, Sys2Proof.Tests.test_check_value]
    rfl
  · rw [ofCode_eq_some_iff]
    cases kind <;> simp [Kind.code, eq_comm]
  · cases kind <;> simp [Kind.code, eq_comm]
  · refine ⟨rfl, rfl, rfl, rfl, rfl, rfl, fun k => ⟨rfl, rfl⟩, fun p => ⟨rfl, rfl⟩, fun y => rfl, fun g => rfl, rfl, rfl⟩
  · obtain ⟨hnumber, hcode, hframe, hlost⟩ := record_header n
    obtain ⟨hhead, htail⟩ := frameBody_parts n
    refine ⟨record_length n, hnumber, hcode, hframe, hlost, fun i hi => ?_, fun i hi hi' => ?_, frameBody_length n, hhead, htail,
      checkGood_withCheck _⟩
    · rw [byteAt_record_details, byteAt, List.getD_append _ _ _ _ hi]; rfl
    · rw [byteAt_record_details, byteAt, List.getD_append_right _ _ _ _ hi]
      simp

end Sys2Proof.Settled
end

section
/-! SUPPORT. The fuses and the HARD routes (R100-R112): what each command does to the Fuse Store, one case per effect; and what every effect keeps. -/

namespace Sys2Proof.Machine

/-! ## What a command does to the Fuse Store -/

/-- What a command does to the Fuse Store, with what it finds there. -/
inductive FuseEffect (s : State) (c : Instr) (t : State) : Prop
  | keeps (hfz : t.fz = s.fz) (hstart : t.mc.startUp = .ready → s.mc.startUp = .ready)
  | begins (y : Subject) (n : Nat) (hready : s.mc.startUp = .ready) (hidle : s.fz.burn = .idle)
      (hroute : ((s.rd.segment y.seg).primary y.primary).route = .soft y.spare)
      (hfz : t.fz = { s.fz.putHeld y .writing with burn := .write y, entered := n })
  | blows (b : Blows) (next : BurnEngine) (n : Nat)
      (hnext : (∃ y, s.fz.burn = .write y ∧ next = .check y) ∨ ∃ y, s.fz.burn = .mark y ∧ next = .recheck y)
      (hfz : t.fz = { s.fz.blow b with burn := next, entered := n }) (hmc : t.mc = s.mc)
  | fails (y : Subject) (n : Nat) (hcheck : s.fz.burn = .check y) (hread : (s.fz.record y).classify ≠ .programmed y.primary)
      (hfz : t.fz = { s.fz with burn := .mark y, entered := n }) (hmc : t.mc = s.mc)
  | ends (y : Subject) (k : FuseClass) (n : Nat)
      (hburn : (s.fz.burn = .check y ∧ (s.fz.record y).classify = .programmed y.primary ∧ k = .programmed y.primary) ∨
        (s.fz.burn = .recheck y ∧ (k = .damaged ∨ k = .inconsistent)))
      (hfz : t.fz = { s.fz.putHeld y k with burn := .idle, entered := n }) (hmc : t.mc = s.mc)
  | cold (r : ResetCause) (b : Blows) (hc : c = .coldReset r b) (hfz : t.fz = s.fz.coldReset b) (hstart : t.mc.startUp = .starting)
  | reads (m : Nat) (hc : c = .startupEnd m) (hstarting : s.mc.startUp = .starting) (hfz : t.fz = s.fz.startupRead)
      (hrd : t.rd = RowDrive.build t.fz.held)

theorem takes_fz (s : State) (k : Take) : (s.takes k).fz = s.fz := (reach_fields s k.moment).2.2.1

theorem takes_segment (s : State) (k : Take) (g : Fin 6) : (s.takes k).rd.segment g = s.rd.segment g := by
  have hsegments : (s.takes k).rd.segments = s.rd.segments := (reach_fields s k.moment).2.2.2.2.1
  rw [RowDrive.segment, hsegments]; rfl

theorem edge_fz (s : State) : s.edge.fz = s.fz := (edge_same s).1 .fz (by decide)

theorem edge_mc (s : State) : s.edge.mc = s.mc := (edge_same s).1 .mc (by decide)

/-- Of the own rules BURN's alone touches the Fuse Store. -/
theorem own_fuseEffect {s u : State} {c : Instr} {k : Take} {q : Queued} {rest : List Queued} {kind : Kind}
    {own : State → List Byte → Answered} {p reply : List Byte} (hq : s.AtHead k q rest) (hown : ownRule kind = some own)
    (hu : own (s.takes k) p = .ok (u, reply)) : FuseEffect s c (u.answer q .ok reply) := by
  have hready := own_ready hown hu
  have kept : Block.fz ∉ ownBlocks kind → FuseEffect s c (u.answer q .ok reply) := fun hfz =>
    .keeps ((answer_fz ..).trans (((own_sameBlocks hown hu).1 .fz hfz : u.fz = _).trans (takes_fz s k))) fun _ => hq.startUp_ready
  by_cases hkind : kind = .burn
  · subst hkind
    cases hown
    obtain ⟨y, -, hidle, -, hroute, rfl⟩ := burnRequest_ok hu
    rw [takes_fz] at hidle
    rw [takes_segment] at hroute
    refine .begins y (s.takes k).now hq.startUp_ready hidle hroute ?_
    rw [answer_fz, withFz_fz, takes_fz]
  · refine kept ?_
    cases kind <;> first | decide | exact absurd rfl hkind

/-- Every effect of a command, seen from the Fuse Store. -/
theorem Does.fuseEffect {s t : State} {c : Instr} (h : Does s c t) : FuseEffect s c t := by
  cases h with
  | idles => exact .keeps rfl id
  | refuses r hrow hq => exact .keeps ((answer_fz ..).trans (takes_fz s _)) fun _ => hq.startUp_ready
  | answers hrow hown hq hu => exact own_fuseEffect hq hown hu
  | fills hq hjob => exact .keeps (takes_fz s _) fun _ => hq.startUp_ready
  | fillEnds he => exact .keeps (answer_fz ..) (by rw [answer_mc]; exact id)
  | copyEnds hp => exact .keeps rfl id
  | @writeEnds y u b hx hu =>
    have hfz : u.fz = s.fz := hu ▸ passTo_fz s _
    have hmc : u.mc = s.mc := hu ▸ passTo_mc s _
    refine .blows b (.check y) u.now (Or.inl ⟨y, hx, rfl⟩) ?_ hmc
    rw [withFz_fz, hfz]
  | @checkPasses y u m hx hu hread =>
    have hfz : u.fz = s.fz := hu ▸ passTo_fz s _
    have hmc : u.mc = s.mc := hu ▸ passTo_mc s _
    refine .ends y (.programmed y.primary) u.now (Or.inl ⟨hx, hfz ▸ hread, rfl⟩) ?_ hmc
    rw [← hfz]; rfl
  | @checkFails y u m hx hu hread =>
    have hfz : u.fz = s.fz := hu ▸ passTo_fz s _
    have hmc : u.mc = s.mc := hu ▸ passTo_mc s _
    refine .fails y u.now hx (hfz ▸ hread) ?_ hmc
    rw [withFz_fz, hfz]
  | @markEnds y u b hx hu =>
    have hfz : u.fz = s.fz := hu ▸ passTo_fz s _
    have hmc : u.mc = s.mc := hu ▸ passTo_mc s _
    refine .blows b (.recheck y) u.now (Or.inr ⟨y, hx, rfl⟩) ?_ hmc
    rw [withFz_fz, hfz]
  | @burnFails y u m hx hu =>
    have hfz : u.fz = s.fz := hu ▸ passTo_fz s _
    have hmc : u.mc = s.mc := hu ▸ passTo_mc s _
    refine .ends y _ u.now (Or.inr ⟨hx, ?_⟩) (by rw [← hfz]; rfl) hmc
    split
    · exact Or.inl rfl
    · exact Or.inr rfl
  | @scanGoesOn g h u v r hg hu hv hnext =>
    have hfz : u.fz = s.fz := hu ▸ passTo_fz s _
    have hmc : u.mc = s.mc := hu ▸ passTo_mc s _
    exact .keeps ((congrArg State.fz hv).trans hfz) fun hr => (congrArg ModeControl.startUp ((congrArg State.mc hv).trans hmc)).symm.trans hr
  | @scanEnds g u v r hg hu hv hnext =>
    have hfz : u.fz = s.fz := hu ▸ passTo_fz s _
    have hmc : u.mc = s.mc := hu ▸ passTo_mc s _
    exact .keeps ((congrArg State.fz hv).trans hfz) fun hr => (congrArg ModeControl.startUp ((congrArg State.mc hv).trans hmc)).symm.trans hr
  | @patrolEnds g u v r hg hu hv =>
    have hfz : u.fz = s.fz := hu ▸ passTo_fz s _
    have hmc : u.mc = s.mc := hu ▸ passTo_mc s _
    have hvu : v.fz = u.fz ∧ v.mc = u.mc := by obtain rfl | rfl := hv <;> exact ⟨rfl, rfl⟩
    exact .keeps (hvu.1.trans hfz) fun hr => (congrArg ModeControl.startUp (hvu.2.trans hmc)).symm.trans hr
  | edges m hready =>
    exact .keeps ((edge_fz _).trans (passTo_fz s m)) fun hr =>
      (congrArg ModeControl.startUp ((edge_mc _).trans (passTo_mc s m))).symm.trans hr
  | expires hready =>
    obtain ⟨-, -, -, hfz, hmc, -⟩ := frameTimerExpires_keeps s
    exact .keeps hfz fun hr => (congrArg ModeControl.startUp hmc).symm.trans hr
  | scansOut hphase => exact .keeps rfl id
  | links c => exact .keeps rfl id
  | receives c r => exact .keeps rfl id
  | joins ys n f => exact .keeps rfl id
  | drops ys => exact .keeps rfl id
  | sends hx => exact .keeps rfl id
  | goesCold c b ht => obtain rfl | rfl := ht <;> exact .cold c b rfl rfl rfl
  | @linesChange power line c hmore =>
    refine .keeps ((afterLines_blocks s power line).1.1 .fz (by decide)).symm fun hr => ?_
    unfold State.afterLines at hr
    dsimp only at hr
    split at hr
    · cases hr
    · exact hr
  | startsUp m hrunning hstarting => exact .reads m rfl hstarting rfl rfl

/-! ## The fuses -/

section Fuses
variable {x z : FuseStore} {b : Blows} {y : Subject} {g : Fin 6} {k : SpareId} {p : Fin 16}

theorem blow_of_write (h : x.burn = .write y) (g : Fin 6) (k : SpareId) :
    ((x.blow b).fuses.get g).get k =
      if g = y.seg ∧ k = y.spare then (x.record y).blowWrite y.primary b else (x.fuses.get g).get k := by
  rw [FuseStore.blow, h]; exact putRecord_fuses ..

theorem blow_of_mark (h : x.burn = .mark y) (g : Fin 6) (k : SpareId) :
    ((x.blow b).fuses.get g).get k = if g = y.seg ∧ k = y.spare then (x.record y).blowDamage b else (x.fuses.get g).get k := by
  rw [FuseStore.blow, h]; exact putRecord_fuses ..

/-- Outside WRITE and MARK no fuse is blown. -/
theorem blow_of_other (hwrite : ∀ y, x.burn ≠ .write y) (hmark : ∀ y, x.burn ≠ .mark y) : x.blow b = x := by
  unfold FuseStore.blow
  split
  · rename_i y hy; exact absurd hy (hwrite y)
  · rename_i y hy; exact absurd hy (hmark y)
  all_goals rfl

theorem keptBy_refl (r : FuseRecord) : r.KeptBy r := ⟨BitVec.and_self, BitVec.and_self, BitVec.and_self⟩

/-- A blown fuse among others blown is there still. -/
theorem and_or_self_left {n : Nat} (v w : BitVec n) : v &&& (v ||| w) = v := by
  refine BitVec.eq_of_getLsbD_eq fun i _ => ?_
  rw [BitVec.getLsbD_and, BitVec.getLsbD_or]
  cases v.getLsbD i <;> simp

theorem blowWrite_keeps (r : FuseRecord) (p : Fin 16) (b : Blows) : r.KeptBy (r.blowWrite p b) :=
  ⟨and_or_self_left _ _, and_or_self_left _ _, BitVec.and_self⟩

theorem blowDamage_keeps (r : FuseRecord) (b : Blows) : r.KeptBy (r.blowDamage b) :=
  ⟨BitVec.and_self, BitVec.and_self, and_or_self_left _ _⟩

/-- The blows of WRITE and MARK leave every blown fuse blown (R100). -/
theorem blow_keptBy (x : FuseStore) (b : Blows) (g : Fin 6) (k : SpareId) :
    ((x.fuses.get g).get k).KeptBy (((x.blow b).fuses.get g).get k) := by
  by_cases hwrite : ∃ y, x.burn = .write y
  · obtain ⟨y, hy⟩ := hwrite
    rw [blow_of_write hy]
    split
    · rename_i h; obtain ⟨rfl, rfl⟩ := h; exact blowWrite_keeps _ _ _
    · exact keptBy_refl _
  by_cases hmark : ∃ y, x.burn = .mark y
  · obtain ⟨y, hy⟩ := hmark
    rw [blow_of_mark hy]
    split
    · rename_i h; obtain ⟨rfl, rfl⟩ := h; exact blowDamage_keeps _ _
    · exact keptBy_refl _
  rw [blow_of_other (fun y hy => hwrite ⟨y, hy⟩) (fun y hy => hmark ⟨y, hy⟩)]
  exact keptBy_refl _

/-- Every effect leaves every blown fuse blown, a cold reset's too. -/
theorem FuseEffect.keptBy {s t : State} {c : Instr} (h : FuseEffect s c t) (g : Fin 6) (k : SpareId) :
    ((s.fz.fuses.get g).get k).KeptBy ((t.fz.fuses.get g).get k) := by
  cases h with
  | keeps hfz hstart => rw [hfz]; exact keptBy_refl _
  | begins y n hready hidle hroute hfz => rw [hfz]; exact keptBy_refl _
  | blows b next n hnext hfz hmc => rw [hfz]; exact blow_keptBy s.fz b g k
  | fails y n hcheck hread hfz hmc => rw [hfz]; exact keptBy_refl _
  | ends y k' n hburn hfz hmc => rw [hfz]; exact keptBy_refl _
  | cold r b hc hfz hstart => rw [hfz]; exact blow_keptBy s.fz b g k
  | reads m hc hstarting hfz hrd => rw [hfz]; exact keptBy_refl _

/-! ## What the records read as -/

/-- A blank record reads PROGRAMMED for no primary. -/
theorem blank_not_programmed {r : FuseRecord} (h : r = FuseRecord.blank) (p : Fin 16) : r.classify ≠ .programmed p := by
  rw [classify_of_blank h]; simp

/-- Only a blank record reads BLANK. -/
theorem eq_blank_of_classify {r : FuseRecord} (h : r.classify = .blank) : r = FuseRecord.blank := by
  unfold FuseRecord.classify at h
  split at h
  · assumption
  · repeat' split at h
    all_goals cases h

/-- What a write on a blank record reads as, when it reads PROGRAMMED at all: the primary written. -/
theorem blowWrite_blank_programmed {p q : Fin 16} (h : (FuseRecord.blank.blowWrite p b).classify = .programmed q) : q = p := by
  by_cases heach : (FuseRecord.blank.blowWrite p b).OneOfEach
  · rw [classify_blowWrite_blank_of_oneOfEach heach] at h
    cases h; rfl
  · by_cases hblank : FuseRecord.blank.blowWrite p b = FuseRecord.blank
    · exact absurd h (blank_not_programmed hblank q)
    · rw [classify_of_not_oneOfEach hblank blowWrite_blank_damage heach] at h; cases h

/-- Damage fuses blown make no record read PROGRAMMED. -/
theorem blowDamage_not_programmed {r : FuseRecord} (h : ∀ p, r.classify ≠ .programmed p) (b : Blows) (p : Fin 16) :
    (r.blowDamage b).classify ≠ .programmed p := by
  by_cases hdamage : (r.blowDamage b).damage = 0
  · have hzero : r.damage = 0 := by
      have hand := and_or_self_left r.damage b.damage
      rw [show r.damage ||| b.damage = 0 from hdamage] at hand
      simpa using hand.symm
    have hsame : r.blowDamage b = r := by
      rw [FuseRecord.blowDamage, show r.damage ||| b.damage = r.damage from Eq.trans hdamage hzero.symm]
    rw [hsame]; exact h p
  · rw [classify_of_damage (fun e => hdamage (by rw [e]; rfl)) hdamage]; simp

/-- Only the fuses matter to what a record reads as at start-up. -/
theorem readsHard_congr (h : z.fuses = x.fuses) (hx : x.ReadsHard g p k) : z.ReadsHard g p k := by
  unfold FuseStore.ReadsHard at hx ⊢
  rw [h]; exact hx

end Fuses

/-! ## Good routes -/

section Good
variable {s t : State} {c : Instr} {g : Fin 6} {p : Fin 16} {k : SpareId}

/-- A burn runs in READY. -/
theorem State.MapConsistent.ready_of_subject (h : s.MapConsistent) {y : Subject} (hy : s.fz.burn.subject = some y) :
    s.mc.startUp = .ready := by
  have hmode := (h.burnMode (busy_iff_subject.2 (by rw [hy]; simp))).1
  cases hstart : s.mc.startUp with
  | ready => rfl
  | starting => exact absurd (hmode.symm.trans (h.starting hstart)) (by simp)

/-- In READY a route is good for good exactly when it is HARD (R106). -/
theorem hardForGood_iff (hmap : s.MapConsistent) (hbear : s.FusesBearOut) (hready : s.mc.startUp = .ready) :
    s.HardForGood g p k ↔ ((s.rd.segment g).primary p).route = .hard k := by
  refine ⟨fun h => h.2 hready, fun h => ⟨?_, fun _ => h⟩⟩
  exact hbear.programmed hready g k p (((hmap.agrees g k).hard p).1 (((hmap.matched g).hard p k).1 h))

/-- A record held PROGRAMMED(p) gives a good route. -/
theorem hardForGood_of_programmed (hmap : s.MapConsistent) (hbear : s.FusesBearOut) (hready : s.mc.startUp = .ready)
    (h : s.fz.classOf g k = .programmed p) : s.HardForGood g p k :=
  (hardForGood_iff hmap hbear hready).2 (((hmap.matched g).hard p k).2 (((hmap.agrees g k).hard p).2 h))

/-- The primary of a burn has no HARD route. -/
theorem State.MapConsistent.subject_ne_hard (h : s.MapConsistent) {y : Subject} (hy : s.fz.burn.subject = some y)
    (hroute : ((s.rd.segment y.seg).primary p).route = .hard k) : p ≠ y.primary := by
  rintro rfl
  exact absurd ((h.subject y hy).symm.trans hroute) (by simp)

/-- The blows of WRITE and MARK spoil no good route, in a cold reset as at their end. -/
theorem blow_readsHard (hmap : s.MapConsistent) (hbear : s.FusesBearOut) (h : s.HardForGood g p k) (b : Blows) :
    (s.fz.blow b).ReadsHard g p k := by
  obtain ⟨⟨hreads, halone⟩, hroute⟩ := h
  have hsubject := hbear.subject
  by_cases hwrite : ∃ y, s.fz.burn = .write y
  · obtain ⟨y, hy⟩ := hwrite
    have hy' : s.fz.burn.subject = some y := by rw [hy]; rfl
    rw [hy] at hsubject
    have hblank : s.fz.record y = FuseRecord.blank := hsubject
    unfold FuseStore.ReadsHard
    rw [blow_of_write hy, blow_of_write hy, hblank]
    refine ⟨?_, fun hk => ?_⟩
    · rw [if_neg fun e => blank_not_programmed (by rw [e.1, e.2]; exact hsubject) p hreads]; exact hreads
    · split
      · rename_i e
        intro hprogrammed
        have hhard := hroute (hmap.ready_of_subject hy')
        rw [e.1] at hhard
        exact hmap.subject_ne_hard hy' hhard (blowWrite_blank_programmed hprogrammed)
      · exact halone hk
  by_cases hmark : ∃ y, s.fz.burn = .mark y
  · obtain ⟨y, hy⟩ := hmark
    rw [hy] at hsubject
    obtain ⟨⟨b', hb'⟩, hne⟩ := hsubject
    have hnone : ∀ q, (s.fz.record y).classify ≠ .programmed q := fun q hq => by
      have hq' := hq
      rw [FuseStore.record, hb'] at hq'
      exact hne (blowWrite_blank_programmed hq' ▸ hq)
    unfold FuseStore.ReadsHard
    rw [blow_of_mark hy, blow_of_mark hy]
    refine ⟨?_, fun hk => ?_⟩
    · rw [if_neg fun e => hnone p (by rw [FuseStore.record, ← e.1, ← e.2]; exact hreads)]; exact hreads
    · split
      · exact blowDamage_not_programmed hnone b p
      · exact halone hk
  rw [blow_of_other (fun y hy => hwrite ⟨y, hy⟩) (fun y hy => hmark ⟨y, hy⟩)]
  exact ⟨hreads, halone⟩

/-- Every effect keeps the fuses of a good route (R106). -/
theorem FuseEffect.readsHard (he : FuseEffect s c t) (hmap : s.MapConsistent) (hbear : s.FusesBearOut) (h : s.HardForGood g p k) :
    t.fz.ReadsHard g p k := by
  cases he with
  | keeps hfz hstart => rw [hfz]; exact h.1
  | begins y n hready hidle hroute hfz => exact readsHard_congr (by rw [hfz]; rfl) h.1
  | blows b next n hnext hfz hmc => exact readsHard_congr (by rw [hfz]) (blow_readsHard hmap hbear h b)
  | fails y n hcheck hread hfz hmc => exact readsHard_congr (by rw [hfz]) h.1
  | ends y k' n hburn hfz hmc => exact readsHard_congr (by rw [hfz]; rfl) h.1
  | cold r b hc hfz hstart => exact readsHard_congr (by rw [hfz]; rfl) (blow_readsHard hmap hbear h b)
  | reads m hc hstarting hfz hrd => exact readsHard_congr (by rw [hfz]; rfl) h.1

/-- Every effect but a cold reset and the end of start-up keeps a classification PROGRAMMED (R103, R106). -/
theorem FuseEffect.programmed (he : FuseEffect s c t) (hmap : s.MapConsistent)
    (hcold : t.mc.startUp = .ready ∨ ∀ r b, c ≠ .coldReset r b) (hend : s.mc.startUp = .ready ∨ ∀ m, c ≠ .startupEnd m) (h : s.fz.classOf g k = .programmed p) : t.fz.classOf g k = .programmed p := by
  have hwriting : ∀ y, s.fz.burn.subject = some y → ¬ (g = y.seg ∧ k = y.spare) := fun y hy e => by
    have := (hmap.writing g k).2 ⟨y, hy, e.1.symm, e.2.symm⟩
    rw [h] at this; cases this
  cases he with
  | keeps hfz hstart => rw [hfz]; exact h
  | begins y n hready hidle hroute hfz =>
    have hput : t.fz.classOf g k = if g = y.seg ∧ k = y.spare then .writing else s.fz.classOf g k := by
      rw [hfz]; exact get_set_held s.fz y .writing g k
    rw [hput, if_neg ?_]
    · exact h
    · rintro ⟨rfl, rfl⟩
      have huse := ((hmap.agrees _ _).hard p).2 h
      rw [((hmap.matched _).soft _ _).1 hroute] at huse
      cases huse
  | blows b next n hnext hfz hmc =>
    have hheld : t.fz.held = s.fz.held := by rw [hfz]; exact (blow_keeps s.fz b).1
    rw [FuseStore.classOf, hheld]; exact h
  | fails y n hcheck hread hfz hmc => rw [hfz]; exact h
  | ends y k' n hburn hfz hmc =>
    have hput : t.fz.classOf g k = if g = y.seg ∧ k = y.spare then k' else s.fz.classOf g k := by
      rw [hfz]; exact get_set_held s.fz y k' g k
    rw [hput, if_neg (hwriting y ?_)]
    · exact h
    · obtain ⟨hb, -⟩ | ⟨hb, -⟩ := hburn <;> rw [hb] <;> rfl
  | cold r b hc hfz hstart =>
    obtain hr | hnot := hcold
    · exact absurd (hr.symm.trans hstart) (by simp)
    · exact absurd hc (hnot r b)
  | reads m hc hstarting =>
    obtain hr | hnot := hend
    · exact absurd (hr.symm.trans hstarting) (by simp)
    · exact absurd hc (hnot m)

end Good

/-! ## The fuses bear out the held classifications -/

section Bear
variable {s t : State} {c : Instr}

/-- A change that keeps fuses, classifications and the burn's state. -/
theorem State.FusesBearOut.of_fz (h : s.FusesBearOut) (hfz : t.fz = s.fz) (hstart : t.mc.startUp = .ready → s.mc.startUp = .ready) :
    t.FusesBearOut := by
  obtain ⟨hprogrammed, hblank, hspoiled, hsubject⟩ := h
  exact ⟨fun hr => hfz ▸ hprogrammed (hstart hr), fun hr => hfz ▸ hblank (hstart hr), fun hr => hfz ▸ hspoiled (hstart hr), hfz ▸ hsubject⟩

/-- In READY record s.16 reads PROGRAMMED for no primary but the one that it is held PROGRAMMED for, when it is not the burn's record. -/
theorem s16_not_programmed (hmap : s.MapConsistent) (hbear : s.FusesBearOut) (hready : s.mc.startUp = .ready) {g : Fin 6} {p : Fin 16}
    (hwriting : s.fz.classOf g .s16 ≠ .writing) (hroute : ∀ k, ((s.rd.segment g).primary p).route ≠ .hard k) :
    ((s.fz.fuses.get g).get .s16).classify ≠ .programmed p := by
  cases hclass : s.fz.classOf g .s16 with
  | blank => exact blank_not_programmed (hbear.blank hready g .s16 hclass) p
  | programmed q =>
    obtain ⟨⟨hreads, -⟩, hstands⟩ := hardForGood_of_programmed hmap hbear hready hclass
    intro hp
    obtain rfl : q = p := by simpa using hreads.symm.trans hp
    exact hroute _ (hstands hready)
  | damaged => exact hbear.spoiled hready g (Or.inl hclass) p
  | inconsistent => exact hbear.spoiled hready g (Or.inr hclass) p
  | writing => exact absurd hclass hwriting

/-- A burn begins on a blank record. -/
theorem fusesBearOut_of_begins (hmap : s.MapConsistent) (hbear : s.FusesBearOut) {y : Subject} {n : Nat} (hready : s.mc.startUp = .ready)
    (hidle : s.fz.burn = .idle) (hroute : ((s.rd.segment y.seg).primary y.primary).route = .soft y.spare)
    (hfz : t.fz = { s.fz.putHeld y .writing with burn := .write y, entered := n }) : t.FusesBearOut := by
  have hclass : ∀ g k, t.fz.classOf g k = if g = y.seg ∧ k = y.spare then .writing else s.fz.classOf g k := by
    rw [hfz]; exact get_set_held s.fz y .writing
  have hfuses : t.fz.fuses = s.fz.fuses := by rw [hfz]; rfl
  have kept : ∀ {g k x}, t.fz.classOf g k = x → x ≠ .writing → s.fz.classOf g k = x := by
    intro g k x hx hne
    rw [hclass] at hx
    split at hx
    · exact absurd hx.symm hne
    · exact hx
  have hrecord : s.fz.classOf y.seg y.spare = .blank := by
    have huse := ((hmap.matched _).soft _ _).1 hroute
    obtain ⟨hhard, hdamaged, -⟩ := hmap.agrees y.seg y.spare
    rw [huse] at hhard hdamaged
    cases hc : s.fz.classOf y.seg y.spare with
    | blank => rfl
    | programmed p => exact absurd ((hhard p).2 hc) (by simp)
    | damaged => exact absurd (hdamaged.2 (Or.inl hc)) (by simp)
    | inconsistent => exact absurd (hdamaged.2 (Or.inr hc)) (by simp)
    | writing =>
      obtain ⟨z, hz, -⟩ := (hmap.writing _ _).1 hc
      rw [hidle] at hz; cases hz
  refine ⟨fun _ g k p hp => ?_, fun _ g k hb => ?_, fun _ g hs => ?_, ?_⟩
  · exact readsHard_congr hfuses (hbear.programmed hready g k p (kept hp (by simp)))
  · rw [hfuses]; exact hbear.blank hready g k (kept hb (by simp))
  · rw [hfuses]
    exact hbear.spoiled hready g (hs.imp (fun e => kept e (by simp)) (fun e => kept e (by simp)))
  · rw [hfz]
    exact hbear.blank hready _ _ hrecord

/-- The blows of WRITE and MARK end. -/
theorem fusesBearOut_of_blows (hmap : s.MapConsistent) (hbear : s.FusesBearOut) {b : Blows} {next : BurnEngine} {n : Nat}
    (hnext : (∃ y, s.fz.burn = .write y ∧ next = .check y) ∨ ∃ y, s.fz.burn = .mark y ∧ next = .recheck y)
    (hfz : t.fz = { s.fz.blow b with burn := next, entered := n }) : t.FusesBearOut := by
  have hheld : t.fz.held = s.fz.held := by rw [hfz]; exact (blow_keeps s.fz b).1
  have hclass : ∀ g k, t.fz.classOf g k = s.fz.classOf g k := fun g k => by rw [FuseStore.classOf, hheld]; rfl
  have hfuses : t.fz.fuses = (s.fz.blow b).fuses := by rw [hfz]
  obtain ⟨y, hy⟩ : ∃ y, s.fz.burn.subject = some y := by
    obtain ⟨y, hy, -⟩ | ⟨y, hy, -⟩ := hnext <;> exact ⟨y, by rw [hy]; rfl⟩
  have hready := hmap.ready_of_subject hy
  have hother : ∀ g k, s.fz.classOf g k ≠ .writing → (t.fz.fuses.get g).get k = (s.fz.fuses.get g).get k := by
    intro g k hne
    have hnot : ¬ (g = y.seg ∧ k = y.spare) := fun e => hne ((hmap.writing g k).2 ⟨y, hy, e.1.symm, e.2.symm⟩)
    rw [hfuses]
    obtain ⟨z, hz, -⟩ | ⟨z, hz, -⟩ := hnext <;> rw [hz] at hy <;> cases hy
    · rw [blow_of_write hz, if_neg hnot]
    · rw [blow_of_mark hz, if_neg hnot]
  refine ⟨fun _ g k p hp => ?_, fun _ g k hb => ?_, fun _ g hs p => ?_, ?_⟩
  · rw [hclass] at hp
    exact readsHard_congr hfuses (blow_readsHard hmap hbear (hardForGood_of_programmed hmap hbear hready hp) b)
  · rw [hclass] at hb
    rw [hother g k (by rw [hb]; simp)]; exact hbear.blank hready g k hb
  · rw [hclass] at hs
    rw [hother g .s16 (by rintro e; simp [e] at hs)]; exact hbear.spoiled hready g hs p
  · have hsubject := hbear.subject
    obtain ⟨z, hz, rfl⟩ | ⟨z, hz, rfl⟩ := hnext <;> rw [hz] at hsubject <;> rw [hfz]
    · refine ⟨b, (blow_of_write hz _ _).trans ?_⟩
      rw [if_pos ⟨rfl, rfl⟩, FuseStore.record, hsubject]
    · obtain ⟨⟨b', hb'⟩, hne⟩ := hsubject
      intro p
      show (((s.fz.blow b).fuses.get z.seg).get z.spare).classify ≠ _
      rw [blow_of_mark hz, if_pos ⟨rfl, rfl⟩]
      refine blowDamage_not_programmed (fun q hq => ?_) b p
      have hq' := hq
      rw [FuseStore.record, hb'] at hq'
      exact hne (blowWrite_blank_programmed hq' ▸ hq)

/-- A burn ends with the classification that its record's fuses give. -/
theorem fusesBearOut_of_ends (hmap : s.MapConsistent) (hbear : s.FusesBearOut) {y : Subject} {x : FuseClass} {n : Nat}
    (hburn : (s.fz.burn = .check y ∧ (s.fz.record y).classify = .programmed y.primary ∧ x = .programmed y.primary) ∨
      (s.fz.burn = .recheck y ∧ (x = .damaged ∨ x = .inconsistent)))
    (hfz : t.fz = { s.fz.putHeld y x with burn := .idle, entered := n }) : t.FusesBearOut := by
  have hclass : ∀ g k, t.fz.classOf g k = if g = y.seg ∧ k = y.spare then x else s.fz.classOf g k := by
    rw [hfz]; exact get_set_held s.fz y x
  have hfuses : t.fz.fuses = s.fz.fuses := by rw [hfz]; rfl
  have hy : s.fz.burn.subject = some y := by obtain ⟨hb, -⟩ | ⟨hb, -⟩ := hburn <;> rw [hb] <;> rfl
  have hready := hmap.ready_of_subject hy
  refine ⟨fun _ g k p hp => readsHard_congr hfuses ?_, fun _ g k hb => ?_, fun _ g hs p => ?_, by rw [hfz]; trivial⟩
  · rw [hclass] at hp
    split at hp
    · rename_i e
      obtain ⟨rfl, rfl⟩ := e
      obtain ⟨-, hreads, rfl⟩ | ⟨-, hx⟩ := hburn
      · cases hp
        refine ⟨hreads, fun hk => s16_not_programmed hmap hbear hready (fun hw => ?_) fun k hhard => hmap.subject_ne_hard hy hhard rfl⟩
        obtain ⟨z, hz, -, hspare⟩ := (hmap.writing _ _).1 hw
        rw [hy] at hz
        cases hz
        rw [hk] at hspare; cases hspare
      · rw [hp] at hx; simp at hx
    · exact hbear.programmed hready g k p hp
  · rw [hclass] at hb
    rw [hfuses]
    split at hb
    · rw [hb] at hburn; simp at hburn
    · exact hbear.blank hready g k hb
  · rw [hclass] at hs
    rw [hfuses]
    split at hs
    · rename_i e
      obtain ⟨-, -, rfl⟩ | ⟨hb, -⟩ := hburn
      · simp at hs
      · have hsubject := hbear.subject
        rw [hb] at hsubject
        rw [e.1, e.2]; exact hsubject p
    · exact hbear.spoiled hready g hs p

/-- The start-up read of a record. -/
theorem startupRead_classOf (x : FuseStore) (g : Fin 6) (k : SpareId) : x.startupRead.classOf g k = (readPair (x.fuses.get g)).get k := by
  rw [FuseStore.classOf, startupRead_held]

/-- A start-up read of PROGRAMMED(p) is of fuses that read so at every start-up, and the other way round (R104). -/
theorem startupRead_programmed_iff {x : FuseStore} {g : Fin 6} {k : SpareId} {p : Fin 16} :
    x.startupRead.classOf g k = .programmed p ↔ x.ReadsHard g p k := by
  rw [startupRead_classOf]
  unfold FuseStore.ReadsHard
  cases k
  · rw [SparePair.get, readPair_s16]
    simp [SparePair.get]
  · show (readPair (x.fuses.get g)).v17 = .programmed p ↔ (x.fuses.get g).v17.classify = .programmed p ∧
      (SpareId.s17 = .s17 → (x.fuses.get g).v16.classify ≠ .programmed p)
    rw [readPair_s17]
    split
    · rename_i hboth
      obtain ⟨q, h16, h17⟩ := hboth
      refine iff_of_false (by simp) fun ⟨hp, hne⟩ => ?_
      obtain rfl : q = p := by simpa using h17.symm.trans hp
      exact hne rfl h16
    · rename_i hnot
      exact ⟨fun hp => ⟨hp, fun _ h16 => hnot ⟨p, h16, hp⟩⟩, And.left⟩

/-- The start-up read bears itself out. -/
theorem fusesBearOut_of_reads (hidle : s.fz.burn = .idle) (hfz : t.fz = s.fz.startupRead) : t.FusesBearOut := by
  have hburn : t.fz.burn = .idle := by rw [hfz]; exact hidle
  have hfuses : t.fz.fuses = s.fz.fuses := by rw [hfz]; rfl
  refine ⟨fun _ g k p hp => ?_, fun _ g k hb => ?_, fun _ g hs p => ?_, by rw [hburn]; trivial⟩
  · rw [hfz] at hp
    exact readsHard_congr hfuses (startupRead_programmed_iff.1 hp)
  · rw [hfz, startupRead_classOf] at hb
    rw [hfuses]
    cases k
    · exact eq_blank_of_classify ((readPair_s16 _).symm.trans hb)
    · have hb' : (readPair (s.fz.fuses.get g)).v17 = .blank := hb
      rw [readPair_s17] at hb'
      split at hb'
      · cases hb'
      · exact eq_blank_of_classify hb'
  · rw [hfz, startupRead_classOf, SparePair.get, readPair_s16] at hs
    rw [hfuses]
    intro hp
    rw [SparePair.get] at hp
    rw [hp] at hs
    simp at hs

/-- Every effect keeps the fuses bearing out the held classifications. -/
theorem FuseEffect.fusesBearOut (he : FuseEffect s c t) (hmap : s.MapConsistent) (hbear : s.FusesBearOut) : t.FusesBearOut := by
  cases he with
  | keeps hfz hstart => exact hbear.of_fz hfz hstart
  | begins y n hready hidle hroute hfz => exact fusesBearOut_of_begins hmap hbear hready hidle hroute hfz
  | blows b next n hnext hfz hmc => exact fusesBearOut_of_blows hmap hbear hnext hfz
  | fails y n hcheck hread hfz hmc =>
    obtain ⟨hprogrammed, hblank, hspoiled, hsubject⟩ := hbear
    rw [hcheck] at hsubject
    refine ⟨fun hr => ?_, fun hr => ?_, fun hr => ?_, ?_⟩
    · rw [hfz]; exact hprogrammed (hmc ▸ hr)
    · rw [hfz]; exact hblank (hmc ▸ hr)
    · rw [hfz]; exact hspoiled (hmc ▸ hr)
    · rw [hfz]; exact ⟨hsubject, hread⟩
  | ends y x n hburn hfz hmc => exact fusesBearOut_of_ends hmap hbear hburn hfz
  | cold r b hc hfz hstart =>
    have hnot : ¬ t.mc.startUp = .ready := by rw [hstart]; simp
    exact ⟨fun hr => absurd hr hnot, fun hr => absurd hr hnot, fun hr => absurd hr hnot, by rw [hfz]; trivial⟩
  | reads m hc hstarting hfz hrd =>
    refine fusesBearOut_of_reads ?_ hfz
    by_contra hburn
    obtain ⟨y, hy⟩ : ∃ y, s.fz.burn.subject = some y := by
      cases hb : s.fz.burn <;> first | exact absurd hb hburn | exact ⟨_, rfl⟩
    exact absurd ((hmap.ready_of_subject hy).symm.trans hstarting) (by simp)

/-- Every effect keeps a good route good (R104, R106). -/
theorem Does.hardForGood (h : Does s c t) (hmap : s.MapConsistent) (hbear : s.FusesBearOut) {g : Fin 6} {p : Fin 16} {k : SpareId}
    (hgood : s.HardForGood g p k) : t.HardForGood g p k := by
  have he := h.fuseEffect
  refine ⟨he.readsHard hmap hbear hgood, fun hr => ?_⟩
  have stays : s.mc.startUp = .ready → t.fz.classOf g k = .programmed p := fun hs =>
    he.programmed hmap (Or.inl hr) (Or.inl hs) (((hmap.agrees g k).hard p).1 (((hmap.matched g).hard p k).1 (hgood.2 hs)))
  suffices hclass : t.fz.classOf g k = .programmed p from
    (hardForGood_of_programmed (h.mapConsistent hmap) (he.fusesBearOut hmap hbear) hr hclass).2 hr
  cases he with
  | keeps hfz hstart => exact stays (hstart hr)
  | begins y n hready => exact stays hready
  | blows b next n hnext hfz hmc => exact stays (hmc ▸ hr)
  | fails y n hcheck hread hfz hmc => exact stays (hmc ▸ hr)
  | ends y x n hburn hfz hmc => exact stays (hmc ▸ hr)
  | cold r b hc hfz hstart => exact absurd (hr.symm.trans hstart) (by simp)
  | reads m hc hstarting hfz hrd => rw [hfz]; exact startupRead_programmed_iff.2 hgood.1

end Bear

end Sys2Proof.Machine
end

section
/-! SUPPORT. The statement on the fuses and the HARD routes settled. -/

namespace Sys2Proof.Settled

open Sys2Proof.Machine

/-- Settles O58: the Fuse Store's effects, one after the other; a route is HARD while its record is held PROGRAMMED, in a consistent map. -/
theorem fusesAndHardRoutesStay : Obligations.FusesAndHardRoutesStay := by
  refine ⟨fun c s t h => (exec_does h).fuseEffect.keptBy, fun c s t g p x hmap h hcold hend hroute => ?_, fun c s t hmap hbear h => ?_,
    fun s g p x hmap hbear hready => hardForGood_iff hmap hbear hready⟩
  · have hdoes := exec_does h
    have hmap' := hdoes.mapConsistent hmap
    have hclass := hdoes.fuseEffect.programmed hmap (Or.inr hcold) (Or.inr hend)
      (((hmap.agrees g x).hard p).1 (((hmap.matched g).hard p x).1 hroute))
    have huse := ((hmap'.agrees g x).hard p).2 hclass
    exact ⟨((hmap'.matched g).hard p x).2 huse, huse, hclass⟩
  · have hdoes := exec_does h
    exact ⟨hdoes.fuseEffect.fusesBearOut hmap hbear, fun g p x => hdoes.hardForGood hmap hbear⟩

end Sys2Proof.Settled
end

section
/-! SUPPORT. What changes only at the commands that the spec names: N, the front page, the unit number, the canvas width, the mode, the table in force. -/

namespace Sys2Proof.Machine

/-- The six values that the spec lets change at named commands alone are unchanged. -/
structure State.KeepsNamed (s t : State) : Prop where
  counter : t.ft.counter = s.ft.counter
  front : t.fs.front = s.fs.front
  unit : t.li.unit = s.li.unit
  width : t.fs.width = s.fs.width
  mode : t.mc.mode = s.mc.mode
  bands : t.pu.live.bands = s.pu.live.bands

/-- The command is one at which a frame start is counted, or SET_SYNC, at which one can be. -/
def CanCount (c : Instr) : Prop := (∃ m, c = .syncEdge m) ∨ c = .freeRunTimerExpiry ∨ ∃ k, c = .setSync k

/-- From `s` to `t` each of the six values changes at the commands named for it alone. -/
structure NamedChanges (c : Instr) (s t : State) : Prop where
  counter : t.ft.counter = s.ft.counter ∨ CanCount c ∨ ∃ r b, c = .coldReset r b
  front : t.fs.front = s.fs.front ∨ CanCount c ∨ (∃ k, c = .restart k) ∨ ∃ r b, c = .coldReset r b
  unit : t.li.unit = s.li.unit ∨ (∃ f, c = .enumerate f) ∨ ∃ r b, c = .coldReset r b
  width : t.fs.width = s.fs.width ∨ (∃ k, c = .setCanvas k) ∨ ∃ r b, c = .coldReset r b
  mode : t.mc.mode = s.mc.mode ∨ (∃ k, c = .setMode k) ∨ (∃ k, c = .restart k) ∨ (∃ r b, c = .coldReset r b) ∨ ∃ m, c = .startupEnd m
  bands : t.pu.live.bands = s.pu.live.bands ∨ CanCount c ∨ (∃ k, c = .setCanvas k) ∨ (∃ k, c = .restart k) ∨ ∃ r b, c = .coldReset r b

section Named
variable {s t u : State} {c : Instr}

/-- Where the six values stay, no command need be named. -/
theorem State.KeepsNamed.namedChanges (h : s.KeepsNamed t) : NamedChanges c s t :=
  ⟨Or.inl h.counter, Or.inl h.front, Or.inl h.unit, Or.inl h.width, Or.inl h.mode, Or.inl h.bands⟩

theorem State.KeepsNamed.trans (h : s.KeepsNamed t) (g : t.KeepsNamed u) : s.KeepsNamed u :=
  ⟨g.counter.trans h.counter, g.front.trans h.front, g.unit.trans h.unit, g.width.trans h.width, g.mode.trans h.mode, g.bands.trans h.bands⟩

/-- Changes of other blocks. -/
theorem keepsNamed_of_blocks (hft : t.ft = s.ft) (hfs : t.fs = s.fs) (hunit : t.li.unit = s.li.unit) (hmc : t.mc = s.mc) (hpu : t.pu = s.pu) :
    s.KeepsNamed t := ⟨by rw [hft], by rw [hfs], hunit, by rw [hfs], by rw [hmc], by rw [hpu]⟩

/-- Where the six values stay, a change of other blocks names nothing. -/
theorem State.KeepsNamed.then_blocks (h : s.KeepsNamed u) (hft : t.ft = u.ft) (hfs : t.fs = u.fs) (hunit : t.li.unit = u.li.unit)
    (hmc : t.mc = u.mc) (hpu : t.pu = u.pu) : NamedChanges c s t := (h.trans (keepsNamed_of_blocks hft hfs hunit hmc hpu)).namedChanges

theorem answer_keepsNamed (q : Queued) (r : Result) (p : List Byte) : s.KeepsNamed (s.answer q r p) :=
  keepsNamed_of_blocks (answer_ft ..) (answer_fs ..) (by rw [answer_li]) (answer_mc ..) (answer_pu ..)

/-- Before a moment that no frame timer precedes, nothing happens. -/
theorem takes_keepsNamed {k : Take} (h : s.Timely k.moment) : s.KeepsNamed (s.takes k) := by
  have hreach : s.takes k = s.taken k := congrArg (fun u => State.taken u k) (reach_eq h)
  rw [hreach]
  exact ⟨rfl, rfl, rfl, rfl, rfl, rfl⟩

theorem passTo_keepsNamed {m : Nat} (h : s.Timely m) : s.KeepsNamed (s.passTo m) := by
  rw [passTo_eq h]
  exact ⟨rfl, rfl, rfl, rfl, rfl, rfl⟩

/-- What a frame start may change of the six: N, the front page, the table in force. -/
theorem namedChanges_of_frame (hc : CanCount c) (h : s.SameExcept t frameBlocks) (hwidth : t.fs.width = s.fs.width) : NamedChanges c s t :=
  ⟨Or.inr (Or.inl hc), Or.inr (Or.inl hc), Or.inl (congrArg LinkInterface.unit (h.1 .li (by decide))), Or.inl hwidth,
    Or.inl (congrArg ModeControl.mode (h.1 .mc (by decide))), Or.inr (Or.inl hc)⟩

/-- No frame start changes the canvas width. -/
theorem width_frameStartsKeep (w : Nat) : FrameStartsKeep fun u => u.fs.width = w where
  moment _ _ h := h
  timing _ _ h := h
  latches _ h := h
  notices _ _ h := h
  applies u z _ h := by
    rw [applySet_fs]
    split <;> exact h

/-- An uncounted frame start changes none of the six. -/
theorem frameTimerExpires_keepsNamed (h : s.ft.syncState ≠ .free) : s.KeepsNamed s.frameTimerExpires := by
  unfold State.frameTimerExpires
  cases hsync : s.ft.syncState with
  | seeking => exact ⟨rfl, rfl, rfl, rfl, rfl, rfl⟩
  | locked => exact ⟨rfl, rfl, rfl, rfl, rfl, rfl⟩
  | holdover => exact ⟨rfl, rfl, rfl, rfl, rfl, rfl⟩
  | free => exact absurd hsync h

/-- The row of an own rule, by its kind. -/
theorem own_namedChanges {kind : Kind} {k : Take} {own : State → List Byte → Answered} {p reply : List Byte}
    (hrow : requestOf c = some (kind, k)) (hown : ownRule kind = some own) (ht : own s p = .ok (t, reply)) : NamedChanges c s t := by
  have same := (own_sameBlocks hown ht).1
  have untouched : Block.ft ∉ ownBlocks kind → Block.fs ∉ ownBlocks kind → Block.li ∉ ownBlocks kind → Block.mc ∉ ownBlocks kind →
      Block.pu ∉ ownBlocks kind → NamedChanges c s t := fun hft hfs hli hmc hpu =>
    (keepsNamed_of_blocks (same .ft hft) (same .fs hfs) (congrArg LinkInterface.unit (same .li hli)) (same .mc hmc)
      (same .pu hpu)).namedChanges
  have kept : s.KeepsNamed t → NamedChanges c s t := State.KeepsNamed.namedChanges
  cases kind <;> cases hown
  case status =>
    obtain rfl | rfl := status_ok ht
    · exact kept ⟨rfl, rfl, rfl, rfl, rfl, rfl⟩
    · exact kept ⟨rfl, rfl, rfl, rfl, rfl, rfl⟩
  case joinGroup =>
    obtain rfl | ⟨g, -, -, rfl⟩ := joinGroup_ok ht
    · exact kept ⟨rfl, rfl, rfl, rfl, rfl, rfl⟩
    · exact kept ⟨rfl, rfl, rfl, rfl, rfl, rfl⟩
  case leaveGroup => obtain ⟨g, rfl⟩ := leaveGroup_ok ht; exact kept ⟨rfl, rfl, rfl, rfl, rfl, rfl⟩
  case restart =>
    obtain ⟨-, rfl⟩ := restart_ok ht
    have hc : ∃ k, c = .restart k := by cases c <;> cases hrow; exact ⟨_, rfl⟩
    exact ⟨Or.inl rfl, Or.inr (Or.inr (Or.inl hc)), Or.inl rfl, Or.inl (warm_width _ _), Or.inr (Or.inr (Or.inl hc)),
      Or.inr (Or.inr (Or.inr (Or.inl hc)))⟩
  case setMode =>
    have hc : ∃ k, c = .setMode k := by cases c <;> cases hrow; exact ⟨_, rfl⟩
    obtain ⟨-, rfl | ⟨m, -, rfl⟩⟩ := setMode_ok ht
    · exact kept ⟨rfl, rfl, rfl, rfl, rfl, rfl⟩
    · obtain ⟨-, hpu, hli, hfs, hft, -⟩ := changeMode_fields s m
      exact ⟨Or.inl (by rw [hft]), Or.inl (by rw [hfs]), Or.inl (by rw [hli]), Or.inl (by rw [hfs]), Or.inr (Or.inl hc),
        Or.inl (by rw [hpu])⟩
  case setCanvas =>
    have hc : ∃ k, c = .setCanvas k := by cases c <;> cases hrow; exact ⟨_, rfl⟩
    obtain ⟨w, -, -, -, rfl⟩ := setCanvas_ok ht
    exact ⟨Or.inl rfl, Or.inl rfl, Or.inl rfl, Or.inr (Or.inl hc), Or.inl rfl, Or.inr (Or.inr (Or.inl hc))⟩
  case writePixels =>
    obtain ⟨x, y, l, -, -, -, rfl⟩ := writePixels_ok ht
    exact kept ⟨rfl, putPage_front .., rfl, putPage_width .., rfl, rfl⟩
  case copyFront => obtain ⟨-, -, rfl⟩ := copyFront_ok ht; exact kept ⟨rfl, rfl, rfl, rfl, rfl, rfl⟩
  case setSync =>
    have hc : ∃ k, c = .setSync k := by cases c <;> cases hrow; exact ⟨_, rfl⟩
    exact ⟨Or.inr (Or.inl (Or.inr (Or.inr hc))), Or.inr (Or.inl (Or.inr (Or.inr hc))),
      Or.inl (congrArg LinkInterface.unit (same .li (by decide))), Or.inl ((width_frameStartsKeep _).setSync rfl ht),
      Or.inl (congrArg ModeControl.mode (same .mc (by decide))), Or.inr (Or.inl (Or.inr (Or.inr hc)))⟩
  case setFrameNumber => obtain ⟨v, rfl⟩ := setFrameNumber_ok ht; exact kept ⟨rfl, rfl, rfl, rfl, rfl, rfl⟩
  all_goals exact untouched (by decide) (by decide) (by decide) (by decide) (by decide)

/-- A step from `s` that keeps the six, then changes that are named, are changes that are named. -/
theorem State.KeepsNamed.then (h : s.KeepsNamed t) (g : NamedChanges c t u) : NamedChanges c s u :=
  ⟨h.counter ▸ g.counter, h.front ▸ g.front, h.unit ▸ g.unit, h.width ▸ g.width, h.mode ▸ g.mode, h.bands ▸ g.bands⟩

/-- Changes that are named, then a step that keeps the six. -/
theorem NamedChanges.and_keeps (g : NamedChanges c s t) (h : t.KeepsNamed u) : NamedChanges c s u :=
  ⟨h.counter ▸ g.counter, h.front ▸ g.front, h.unit ▸ g.unit, h.width ▸ g.width, h.mode ▸ g.mode, h.bands ▸ g.bands⟩

/-- A request's row has its frame's moment. -/
theorem momentOf_request {kind : Kind} {k : Take} (hrow : requestOf c = some (kind, k)) : s.momentOf c = some k.moment := by
  cases c <;> cases hrow <;> rfl

/-- Every effect of a command changes the six at the commands named alone, where no frame timer falls due before. -/
theorem Does.namedChanges (h : Does s c t) (hm : ∀ m, s.momentOf c = some m → s.Timely m) : NamedChanges c s t := by
  cases h with
  | idles => exact State.KeepsNamed.namedChanges ⟨rfl, rfl, rfl, rfl, rfl, rfl⟩
  | @refuses _ k _ _ r hrow hq =>
    have hmoment : s.momentOf c = some k.moment := by
      obtain rfl | ⟨kind, hrow⟩ := hrow
      · rfl
      · exact momentOf_request hrow
    exact ((takes_keepsNamed (hm _ hmoment)).trans (answer_keepsNamed _ _ _)).namedChanges
  | answers hrow hown hq hu =>
    exact (takes_keepsNamed (hm _ (momentOf_request hrow))).then ((own_namedChanges hrow hown hu).and_keeps (answer_keepsNamed _ _ _))
  | fills hq hjob =>
    refine State.KeepsNamed.namedChanges ((takes_keepsNamed (hm _ (momentOf_request rfl))).trans ?_)
    exact ⟨rfl, rfl, rfl, rfl, rfl, rfl⟩
  | fillEnds he =>
    refine State.KeepsNamed.namedChanges (State.KeepsNamed.trans ?_ (answer_keepsNamed _ _ _))
    exact ⟨rfl, putPage_front .., rfl, putPage_width .., rfl, rfl⟩
  | @copyEnds p hp => exact State.KeepsNamed.namedChanges ⟨rfl, putPage_front s.fs p.other _, rfl, putPage_width s.fs p.other _, rfl, rfl⟩
  | @writeEnds y u b hx hu =>
    have hkeep : s.KeepsNamed u := hu ▸ passTo_keepsNamed (hm _ rfl)
    exact hkeep.then_blocks rfl rfl rfl rfl rfl
  | @checkPasses y u m hx hu hread =>
    have hkeep : s.KeepsNamed u := hu ▸ passTo_keepsNamed (hm _ rfl)
    exact hkeep.then_blocks rfl rfl rfl rfl rfl
  | @checkFails y u m hx hu hread =>
    have hkeep : s.KeepsNamed u := hu ▸ passTo_keepsNamed (hm _ rfl)
    exact hkeep.then_blocks rfl rfl rfl rfl rfl
  | @markEnds y u b hx hu =>
    have hkeep : s.KeepsNamed u := hu ▸ passTo_keepsNamed (hm _ rfl)
    exact hkeep.then_blocks rfl rfl rfl rfl rfl
  | @burnFails y u m hx hu =>
    have hkeep : s.KeepsNamed u := hu ▸ passTo_keepsNamed (hm _ rfl)
    exact hkeep.then_blocks rfl rfl rfl rfl rfl
  | @scanGoesOn g h u v r hg hu hv hnext =>
    have hkeep : s.KeepsNamed u := hu ▸ passTo_keepsNamed (hm _ rfl)
    subst hv
    exact hkeep.then_blocks rfl rfl rfl rfl rfl
  | @scanEnds g u v r hg hu hv hnext =>
    have hkeep : s.KeepsNamed u := hu ▸ passTo_keepsNamed (hm _ rfl)
    subst hv
    exact hkeep.then_blocks rfl rfl rfl rfl rfl
  | @patrolEnds g u v r hg hu hv =>
    have hkeep : s.KeepsNamed u := hu ▸ passTo_keepsNamed (hm _ rfl)
    have hvu : u.KeepsNamed v := by obtain rfl | rfl := hv <;> exact ⟨rfl, rfl, rfl, rfl, rfl, rfl⟩
    exact (hkeep.trans hvu).then_blocks rfl rfl rfl rfl rfl
  | edges m hready =>
    exact namedChanges_of_frame (Or.inl ⟨m, rfl⟩) (sameExcept_trans (passTo_same s m) (edge_same _))
      ((width_frameStartsKeep _).edge ((width_frameStartsKeep _).passTo rfl m))
  | expires hready =>
    by_cases hfree : s.ft.syncState = .free
    · exact namedChanges_of_frame (Or.inr (Or.inl (by rw [hfree]; rfl))) (frameTimerExpires_same s)
        ((width_frameStartsKeep _).frameTimerExpires rfl)
    · exact (frameTimerExpires_keepsNamed hfree).namedChanges
  | scansOut hphase => exact State.KeepsNamed.namedChanges ⟨rfl, rfl, rfl, rfl, rfl, rfl⟩
  | links c hunit => exact State.KeepsNamed.namedChanges ⟨rfl, rfl, hunit, rfl, rfl, rfl⟩
  | receives c r hunit => exact State.KeepsNamed.namedChanges ⟨rfl, rfl, hunit, rfl, rfl, rfl⟩
  | joins ys n f => exact ⟨Or.inl rfl, Or.inl rfl, Or.inr (Or.inl ⟨ys, rfl⟩), Or.inl rfl, Or.inl rfl, Or.inl rfl⟩
  | drops ys hunit => exact State.KeepsNamed.namedChanges ⟨rfl, rfl, hunit, rfl, rfl, rfl⟩
  | sends hx => exact State.KeepsNamed.namedChanges ⟨rfl, rfl, rfl, rfl, rfl, rfl⟩
  | goesCold r b ht =>
    have hc : ∃ r' b', (Instr.coldReset r b) = .coldReset r' b' := ⟨r, b, rfl⟩
    exact ⟨Or.inr (Or.inr hc), Or.inr (Or.inr (Or.inr hc)), Or.inr (Or.inr hc), Or.inr (Or.inr hc),
      Or.inr (Or.inr (Or.inr (Or.inl hc))), Or.inr (Or.inr (Or.inr (Or.inr hc)))⟩
  | @linesChange power line c hmore =>
    obtain ⟨⟨same, -⟩, -, hmode⟩ := afterLines_blocks s power line
    exact State.KeepsNamed.namedChanges ⟨(congrArg FrameTiming.counter (same .ft (by decide))).symm,
      (congrArg FrameStore.front (same .fs (by decide))).symm, (congrArg LinkInterface.unit (same .li (by decide))).symm,
      (congrArg FrameStore.width (same .fs (by decide))).symm, hmode,
      (congrArg (fun x => x.live.bands) (same .pu (by decide) : s.pu = _)).symm⟩
  | startsUp m hrunning hstarting =>
    exact ⟨Or.inl rfl, Or.inl rfl, Or.inl rfl, Or.inl rfl, Or.inr (Or.inr (Or.inr (Or.inr ⟨m, rfl⟩))), Or.inl rfl⟩

end Named

end Sys2Proof.Machine
end

section
/-! SUPPORT. The statement on what changes where settled. -/

namespace Sys2Proof.Settled

open Sys2Proof.Machine

/-- Settles O59. -/
theorem changesOnlyWhereNamed : Obligations.ChangesOnlyWhereNamed := by
  intro c s t hm ht
  obtain ⟨hcounter, hfront, hunit, hwidth, hmode, hbands⟩ := (exec_does ht).namedChanges hm
  exact ⟨hcounter.resolve_left, hfront.resolve_left, hunit.resolve_left, hwidth.resolve_left, hmode.resolve_left, hbands.resolve_left⟩

end Sys2Proof.Settled
end

section
/-! SUPPORT. The rows of the requests: what the answer leaves of the own rule's effect. The records of IDENTIFY and STATUS field by field (R190), the
group places, the acknowledged log. -/

namespace Sys2Proof.Machine

/-! ## The answer after an own rule's effect -/

section Row
variable {s u : State} {k : Take} {q : Queued} {rest : List Queued} {r : Result} {p : List Byte}

/-- The answer touches the Request Unit alone. -/
theorem answer_same {bs : List Block} (h : s.SameExcept u bs) (hru : Block.ru ∈ bs) (q : Queued) (r : Result) (p : List Byte) :
    s.SameExcept (u.answer q r p) bs := by
  obtain ⟨same, hpower, hline, hfree, hpending⟩ := h
  refine ⟨fun b hb => ?_, by rw [answer_powerGood, hpower], by rw [answer_resetLine, hline], by rw [answer_freeCount, hfree],
    by rw [answer_pending, hpending]⟩
  have hblock := same b hb
  cases b with
  | ru => exact absurd hru hb
  | li => exact (answer_li ..).trans hblock
  | fs => exact (answer_fs ..).trans hblock
  | pu => exact (answer_pu ..).trans hblock
  | ft => exact (answer_ft ..).trans hblock
  | cs => exact (answer_cs ..).trans hblock
  | rd => exact (answer_rd ..).trans hblock
  | fz => exact (answer_fz ..).trans hblock
  | tu => exact (answer_tu ..).trans hblock
  | mc => exact (answer_mc ..).trans hblock

/-- An effect that leaves the queues, the filter and the record of broadcasts, then the answer: all that `Answers` speaks of. -/
theorem answers_of_fields (h : s.Taking k q rest) (hqueue : u.ru.queue = s.ru.queue.tail) (hexec : u.ru.executing = s.ru.executing)
    (hreplies : u.ru.replies = s.ru.replies) (hfilter : u.ru.filter = s.ru.filter) (hlast : u.ru.lastBroadcast = s.ru.lastBroadcast)
    (htag : u.ru.nextTag = s.ru.nextTag) (hunit : u.li.unit = s.li.unit) (hnow : u.now = max s.now k.moment) :
    s.Answers (u.answer q r p) k q rest r p := by
  refine ⟨?_, ?_, ?_, ?_, ?_⟩
  · have hrecords := answer_records u q r p
    rw [hunit] at hrecords
    exact records_congr hrecords hreplies.symm hfilter.symm hlast.symm
  · rw [answer_queue, hqueue, h.head]; rfl
  · rw [answer_executing, hexec, h.idle]
  · rw [answer_nextTag, htag]
  · rw [answer_now, hnow]

/-- As `answers_of_fields`, from what the shared operations keep. -/
theorem answers_of_keepsRequests (h : s.Taking k q rest) (hru : (s.taken k).ru.KeepsRequests u.ru) (hunit : u.li.unit = s.li.unit)
    (hnow : u.now = max s.now k.moment) : s.Answers (u.answer q r p) k q rest r p := by
  obtain ⟨hqueue, hexec, hreplies, hfilter, hlast, -, htag⟩ := hru
  exact answers_of_fields h hqueue hexec hreplies hfilter hlast htag hunit hnow

/-- The blocks of an effect that its answer leaves. -/
theorem taken_same (s : State) (k : Take) : s.SameExcept (s.taken k) [.ru] :=
  sameExcept_of_untouched

theorem taken_withRu_same (s : State) (k : Take) (x : RequestUnit) : s.SameExcept ((s.taken k).withRu x) [.ru] :=
  sameExcept_of_untouched

/-- The taking of a request, then an effect on other blocks than the Request Unit. -/
theorem taken_then_same {bs : List Block} (h : (s.taken k).SameExcept u (.ru :: bs)) : s.SameExcept u (.ru :: bs) :=
  sameExcept_trans (sameExcept_mono (taken_same s k) (by simp)) h

/-- A request taken with OK whose effect is on some blocks other than the Request Unit: the next state is the effect and its answer. -/
theorem exec_completes {c : Instr} {kind : Kind} {own : State → List Byte → Answered} {bs : List Block} (h : s.Serving k q rest kind)
    (hexec : exec c s = s.serve k kind own) (hown : own (s.taken k) k.req.payload = .ok (u, p)) (hru : u.ru = (s.taken k).ru)
    (hunit : u.li.unit = s.li.unit) (hnow : u.now = max s.now k.moment) (hsame : (s.taken k).SameExcept u (.ru :: bs)) :
    exec c s = .next (u.answer q .ok p) ∧ s.Completes (u.answer q .ok p) k q rest .ok p ∧ s.SameExcept (u.answer q .ok p) (.ru :: bs) :=
  ⟨hexec.trans (serve_ok h hown), completes_answer h.taking hru hunit hnow, answer_same (taken_then_same hsame) (by simp) _ _ _⟩

/-- A request taken with OK that changes nothing else. -/
theorem reports_of_own {c : Instr} {kind : Kind} {own : State → List Byte → Answered} (h : s.Serving k q rest kind)
    (hexec : exec c s = s.serve k kind own) (hown : own (s.taken k) k.req.payload = .ok (s.taken k, p)) : s.Reports c k q rest p :=
  reports_of h.taking (hexec.trans (serve_ok h hown))

end Row

/-! ## The identity and the status record -/

/-- Filling up four places and taking four is filling up with four and taking four. -/
theorem take_append_replicate {α : Type} (a : List α) (n : Nat) (x : α) :
    (a ++ List.replicate (n - a.length) x).take n = (a ++ List.replicate n x).take n := by
  rw [List.take_append, List.take_append, List.take_replicate, List.take_replicate]
  congr 2
  omega

theorem groupPlaces_eq (gs : List (Fin 16)) :
    groupPlaces gs = (((List.finRange 16).filter (fun g => decide (g ∈ gs))).map (fun g : Fin 16 => oneByte g.val) ++
      List.replicate 4 0xFF).take 4 := take_append_replicate _ 4 _

theorem identityRecord_bytes (s : State) : s.IdentityBytes s.identityRecord := by
  obtain ⟨a, b, c, d, hplaces⟩ : ∃ a b c d, groupPlaces s.li.groups = [a, b, c, d] := by
    have hlength := groupPlaces_length s.li.groups
    match hp : groupPlaces s.li.groups, hlength with
    | [a, b, c, d], _ => exact ⟨a, b, c, d, rfl⟩
  have hrecord : s.identityRecord = natField 2 Config.productCode ++ [Config.revision] ++ toLe 6 Config.serial.toNat ++ [s.li.unit] ++
      ([oneByte s.li.groups.length] ++ [a, b, c, d]) ++ [oneByte s.rd.hardCount, oneByte s.rd.damagedCount] := by
    rw [← hplaces]; rfl
  rw [hrecord]
  exact ⟨rfl, rfl, rfl, rfl, rfl, hplaces.symm.trans (groupPlaces_eq _), rfl, rfl⟩

/-- The bytes of a 16-bit field, and the number that they spell. -/
theorem halfField_shape (v : Half) : ∃ i j, halfField v = [i, j] ∧ fromLe [i, j] = v.toNat :=
  ⟨_, _, rfl, fromLe_toLe_of_lt (n := 2) v.isLt⟩

/-- The bytes of a 32-bit field, and the number that they spell. -/
theorem frameField_shape (v : FrameNo) : ∃ a b c d, frameField v = [a, b, c, d] ∧ fromLe [a, b, c, d] = v.toNat :=
  ⟨_, _, _, _, rfl, fromLe_toLe_of_lt (n := 4) v.isLt⟩

/-- The change-set part of the status record, byte by byte. -/
theorem statusBytes_shape (x : ChangeSets) : ∃ i j n k l m0 m1 m2 m3 f, x.statusBytes = [i, j, n, k, l, m0, m1, m2, m3, f] ∧
    fromLe [i, j] = (match x.openSlot with | none => 0 | some o => o.id.toNat) ∧
    n = (match x.openSlot with | none => 0 | some o => oneByte o.journal.length) ∧
    fromLe [k, l] = (match x.sealedSlot with | none => 0 | some z => z.set.id.toNat) ∧
    fromLe [m0, m1, m2, m3] = (match x.sealedSlot with
      | none => 0
      | some z => (match z.target with | .next => 0 | .frame n => n.toNat)) ∧
    f = (match x.sealedSlot with | none => 0 | some z => if z.flip then 1 else 0) := by
  obtain ⟨i, j, n, hopen, hid, hcount⟩ : ∃ i j n,
      (match x.openSlot with | none => natField 3 0 | some o => halfField o.id ++ [oneByte o.journal.length]) = [i, j, n] ∧
      fromLe [i, j] = (match x.openSlot with | none => 0 | some o => o.id.toNat) ∧
      n = (match x.openSlot with | none => 0 | some o => oneByte o.journal.length) := by
    cases x.openSlot with
    | none => exact ⟨_, _, _, rfl, rfl, rfl⟩
    | some o =>
      obtain ⟨i, j, hbytes, hid⟩ := halfField_shape o.id
      exact ⟨i, j, _, congrArg (· ++ [oneByte o.journal.length]) hbytes, hid, rfl⟩
  obtain ⟨a, b, c, d, htarget, hnumber⟩ : ∃ a b c d,
      (match x.sealedSlot with
        | none => natField 4 0
        | some z => (match z.target with | .next => natField 4 0 | .frame n => frameField n)) = [a, b, c, d] ∧
      fromLe [a, b, c, d] = (match x.sealedSlot with
        | none => 0
        | some z => (match z.target with | .next => 0 | .frame n => n.toNat)) := by
    cases x.sealedSlot with
    | none => exact ⟨_, _, _, _, rfl, rfl⟩
    | some z =>
      dsimp only
      cases z.target with
      | next => exact ⟨_, _, _, _, rfl, rfl⟩
      | frame n => exact frameField_shape n
  obtain ⟨k, l, f, hsealed, hset, hflip⟩ : ∃ k l f,
      (match x.sealedSlot with
        | none => natField 7 0
        | some z => halfField z.set.id ++ (match z.target with | .next => natField 4 0 | .frame n => frameField n) ++ [flagByte z.flip]) =
        [k, l, a, b, c, d, f] ∧
      fromLe [k, l] = (match x.sealedSlot with | none => 0 | some z => z.set.id.toNat) ∧
      f = (match x.sealedSlot with | none => 0 | some z => if z.flip then 1 else 0) := by
    cases hz : x.sealedSlot with
    | none =>
      rw [hz] at htarget
      obtain ⟨rfl, rfl, rfl, rfl⟩ : a = 0 ∧ b = 0 ∧ c = 0 ∧ d = 0 := by
        have hzero : [(0 : Byte), 0, 0, 0] = [a, b, c, d] := htarget
        simp only [List.cons.injEq, and_true] at hzero
        obtain ⟨ha, hb, hc, hd⟩ := hzero
        exact ⟨ha.symm, hb.symm, hc.symm, hd.symm⟩
      exact ⟨_, _, _, rfl, rfl, rfl⟩
    | some z =>
      rw [hz] at htarget
      dsimp only at htarget ⊢
      obtain ⟨k, l, hbytes, hset⟩ := halfField_shape z.set.id
      exact ⟨k, l, flagByte z.flip, by rw [htarget, hbytes]; rfl, hset, rfl⟩
  refine ⟨i, j, n, k, l, a, b, c, d, f, ?_, hid, hcount, hset, hnumber, hflip⟩
  exact congrArg₂ (· ++ ·) hopen hsealed

/-- The last broadcast's four bytes. -/
theorem broadcastBytes_shape (b : Option BroadcastResult) : ∃ w x y z, broadcastBytes b = [w, x, y, z] := by
  cases b <;> exact ⟨_, _, _, _, rfl⟩

theorem statusRecord_bytes (s : State) : s.StatusBytes s.statusRecord := by
  obtain ⟨i, j, n, k, l, m0, m1, m2, m3, f, hcs, hid, hcount, hset, htarget, hflip⟩ := statusBytes_shape s.cs
  obtain ⟨w, x, y, z, hlast⟩ := broadcastBytes_shape s.ru.lastBroadcast
  have hbroadcast : [w, x, y, z] =
      (match s.ru.lastBroadcast with | none => [0, 0, 0, 0] | some b => [1, b.seq, b.kind, b.result.code]) := by
    rw [← hlast]; cases s.ru.lastBroadcast <;> rfl
  have hpending : flagByte s.ft.pendingNumber.isSome = (if s.ft.pendingNumber = none then 0 else 1) := by
    cases s.ft.pendingNumber <;> rfl
  have hcopy : flagByte s.copyBusy = (if s.fs.copy = .idle then 0 else 1) := by
    unfold State.copyBusy
    cases s.fs.copy <;> rfl
  obtain ⟨c0, c1, c2, c3, hcounter, hnumber⟩ := frameField_shape s.ft.counter
  obtain ⟨l0, l1, hlaps, hlaps'⟩ := halfField_shape s.tu.lapCount
  obtain ⟨d0, d1, hmalformed, hmalformed'⟩ := halfField_shape s.li.rxMalformed
  obtain ⟨e0, e1, hbad, hbad'⟩ := halfField_shape s.li.rxBadCheck
  obtain ⟨p0, p1, hpass, hpass'⟩ := halfField_shape s.li.passDrop
  obtain ⟨q0, q1, hdrop, hdrop'⟩ := halfField_shape s.ru.reqDrop
  obtain ⟨g0, g1, hglitch, hglitch'⟩ := halfField_shape s.ft.glitch
  rw [State.statusRecord, hcs, hlast, hcounter, hlaps, hmalformed, hbad, hpass, hdrop, hglitch]
  generalize flagByte s.ft.pendingNumber.isSome = pending at hpending ⊢
  generalize flagByte s.copyBusy = busy at hcopy ⊢
  simp only [List.cons_append, List.nil_append]
  exact ⟨rfl, rfl, rfl, rfl, hnumber, hpending, hid, hcount, hset, htarget, hflip, hcopy, rfl, rfl, rfl, rfl, hlaps', rfl, rfl, rfl,
    hmalformed', hbad', hpass', hdrop', hglitch', hbroadcast, rfl, rfl⟩

/-! ## The acknowledged log -/

/-- The oldest notice numbered n, and every older one, leave the log (R183). -/
theorem ackedLog_append {n : Byte} {older newer : List Notice} {x : Notice} (hx : x.number = n) (hold : ∀ y ∈ older, y.number ≠ n) :
    ackedLog n (older ++ x :: newer) = some newer := by
  induction older with
  | nil => exact if_pos hx
  | cons y ys ih =>
    rw [List.cons_append, ackedLog, if_neg (hold y (by simp))]
    exact ih fun z hz => hold z (by simp [hz])

theorem ackedLog_eq_none {n : Byte} {log : List Notice} (h : ∀ x ∈ log, x.number ≠ n) : ackedLog n log = none := by
  induction log with
  | nil => rfl
  | cons y ys ih =>
    rw [ackedLog, if_neg (h y (by simp))]
    exact ih fun z hz => h z (by simp [hz])

end Sys2Proof.Machine
end

section
/-! SUPPORT. The statements on identity, status, groups and notices settled. -/

namespace Sys2Proof.Settled

open Sys2Proof.Machine

/-- Settles O6: the two records' fields, and the row's three flags. -/
theorem identityAndStatusRead : Obligations.IdentityAndStatusRead := by
  refine ⟨fun k s q rest h => ⟨_, identityRecord_bytes s, reports_of_own h (exec_serves rfl rfl s) rfl⟩, fun k s q rest h => ?_⟩
  refine ⟨_, statusRecord_bytes s, ?_⟩
  have hexec : exec (.status k) s = s.serve k .status State.statusRequest := rfl
  split
  · rename_i hflag
    exact reports_of_own h hexec (if_pos hflag)
  · rename_i hflag
    split
    · rename_i hclear
      have hown : (s.taken k).statusRequest k.req.payload = .ok ((s.taken k).clearCounters, s.statusRecord) :=
        (if_neg hflag).trans (if_pos hclear)
      have hsame : s.SameExcept (s.taken k).clearCounters [.ru, .li, .ft] :=
        sameExcept_of_untouched
      exact ⟨_, hexec.trans (serve_ok h hown), answers_of_fields h.taking rfl rfl rfl rfl rfl rfl rfl rfl,
        ⟨answer_log .., answer_nextNotice .., answer_lost ..⟩, answer_reqDrop .., answer_li .., answer_ft ..,
        answer_same hsame (by simp) _ _ _⟩
    · rename_i hclear
      exact refuses_of_own h hexec ((if_neg hflag).trans (if_neg hclear))

/-- Settles O7: a group number below 16 names a group; the answer's places are those of R190. -/
theorem groupsJoinedAndLeft : Obligations.GroupsJoinedAndLeft := by
  intro k s q rest
  have hbytes : ∀ gs : List (Fin 16), groupBytes gs = oneByte gs.length ::
      ((((List.finRange 16).filter (fun x => decide (x ∈ gs))).map (fun x : Fin 16 => oneByte x.val) ++ List.replicate 4 0xFF).take 4) :=
    fun gs => by rw [← groupPlaces_eq]; rfl
  simp only [← hbytes]
  refine ⟨fun h => ?_, fun h => ?_⟩
  · have hexec : exec (.joinGroup k) s = s.serve k .joinGroup State.joinGroup := rfl
    split
    · rename_i hg
      have harg : groupArg k.req.payload = some ⟨_, hg⟩ := dif_pos hg
      split
      · rename_i hmember
        exact reports_of_own h hexec (by simp [State.joinGroup, harg, hmember])
      · rename_i hnew
        split
        · rename_i hfull
          exact refuses_of_own h hexec (by simp [State.joinGroup, harg, hnew, hfull])
        · rename_i hroom
          have hown : (s.taken k).joinGroup k.req.payload =
              .ok ((s.taken k).withLi { s.li with groups := s.li.groups ++ [⟨_, hg⟩] }, groupBytes (s.li.groups ++ [⟨_, hg⟩])) := by
            rw [State.joinGroup, harg]
            exact (if_neg hnew).trans (if_neg hroom)
          obtain ⟨hnext, hcompletes, hsame⟩ := exec_completes (bs := [.li]) h hexec hown rfl rfl rfl
            sameExcept_of_untouched
          refine ⟨_, hnext, ?_, answer_li .., hsame⟩
          rw [answer_li]
          exact hcompletes
    · rename_i hg
      exact refuses_of_own h hexec (by simp [State.joinGroup, groupArg, hg])
  · have hexec : exec (.leaveGroup k) s = s.serve k .leaveGroup State.leaveGroup := rfl
    split
    · rename_i hg
      have harg : groupArg k.req.payload = some ⟨_, hg⟩ := dif_pos hg
      have hown : (s.taken k).leaveGroup k.req.payload =
          .ok ((s.taken k).withLi { s.li with groups := s.li.groups.filter (fun x => decide (x ≠ ⟨_, hg⟩)) },
            groupBytes (s.li.groups.filter (fun x => decide (x ≠ ⟨_, hg⟩)))) := by
        simp only [State.leaveGroup, harg, taken_li]
      obtain ⟨hnext, hcompletes, hsame⟩ := exec_completes (bs := [.li]) h hexec hown rfl rfl rfl
        sameExcept_of_untouched
      refine ⟨_, hnext, ?_, ⟨_, answer_li .., List.filter_sublist, fun x => ?_⟩, hsame⟩
      · rw [answer_li]
        exact hcompletes
      · simp [Fin.ext_iff]
    · rename_i hg
      exact refuses_of_own h hexec (by simp [State.leaveGroup, groupArg, hg])

/-- Settles O8. -/
theorem noticesReadAndAcknowledged : Obligations.NoticesReadAndAcknowledged := by
  refine ⟨fun k s q rest h => ?_, fun k s q rest h => ⟨fun older x newer hlog hx hold => ?_, fun hnone => ?_⟩⟩
  · have hown : (s.taken k).readNotices k.req.payload =
        .ok ((s.taken k).withRu { (s.taken k).ru with log := s.ru.log.map (fun n => { n with sent := true }) },
          oneByte s.ru.log.length :: s.ru.log.flatMap Notice.record) := rfl
    exact ⟨_, (exec_serves rfl rfl s).trans (serve_ok h hown), answers_of_fields h.taking rfl rfl rfl rfl rfl rfl rfl rfl, answer_log ..,
      answer_nextNotice .., answer_lost .., answer_reqDrop .., answer_same (taken_withRu_same s k _) (by simp) _ _ _⟩
  · have hown : (s.taken k).ackNotices k.req.payload =
        .ok ((s.taken k).withRu { (s.taken k).ru with log := newer }, [oneByte newer.length]) := by
      have hleft : ackedLog (byteAt k.req.payload 0) (s.taken k).ru.log = some newer := by
        rw [taken_ru, hlog, ackedLog_append hx hold]
      rw [State.ackNotices, hleft]
    exact ⟨_, (exec_serves rfl rfl s).trans (serve_ok h hown), answers_of_fields h.taking rfl rfl rfl rfl rfl rfl rfl rfl, answer_log ..,
      answer_nextNotice .., answer_lost .., answer_reqDrop .., answer_same (taken_withRu_same s k _) (by simp) _ _ _⟩
  · refine refuses_of_own h (exec_serves rfl rfl s) ?_
    have hnotice : ackedLog (byteAt k.req.payload 0) (s.taken k).ru.log = none := ackedLog_eq_none hnone
    rw [State.ackNotices, hnotice]

end Sys2Proof.Settled
end

section
/-! SUPPORT. The own rules of SET_MODE and RESTART (chapter 8) and of the requests of chapter 1, check by check; cells read after a run and after a
fill. -/

namespace Sys2Proof.Machine

/-! ## Notices -/

/-- Of the Request Unit after a notice its creation speaks of the notices alone. -/
theorem createsNotice_congr {x y z : RequestUnit} {unit : Byte} {n : FrameNo} {d : Details} (h : x.CreatesNotice y unit n d)
    (hlog : z.log = y.log) (hnext : z.nextNotice = y.nextNotice) (hlost : z.lost = y.lost) : x.CreatesNotice z unit n d := by
  unfold RequestUnit.CreatesNotice at h ⊢
  rw [hlog, hnext, hlost]
  exact h

/-! ## SET_MODE -/

/-- A byte below 4 is the code of a mode. -/
theorem modeOfCode_some {b : Byte} (h : b.toNat < 4) : ∃ m, Mode.ofCode b = some m ∧ m.code = b := by
  obtain rfl | rfl | rfl | rfl : b = 0 ∨ b = 1 ∨ b = 2 ∨ b = 3 := by bv_omega
  · exact ⟨.off, rfl, rfl⟩
  · exact ⟨.standby, rfl, rfl⟩
  · exact ⟨.showMode, rfl, rfl⟩
  · exact ⟨.maintenance, rfl, rfl⟩

theorem modeOfCode_none {b : Byte} (h : 4 ≤ b.toNat) : Mode.ofCode b = none := by
  unfold Mode.ofCode
  have h0 : b ≠ 0 := by bv_omega
  have h1 : b ≠ 1 := by bv_omega
  have h2 : b ≠ 2 := by bv_omega
  have h3 : b ≠ 3 := by bv_omega
  rw [if_neg h0, if_neg h1, if_neg h2, if_neg h3]

theorem modeCode_injective {m n : Mode} (h : m.code = n.code) : m = n := by
  cases m <;> cases n <;> first | rfl | exact absurd h (by decide)

/-- A change of mode with a scan running aborts the scan (R126). -/
theorem changeMode_of_running {s : State} (m : Mode) (h : s.mc.mode = .maintenance ∧ s.tu.scan ≠ .idle) :
    s.changeMode m = (((s.withMc { s.mc with mode := m }).withPu
      { s.pu with output := if m = .showMode then s.pu.output else .blank }).withTu
      { s.tu with patrolTest := if m = .off ∨ m = .maintenance then none else s.tu.patrolTest }).abortScan :=
  if_pos ⟨h.1, scan_isRunning_iff.2 h.2⟩

/-- Any other change of mode (R31, R133). -/
theorem changeMode_of_idle {s : State} (m : Mode) (h : ¬ (s.mc.mode = .maintenance ∧ s.tu.scan ≠ .idle)) :
    s.changeMode m = ((s.withMc { s.mc with mode := m }).withPu
      { s.pu with output := if m = .showMode then s.pu.output else .blank }).withTu
      { s.tu with patrolTest := if m = .off ∨ m = .maintenance then none else s.tu.patrolTest } :=
  if_neg fun hc => h ⟨hc.1, scan_isRunning_iff.1 hc.2⟩

theorem changeMode_sameExcept (s : State) (m : Mode) : s.SameExcept (s.changeMode m) [.ru, .mc, .pu, .tu] := by
  by_cases h : s.mc.mode = .maintenance ∧ s.tu.scan ≠ .idle
  · rw [changeMode_of_running m h]
    exact sameExcept_of_untouched
  · rw [changeMode_of_idle m h]
    exact sameExcept_of_untouched

/-! ## Cells -/

section CellsRead
variable {m : Cells}

/-- A cell read after a run inside the page. -/
theorem read_writeRun (hm : m.wf = true) {a : Nat} {vs : List Byte} (h : a + vs.length ≤ pageCells) (b : Nat) :
    (m.writeRun a vs).read b = if a ≤ b ∧ b < a + vs.length then byteAt vs (b - a) else m.read b := by
  have hread := storeRead_storeWriteRun (d := cellDefault) pageCells vs m hm a h b
  refine Eq.trans hread ?_
  by_cases hab : a ≤ b
  · by_cases hb : b < a + vs.length
    · rw [if_pos hab, if_pos ⟨hab, hb⟩, getElem?_eq_byteAt (by omega)]; rfl
    · rw [if_pos hab, if_neg fun h => hb h.2, List.getElem?_eq_none (by omega)]; rfl
  · rw [if_neg hab, if_neg fun h => hab h.1]; rfl

/-- A run of cells, cell by cell. -/
theorem run_eq_map (m : Cells) (a n : Nat) : m.run a n = (List.range n).map fun i => m.read (a + i) := by
  induction n generalizing a with
  | zero => rfl
  | succ n ih =>
    rw [Cells.run, ih, List.range_succ_eq_map, List.map_cons, List.map_map]
    refine congrArg₂ List.cons rfl (List.map_congr_left fun i _ => ?_)
    simp only [Function.comp, Nat.succ_eq_add_one]
    rw [Nat.add_assoc, Nat.add_comm 1 i]

/-- A cell of the canvas lies in a run of row r exactly when it is of that row and its column is in the run. -/
theorem mem_row_iff {width x w i r j : Nat} (hi : i < width) (hx : x + w ≤ width) :
    (r * width + x ≤ j * width + i ∧ j * width + i < r * width + x + w) ↔ j = r ∧ x ≤ i ∧ i < x + w := by
  rcases Nat.lt_trichotomy j r with h | rfl | h
  · have hrow : (j + 1) * width ≤ r * width := Nat.mul_le_mul_right _ h
    rw [Nat.add_mul, Nat.one_mul] at hrow
    omega
  · omega
  · have hrow : (r + 1) * width ≤ j * width := Nat.mul_le_mul_right _ h
    rw [Nat.add_mul, Nat.one_mul] at hrow
    omega

/-- A cell of the canvas read after a fill inside it (R11). -/
theorem read_fill (hm : m.wf = true) {width x y w h : Nat} (index : Byte) (hr : x + w ≤ width ∧ y + h ≤ canvasHeight width) {i j : Nat}
    (hi : i < width) : (m.fill width x y w index h).read (j * width + i) =
      if x ≤ i ∧ i < x + w ∧ y ≤ j ∧ j < y + h then index else m.read (j * width + i) := by
  induction h with
  | zero => rw [if_neg (by omega)]; rfl
  | succ n ih =>
    have hinside : runInside width x (y + n) (List.replicate w index).length = true := by
      simp only [runInside, List.length_replicate, Bool.and_eq_true, decide_eq_true_eq]
      omega
    rw [Cells.fill, read_writeRun (fill_wf m hm index ⟨hr.1, by omega⟩) (run_in_page hinside), ih ⟨hr.1, by omega⟩, List.length_replicate]
    by_cases hrow : (y + n) * width + x ≤ j * width + i ∧ j * width + i < (y + n) * width + x + w
    · obtain ⟨rfl, hcolumn⟩ := (mem_row_iff hi hr.1).1 hrow
      rw [if_pos hrow, if_pos (by omega), byteAt, List.getD_eq_getElem _ _ (by rw [List.length_replicate]; omega), List.getElem_replicate]
    · rw [if_neg hrow]
      have hcell : ¬ (j = y + n ∧ x ≤ i ∧ i < x + w) := fun h => hrow ((mem_row_iff hi hr.1).2 h)
      by_cases hbefore : x ≤ i ∧ i < x + w ∧ y ≤ j ∧ j < y + n
      · rw [if_pos hbefore, if_pos (by omega)]
      · rw [if_neg hbefore, if_neg (by omega)]

end CellsRead

theorem runInside_eq_false_iff {w x y count : Nat} : runInside w x y count = false ↔ canvasHeight w ≤ y ∨ w < x + count := by
  rw [← Bool.not_eq_true]
  simp only [runInside, Bool.and_eq_true, decide_eq_true_eq]
  omega

theorem page_other_ne (p : Page) : p ≠ p.other := by cases p <;> decide

/-! ## The own rules of chapter 1 -/

section Own
variable {s : State} {p : List Byte}

theorem copyBusy_eq_true_iff : s.copyBusy = true ↔ s.fs.copy ≠ .idle := by
  rw [← Bool.not_eq_false, ne_eq, not_iff_not]
  exact copyBusy_eq_false_iff

theorem burnBusy_eq_true_iff {b : BurnEngine} : b.busy = true ↔ b ≠ .idle := by
  rw [← Bool.not_eq_false, ne_eq, not_iff_not]
  exact burnBusy_eq_false_iff

/-- FILL_RECT's row when its request passes the common checks and is refused by its own. -/
theorem fillRect_refused {k : Take} {q : Queued} {rest : List Queued} {r : Result} (h : s.Serving k q rest .fillRect)
    (hfill : (s.taken k).fillAnswer k.req.payload = .error r) : s.Refuses (.fillRect k) k q rest r := by
  refine refuses_of h.taking ?_
  rw [exec, execFillRect, h.taking.eq_some]
  simp only [if_pos h.kindByte, h.commonRefusal, h.taking.reach_eq, hfill]

/-- FILL_RECT's row when its request is taken (R11). -/
theorem fillRect_taken {k : Take} {q : Queued} {rest : List Queued} {job : FillJob} (h : s.Serving k q rest .fillRect)
    (hfill : (s.taken k).fillAnswer k.req.payload = .ok job) :
    exec (.fillRect k) s = .next ((s.taken k).withRu { (s.taken k).ru with executing := some { entry := q, job := job } }) := by
  rw [exec, execFillRect, h.taking.eq_some]
  simp only [if_pos h.kindByte, h.commonRefusal, h.taking.reach_eq, hfill]

end Own

end Sys2Proof.Machine
end

section
/-! SUPPORT. The statements on modes and restart (chapter 8) and on the Frame Store (chapter 1) settled. -/

namespace Sys2Proof.Settled

open Sys2Proof.Machine

/-- Settles O9. -/
theorem modeSet : Obligations.ModeSet := by
  intro k s q rest h
  have hexec : exec (.setMode k) s = s.serve k .setMode State.setMode := rfl
  dsimp only
  split
  · rename_i hburn
    exact refuses_of_own h hexec (if_pos (burnBusy_eq_true_iff.2 hburn))
  rename_i hidle
  have hbusy : ¬ (s.taken k).fz.burn.busy = true := fun hb => hidle (burnBusy_eq_true_iff.1 hb)
  split
  · rename_i hcode
    refine refuses_of_own h hexec ((if_neg hbusy).trans ?_)
    rw [modeOfCode_none hcode]
  rename_i hcode
  obtain ⟨m, hm, hmcode⟩ := modeOfCode_some (Nat.not_le.1 hcode)
  have hown : (s.taken k).setMode k.req.payload =
      .ok (if m = s.mc.mode then s.taken k else (s.taken k).changeMode m, [s.mc.mode.code, m.code]) := by
    refine (if_neg hbusy).trans ?_
    rw [hm]
    rfl
  split
  · rename_i hsame
    rw [if_pos (modeCode_injective (hmcode.trans hsame)), hmcode, ← hsame] at hown
    exact reports_of_own h hexec hown
  rename_i hother
  have hne : m ≠ s.mc.mode := fun e => hother (by rw [← hmcode, e])
  rw [if_neg hne, hmcode] at hown
  refine ⟨_, m, hexec.trans (serve_ok h hown), hmcode, ?_⟩
  by_cases hscan : s.mc.mode = .maintenance ∧ s.tu.scan ≠ .idle
  · rw [if_pos hscan, changeMode_of_running (s := s.taken k) m hscan]
    refine ⟨answers_of_keepsRequests h.taking (createNotice_keepsRequests _ _ _ _) rfl rfl, ?_, answer_mc .., answer_pu ..,
      ⟨answer_tu .., ?_⟩, answer_same ?_ (by simp) _ _ _⟩
    · rw [answer_reqDrop]; exact createNotice_reqDrop ..
    · exact createsNotice_congr (createNotice_creates (s.taken k).ru s.li.unit s.ft.counter _) (answer_log ..) (answer_nextNotice ..)
        (answer_lost ..)
    · rw [← changeMode_of_running (s := s.taken k) m hscan]
      exact taken_then_same (changeMode_sameExcept _ m)
  · rw [if_neg hscan, changeMode_of_idle (s := s.taken k) m hscan]
    refine ⟨answers_of_fields h.taking rfl rfl rfl rfl rfl rfl rfl rfl, answer_reqDrop .., answer_mc .., answer_pu ..,
      ⟨answer_tu .., answer_log .., answer_nextNotice .., answer_lost ..⟩, answer_same ?_ (by simp) _ _ _⟩
    rw [← changeMode_of_idle (s := s.taken k) m hscan]
    exact taken_then_same (changeMode_sameExcept _ m)

/-- Settles O10: the warm restart of each block, and an answer to which the queues and the filter are empty. -/
theorem warmRestart : Obligations.WarmRestart := by
  intro k s q rest h
  have hexec : exec (.restart k) s = s.serve k .restart State.restartRequest := rfl
  split
  · rename_i hburn
    exact refuses_of_own h hexec (if_pos (burnBusy_eq_true_iff.2 hburn))
  rename_i hidle
  have hown : (s.taken k).restartRequest k.req.payload = .ok ((s.taken k).warmRestart, [s.mc.mode.afterRestart.code]) :=
    if_neg fun hb => hidle (burnBusy_eq_true_iff.1 hb)
  have hmode : s.mc.mode.afterRestart = if s.mc.mode = .off then Mode.off else .standby := by cases s.mc.mode <;> rfl
  have hpatrol : patrolActive s.tu.patrolOn s.mc.mode.afterRestart = true ↔ s.tu.patrolOn = true ∧ s.mc.mode.afterRestart = .standby := by
    cases s.tu.patrolOn <;> cases s.mc.mode <;> decide
  refine ⟨_, s.mc.mode.afterRestart, hexec.trans (serve_ok h hown), hmode, answer_mc .., ?_, ?_, ?_, answer_log .., answer_lost ..,
    answer_nextNotice .., answer_reqDrop .., answer_nextTag .., answer_now .., ⟨?_, ?_, ?_, ?_⟩, answer_pu .., answer_ft .., ?_, ?_,
    answer_li .., answer_rd .., answer_fz .., answer_powerGood .., answer_resetLine .., answer_pending ..⟩
  · exact records_congr (answer_records _ q .ok _) rfl rfl rfl
  · rw [answer_queue]; exact congrArg List.tail h.taking.head
  · rw [answer_executing]; exact h.taking.idle
  · rw [answer_fs]
    show (s.fs.warm _).front = .A
    unfold FrameStore.warm
    split <;> rfl
  · rw [answer_fs]; exact warm_width _ _
  · rw [answer_fs]
    show (s.fs.warm _).copy = .idle
    unfold FrameStore.warm
    split
    · assumption
    · rfl
  · rw [answer_fs]
    show match s.fs.copy with
      | .idle => (s.fs.warm _).pageA = s.fs.pageA ∧ (s.fs.warm _).pageB = s.fs.pageB
      | .copying p => (s.fs.warm _).page p = s.fs.page p ∧
        ∃ n, ∀ a, ((s.fs.warm _).page p.other).read a = if a < n then (s.fs.page p).read a else (s.fs.page p.other).read a
    unfold FrameStore.warm
    cases s.fs.copy with
    | idle => exact ⟨rfl, rfl⟩
    | copying p =>
      refine ⟨?_, Config.copyProgress s.freeCount, fun a => ?_⟩
      · cases p <;> rfl
      · refine Eq.trans ?_ (copiedTo_read _ _ _ _)
        cases p <;> rfl
  · rw [answer_cs]; exact ⟨rfl, rfl⟩
  · rw [answer_tu]
    show s.tu.warm _ = _
    unfold TestUnit.warm
    rw [taken_mc]
    simp only [hpatrol]

/-- Settles O11. -/
theorem canvasSet : Obligations.CanvasSet := by
  intro k s q rest h
  have hexec : exec (.setCanvas k) s = s.serve k .setCanvas State.setCanvas := rfl
  dsimp only
  split
  · rename_i hmode
    exact refuses_of_own h hexec (if_pos hmode)
  rename_i hmode
  split
  · rename_i hslots
    refine refuses_of_own h hexec ((if_neg hmode).trans (if_pos ?_))
    simpa [Option.isSome_iff_ne_none] using hslots
  rename_i hslots
  obtain ⟨hopen, hsealed⟩ : s.cs.openSlot = none ∧ s.cs.sealedSlot = none := by simpa [not_or] using hslots
  have hempty : ¬ ((s.taken k).cs.openSlot.isSome ∨ (s.taken k).cs.sealedSlot.isSome) := by simp [hopen, hsealed]
  split
  · rename_i hcopy
    exact refuses_of_own h hexec ((if_neg hmode).trans ((if_neg hempty).trans (if_pos (copyBusy_eq_true_iff.2 hcopy))))
  rename_i hcopy
  have hfree : ¬ (s.taken k).copyBusy = true := fun hb => hcopy (copyBusy_eq_true_iff.1 hb)
  split
  · rename_i hwidth
    refine refuses_of_own h hexec ((if_neg hmode).trans ((if_neg hempty).trans ((if_neg hfree).trans (if_neg ?_))))
    exact fun hl => hwidth (legalWidth_iff.1 hl)
  rename_i hwidth
  have hown := setCanvas_taken (s := s.taken k) (p := k.req.payload) (by by_contra hm; exact hmode (not_or.1 hm)) hopen hsealed
    (not_not.1 hcopy) (not_not.1 hwidth)
  obtain ⟨hnext, hcompletes, hsame⟩ := exec_completes (bs := [.fs, .pu]) h hexec hown rfl rfl rfl
    sameExcept_of_untouched
  exact ⟨_, hnext, hcompletes, answer_fs .., answer_pu .., hsame⟩

/-- Settles O12. -/
theorem pixelsWritten : Obligations.PixelsWritten := by
  intro k s q rest h hwf
  have hexec : exec (.writePixels k) s = s.serve k .writePixels State.writePixels := rfl
  dsimp only
  split
  · rename_i hout
    refine refuses_of_own h hexec (if_neg ?_)
    rw [Bool.not_eq_true]; exact runInside_eq_false_iff.2 hout
  rename_i hout
  have hinside : runInside s.fs.width (field k.req.payload 0 2) (field k.req.payload 2 2) (k.req.payload.drop 4).length = true := by
    by_contra hfalse
    exact hout (runInside_eq_false_iff.1 (by simpa using hfalse))
  split
  · rename_i hflip
    exact refuses_of_own h hexec ((if_pos hinside).trans (if_pos hflip))
  rename_i hflip
  split
  · rename_i hcopy
    exact refuses_of_own h hexec ((if_pos hinside).trans ((if_neg hflip).trans (if_pos (copyBusy_eq_true_iff.2 hcopy))))
  rename_i hcopy
  have hown : (s.taken k).writePixels k.req.payload = .ok ((s.taken k).withFs (s.fs.putPage s.fs.back ((s.fs.page s.fs.back).writeRun
      (field k.req.payload 2 2 * s.fs.width + field k.req.payload 0 2) (k.req.payload.drop 4))), []) :=
    (if_pos hinside).trans ((if_neg hflip).trans (if_neg fun hb => hcopy (copyBusy_eq_true_iff.1 hb)))
  obtain ⟨hnext, hcompletes, hsame⟩ := exec_completes (bs := [.fs]) h hexec hown rfl rfl rfl
    sameExcept_of_untouched
  refine ⟨_, hnext, hcompletes, fun a => ?_, ?_, ?_, ?_, ?_, hsame⟩ <;> rw [answer_fs, withFs_fs]
  · rw [page_putPage, if_pos rfl]
    exact read_writeRun hwf (run_in_page hinside) a
  · rw [page_putPage, if_neg (show s.fs.front ≠ s.fs.back from page_other_ne _)]
  · exact putPage_front ..
  · exact putPage_width ..
  · exact putPage_copy ..

/-- Settles O13: the fill's checks; then its rectangle, cell by cell. -/
theorem fillTakenAndCompleted : Obligations.FillTakenAndCompleted := by
  refine ⟨fun k s q rest h => ?_, fun s e he hrect hwf => ?_⟩
  · dsimp only
    have hrect : ∀ {w h x y}, rectInside s.fs.width x y w h = true ↔
        ¬ (w = 0 ∨ h = 0 ∨ s.fs.width < x + w ∨ canvasHeight s.fs.width < y + h) := by
      intro w h x y
      rw [rectInside_iff]
      omega
    split
    · rename_i hout
      exact fillRect_refused h (if_neg fun hin => hrect.1 hin hout)
    rename_i hout
    split
    · rename_i hflip
      exact fillRect_refused h ((if_pos (hrect.2 hout)).trans (if_pos hflip))
    rename_i hflip
    split
    · rename_i hcopy
      exact fillRect_refused h ((if_pos (hrect.2 hout)).trans ((if_neg hflip).trans (if_pos (copyBusy_eq_true_iff.2 hcopy))))
    rename_i hcopy
    have hfill : (s.taken k).fillAnswer k.req.payload =
        .ok ⟨s.fs.back, field k.req.payload 0 2, field k.req.payload 2 2, field k.req.payload 4 2, field k.req.payload 6 2,
          byteAt k.req.payload 8⟩ :=
      (if_pos (hrect.2 hout)).trans ((if_neg hflip).trans (if_neg fun hb => hcopy (copyBusy_eq_true_iff.1 hb)))
    refine ⟨_, fillRect_taken h hfill, rfl, ?_, taken_withRu_same s k _⟩
    show ({ s.ru with queue := s.ru.queue.tail, executing := _ } : RequestUnit) = _
    rw [h.taking.head]; rfl
  · obtain ⟨-, -, hx, hy⟩ := rectInside_iff.1 hrect
    have hexec : exec .fillComplete s =
        .next (((s.withFs (s.fs.filled e.job)).withRu { s.ru with executing := none }).answer e.entry .ok []) := by
      rw [exec, execFillComplete, he]
    have hsame : s.SameExcept ((s.withFs (s.fs.filled e.job)).withRu { s.ru with executing := none }) [.ru, .fs] :=
      sameExcept_of_untouched
    refine ⟨_, hexec, records_congr (answer_records _ e.entry .ok []) rfl rfl rfl, answer_executing .., answer_queue .., answer_reqDrop ..,
      answer_nextTag .., ⟨answer_log .., answer_nextNotice .., answer_lost ..⟩, answer_now .., fun i j hi => ?_, ?_, ?_, ?_, ?_,
      answer_same hsame (by simp) _ _ _⟩ <;> rw [answer_fs] <;> simp only [withRu_fs, withFs_fs, FrameStore.filled]
    · rw [page_putPage, if_pos rfl]
      exact read_fill hwf e.job.index ⟨hx, hy⟩ hi
    · rw [page_putPage, if_neg (page_other_ne _).symm]
    · exact putPage_front ..
    · exact putPage_width ..
    · exact putPage_copy ..

/-- Settles O14. -/
theorem pixelsRead : Obligations.PixelsRead := by
  intro k s q rest h
  have hexec : exec (.readPixels k) s = s.serve k .readPixels State.readPixels := rfl
  dsimp only
  generalize hselect : byteAt k.req.payload 0 = select
  split
  · rename_i hbad
    refine refuses_of_own h hexec (if_pos ?_)
    rw [hselect]
    constructor <;> bv_omega
  rename_i hgood
  have hpage : ¬ (byteAt k.req.payload 0 ≠ 0 ∧ byteAt k.req.payload 0 ≠ 1) := by
    rw [hselect]
    bv_omega
  split
  · rename_i hout
    refine refuses_of_own h hexec ((if_neg hpage).trans (if_pos ?_))
    rw [runInside_eq_false_iff]; exact hout
  rename_i hout
  have hrun : ¬ ((byteAt k.req.payload 5).toNat = 0 ∨ 224 < (byteAt k.req.payload 5).toNat ∨
      runInside (s.taken k).fs.width (field k.req.payload 1 2) (field k.req.payload 3 2) (byteAt k.req.payload 5).toNat = false) := by
    rw [runInside_eq_false_iff]; exact hout
  split
  · rename_i hcopy
    refine refuses_of_own h hexec ((if_neg hpage).trans ((if_neg hrun).trans (if_pos ?_)))
    exact ⟨hselect.trans hcopy.1, copyBusy_eq_true_iff.2 hcopy.2⟩
  rename_i hcopy
  refine reports_of_own h hexec ((if_neg hpage).trans ((if_neg hrun).trans ((if_neg ?_).trans ?_)))
  · exact fun hb => hcopy ⟨hselect.symm.trans hb.1, copyBusy_eq_true_iff.1 hb.2⟩
  · dsimp only
    rw [run_eq_map, hselect]
    rfl

/-- Settles O15. -/
theorem copyTakenAndCompleted : Obligations.CopyTakenAndCompleted := by
  refine ⟨fun k s q rest h => ?_, fun s p hp => ?_⟩
  · have hexec : exec (.copyFront k) s = s.serve k .copyFront State.copyFront := rfl
    split
    · rename_i hcopy
      exact refuses_of_own h hexec (if_pos (copyBusy_eq_true_iff.2 hcopy))
    rename_i hcopy
    have hfree : ¬ (s.taken k).copyBusy = true := fun hb => hcopy (copyBusy_eq_true_iff.1 hb)
    split
    · rename_i hflip
      exact refuses_of_own h hexec ((if_neg hfree).trans (if_pos hflip))
    rename_i hflip
    have hown : (s.taken k).copyFront k.req.payload = .ok ((s.taken k).withFs { s.fs with copy := .copying s.fs.front }, []) :=
      (if_neg hfree).trans (if_neg hflip)
    obtain ⟨hnext, hcompletes, hsame⟩ := exec_completes (bs := [.fs]) h hexec hown rfl rfl rfl
      sameExcept_of_untouched
    exact ⟨_, hnext, hcompletes, answer_fs .., hsame⟩
  · have hexec : exec .copyComplete s = .next ((s.withFs (s.fs.copyDone p)).notify (.copyDone p)) := by
      rw [exec, execCopyComplete, hp]
    refine ⟨_, hexec, rfl, fun a => ?_, ?_, ?_, ?_, createNotice_creates .., createNotice_keepsRequests .., rfl,
      fun b hb => by cases b <;> simp at hb <;> rfl, rfl, rfl, rfl, rfl⟩
    · cases p <;> rfl
    · cases p <;> rfl
    · exact putPage_front s.fs p.other _
    · exact putPage_width s.fs p.other _

end Sys2Proof.Settled
end

section
/-! SUPPORT. The own rules of the requests of chapters 2 and 4, check by check; the band of a panel row, and a palette after a run of entries. -/

namespace Sys2Proof.Machine

/-! ## Fields of a payload past its head -/

/-- A byte counted from a later place. -/
theorem byteAt_drop (p : List Byte) (i j : Nat) : byteAt (p.drop i) j = byteAt p (i + j) := by
  simp [byteAt, List.getD_eq_getElem?_getD]

/-- A field counted from a later place. -/
theorem field_drop (p : List Byte) (i j n : Nat) : field (p.drop i) j n = field p (i + j) n := by
  rw [field, field, List.drop_drop]

/-- A payload of three bytes. -/
theorem take_three {p : List Byte} (h : p.length = 3) : p.take 3 = [byteAt p 0, byteAt p 1, byteAt p 2] := by
  match p, h with
  | [_, _, _], _ => rfl

/-! ## Staged edits -/

/-- The table that STAGE_BANDS carries, each record at its offset in the payload (R189). -/
theorem bandRecords_payload (p : List Byte) (n : Nat) :
    bandRecords n (p.drop 3) = (List.range n).map (fun i =>
      { top := (byteAt p (3 + 6 * i)).toNat, sx := field p (4 + 6 * i) 2, sy := field p (6 + 6 * i) 2,
        bank := (byteAt p (8 + 6 * i)).toNat }) := by
  rw [bandRecords_eq]
  refine List.map_congr_left fun i _ => ?_
  rw [byteAt_drop, field_drop, field_drop, byteAt_drop, show 3 + (6 * i + 1) = 4 + 6 * i by omega,
    show 3 + (6 * i + 3) = 6 + 6 * i by omega, show 3 + (6 * i + 5) = 8 + 6 * i by omega]

/-- The entries that STAGE_PALETTE carries, each value at its offset in the payload (R189). -/
theorem entryRecords_payload (p : List Byte) (n : Nat) :
    entryRecords n (p.drop 5) =
      (List.range n).map (fun i => (field p (5 + 6 * i) 2, field p (5 + 6 * i + 2) 2, field p (5 + 6 * i + 4) 2)) := by
  rw [entryRecords_eq]
  refine List.map_congr_left fun i _ => ?_
  rw [field_drop, field_drop, field_drop, ← Nat.add_assoc, ← Nat.add_assoc]

/-- An entry is in range when its three values are. -/
theorem entryInRange_iff {e : Nat × Nat × Nat} : entryInRange e = true ↔ e.1 ≤ 1023 ∧ e.2.1 ≤ 1023 ∧ e.2.2 ≤ 1023 := by
  simp [entryInRange, and_assoc]

/-! ## COMMIT -/

section Target
variable {target n : FrameNo}

/-- A target that is not ahead of N, or half the numbers ahead of it or more, is late. -/
theorem targetRefusal_late (h : target ≠ 0 ∧ ((target - n).toNat = 0 ∨ 2147483648 ≤ (target - n).toNat)) :
    targetRefusal target n = some .late :=
  (if_neg h.1).trans (if_pos h.2)

/-- A target more than 65535 frames ahead of N is far. -/
theorem targetRefusal_far (hlate : ¬ (target ≠ 0 ∧ ((target - n).toNat = 0 ∨ 2147483648 ≤ (target - n).toNat)))
    (h : target ≠ 0 ∧ 65536 ≤ (target - n).toNat) : targetRefusal target n = some .far :=
  (if_neg h.1).trans ((if_neg fun hl => hlate ⟨h.1, hl⟩).trans (if_neg (by omega)))

/-- NEXT and every other target are taken. -/
theorem targetRefusal_none (hlate : ¬ (target ≠ 0 ∧ ((target - n).toNat = 0 ∨ 2147483648 ≤ (target - n).toNat)))
    (hfar : ¬ (target ≠ 0 ∧ 65536 ≤ (target - n).toNat)) : targetRefusal target n = none := by
  by_cases htarget : target = 0
  · exact if_pos htarget
  · refine (if_neg htarget).trans ((if_neg fun hl => hlate ⟨htarget, hl⟩).trans (if_pos ?_))
    have hnear : ¬ 65536 ≤ (target - n).toNat := fun h => hfar ⟨htarget, h⟩
    omega

end Target

section Commit
variable {s : State} {p : List Byte} {o : ChangeSet}

/-- The open set has another id: NO_SET. -/
theorem commitSet_otherId (hopen : s.cs.openSlot = some o) (hid : o.id ≠ idArg p) : s.commitSet p = .error .noSet := by
  rw [State.commitSet, hopen]
  exact if_pos hid

/-- A set is sealed already: SEALED_BUSY. -/
theorem commitSet_sealedBusy (hopen : s.cs.openSlot = some o) (hid : o.id = idArg p) (hsealed : s.cs.sealedSlot ≠ none) :
    s.commitSet p = .error .sealedBusy := by
  rw [State.commitSet, hopen]
  exact (if_neg (not_not.2 hid)).trans (if_pos (Option.isSome_iff_ne_none.2 hsealed))

/-- A flip is asked for during a copy: BUSY. -/
theorem commitSet_copying (hopen : s.cs.openSlot = some o) (hid : o.id = idArg p) (hsealed : s.cs.sealedSlot = none)
    (hcopy : (byteAt p 6).getLsbD 0 = true ∧ s.fs.copy ≠ .idle) : s.commitSet p = .error .busy := by
  rw [State.commitSet, hopen]
  exact (if_neg (not_not.2 hid)).trans ((if_neg (by simp [hsealed])).trans
    (if_pos ⟨hcopy.1, copyBusy_eq_true_iff.2 hcopy.2⟩))

/-- The checks of COMMIT before the one on its target all pass: what the target decides. -/
theorem commitSet_target (hopen : s.cs.openSlot = some o) (hid : o.id = idArg p) (hsealed : s.cs.sealedSlot = none)
    (hcopy : ¬ ((byteAt p 6).getLsbD 0 = true ∧ s.fs.copy ≠ .idle)) :
    s.commitSet p =
      match targetRefusal (BitVec.ofNat 32 (field p 2 4)) s.ft.counter with
      | some r => .error r
      | none =>
        .ok (s.withCs { openSlot := none, sealedSlot := some ⟨o, targetOf (BitVec.ofNat 32 (field p 2 4)),
            (byteAt p 6).getLsbD 0, (byteAt p 6).getLsbD 1⟩ }, frameField s.ft.counter) := by
  rw [State.commitSet, hopen]
  refine (if_neg (not_not.2 hid)).trans ((if_neg (by simp [hsealed])).trans (if_neg ?_))
  exact fun h => hcopy ⟨h.1, copyBusy_eq_true_iff.1 h.2⟩

/-- The target is refused. -/
theorem commitSet_refused (hopen : s.cs.openSlot = some o) (hid : o.id = idArg p) (hsealed : s.cs.sealedSlot = none)
    (hcopy : ¬ ((byteAt p 6).getLsbD 0 = true ∧ s.fs.copy ≠ .idle)) {r : Result}
    (htarget : targetRefusal (BitVec.ofNat 32 (field p 2 4)) s.ft.counter = some r) : s.commitSet p = .error r := by
  rw [commitSet_target hopen hid hsealed hcopy, htarget]

/-- The open set is sealed. -/
theorem commitSet_taken (hopen : s.cs.openSlot = some o) (hid : o.id = idArg p) (hsealed : s.cs.sealedSlot = none)
    (hcopy : ¬ ((byteAt p 6).getLsbD 0 = true ∧ s.fs.copy ≠ .idle))
    (htarget : targetRefusal (BitVec.ofNat 32 (field p 2 4)) s.ft.counter = none) :
    s.commitSet p =
      .ok (s.withCs { openSlot := none, sealedSlot := some ⟨o, targetOf (BitVec.ofNat 32 (field p 2 4)),
          (byteAt p 6).getLsbD 0, (byteAt p 6).getLsbD 1⟩ }, frameField s.ft.counter) := by
  rw [commitSet_target hopen hid hsealed hcopy, htarget]

end Commit

/-! ## Palettes -/

/-- An entry of a palette after a run of entries of one bank. -/
theorem entry_writeRun {m : Palette} (hm : m.wf = true) {bank first : Nat} {es : List Colour} (hbank : bank < 4)
    (hrun : first + es.length ≤ 256) (b : Nat) {i : Nat} (hi : i < 256) :
    Palette.entry (Palette.writeRun m bank first es) b i =
      if b = bank ∧ first ≤ i ∧ i < first + es.length then es.getD (i - first) { red := 0, green := 0, blue := 0 }
      else Palette.entry m b i := by
  have hread := storeRead_storeWriteRun colourDefault 1024 es m hm (paletteKey bank first) (by unfold paletteKey; omega)
    (paletteKey b i)
  refine hread.trans ?_
  by_cases hin : b = bank ∧ first ≤ i ∧ i < first + es.length
  · obtain ⟨rfl, hlow, hhigh⟩ := hin
    have hoffset : paletteKey b i - paletteKey b first = i - first := by unfold paletteKey; omega
    rw [if_pos (by unfold paletteKey; omega), if_pos ⟨rfl, hlow, hhigh⟩, hoffset, List.getD_eq_getElem?_getD,
      List.getElem?_eq_getElem (by omega)]
    rfl
  · rw [if_neg hin]
    split
    · rename_i hle
      rw [List.getElem?_eq_none]
      · rfl
      · unfold paletteKey at hle ⊢
        omega
    · rfl

/-! ## The band of a panel row -/

/-- In a table whose top rows rise, the band of a row is the one that begins at or above it and whose successor begins below it (R19). -/
theorem bandOfRow_eq_some {t : List Band} {r i : Nat} {b : Band}
    (hrise : ∀ i b c, t[i]? = some b → t[i + 1]? = some c → b.top < c.top) (hb : t[i]? = some b) (htop : b.top ≤ r)
    (hnext : ∀ c, t[i + 1]? = some c → r < c.top) : bandOfRow t r = some b := by
  have hsorted : t.Pairwise (fun x y => x.top < y.top) := by
    have : Trans (fun x y : Band => x.top < y.top) (fun x y : Band => x.top < y.top) (fun x y : Band => x.top < y.top) :=
      ⟨Nat.lt_trans⟩
    rw [← List.isChain_iff_pairwise, List.isChain_iff_getElem]
    exact fun j hj => hrise j _ _ (List.getElem?_eq_getElem (by omega)) (List.getElem?_eq_getElem hj)
  obtain ⟨hi, rfl⟩ := List.getElem?_eq_some_iff.1 hb
  have hsplit : t.take i ++ t[i] :: t.drop (i + 1) = t := by simp
  have hlater : (t.drop (i + 1)).filter (fun x => decide (x.top ≤ r)) = [] := by
    rw [List.filter_eq_nil_iff]
    intro x hx
    obtain ⟨j, hj, rfl⟩ := List.mem_iff_getElem.1 hx
    rw [List.getElem_drop, decide_eq_true_iff, Nat.not_le]
    rw [List.length_drop] at hj
    have hfirst := hnext _ (List.getElem?_eq_getElem (show i + 1 < t.length by omega))
    cases j with
    | zero => exact hfirst
    | succ j => exact Nat.lt_trans hfirst (List.pairwise_iff_getElem.1 hsorted _ _ _ _ (by omega))
  have hfilter : t.filter (fun x => decide (x.top ≤ r)) = (t.take i).filter (fun x => decide (x.top ≤ r)) ++ [t[i]] :=
    (congrArg (List.filter fun x => decide (x.top ≤ r)) hsplit).symm.trans
      (by rw [List.filter_append, List.filter_cons_of_pos (by simpa using htop), hlater])
  rw [bandOfRow, hfilter, List.getLast?_concat]

/-- What a lit row shows, through the band in which it lies (R29, R30). -/
theorem emitted_of_band {s : State} {r : Fin 96} {b : Band} (j : Fin 128) (hlit : s.rowLit r = true)
    (hb : bandOfRow s.pu.latched.bands r.val = some b) :
    s.emitted r j =
      let c := Palette.entry s.pu.latched.palette b.bank
        (((s.fs.page s.pu.latchedFront).read ((b.sy + r.val - b.top) * s.fs.width + b.sx + j.val)).toNat)
      some (drivenValue c.red s.pu.latched.level, drivenValue c.green s.pu.latched.level, drivenValue c.blue s.pu.latched.level) := by
  rw [State.emitted, if_pos hlit, State.panelColour, State.panelOffset, hb]
  rfl

/-- A row is lit while showing, past the blanking interval, with a latched source. -/
theorem rowLit_iff {s : State} {r : Fin 96} :
    s.rowLit r = true ↔ s.pu.output = .showing ∧ s.pu.phase = .scanning ∧ s.rd.latch.get r ≠ none := by
  simp [State.rowLit, and_assoc, Option.isSome_iff_ne_none]

end Sys2Proof.Machine
end

section
/-! SUPPORT. The statements on the view and on change sets (chapters 2 and 4) settled. -/

namespace Sys2Proof.Settled

open Sys2Proof.Machine

/-- Settles O16. -/
theorem setBegunAndAbandoned : Obligations.SetBegunAndAbandoned := by
  refine ⟨fun k s q rest h => ?_, fun k s q rest h => ?_⟩
  · have hexec : exec (.beginSet k) s = s.serve k .beginSet State.beginSet := rfl
    dsimp only
    split
    · rename_i hid
      exact refuses_of_own h hexec (if_pos hid)
    rename_i hid
    split
    · rename_i hopen
      exact refuses_of_own h hexec ((if_neg hid).trans (if_pos (Option.isSome_iff_ne_none.2 hopen)))
    rename_i hopen
    have hempty : ¬ (s.taken k).cs.openSlot.isSome = true := fun ho => hopen (Option.isSome_iff_ne_none.1 ho)
    split
    · rename_i hdup
      exact refuses_of_own h hexec ((if_neg hid).trans ((if_neg hempty).trans (if_pos hdup)))
    rename_i hdup
    exact exec_withCs h hexec ((if_neg hid).trans ((if_neg hempty).trans (if_neg hdup)))
  · have hexec : exec (.abandon k) s = s.serve k .abandon State.abandonSet := rfl
    dsimp only
    split
    · rename_i hopen
      exact exec_withCs h hexec (if_pos hopen)
    rename_i hopen
    split
    · rename_i hsealed
      exact exec_withCs h hexec ((if_neg hopen).trans (if_pos hsealed))
    rename_i hsealed
    exact refuses_of_own h hexec ((if_neg hopen).trans (if_neg hsealed))

/-- Settles O18: each row's own rule is `stage`, with the values that the payload carries. -/
theorem editsStaged : Obligations.EditsStaged := by
  refine fun k s q rest => ⟨fun h => ?_, fun h => ?_, fun h => ?_⟩
  · have hexec : exec (.stageBands k) s = s.serve k .stageBands State.stageBands := rfl
    refine stagesBy_of_stage h hexec ?_
    rw [State.stageBands, bandRecords_payload]
    rfl
  · have hexec : exec (.stagePan k) s = s.serve k .stagePan State.stagePan := rfl
    exact stagesBy_of_stage h hexec rfl
  · have hexec : exec (.stagePalette k) s = s.serve k .stagePalette State.stagePalette := rfl
    refine stagesBy_of_stage h hexec (congrArg ((s.taken k).stage _) (funext fun o => ?_))
    rw [entryRecords_payload, List.map_map]
    generalize (byteAt k.req.payload 2).toNat = bank
    generalize (byteAt k.req.payload 3).toNat = first
    generalize (byteAt k.req.payload 4).toNat = count
    dsimp only
    have hchecks : (bank ≤ 3 ∧ 1 ≤ count ∧ count ≤ 32 ∧ first + count ≤ 256 ∧
        ((List.range count).map (fun i => (field k.req.payload (5 + 6 * i) 2, field k.req.payload (5 + 6 * i + 2) 2,
          field k.req.payload (5 + 6 * i + 4) 2))).all entryInRange = true) ↔
        ¬ (3 < bank ∨ count = 0 ∨ 32 < count ∨ 256 < first + count ∨ ¬ ∀ i, i < count →
          field k.req.payload (5 + 6 * i + 2 * 0) 2 ≤ 1023 ∧ field k.req.payload (5 + 6 * i + 2 * 1) 2 ≤ 1023 ∧
            field k.req.payload (5 + 6 * i + 2 * 2) 2 ≤ 1023) := by
      simp only [List.all_map, List.all_eq_true, List.mem_range, Function.comp, entryInRange_iff, not_or, not_not, Nat.not_lt,
        Nat.one_le_iff_ne_zero, ne_eq, Nat.mul_zero, Nat.mul_one, Nat.add_zero, Nat.reduceMul]
    by_cases hc : 3 < bank ∨ count = 0 ∨ 32 < count ∨ 256 < first + count ∨ ¬ ∀ i, i < count →
          field k.req.payload (5 + 6 * i + 2 * 0) 2 ≤ 1023 ∧ field k.req.payload (5 + 6 * i + 2 * 1) 2 ≤ 1023 ∧
            field k.req.payload (5 + 6 * i + 2 * 2) 2 ≤ 1023
    · rw [if_pos hc, if_neg fun h => hchecks.1 h hc]
    · rw [if_neg hc, if_pos (hchecks.2 hc)]
      rfl

/-- Settles O20: the checks before the target, the target's own test, and the sealed set. -/
theorem setCommitted : Obligations.SetCommitted := by
  intro k s q rest h
  have hexec : exec (.commit k) s = s.serve k .commit State.commitSet := rfl
  dsimp only
  cases hopen : s.cs.openSlot with
  | none => exact refuses_of_own h hexec (by rw [State.commitSet, taken_cs, hopen])
  | some o =>
    dsimp only
    split
    · rename_i hid
      exact refuses_of_own h hexec (commitSet_otherId (s := s.taken k) hopen hid)
    rename_i hid
    rw [not_not] at hid
    split
    · rename_i hsealed
      exact refuses_of_own h hexec (commitSet_sealedBusy (s := s.taken k) hopen hid hsealed)
    rename_i hsealed
    rw [not_not] at hsealed
    split
    · rename_i hcopy
      exact refuses_of_own h hexec (commitSet_copying (s := s.taken k) hopen hid hsealed hcopy)
    rename_i hcopy
    split
    · rename_i hlate
      exact refuses_of_own h hexec (commitSet_refused (s := s.taken k) hopen hid hsealed hcopy (targetRefusal_late hlate))
    rename_i hlate
    split
    · rename_i hfar
      exact refuses_of_own h hexec (commitSet_refused (s := s.taken k) hopen hid hsealed hcopy (targetRefusal_far hlate hfar))
    rename_i hfar
    obtain ⟨t, hnext, hcompletes, hcs, hsame⟩ := exec_withCs h hexec
      (commitSet_taken (s := s.taken k) hopen hid hsealed hcopy (targetRefusal_none hlate hfar))
    exact ⟨t, hnext, hcompletes, by rw [hcs], by rw [hcs]; rfl, hsame⟩

/-- Settles O21: the last entry of a journal acts on the view that the others leave. -/
theorem journalApplies : Obligations.JournalApplies := by
  refine fun w v j e => ⟨rfl, ?_⟩
  dsimp only
  rw [applyJournal_snoc]
  cases e with
  | bands t => rfl
  | pan i sx sy => exact ⟨fun hfits => if_pos hfits, fun hmisfit => if_neg (by simp [hmisfit])⟩
  | palette bank first entries => exact ⟨rfl, rfl, rfl, fun hm hbank hrun b i hi => entry_writeRun hm hbank hrun b hi⟩
  | level l => rfl

/-- Settles O22. -/
theorem viewRead : Obligations.ViewRead := by
  refine fun k s q rest => ⟨fun h => ?_, fun h => ?_⟩
  · have hexec : exec (.readBands k) s = s.serve k .readBands State.readBands := rfl
    exact reports_of_own h hexec rfl
  · have hexec : exec (.readPalette k) s = s.serve k .readPalette State.readPalette := rfl
    have hlength : k.req.payload.length = 3 := by simpa [Kind.lengthSuits] using h.lengthOk
    dsimp only
    split
    · rename_i hbank
      exact refuses_of_own h hexec (if_pos hbank)
    rename_i hbank
    split
    · rename_i hcount
      exact refuses_of_own h hexec ((if_neg hbank).trans (if_pos hcount))
    rename_i hcount
    split
    · rename_i hrun
      exact refuses_of_own h hexec ((if_neg hbank).trans ((if_neg hcount).trans (if_pos hrun)))
    rename_i hrun
    refine reports_of_own h hexec ((if_neg hbank).trans ((if_neg hcount).trans ((if_neg hrun).trans ?_)))
    rw [take_three hlength]
    rfl

/-- Settles O24: a dark row; a lit one, through its band; and the row of the blanking interval's end. -/
theorem panelComposed : Obligations.PanelComposed := by
  refine ⟨fun s r j => ⟨fun hdark => ?_, fun hout hphase hsource hrise i b hb htop hnext => ?_⟩, fun s hphase => ?_⟩
  · refine if_neg fun hlit => ?_
    obtain ⟨hout, hphase, hsource⟩ := rowLit_iff.1 hlit
    rcases hdark with hblank | hother | hnone
    · rw [hout] at hblank; cases hblank
    · exact hother hphase
    · exact hsource hnone
  · dsimp only
    rw [emitted_of_band j (rowLit_iff.2 ⟨hout, hphase, hsource⟩) (bandOfRow_eq_some hrise hb htop hnext), Nat.add_sub_assoc htop]
    rfl
  · have hexec : exec .blankingIntervalEnd s =
        .next ((s.tick (s.ft.frameStart + blankingTime)).withPu { s.pu with phase := .scanning }) := by
      rw [exec, execBlankingIntervalEnd, hphase]
    exact ⟨_, hexec, rfl, rfl, sameExcept_of_untouched⟩

end Sys2Proof.Settled
end

section
/-! SUPPORT. Edges, expiries and SET_SYNC (chapter 3) in the terms of the statements; and the passing of an expiry before a command whose moment
lies past it. -/

namespace Sys2Proof.Machine

/-- A counter of two bytes saturates at 65535. -/
theorem satInc_half (c : Half) : satInc c = if c = 65535 then 65535 else c + 1 := by
  unfold satInc
  split
  · rename_i h; rw [h]; rfl
  · rename_i h; exact (if_neg (show ¬ c = 65535 from h)).symm

section
variable {s : State}

/-! ## Edges (R38, R39, R41, R42) -/

/-- The tile with the edge accepted and its number taken. -/
def State.acceptsEdge (s : State) : State := s.withFt (s.ft.acceptEdge s.now).takeNumber

/-- Of the Frame Timing Unit an accepted edge touches the state, the last edge and the number. -/
theorem acceptsEdge_eq : s.acceptsEdge = s.withFt { s.ft with
    syncState := .locked, lastEdge := s.now, counter := s.ft.numberCarried, pendingNumber := none } := by
  rw [State.acceptsEdge, takeNumber_eq]
  rfl

theorem edge_of_free (h : s.ft.syncState = .free) : s.edge = s := by
  rw [State.edge, h]

theorem edge_of_seeking (h : s.ft.syncState = .seeking) : s.edge = s.acceptsEdge.countedEvent := by
  rw [State.edge, h]
  rfl

/-- Less than T/2 after the last accepted edge an edge is a glitch. -/
theorem edge_of_early (h : s.ft.syncState = .locked) (hearly : s.now - s.ft.lastEdge < 500 * s.ft.period) :
    s.edge = s.withFt { s.ft with glitch := if s.ft.glitch = 65535 then 65535 else s.ft.glitch + 1 } := by
  rw [State.edge, h, ← satInc_half]
  exact if_pos hearly

theorem edge_of_locked (h : s.ft.syncState = .locked) (htime : ¬ s.now - s.ft.lastEdge < 500 * s.ft.period) :
    s.edge = s.acceptsEdge.countedEvent := by
  rw [State.edge, h]
  exact if_neg htime

/-- In HOLDOVER the notice comes between the number and the frame-start event. -/
theorem edge_of_holdover (h : s.ft.syncState = .holdover) :
    s.edge = (s.acceptsEdge.notify (.syncRestored s.ft.holdover)).countedEvent := by
  rw [State.edge, h]
  rfl

/-! ## Expiries (R38, R40, R41, R42) -/

theorem seekingExpires_latches (s : State) :
    (((s.tick (s.ft.timerStart + s.ft.fullPeriod)).withFt
      { s.ft with timerStart := max s.now (s.ft.timerStart + s.ft.fullPeriod) })).LatchesFrame s.seekingExpires :=
  latchFrame_latches _

theorem holdoverExpires_latches (s : State) :
    (((s.tick (s.ft.timerStart + s.ft.fullPeriod)).withFt
      { s.ft with timerStart := max s.now (s.ft.timerStart + s.ft.fullPeriod)
                  holdover := if s.ft.holdover = 65535 then 65535 else s.ft.holdover + 1 })).LatchesFrame s.holdoverExpires := by
  rw [← satInc_half]
  exact latchFrame_latches _

theorem freeRunExpires_starts (s : State) :
    (((s.tick (s.ft.timerStart + s.ft.fullPeriod)).withFt
      { s.ft with timerStart := max s.now (s.ft.timerStart + s.ft.fullPeriod)
                  counter := s.ft.numberCarried
                  pendingNumber := none })).CountedFrameStart s.freeRunExpires := by
  have hstart := countedEvent_starts ((s.tick (s.ft.timerStart + s.ft.fullPeriod)).withFt
    ({ s.ft with timerStart := max s.now (s.ft.timerStart + s.ft.fullPeriod) } : FrameTiming).takeNumber)
  rw [takeNumber_eq] at hstart
  refine Eq.mp ?_ hstart
  rw [State.freeRunExpires, State.countedStart]
  dsimp only
  rw [takeNumber_eq]
  rfl

/-! ## A command whose moment lies past the next expiry (R43) -/

/-- The frame at the head can be taken after an expiry as before it. -/
theorem State.AtHead.expires {k : Take} {q : Queued} {rest : List Queued} (h : s.AtHead k q rest) :
    s.frameTimerExpires.AtHead k q rest := by
  obtain ⟨⟨hqueue, hexec, hreplies, -⟩, -⟩ := frameTimerExpires_keeps s
  exact ⟨(frameTimerExpires_ready s).trans h.ready, hexec.trans h.idle, by rw [hreplies]; exact h.place, hqueue.trans h.head, h.names⟩

/-- The taking of a request past the next expiry is its taking after that expiry. -/
theorem takes_late (hready : s.ready = true) (hperiod : 0 < s.ft.period) {k : Take} (hlate : ¬ s.OnTime k.moment) :
    s.takes k = s.frameTimerExpires.takes k := by
  rw [State.takes, State.takes, reach_late hready hperiod hlate]

theorem passTo_late (hready : s.ready = true) (hperiod : 0 < s.ft.period) {m : Nat} (hlate : ¬ s.OnTime m) :
    s.passTo m = s.frameTimerExpires.passTo m := by
  rw [State.passTo, State.passTo, reach_late hready hperiod hlate]

/-- What `serve` does depends on the taking alone, where the frame can be taken. -/
theorem serve_congr {u : State} {k : Take} {q : Queued} {rest : List Queued} {kind : Kind} (own : State → List Byte → Answered)
    (hs : s.AtHead k q rest) (hu : u.AtHead k q rest) (hkind : k.req.kind = kind.code) (htakes : s.takes k = u.takes k) :
    s.serve k kind own = u.serve k kind own := by
  rw [State.takes, State.takes] at htakes
  simp only [State.serve, taking_eq_some.2 ⟨rest, hs⟩, taking_eq_some.2 ⟨rest, hu⟩, if_pos hkind, htakes]

/-- The same for FILL_RECT, which is not answered when it is taken. -/
theorem fillRect_congr {u : State} {k : Take} {q : Queued} {rest : List Queued} (hs : s.AtHead k q rest) (hu : u.AtHead k q rest)
    (hkind : k.req.kind = Kind.fillRect.code) (htakes : s.takes k = u.takes k) : exec (.fillRect k) s = exec (.fillRect k) u := by
  rw [State.takes, State.takes] at htakes
  simp only [exec, execFillRect, taking_eq_some.2 ⟨rest, hs⟩, taking_eq_some.2 ⟨rest, hu⟩, if_pos hkind, htakes]

/-- The same for a frame of no kind. -/
theorem unknownKind_congr {u : State} {k : Take} {q : Queued} {rest : List Queued} (hs : s.AtHead k q rest) (hu : u.AtHead k q rest)
    (hkind : Kind.ofCode k.req.kind = none) (htakes : s.takes k = u.takes k) : exec (.unknownKind k) s = exec (.unknownKind k) u := by
  rw [State.takes, State.takes] at htakes
  simp only [exec, execUnknownKind, taking_eq_some.2 ⟨rest, hs⟩, taking_eq_some.2 ⟨rest, hu⟩, if_pos hkind, htakes]

/-! ## The rows of the burn engine, at the tile `u` that the moment of the row finds -/

section Burn
variable {u : State} {x : Subject}

theorem exec_burnWriteExpiry (b : Blows) (hx : s.fz.burn = .write x) (hu : s.passTo (s.fz.entered + burnStepTime) = u) :
    exec (.burnWriteExpiry b) s = .next (u.withFz { u.fz.blow b with burn := .check x, entered := u.now }) := by
  simp only [exec, execBurnWriteExpiry, hx, hu]

theorem exec_burnCheckRead {t : Nat} (hx : s.fz.burn = .check x) (hu : s.passTo t = u) :
    exec (.burnCheckRead t) s =
      if (u.fz.record x).classify = .programmed x.primary then
        .next (u.endBurn x (.programmed x.primary) ((u.rd.segment x.seg).makeHard x.primary x.spare))
      else .next (u.withFz { u.fz with burn := .mark x, entered := u.now }) := by
  simp only [exec, execBurnCheckRead, hx, hu]

theorem exec_burnMarkExpiry (b : Blows) (hx : s.fz.burn = .mark x) (hu : s.passTo (s.fz.entered + burnStepTime) = u) :
    exec (.burnMarkExpiry b) s = .next (u.withFz { u.fz.blow b with burn := .recheck x, entered := u.now }) := by
  simp only [exec, execBurnMarkExpiry, hx, hu]

theorem exec_burnRecheckRead {t : Nat} (hx : s.fz.burn = .recheck x) (hu : s.passTo t = u) :
    exec (.burnRecheckRead t) s = .next (u.endBurn x (if (u.fz.record x).damage ≠ 0 then .damaged else .inconsistent)
      ((u.rd.segment x.seg).spoil x.primary x.spare)) := by
  simp only [exec, execBurnRecheckRead, hx, hu]

end Burn

section Late
variable {c : Instr} {m : Nat} (hready : s.ready = true) (hperiod : 0 < s.ft.period) (hcan : s.CanHappen c)
  (hm : s.momentOf c = some m) (hlate : ¬ s.OnTime m)

include hready hperiod hcan hm hlate

/-- A request past the next expiry acts as it would after that expiry. -/
theorem exec_late_of_request {kind : Kind} {k : Take} (hrow : requestOf c = some (kind, k)) :
    exec c s = exec c s.frameTimerExpires := by
  obtain ⟨⟨q, rest, hq⟩, hkind⟩ : (∃ q rest, s.AtHead k q rest) ∧ k.req.kind = kind.code := by
    cases c <;> cases hrow <;> exact hcan _ _ rfl
  have hmoment : k.moment = m := by rw [momentOf_request hrow] at hm; exact Option.some.inj hm
  have htakes := takes_late hready hperiod (k := k) (by rw [hmoment]; exact hlate)
  cases hown : ownRule kind with
  | some own =>
    rw [exec_serves hrow hown, exec_serves hrow hown]
    exact serve_congr own hq hq.expires hkind htakes
  | none =>
    obtain rfl := eq_fillRect_of_ownRule hrow hown
    cases hrow
    exact fillRect_congr hq hq.expires hkind htakes

omit hcan in
/-- So does an edge. -/
theorem exec_late_of_edge {n : Nat} (hc : c = .syncEdge n) : exec c s = exec c s.frameTimerExpires := by
  subst hc
  have hmoment : n = m := Option.some.inj hm
  have hpass := passTo_late hready hperiod hlate
  simp only [exec, execSyncEdge, frameTimerExpires_ready, hready, hmoment, hpass, if_true]

/-- So does a step of the burn engine, whose registers no expiry touches. -/
theorem exec_late_of_burn
    (hc : (∃ b, c = .burnWriteExpiry b) ∨ (∃ t, c = .burnCheckRead t) ∨ (∃ b, c = .burnMarkExpiry b) ∨ ∃ t, c = .burnRecheckRead t) :
    exec c s = exec c s.frameTimerExpires := by
  obtain ⟨-, -, -, hfz, -⟩ := frameTimerExpires_keeps s
  have hpass := passTo_late hready hperiod hlate
  rcases hc with ⟨b, rfl⟩ | ⟨t, rfl⟩ | ⟨b, rfl⟩ | ⟨t, rfl⟩
  · obtain ⟨x, hx⟩ := hcan
    have hmoment : s.fz.entered + burnStepTime = m := Option.some.inj hm
    rw [exec_burnWriteExpiry b hx rfl, exec_burnWriteExpiry b (hfz ▸ hx) rfl, hfz, hmoment, hpass]
  · obtain ⟨x, hx⟩ := hcan
    have hmoment : t = m := Option.some.inj hm
    rw [exec_burnCheckRead hx rfl, exec_burnCheckRead (hfz ▸ hx) rfl, hmoment, hpass]
  · obtain ⟨x, hx⟩ := hcan
    have hmoment : s.fz.entered + burnStepTime = m := Option.some.inj hm
    rw [exec_burnMarkExpiry b hx rfl, exec_burnMarkExpiry b (hfz ▸ hx) rfl, hfz, hmoment, hpass]
  · obtain ⟨x, hx⟩ := hcan
    have hmoment : t = m := Option.some.inj hm
    rw [exec_burnRecheckRead hx rfl, exec_burnRecheckRead (hfz ▸ hx) rfl, hmoment, hpass]

/-- So does the end of a channel test: with a test in progress no expiry starts another. -/
theorem exec_late_of_test {r : TestResult} (hc : c = .scanTestEnd r ∨ c = .patrolTestEnd r) : exec c s = exec c s.frameTimerExpires := by
  obtain ⟨-, -, -, -, -, -, -, hscan, -, -, hpatrol, hinactive⟩ := frameTimerExpires_keeps s
  have hpass := passTo_late hready hperiod hlate
  rcases hc with rfl | rfl
  · obtain ⟨hrunning, hmode⟩ := hcan
    have hmoment : s.tu.testStart + testTime = m := Option.some.inj hm
    have htu : s.frameTimerExpires.tu = s.tu := hinactive (by simp [patrolActive, hmode])
    simp only [exec, execScanTestEnd, htu, hmoment, hpass]
    cases hg : s.tu.scan with
    | idle => exact absurd hg hrunning
    | running g => rfl
  · obtain ⟨htest, hstart⟩ := hpatrol hcan
    have hmoment : s.tu.testStart + testTime = m := Option.some.inj hm
    simp only [exec, execPatrolTestEnd, htest, hstart, hmoment, hpass]
    cases hg : s.tu.patrolTest with
    | none => exact absurd hg hcan
    | some g => rfl

/-- Every command whose moment lies past the next expiry acts as it would after that expiry. -/
theorem exec_late : exec c s = exec c s.frameTimerExpires := by
  cases hrow : requestOf c with
  | some x => exact exec_late_of_request hready hperiod hcan hm hlate hrow
  | none =>
    cases c
    case unknownKind k =>
      obtain ⟨⟨q, rest, hq⟩, hkind⟩ := hcan
      have hmoment : k.moment = m := Option.some.inj hm
      exact unknownKind_congr hq hq.expires (ofCode_eq_none hkind) (takes_late hready hperiod (by rw [hmoment]; exact hlate))
    case syncEdge n => exact exec_late_of_edge hready hperiod hm hlate rfl
    case burnWriteExpiry b => exact exec_late_of_burn hready hperiod hcan hm hlate (Or.inl ⟨b, rfl⟩)
    case burnCheckRead n => exact exec_late_of_burn hready hperiod hcan hm hlate (Or.inr (Or.inl ⟨n, rfl⟩))
    case burnMarkExpiry b => exact exec_late_of_burn hready hperiod hcan hm hlate (Or.inr (Or.inr (Or.inl ⟨b, rfl⟩)))
    case burnRecheckRead n => exact exec_late_of_burn hready hperiod hcan hm hlate (Or.inr (Or.inr (Or.inr ⟨n, rfl⟩)))
    case scanTestEnd r => exact exec_late_of_test hready hperiod hcan hm hlate (Or.inl rfl)
    case patrolTestEnd r => exact exec_late_of_test hready hperiod hcan hm hlate (Or.inr rfl)
    case enumerate | fillComplete | copyComplete | seekingTimerExpiry | supervisionTimerExpiry | holdoverTimerExpiry
        | freeRunTimerExpiry | blankingIntervalEnd | downstreamFrameEnd | downstreamRepeat | upstreamFrameEnd | upOutFrameBegin
        | upOutFrameEnd | coldReset | startupBegin | startupEnd => cases hm
    all_goals cases hrow

end Late

/-! ## SET_SYNC (R47, R48) -/

/-- The sync state in which a tile with a new source begins (R47). -/
def SyncSource.begun : SyncSource → SyncState
  | .external => .seeking
  | .internal => .free

/-- A source other than the one in force: its first state is entered, and its timer starts. -/
theorem applySync_other {x : SyncSource} (h : s.ft.syncState.source ≠ x) (t : Nat) :
    s.applySync x t = s.withFt { s.ft with syncState := x.begun, period := t, timerStart := s.now } := by
  unfold State.applySync
  cases hstate : s.ft.syncState <;> cases x <;> first | rfl | exact absurd (by rw [hstate]; rfl) h

/-- The source in force: T alone changes. -/
theorem applySync_same {x : SyncSource} (h : s.ft.syncState.source = x) (t : Nat) :
    s.applySync x t = s.withFt { s.ft with period := t } := by
  subst h
  unfold State.applySync
  cases s.ft.syncState <;> rfl

/-- A T out of its range is refused. -/
theorem setSync_badPeriod {p : List Byte} {x : SyncSource} (hsource : SyncSource.ofCode (byteAt p 0) = some x)
    (hrange : field p 1 2 < 4000 ∨ 50000 < field p 1 2) : s.setSync p = .error .badArg := by
  simp only [State.setSync, hsource, if_pos hrange]

section SetSync
variable {p : List Byte} {x : SyncSource} (hsource : SyncSource.ofCode (byteAt p 0) = some x)
  (hrange : ¬ (field p 1 2 < 4000 ∨ 50000 < field p 1 2))

include hsource hrange

theorem setSync_other (h : s.ft.syncState.source ≠ x) :
    s.setSync p = .ok (s.withFt { s.ft with syncState := x.begun, period := field p 1 2, timerStart := s.now }, [x.begun.code]) := by
  rw [setSync_taken hsource (by omega) (by omega), if_neg fun hsame => h hsame.1, applySync_other h, expireOverdue_of_onTime]
  · rfl
  · cases x <;> exact Nat.le_add_right _ _

theorem setSync_kept (h : s.ft.syncState.source = x)
    (htime : ¬ (field p 1 2 ≠ s.ft.period ∧ (s.withFt { s.ft with period := field p 1 2 }).ft.deadline < s.now)) :
    s.setSync p = .ok (s.withFt { s.ft with period := field p 1 2 }, [s.ft.syncState.code]) := by
  rw [setSync_taken hsource (by omega) (by omega), applySync_same h]
  split
  · rfl
  · rename_i hnew
    rw [expireOverdue_of_onTime (Nat.not_lt.1 fun hlate => htime ⟨fun hp => hnew ⟨h, hp.symm⟩, hlate⟩)]
    rfl

theorem setSync_atOnce (h : s.ft.syncState.source = x) (hnew : field p 1 2 ≠ s.ft.period)
    (hlate : (s.withFt { s.ft with period := field p 1 2 }).ft.deadline < s.now) :
    s.setSync p = .ok ((s.withFt { s.ft with period := field p 1 2 }).frameTimerExpires, [s.ft.syncState.code]) := by
  rw [setSync_taken hsource (by omega) (by omega), applySync_same h, if_neg fun hold => hnew hold.2.symm, expireOverdue_of_late hlate]
  rfl

end SetSync

/-- A source byte of 2 or more names no source. -/
theorem setSync_noSource {p : List Byte} (h : 2 ≤ (byteAt p 0).toNat) : s.setSync p = .error .badArg := by
  have hcode : SyncSource.ofCode (byteAt p 0) = none :=
    (if_neg (show ¬ byteAt p 0 = 0 by bv_omega)).trans (if_neg (show ¬ byteAt p 0 = 1 by bv_omega))
  simp only [State.setSync, hcode]

/-- A source byte below 2 names a source. -/
theorem syncSource_ofCode {b : Byte} (h : ¬ 2 ≤ b.toNat) :
    (b = 0 ∧ SyncSource.ofCode b = some .external) ∨ (b = 1 ∧ SyncSource.ofCode b = some .internal) := by
  have hb : b = 0 ∨ b = 1 := by bv_omega
  rcases hb with rfl | rfl
  · exact Or.inl ⟨rfl, rfl⟩
  · exact Or.inr ⟨rfl, rfl⟩

/-- A request whose own rule changes the Frame Timing Unit alone. -/
theorem exec_withFt {c : Instr} {k : Take} {q : Queued} {rest : List Queued} {kind : Kind} {own : State → List Byte → Answered}
    {x : FrameTiming} {p : List Byte} (h : s.Serving k q rest kind) (hexec : exec c s = s.serve k kind own)
    (hown : own (s.taken k) k.req.payload = .ok ((s.taken k).withFt x, p)) :
    ∃ t, exec c s = .next t ∧ s.Completes t k q rest .ok p ∧ t.ft = x ∧ s.SameExcept t [.ru, .ft] := by
  obtain ⟨hnext, hcompletes, hsame⟩ := exec_completes (bs := [.ft]) h hexec hown rfl rfl rfl
    sameExcept_of_untouched
  exact ⟨_, hnext, hcompletes, answer_ft .., hsame⟩

/-- SET_SYNC under whose T the timer in use is overdue: its expiry, then the answer. -/
theorem exec_setSync_atOnce {k : Take} {q : Queued} {rest : List Queued} {x : SyncSource} {u : State} (h : s.Serving k q rest .setSync)
    (hu : u = (s.taken k).withFt { s.ft with period := field k.req.payload 1 2 })
    (hsource : SyncSource.ofCode (byteAt k.req.payload 0) = some x)
    (hrange : ¬ (field k.req.payload 1 2 < 4000 ∨ 50000 < field k.req.payload 1 2)) (hsame : s.ft.syncState.source = x)
    (hnew : field k.req.payload 1 2 ≠ s.ft.period) (hlate : u.ft.deadline < max s.now k.moment) :
    ∃ v w, exec s.ft.syncState.expiryRow u = .next v ∧ exec (.setSync k) s = .next w ∧
      v.ru.Records w.ru s.li.unit q .ok [s.ft.syncState.code] ∧ w.ru.queue = rest ∧ w.ru.executing = none ∧
      w.ru.nextTag = v.ru.nextTag ∧ w.ru.reqDrop = v.ru.reqDrop ∧ v.ru.KeepsNotices w.ru ∧ v.SameExcept w [.ru] ∧ w.now = v.now := by
  have hexec : exec (.setSync k) s = s.serve k .setSync State.setSync := rfl
  have hrow : exec u.ft.syncState.expiryRow u = .next u.frameTimerExpires :=
    exec_expiryRow (by rw [hu]; exact h.taking.ready)
  have hown : (s.taken k).setSync k.req.payload = .ok (u.frameTimerExpires, [s.ft.syncState.code]) := by
    rw [hu]
    exact setSync_atOnce (s := s.taken k) hsource hrange hsame hnew (by rw [hu] at hlate; exact hlate)
  have hstate : u.ft.syncState = s.ft.syncState := by rw [hu]; rfl
  obtain ⟨⟨hqueue, hexecuting, -⟩, -, hli, -⟩ := frameTimerExpires_keeps u
  have hrecords := answer_records u.frameTimerExpires q .ok [s.ft.syncState.code]
  have hunit : u.frameTimerExpires.li.unit = s.li.unit := by rw [hli, hu]; rfl
  rw [hunit] at hrecords
  rw [hstate] at hrow
  refine ⟨_, _, hrow, hexec.trans (serve_ok h hown), hrecords, ?_, ?_, answer_nextTag .., answer_reqDrop ..,
    ⟨answer_log .., answer_nextNotice .., answer_lost ..⟩, answer_same (sameExcept_refl _ _) (by simp) _ _ _, answer_now ..⟩
  · rw [answer_queue, hqueue, hu]
    exact congrArg List.tail h.taking.head
  · rw [answer_executing, hexecuting, hu]
    exact h.taking.idle

/-- SET_SYNC that names the source in force: the timer in use goes on under the new T, or is overdue under it and expires. -/
theorem exec_setSync_same {k : Take} {q : Queued} {rest : List Queued} {x : SyncSource} (h : s.Serving k q rest .setSync)
    (hsource : SyncSource.ofCode (byteAt k.req.payload 0) = some x)
    (hrange : ¬ (field k.req.payload 1 2 < 4000 ∨ 50000 < field k.req.payload 1 2)) (hsame : s.ft.syncState.source = x) :
    let t := field k.req.payload 1 2
    let n := max s.now k.moment
    let u : State := { s with now := n, ru := { s.ru with queue := rest }, ft := { s.ft with period := t } }
    if t ≠ s.ft.period ∧ ({ s.ft with period := t } : FrameTiming).deadline < n then
      ∃ v w, exec s.ft.syncState.expiryRow u = .next v ∧ exec (.setSync k) s = .next w ∧
        v.ru.Records w.ru s.li.unit q .ok [s.ft.syncState.code] ∧ w.ru.queue = rest ∧ w.ru.executing = none ∧
        w.ru.nextTag = v.ru.nextTag ∧ w.ru.reqDrop = v.ru.reqDrop ∧ v.ru.KeepsNotices w.ru ∧ v.SameExcept w [.ru] ∧ w.now = v.now
    else
      ∃ w, exec (.setSync k) s = .next w ∧ s.Completes w k q rest .ok [s.ft.syncState.code] ∧ w.ft = { s.ft with period := t } ∧
        s.SameExcept w [.ru, .ft] := by
  dsimp only
  split
  · rename_i hlate
    refine exec_setSync_atOnce h ?_ hsource hrange hsame hlate.1 hlate.2
    rw [State.taken, h.taking.head]
    rfl
  · rename_i htime
    exact exec_withFt h rfl (setSync_kept (s := s.taken k) hsource hrange hsame htime)

end

end Sys2Proof.Machine
end

section
/-! SUPPORT. The statements on frame timing (chapter 3) settled. -/

namespace Sys2Proof.Settled

open Sys2Proof.Machine

/-- Settles O26: the edge in each sync state. -/
theorem edgeBySyncState : Obligations.EdgeBySyncState := by
  refine fun s t => ⟨fun hstarting => if_neg (by simp [hstarting]), fun hready htime => ?_⟩
  have hexec := exec_syncEdge_onTime hready htime
  have haccepted := acceptsEdge_eq (s := s.tick t)
  cases hstate : s.ft.syncState with
  | free => rw [hexec, edge_of_free (s := s.tick t) hstate]; rfl
  | seeking =>
    refine ⟨_, hexec, ?_⟩
    rw [edge_of_seeking (s := s.tick t) hstate, haccepted]
    exact countedEvent_starts _
  | locked =>
    dsimp only
    split
    · rename_i hearly
      rw [hexec, edge_of_early (s := s.tick t) hstate hearly]
      rfl
    · rename_i hlate
      refine ⟨_, hexec, ?_⟩
      rw [edge_of_locked (s := s.tick t) hstate hlate, haccepted]
      exact countedEvent_starts _
  | holdover =>
    have hedge := edge_of_holdover (s := s.tick t) hstate
    rw [haccepted] at hedge
    refine ⟨_, _, hexec.trans (congrArg _ hedge), ?_, ?_, ?_, ?_, countedEvent_starts _⟩
    · exact createNotice_creates ..
    · exact createNotice_keepsRequests ..
    · exact sameExcept_of_untouched
    · rfl

/-- Settles O27: the rows of the timers, and what a command whose moment lies past an expiry does. -/
theorem timersExpire : Obligations.TimersExpire := by
  refine ⟨fun s => ?_, fun s hready => ?_, fun s hready hstate => ?_, fun c s m hready hperiod hcan hm hlate => ?_⟩
  · have hidle : ∀ {x : SyncState} {u : State}, s.ready = false ∨ s.ft.syncState ≠ x →
        (if s.ready = true ∧ s.ft.syncState = x then .next u else .next s : Outcome) = .next s := by
      rintro x u (hstarting | hother)
      · exact if_neg fun h => by simp [hstarting] at h
      · exact if_neg fun h => hother h.2
    exact ⟨hidle, hidle, hidle, hidle⟩
  · exact ⟨fun hstate => ⟨_, if_pos ⟨hready, hstate⟩, seekingExpires_latches s⟩,
      fun hstate => ⟨_, if_pos ⟨hready, hstate⟩, holdoverExpires_latches s⟩,
      fun hstate => ⟨_, if_pos ⟨hready, hstate⟩, freeRunExpires_starts s⟩⟩
  · refine ⟨_, _, if_pos ⟨hready, hstate⟩, latchFrame_latches _, createNotice_creates .., createNotice_keepsRequests ..,
      sameExcept_of_untouched, rfl⟩
  · exact ⟨_, exec_expiryRow hready, exec_late hready hperiod hcan hm hlate⟩

/-- Settles O29: a new source, a timer that goes on, and one that is overdue; and SET_FRAME_NUMBER. -/
theorem syncSelectedAndNumberSet : Obligations.SyncSelectedAndNumberSet := by
  refine ⟨fun k s q rest h => ?_, fun k s q rest h => ?_⟩
  · have hexec : exec (.setSync k) s = s.serve k .setSync State.setSync := rfl
    dsimp only
    split
    · rename_i hbad
      exact refuses_of_own h hexec (setSync_noSource hbad)
    rename_i hcode
    split
    · rename_i hrange
      obtain ⟨-, hsource⟩ | ⟨-, hsource⟩ := syncSource_ofCode hcode
      · exact refuses_of_own h hexec (setSync_badPeriod hsource hrange)
      · exact refuses_of_own h hexec (setSync_badPeriod hsource hrange)
    rename_i hrange
    have other := fun {x} (hsource : SyncSource.ofCode (byteAt k.req.payload 0) = some x) hother =>
      exec_withFt h hexec (setSync_other (s := s.taken k) hsource hrange hother)
    have same := fun {x} (hsource : SyncSource.ofCode (byteAt k.req.payload 0) = some x) hsame =>
      exec_setSync_same h hsource hrange hsame
    obtain ⟨hcode, hsource⟩ | ⟨hcode, hsource⟩ := syncSource_ofCode hcode
    · rw [hcode]
      cases hstate : s.ft.syncState with
      | free => exact other hsource (by rw [taken_ft, hstate]; decide)
      | seeking | locked | holdover =>
        have hsame := same hsource (by rw [hstate]; rfl)
        simp only [hstate, FrameTiming.deadline, FrameTiming.fullPeriod, FrameTiming.supervision] at hsame
        exact hsame
    · rw [hcode]
      cases hstate : s.ft.syncState with
      | free =>
        have hsame := same hsource (by rw [hstate]; rfl)
        simp only [hstate, FrameTiming.deadline, FrameTiming.fullPeriod] at hsame
        exact hsame
      | seeking | locked | holdover => exact other hsource (by rw [taken_ft, hstate]; decide)
  · have hexec : exec (.setFrameNumber k) s = s.serve k .setFrameNumber State.setFrameNumber := rfl
    exact exec_withFt h hexec rfl

end Sys2Proof.Settled
end

section
/-! SUPPORT. The own rules of the map requests (chapter 5), check by check; the fault-handling rule and the counts of the map. -/

namespace Sys2Proof.Machine

/-! ## Arguments -/

section Args
variable {p : List Byte}

theorem segmentArg_some (h : (byteAt p 0).toNat < 6) : segmentArg p = some ⟨(byteAt p 0).toNat, h⟩ := dif_pos h
theorem segmentArg_none (h : ¬ (byteAt p 0).toNat < 6) : segmentArg p = none := dif_neg h

theorem primaryArgs_some (h : (byteAt p 0).toNat < 6 ∧ (byteAt p 1).toNat < 16) :
    primaryArgs p = some (⟨(byteAt p 0).toNat, h.1⟩, ⟨(byteAt p 1).toNat, h.2⟩) := dif_pos h
theorem primaryArgs_none (h : ¬ ((byteAt p 0).toNat < 6 ∧ (byteAt p 1).toNat < 16)) : primaryArgs p = none := dif_neg h

theorem channelArgs_some (h : (byteAt p 0).toNat < 6 ∧ (byteAt p 1).toNat < 18) :
    channelArgs p = some ⟨18 * (byteAt p 0).toNat + (byteAt p 1).toNat, by omega⟩ := dif_pos h
theorem channelArgs_none (h : ¬ ((byteAt p 0).toNat < 6 ∧ (byteAt p 1).toNat < 18)) : channelArgs p = none := dif_neg h

end Args

/-- The segment of a global channel number made of a segment and a channel. -/
theorem segmentOf_mk {g c : Nat} (h : g < 6 ∧ c < 18) : segmentOf ⟨18 * g + c, by omega⟩ = ⟨g, h.1⟩ :=
  Fin.ext (show (18 * g + c) / 18 = g by omega)

/-! ## Records -/

/-- The records of a segment, primaries first. -/
theorem segment_records (g : Segment) :
    g.records = (List.finRange 16).flatMap (fun p => (g.primary p).condition.code :: (g.primary p).route.bytes) ++
      ((g.spare .s16).condition.code :: (g.spare .s16).use.bytes) ++ ((g.spare .s17).condition.code :: (g.spare .s17).use.bytes) := by
  rw [Segment.records, vector_toList, List.flatMap_map]
  rfl

/-- The fuse entries of the twelve records. -/
theorem fuseStore_entries (x : FuseStore) :
    x.entries = (List.finRange 6).flatMap (fun g =>
      fuseEntry x.burn.subject (x.classOf g .s16) ++ fuseEntry x.burn.subject (x.classOf g .s17)) := by
  rw [FuseStore.entries, vector_toList, List.flatMap_map]
  rfl

/-! ## Availability (R79, R85) -/

theorem firstAvailable_of_s16 {g : Segment} (h : g.available .s16 = true) : g.firstAvailable = some .s16 := if_pos h

theorem firstAvailable_of_s17 {g : Segment} (h16 : ¬ g.available .s16 = true) (h17 : g.available .s17 = true) :
    g.firstAvailable = some .s17 := (if_neg h16).trans (if_pos h17)

theorem firstAvailable_of_none {g : Segment} (h16 : ¬ g.available .s16 = true) (h17 : ¬ g.available .s17 = true) :
    g.firstAvailable = none := (if_neg h16).trans (if_neg h17)

/-! ## REPAIR, RELEASE, MARK_FAULTY and CLEAR_FAULT -/

section Requests
variable {s : State} {p : List Byte} {g : Fin 6} {c : Fin 16} {ch : GlobalChannel} {k : SpareId}

theorem repair_hard (hargs : primaryArgs p = some (g, c)) (hroute : ((s.rd.segment g).primary c).route = .hard k) :
    s.repair p = .error .alreadyHard := by simp only [State.repair, hargs, hroute]

theorem repair_soft (hargs : primaryArgs p = some (g, c)) (hroute : ((s.rd.segment g).primary c).route = .soft k) :
    s.repair p = .ok (s, [oneByte k.number, 0]) := by simp only [State.repair, hargs, hroute]

theorem repair_noSpare (hargs : primaryArgs p = some (g, c)) (hroute : ((s.rd.segment g).primary c).route = .direct)
    (hnone : (s.rd.segment g).firstAvailable = none) : s.repair p = .error .noSpare := by
  simp only [State.repair, hargs, hroute, hnone]

theorem repair_made (hargs : primaryArgs p = some (g, c)) (hroute : ((s.rd.segment g).primary c).route = .direct)
    (hfirst : (s.rd.segment g).firstAvailable = some k) :
    s.repair p = .ok (s.withRd (s.rd.putSegment g ((s.rd.segment g).makeSoft c k)), [oneByte k.number, 1]) := by
  simp only [State.repair, hargs, hroute, hfirst]

theorem release_hard (hargs : primaryArgs p = some (g, c)) (hroute : ((s.rd.segment g).primary c).route = .hard k) :
    s.release p = .error .alreadyHard := by simp only [State.release, hargs, hroute]

theorem release_direct (hargs : primaryArgs p = some (g, c)) (hroute : ((s.rd.segment g).primary c).route = .direct) :
    s.release p = .error .notSoft := by simp only [State.release, hargs, hroute]

theorem burnsPrimary_iff {b : BurnEngine} :
    b.burnsPrimary g c = true ↔ ∃ y, b.subject = some y ∧ y.seg = g ∧ y.primary = c := by
  unfold BurnEngine.burnsPrimary
  cases b.subject <;> simp

theorem release_busy (hargs : primaryArgs p = some (g, c)) (hroute : ((s.rd.segment g).primary c).route = .soft k)
    (hburn : s.fz.burn.burnsPrimary g c = true) : s.release p = .error .busy := by
  simp only [State.release, hargs, hroute, if_pos hburn]

theorem release_taken (hargs : primaryArgs p = some (g, c)) (hroute : ((s.rd.segment g).primary c).route = .soft k)
    (hburn : ¬ s.fz.burn.burnsPrimary g c = true) :
    s.release p = .ok (s.withRd (s.rd.putSegment g ((s.rd.segment g).dropSoft c k)), [oneByte k.number]) := by
  simp only [State.release, hargs, hroute, if_neg hburn]

theorem burnsChannel_iff {b : BurnEngine} : b.burnsChannel ch = true ↔
    ∃ y, b.subject = some y ∧ y.seg = segmentOf ch ∧ (channelOf ch = .primary y.primary ∨ channelOf ch = .spare y.spare) := by
  unfold BurnEngine.burnsChannel
  cases b.subject <;> simp

theorem markFaulty_busy (hargs : channelArgs p = some ch) (hburn : s.fz.burn.burnsChannel ch = true) :
    s.markFaulty p = .error .busy := by simp only [State.markFaulty, hargs, if_pos hburn]

theorem markFaulty_taken (hargs : channelArgs p = some ch) (hburn : ¬ s.fz.burn.burnsChannel ch = true) {a : Segment} {x : Action}
    (hmark : (s.rd.segment (segmentOf ch)).mark s.rd.policy (channelOf ch) = (a, x)) :
    s.markFaulty p = .ok (s.withRd (s.rd.putSegment (segmentOf ch) a), [x.code, x.spareByte]) := by
  simp only [State.markFaulty, hargs, if_neg hburn, hmark]

theorem clearFault_taken (hargs : channelArgs p = some ch) :
    s.clearFault p = .ok (s.withRd (s.rd.putSegment (segmentOf ch) ((s.rd.segment (segmentOf ch)).setCondition (channelOf ch) .sound)),
      [((s.rd.segment (segmentOf ch)).condition (channelOf ch)).code]) := by
  simp only [State.clearFault, hargs]

end Requests

/-- A segment put back where it stood. -/
theorem putSegment_self (x : RowDrive) (g : Fin 6) : x.putSegment g (x.segment g) = x := by
  unfold RowDrive.putSegment RowDrive.segment
  rw [Vector.get_eq_getElem, Vector.set_getElem_self]

/-! ## MARK_FAULTY by the condition (R87) -/

section Mark
variable {g : Segment} {policy : Policy} {ch : Channel}

theorem mark_of_marked (h : g.condition ch = .marked) : g.mark policy ch = (g, .none) := by simp only [Segment.mark, h]
theorem mark_of_sound (h : g.condition ch = .sound) : g.mark policy ch = g.fault policy ch .marked := by simp only [Segment.mark, h]
theorem mark_of_fault (h : g.condition ch = .openFault ∨ g.condition ch = .shortFault) :
    g.mark policy ch = (g.setCondition ch .marked, .none) := by
  rcases h with h | h <;> simp only [Segment.mark, h]

end Mark

/-! ## The fault-handling rule (R90, R91) -/

section Fault
variable {g : Segment} {c : Condition} {p : Fin 16} {k : SpareId}

/-- A primary's condition touches no spare's availability. -/
theorem available_setCondition_primary : (g.setCondition (.primary p) c).available k = g.available k := by
  rw [Segment.available, Segment.available, setCondition_spare, if_neg (by simp)]

/-- Nor does a primary's condition touch its route. -/
theorem route_setCondition : ((g.setCondition (.primary p) c).primary p).route = (g.primary p).route := by
  rw [setCondition_primary, if_pos rfl]

theorem use_setCondition : ((g.setCondition (.spare k) c).spare k).use = (g.spare k).use := by
  rw [setCondition_spare, if_pos rfl]

/-- A soft route dropped from one spare touches the other's record not at all. -/
theorem available_dropSoft_other : ((g.setCondition (.spare k) c).dropSoft p k).available k.other = g.available k.other := by
  have hother : k.other ≠ k := by cases k <;> decide
  have hrecord : ((g.setCondition (.spare k) c).dropSoft p k).spare k.other = g.spare k.other := by
    rw [(dropSoft_reroutes _ p k).2 k.other, if_neg hother, setCondition_spare, if_neg fun e => hother (Channel.spare.inj e).symm]
  rw [Segment.available, Segment.available, hrecord]

theorem fault_routed (h : (g.primary p).route ≠ .direct) (policy : Policy) :
    g.fault policy (.primary p) c = (g.setCondition (.primary p) c, .none) := by
  simp only [Segment.fault, route_setCondition]
  cases hroute : (g.primary p).route with
  | direct => exact absurd hroute h
  | soft | hard => rfl

theorem fault_direct_manual (h : (g.primary p).route = .direct) :
    g.fault .manual (.primary p) c = (g.setCondition (.primary p) c, .none) := by
  simp only [Segment.fault, route_setCondition, h]

theorem firstAvailable_setCondition_primary : (g.setCondition (.primary p) c).firstAvailable = g.firstAvailable := by
  rw [Segment.firstAvailable, Segment.firstAvailable, available_setCondition_primary, available_setCondition_primary]

theorem fault_direct_repaired (h : (g.primary p).route = .direct) (hfirst : g.firstAvailable = some k) :
    g.fault .auto (.primary p) c = ((g.setCondition (.primary p) c).makeSoft p k, .repaired k) := by
  simp only [Segment.fault, route_setCondition, h, firstAvailable_setCondition_primary, hfirst]

theorem fault_direct_noSpare (h : (g.primary p).route = .direct) (hnone : g.firstAvailable = none) :
    g.fault .auto (.primary p) c = (g.setCondition (.primary p) c, .noSpare) := by
  simp only [Segment.fault, route_setCondition, h, firstAvailable_setCondition_primary, hnone]

theorem fault_unused (h : ∀ p, (g.spare k).use ≠ .soft p) (policy : Policy) :
    g.fault policy (.spare k) c = (g.setCondition (.spare k) c, .none) := by
  simp only [Segment.fault, use_setCondition]
  cases huse : (g.spare k).use with
  | soft p => exact absurd huse (h p)
  | free | hard | damaged => rfl

theorem fault_soft_manual (h : (g.spare k).use = .soft p) :
    g.fault .manual (.spare k) c = ((g.setCondition (.spare k) c).dropSoft p k, .routeDropped) := by
  simp only [Segment.fault, use_setCondition, h]

theorem fault_soft_repaired (h : (g.spare k).use = .soft p) (hother : g.available k.other = true) :
    g.fault .auto (.spare k) c = (((g.setCondition (.spare k) c).dropSoft p k).makeSoft p k.other, .repaired k.other) := by
  simp only [Segment.fault, use_setCondition, h, available_dropSoft_other, if_pos hother]

theorem fault_soft_dropped (h : (g.spare k).use = .soft p) (hother : ¬ g.available k.other = true) :
    g.fault .auto (.spare k) c = ((g.setCondition (.spare k) c).dropSoft p k, .routeDropped) := by
  simp only [Segment.fault, use_setCondition, h, available_dropSoft_other, if_neg hother]

end Fault

/-! ## The counts of the map (R81, R82, R184) -/

/-- The source of the row of a segment's primary. -/
theorem source_of_row {x : RowDrive} {g : Fin 6} {p : Fin 16} {r : Fin 96} (h : r.val = 16 * g.val + p.val) :
    x.source r = (x.segment g).source p := by
  have hg : (⟨r.val / 16, by omega⟩ : Fin 6) = g := Fin.ext (show r.val / 16 = g.val by omega)
  have hp : (⟨r.val % 16, by omega⟩ : Fin 16) = p := Fin.ext (show r.val % 16 = p.val by omega)
  rw [RowDrive.source, hg, hp]

theorem sources_toList (x : RowDrive) : x.sources.toList = (List.finRange 96).map x.source := by
  rw [vector_toList]
  exact List.map_congr_left fun r _ => latched_get x r

theorem darkRows_eq (x : RowDrive) : x.darkRows = ((List.finRange 96).filter (fun r => decide (x.source r = none))).length := by
  rw [RowDrive.darkRows, sources_toList, List.filter_map, List.length_map]
  congr 2
  funext r
  exact beq_eq_decide ..

theorem updatePending_iff {x : RowDrive} : x.updatePending = true ↔ ∃ r : Fin 96, x.source r ≠ x.latch.get r := by
  have heq : x.sources = x.latch ↔ ∀ r : Fin 96, x.source r = x.latch.get r := by
    refine ⟨fun h r => ?_, fun h => Vector.ext fun i hi => ?_⟩
    · rw [← h]; exact (latched_get x r).symm
    · exact (latched_get x ⟨i, hi⟩).trans (h ⟨i, hi⟩)
  rw [RowDrive.updatePending, bne_iff_ne, ne_eq, heq, not_forall]

/-- How many spares have a property: over the segments, one for each of the two that has it. -/
theorem spareRecords_count (x : RowDrive) (f : Spare → Bool) :
    (x.spareRecords.filter f).length = ((List.finRange 6).map (fun g =>
      (if f ((x.segment g).spare .s16) then 1 else 0) + (if f ((x.segment g).spare .s17) then 1 else 0))).sum := by
  have hlist : ∀ l : List Segment, ((l.flatMap (fun g => [g.spares.v16, g.spares.v17])).filter f).length =
      (l.map (fun g => (if f (g.spare .s16) then 1 else 0) + (if f (g.spare .s17) then 1 else 0))).sum := by
    intro l
    induction l with
    | nil => rfl
    | cons g l ih =>
      rw [List.flatMap_cons, List.filter_append, List.length_append, ih, List.map_cons, List.sum_cons]
      congr 1
      show ([g.spare .s16, g.spare .s17].filter f).length = _
      cases h16 : f (g.spare .s16) <;> cases h17 : f (g.spare .s17) <;> simp [h16, h17]
  rw [RowDrive.spareRecords, hlist, vector_toList, List.map_map]
  rfl

end Sys2Proof.Machine
end

section
/-! SUPPORT. The statements on the repair map (chapter 5) settled. -/

namespace Sys2Proof.Settled

open Sys2Proof.Machine

/-- Settles O30. -/
theorem mapAndFusesRead : Obligations.MapAndFusesRead := by
  refine fun k s q rest => ⟨fun h => ?_, fun h => ?_⟩
  · have hexec : exec (.readMap k) s = s.serve k .readMap State.readMap := rfl
    dsimp only
    split
    · rename_i hv
      have hown : (s.taken k).readMap k.req.payload = .ok (s.taken k, oneByte (byteAt k.req.payload 0).toNat ::
          (s.rd.segment ⟨(byteAt k.req.payload 0).toNat, hv⟩).records) := by
        simp only [State.readMap, segmentArg_some hv, taken_rd]
      rw [oneByte, BitVec.ofNat_toNat, BitVec.setWidth_eq, segment_records] at hown
      exact reports_of_own h hexec hown
    · rename_i hv
      exact refuses_of_own h hexec (by simp only [State.readMap, segmentArg_none hv])
  · have hexec : exec (.readFuses k) s = s.serve k .readFuses State.readFuses := rfl
    refine reports_of_own h hexec ?_
    rw [State.readFuses, taken_fz, fuseStore_entries]
    rfl

/-- Settles O31: REPAIR and RELEASE by the route of the primary. -/
theorem softRoutesMadeAndRemoved : Obligations.SoftRoutesMadeAndRemoved := by
  refine fun k s q rest => ⟨fun h => ?_, fun h => ?_⟩
  · have hexec : exec (.repair k) s = s.serve k .repair State.repair := rfl
    split
    · rename_i hv
      have hargs := primaryArgs_some hv
      dsimp only
      simp only [← available_iff]
      generalize (⟨(byteAt k.req.payload 0).toNat, hv.1⟩ : Fin 6) = g at hargs ⊢
      generalize (⟨(byteAt k.req.payload 1).toNat, hv.2⟩ : Fin 16) = c at hargs ⊢
      have made : ∀ {x}, ((s.rd.segment g).primary c).route = .direct → (s.rd.segment g).firstAvailable = some x →
          ∃ t, exec (.repair k) s = .next t ∧ s.Completes t k q rest .ok [oneByte x.number, 1] ∧
            s.rd.Rewrites t.rd g c (.soft x) x (.soft c) ∧ s.SameExcept t [.ru, .rd] := by
        intro x hroute hfirst
        obtain ⟨t, hnext, hcompletes, hrd, hsame⟩ := exec_withRd h hexec (repair_made (s := s.taken k) hargs hroute hfirst)
        exact ⟨t, hnext, hcompletes, hrd ▸ rewrites_of_reroutes _ _ _ _ _ _ _ (makeSoft_reroutes _ _ _), hsame⟩
      cases hroute : ((s.rd.segment g).primary c).route with
      | hard x => exact refuses_of_own h hexec (repair_hard (s := s.taken k) hargs hroute)
      | soft x => exact reports_of_own h hexec (repair_soft (s := s.taken k) hargs hroute)
      | direct =>
        exact ⟨fun h16 => made hroute (firstAvailable_of_s16 h16), fun h16 h17 => made hroute (firstAvailable_of_s17 h16 h17),
          fun h16 h17 => refuses_of_own h hexec (repair_noSpare (s := s.taken k) hargs hroute (firstAvailable_of_none h16 h17))⟩
    · rename_i hv
      exact refuses_of_own h hexec (by simp only [State.repair, primaryArgs_none hv])
  · have hexec : exec (.release k) s = s.serve k .release State.release := rfl
    split
    · rename_i hv
      have hargs := primaryArgs_some hv
      dsimp only
      generalize (⟨(byteAt k.req.payload 0).toNat, hv.1⟩ : Fin 6) = g at hargs ⊢
      generalize (⟨(byteAt k.req.payload 1).toNat, hv.2⟩ : Fin 16) = c at hargs ⊢
      rw [← burnsPrimary_iff]
      cases hroute : ((s.rd.segment g).primary c).route with
      | hard x => exact refuses_of_own h hexec (release_hard (s := s.taken k) hargs hroute)
      | direct => exact refuses_of_own h hexec (release_direct (s := s.taken k) hargs hroute)
      | soft x =>
        refine ⟨fun hburn => refuses_of_own h hexec (release_busy (s := s.taken k) hargs hroute hburn), fun hburn => ?_⟩
        obtain ⟨t, hnext, hcompletes, hrd, hsame⟩ := exec_withRd h hexec (release_taken (s := s.taken k) hargs hroute hburn)
        exact ⟨t, hnext, hcompletes, hrd ▸ rewrites_of_reroutes _ _ _ _ _ _ _ (dropSoft_reroutes _ _ _), hsame⟩
    · rename_i hv
      exact refuses_of_own h hexec (by simp only [State.release, primaryArgs_none hv])

/-- Settles O32: MARK_FAULTY by the condition of the channel, and CLEAR_FAULT. -/
theorem faultsMarkedAndCleared : Obligations.FaultsMarkedAndCleared := by
  refine fun k s q rest => ⟨fun h => ?_, fun h => ?_⟩
  · have hexec : exec (.markFaulty k) s = s.serve k .markFaulty State.markFaulty := rfl
    split
    · rename_i hv
      have hargs := channelArgs_some hv
      dsimp only
      rw [← segmentOf_mk hv]
      generalize (⟨18 * (byteAt k.req.payload 0).toNat + (byteAt k.req.payload 1).toNat, by omega⟩ : GlobalChannel) = ch at hargs ⊢
      rw [← burnsChannel_iff]
      refine ⟨fun hburn => refuses_of_own h hexec (markFaulty_busy (s := s.taken k) hargs hburn), fun hburn => ?_⟩
      have marks : ∀ {a x}, (s.rd.segment (segmentOf ch)).mark s.rd.policy (channelOf ch) = (a, x) →
          ∃ t, exec (.markFaulty k) s = .next t ∧ s.Completes t k q rest .ok [x.code, x.spareByte] ∧
            s.rd.Replaces t.rd (segmentOf ch) a ∧ s.SameExcept t [.ru, .rd] := by
        intro a x hmark
        obtain ⟨t, hnext, hcompletes, hrd, hsame⟩ := exec_withRd h hexec (markFaulty_taken (s := s.taken k) hargs hburn hmark)
        exact ⟨t, hnext, hcompletes, hrd ▸ putSegment_replaces _ _ _, hsame⟩
      cases hcondition : (s.rd.segment (segmentOf ch)).condition (channelOf ch) with
      | marked =>
        have hown := markFaulty_taken (s := s.taken k) hargs hburn (mark_of_marked hcondition)
        rw [taken_rd, putSegment_self] at hown
        exact reports_of_own h hexec hown
      | openFault => exact marks (mark_of_fault (Or.inl hcondition))
      | shortFault => exact marks (mark_of_fault (Or.inr hcondition))
      | sound => exact marks (mark_of_sound hcondition)
    · rename_i hv
      exact refuses_of_own h hexec (by simp only [State.markFaulty, channelArgs_none hv])
  · have hexec : exec (.clearFault k) s = s.serve k .clearFault State.clearFault := rfl
    split
    · rename_i hv
      have hargs := channelArgs_some hv
      dsimp only
      rw [← segmentOf_mk hv]
      obtain ⟨t, hnext, hcompletes, hrd, hsame⟩ := exec_withRd h hexec (clearFault_taken (s := s.taken k) hargs)
      exact ⟨t, hnext, hcompletes, ⟨_, setCondition_sets _ _ _, hrd ▸ putSegment_replaces _ _ _⟩, hsame⟩
    · rename_i hv
      exact refuses_of_own h hexec (by simp only [State.clearFault, channelArgs_none hv])

/-- Settles O34: the rule by the route and the use, and a test result by the condition it meets. -/
theorem faultHandlingAndTestResults : Obligations.FaultHandlingAndTestResults := by
  refine ⟨fun g policy c => ⟨fun p => ⟨_, setCondition_sets g _ c, ?_⟩, fun x => ⟨_, setCondition_sets g _ c, ?_⟩⟩, fun g policy ch r => ?_⟩
  · simp only [← available_iff]
    cases hroute : (g.primary p).route with
    | soft | hard => exact fault_routed (by simp [hroute]) policy
    | direct =>
      cases policy with
      | manual => exact fault_direct_manual hroute
      | auto =>
        refine ⟨fun h16 => ?_, fun h16 h17 => ?_, fun h16 h17 => fault_direct_noSpare hroute (firstAvailable_of_none h16 h17)⟩
        · rw [fault_direct_repaired hroute (firstAvailable_of_s16 h16)]
          exact ⟨makeSoft_reroutes _ _ _, rfl⟩
        · rw [fault_direct_repaired hroute (firstAvailable_of_s17 h16 h17)]
          exact ⟨makeSoft_reroutes _ _ _, rfl⟩
  · simp only [← available_iff]
    cases huse : (g.spare x).use with
    | free | hard | damaged => exact fault_unused (by simp [huse]) policy
    | soft p =>
      refine ⟨_, dropSoft_reroutes _ p x, ?_⟩
      cases policy with
      | manual => exact fault_soft_manual huse
      | auto =>
        refine ⟨fun hother => ?_, fun hother => fault_soft_dropped huse hother⟩
        rw [fault_soft_repaired huse hother]
        exact ⟨makeSoft_reroutes _ _ _, rfl⟩
  · dsimp only
    cases hcondition : g.condition ch with
    | marked => simp only [Segment.applyTest, hcondition]
    | sound => cases r <;> simp [Segment.applyTest, hcondition, conditionOf]
    | openFault => cases r <;> simp [Segment.applyTest, hcondition, conditionOf, setCondition_sets]
    | shortFault => cases r <;> simp [Segment.applyTest, hcondition, conditionOf, setCondition_sets]

/-- Settles O35. -/
theorem litRowRule : Obligations.LitRowRule := by
  refine fun x => ⟨fun g p r hr => ?_, darkRows_eq x, updatePending_iff, ?_, ?_⟩
  · rw [source_of_row hr, Segment.source]
    cases ((x.segment g).primary p).route <;> rfl
  · exact spareRecords_count x fun y => y.use.isHard
  · exact spareRecords_count x fun y => y.use == .damaged

end Sys2Proof.Settled
end

section
/-! SUPPORT. The burn engine and the Test Unit (chapters 6 and 7), row by row. -/

namespace Sys2Proof.Machine

/-! ## BURN (R108, R109) -/

section Burn
variable {s : State} {p : List Byte} {g : Fin 6} {c : Fin 16} {k : SpareId}

theorem burnRequest_badState (hmode : s.mc.mode ≠ .maintenance) : s.burnRequest p = .error .badState := if_pos hmode

theorem burnRequest_busy (hmode : ¬ s.mc.mode ≠ .maintenance) (hbusy : s.fz.burn ≠ .idle ∨ s.tu.scan ≠ .idle) :
    s.burnRequest p = .error .busy :=
  (if_neg hmode).trans (if_pos (hbusy.imp burnBusy_eq_true_iff.2 scan_isRunning_iff.2))

/-- What BURN does is decided by its arguments, where mode and engines let it. -/
theorem burnRequest_args (hmode : ¬ s.mc.mode ≠ .maintenance) (hidle : ¬ (s.fz.burn ≠ .idle ∨ s.tu.scan ≠ .idle)) :
    s.burnRequest p =
      match primaryArgs p with
      | none => .error .badArg
      | some (g, c) =>
        match ((s.rd.segment g).primary c).route with
        | .hard _ => .error .alreadyHard
        | .direct => .error .notSoft
        | .soft k => .ok (s.withFz { s.fz.putHeld ⟨g, c, k⟩ .writing with burn := .write ⟨g, c, k⟩, entered := s.now }, [oneByte k.number]) :=
  (if_neg hmode).trans (if_neg fun hbusy => hidle (hbusy.imp burnBusy_eq_true_iff.1 scan_isRunning_iff.1))

section Allowed
variable (hmode : ¬ s.mc.mode ≠ .maintenance) (hidle : ¬ (s.fz.burn ≠ .idle ∨ s.tu.scan ≠ .idle))

include hmode hidle

theorem burnRequest_badArg (hargs : primaryArgs p = none) : s.burnRequest p = .error .badArg := by
  rw [burnRequest_args hmode hidle, hargs]

theorem burnRequest_hard (hargs : primaryArgs p = some (g, c)) (hroute : ((s.rd.segment g).primary c).route = .hard k) :
    s.burnRequest p = .error .alreadyHard := by
  simp only [burnRequest_args hmode hidle, hargs, hroute]

theorem burnRequest_direct (hargs : primaryArgs p = some (g, c)) (hroute : ((s.rd.segment g).primary c).route = .direct) :
    s.burnRequest p = .error .notSoft := by
  simp only [burnRequest_args hmode hidle, hargs, hroute]

theorem burnRequest_taken (hargs : primaryArgs p = some (g, c)) (hroute : ((s.rd.segment g).primary c).route = .soft k) :
    s.burnRequest p = .ok (s.withFz { s.fz.putHeld ⟨g, c, k⟩ .writing with burn := .write ⟨g, c, k⟩, entered := s.now },
      [oneByte k.number]) := by
  simp only [burnRequest_args hmode hidle, hargs, hroute]

end Allowed

end Burn

/-! ## The burn engine (R110-R113) -/

section Engine
variable {s : State} {y : Subject} {b : Blows}

theorem tick_withFz_same (s : State) (m : Nat) (x : FuseStore) : s.SameExcept ((s.tick m).withFz x) [.fz] :=
  sameExcept_of_untouched

/-- The bits of a record after a write, each with its own blow (R100, R101). -/
theorem blowWrite_bits (r : FuseRecord) (p : Fin 16) (b : Blows) {i : Nat} (hi : i < 4) :
    (r.blowWrite p b).index.getLsbD i = (r.index.getLsbD i || (p.val.testBit i && b.index.getLsbD i)) ∧
      (r.blowWrite p b).complement.getLsbD i = (r.complement.getLsbD i || (!p.val.testBit i && b.complement.getLsbD i)) := by
  simp [FuseRecord.blowWrite, hi]

/-- The end of a burn: one record's class, one route and one use, IDLE and the notice (R113). -/
theorem endBurn_fields (u : State) (c : FuseClass) (a : Segment) {p : Fin 16} {r : Route} {k : SpareId} {w : Use}
    (ha : (u.rd.segment y.seg).Reroutes a p r k w) :
    (u.endBurn y c a).now = u.now ∧ (u.endBurn y c a).fz.fuses = u.fz.fuses ∧ (u.endBurn y c a).fz.entered = u.now ∧
      (u.endBurn y c a).fz.burn = .idle ∧ u.fz.Reclassifies (u.endBurn y c a).fz y c ∧
      u.rd.Rewrites (u.endBurn y c a).rd y.seg p r k w ∧
      u.ru.CreatesNotice (u.endBurn y c a).ru u.li.unit u.ft.counter (.burnDone y c) ∧ u.ru.KeepsRequests (u.endBurn y c a).ru ∧
      u.SameExcept (u.endBurn y c a) [.ru, .rd, .fz] :=
  ⟨rfl, rfl, rfl, rfl, fun g k => get_set_held u.fz y c g k, rewrites_of_reroutes u.rd y.seg a p r k w ha, createNotice_creates ..,
    createNotice_keepsRequests .., sameExcept_of_untouched⟩

end Engine

/-! ## Scan and patrol requests (R121, R125, R130, R132) -/

/-- A request whose own rule changes the Test Unit alone. -/
theorem exec_withTu {s : State} {c : Instr} {k : Take} {q : Queued} {rest : List Queued} {kind : Kind}
    {own : State → List Byte → Answered} {x : TestUnit} {p : List Byte} (h : s.Serving k q rest kind)
    (hexec : exec c s = s.serve k kind own) (hown : own (s.taken k) k.req.payload = .ok ((s.taken k).withTu x, p)) :
    ∃ t, exec c s = .next t ∧ s.Completes t k q rest .ok p ∧ t.tu = x ∧ s.SameExcept t [.ru, .tu] := by
  obtain ⟨hnext, hcompletes, hsame⟩ := exec_completes (bs := [.tu]) h hexec hown rfl rfl rfl
    sameExcept_of_untouched
  exact ⟨_, hnext, hcompletes, answer_tu .., hsame⟩

/-- The abort of a scan changes the Test Unit and creates a notice. -/
theorem abortScan_same (s : State) : s.SameExcept s.abortScan [.ru, .tu] :=
  sameExcept_of_untouched

/-- A channel's number within its segment. -/
theorem channelOf_number (g : GlobalChannel) : (channelOf g).number = g.val % 18 := by
  unfold channelOf
  split
  · rfl
  · split
    · rename_i h16; rw [h16]; rfl
    · exact (show 17 = g.val % 18 by omega)

/-- A channel in two bytes. -/
theorem channelBytes_eq (g : GlobalChannel) : channelBytes g = [oneByte (g.val / 18), oneByte (g.val % 18)] := by
  rw [channelBytes, channelOf_number]
  rfl

theorem scanHeader_of_idle {x : TestUnit} (h : x.scan = .idle) :
    x.scanHeader = [x.scan.code] ++ [0xFF, 0xFF] ++
      [oneByte x.tested, oneByte x.findings.length, if x.overflow then 1 else 0, x.outcome.code] := by
  simp only [TestUnit.scanHeader, h]
  rfl

theorem scanHeader_of_running {x : TestUnit} {g : GlobalChannel} (h : x.scan = .running g) :
    x.scanHeader = [x.scan.code] ++ [oneByte (g.val / 18), oneByte (g.val % 18)] ++
      [oneByte x.tested, oneByte x.findings.length, if x.overflow then 1 else 0, x.outcome.code] := by
  simp only [TestUnit.scanHeader, h, channelBytes_eq]
  rfl

theorem findingBytes_eq (f : Finding) : findingBytes f =
    [oneByte (f.channel.val / 18), oneByte (f.channel.val % 18), testResultCode f.result, f.action.code, f.action.spareByte] := by
  rw [findingBytes, channelBytes_eq]
  rfl

/-! ## The end of a channel test -/

/-- A test counted and recorded (R123). -/
theorem recordTest_eq (x : TestUnit) (g : GlobalChannel) (r : TestResult) (y : TestReport) :
    x.recordTest g r y = { x with
      tested := x.tested + 1
      findings := if (r ≠ .ok ∨ y.changed = true) ∧ x.findings.length < 32 then
          x.findings ++ [{ channel := g, result := r, action := y.action }] else x.findings
      overflow := x.overflow || decide ((r ≠ .ok ∨ y.changed = true) ∧ 32 ≤ x.findings.length) } := by
  unfold TestUnit.recordTest
  by_cases hcalled : r ≠ .ok ∨ y.changed = true
  · by_cases hroom : x.findings.length < 32
    · have hfull : ¬ 32 ≤ x.findings.length := Nat.not_le.2 hroom
      simp [hcalled, hroom, hfull]
    · have hfull : 32 ≤ x.findings.length := Nat.not_lt.1 hroom
      simp [hcalled, hroom, hfull]
  · simp [hcalled]

section TestEnds
variable {s u v : State} {g h : GlobalChannel} {r : TestResult}

/-- The scan goes on to the next channel. -/
theorem exec_scanTestEnd_some (hg : s.tu.scan = .running g) (hu : s.passTo (s.tu.testStart + testTime) = u)
    (hv : v = (u.withRd (u.rd.applyTest g r).1).withTu (u.tu.recordTest g r (u.rd.applyTest g r).2))
    (hnext : v.rd.scanNext g = some h) :
    exec (.scanTestEnd r) s = .next (v.withTu { v.tu with scan := .running h, testStart := v.now }) := by
  simp only [exec, execScanTestEnd, hg, hu, ← hv, hnext]

/-- The scan completes. -/
theorem exec_scanTestEnd_none (hg : s.tu.scan = .running g) (hu : s.passTo (s.tu.testStart + testTime) = u)
    (hv : v = (u.withRd (u.rd.applyTest g r).1).withTu (u.tu.recordTest g r (u.rd.applyTest g r).2))
    (hnext : v.rd.scanNext g = none) :
    exec (.scanTestEnd r) s =
      .next (v.withTu { v.tu with scan := .idle, outcome := scanOutcome v.rd.darkRows v.tu.findings }).scanDone := by
  simp only [exec, execScanTestEnd, hg, hu, ← hv, hnext]

/-- Where a scan completes, SCAN_DONE is created from what it found. -/
theorem scanCompletes_ru (v : State) (o : ScanOutcome) : (v.withTu { v.tu with scan := .idle, outcome := o }).scanDone.ru =
    v.ru.createNotice v.li.unit v.ft.counter (.scanDone o v.tu.tested v.tu.findings.length v.tu.overflow v.rd.darkRows) := rfl

theorem scanCompletes_same (v : State) (x : TestUnit) : v.SameExcept (v.withTu x).scanDone [.ru, .rd, .tu] :=
  sameExcept_of_untouched

theorem withTu_same (v : State) (x : TestUnit) : v.SameExcept (v.withTu x) [.ru, .rd, .tu] :=
  sameExcept_of_untouched

/-- The channel that a scan goes on to is the first after `g` that is not skipped. -/
theorem scanNext_eq_some {x : RowDrive} (hlt : g.val < h.val) (hfree : x.skips h = false)
    (hbetween : ∀ i : GlobalChannel, g.val < i.val → i.val < h.val → x.skips i = true) : x.scanNext g = some h := by
  cases hnext : x.scanNext g with
  | none => rw [scanNext_none x g hnext h hlt] at hfree; cases hfree
  | some h' =>
    obtain ⟨hlt', hfree', hbetween'⟩ := scanNext_some x g h' hnext
    rcases Nat.lt_trichotomy h.val h'.val with hbefore | heq | hafter
    · rw [hbetween' h hlt hbefore] at hfree; cases hfree
    · rw [Fin.ext heq]
    · rw [hbetween h' hlt' hafter] at hfree'; cases hfree'

theorem scanNext_eq_none {x : RowDrive} (hskipped : ∀ h : GlobalChannel, g.val < h.val → x.skips h = true) : x.scanNext g = none := by
  cases hnext : x.scanNext g with
  | none => rfl
  | some h =>
    obtain ⟨hlt, hfree, -⟩ := scanNext_some x g h hnext
    rw [hskipped h hlt] at hfree; cases hfree

/-- A result on a channel of the map acts on the channel's segment alone. -/
theorem applyTest_replaces (x : RowDrive) (g : GlobalChannel) (r : TestResult) :
    x.Replaces (x.applyTest g r).1 (segmentOf g) ((x.segment (segmentOf g)).applyTest x.policy (channelOf g) r).1 :=
  putSegment_replaces ..

/-- A patrol test ends with the fault-handling rule fired. -/
theorem exec_patrolTestEnd_fired (hg : s.tu.patrolTest = some g) (hu : s.passTo (s.tu.testStart + testTime) = u)
    (hv : v = (u.withRd (u.rd.applyTest g r).1).notify (.channelFault g (conditionOf r) (u.rd.applyTest g r).2.action))
    (hfired : (u.rd.applyTest g r).2.fired = true) :
    exec (.patrolTestEnd r) s = .next (v.withTu (v.tu.patrolAdvance v.rd g)) := by
  simp only [exec, execPatrolTestEnd, hg, hu, if_pos hfired, hv]

/-- A patrol test ends without it. -/
theorem exec_patrolTestEnd_quiet (hg : s.tu.patrolTest = some g) (hu : s.passTo (s.tu.testStart + testTime) = u)
    (hv : v = u.withRd (u.rd.applyTest g r).1) (hfired : ¬ (u.rd.applyTest g r).2.fired = true) :
    exec (.patrolTestEnd r) s = .next (v.withTu (v.tu.patrolAdvance v.rd g)) := by
  simp only [exec, execPatrolTestEnd, hg, hu, if_neg hfired, hv]

end TestEnds

end Sys2Proof.Machine
end

section
/-! SUPPORT. The statements on burns and tests (chapters 6 and 7) settled. -/

namespace Sys2Proof.Settled

open Sys2Proof.Machine

/-- Settles O37. -/
theorem burnTaken : Obligations.BurnTaken := by
  intro k s q rest h
  have hexec : exec (.burn k) s = s.serve k .burn State.burnRequest := rfl
  dsimp only
  split
  · rename_i hmode
    exact refuses_of_own h hexec (burnRequest_badState (s := s.taken k) hmode)
  rename_i hmode
  split
  · rename_i hbusy
    exact refuses_of_own h hexec (burnRequest_busy (s := s.taken k) hmode hbusy)
  rename_i hidle
  split
  · rename_i hv
    have hargs := primaryArgs_some hv
    generalize (⟨(byteAt k.req.payload 0).toNat, hv.1⟩ : Fin 6) = g at hargs ⊢
    generalize (⟨(byteAt k.req.payload 1).toNat, hv.2⟩ : Fin 16) = c at hargs ⊢
    cases hroute : ((s.rd.segment g).primary c).route with
    | hard x => exact refuses_of_own h hexec (burnRequest_hard (s := s.taken k) hmode hidle hargs hroute)
    | direct => exact refuses_of_own h hexec (burnRequest_direct (s := s.taken k) hmode hidle hargs hroute)
    | soft x =>
      obtain ⟨hnext, hcompletes, hsame⟩ := exec_completes (bs := [.fz]) h hexec
        (burnRequest_taken (s := s.taken k) hmode hidle hargs hroute) rfl rfl rfl
        sameExcept_of_untouched
      refine ⟨_, hnext, hcompletes, ?_, ?_, ?_, ?_, hsame⟩ <;> rw [answer_fz]
      · rfl
      · rfl
      · rfl
      · exact fun g' k' => get_set_held s.fz _ _ g' k'
  · rename_i hv
    exact refuses_of_own h hexec (burnRequest_badArg (s := s.taken k) hmode hidle (primaryArgs_none hv))

/-- Settles O38: the blows of WRITE and of MARK. -/
theorem burnStepsExpire : Obligations.BurnStepsExpire := by
  intro s y b
  dsimp only
  obtain ⟨m, hm⟩ : ∃ m, s.fz.entered + burnStepTime = m := ⟨_, rfl⟩
  rw [show s.fz.entered + 150000000 = m from hm]
  intro htime
  have hpass : s.passTo (s.fz.entered + burnStepTime) = s.tick m := hm ▸ passTo_eq (hm ▸ htime)
  obtain ⟨hheld, -⟩ := blow_keeps s.fz b
  refine ⟨fun hburn => ?_, fun hburn => ?_⟩
  · have hown := (blow_of_write hburn (b := b) y.seg y.spare).trans (if_pos ⟨rfl, rfl⟩)
    refine ⟨_, exec_burnWriteExpiry b hburn hpass, rfl, rfl, rfl, hheld,
      fun g k hother => (blow_of_write hburn g k).trans (if_neg hother), ?_, tick_withFz_same ..⟩
    simp only [withFz_fz, tick_fz, hown]
    exact ⟨rfl, fun i hi => blowWrite_bits _ _ _ hi⟩
  · exact ⟨_, exec_burnMarkExpiry b hburn hpass, rfl, rfl, rfl, hheld,
      fun g k hother => (blow_of_mark hburn g k).trans (if_neg hother),
      (blow_of_mark hburn y.seg y.spare).trans (if_pos ⟨rfl, rfl⟩), tick_withFz_same ..⟩

/-- Settles O39: success, MARK, and failure. -/
theorem burnReadsBack : Obligations.BurnReadsBack := by
  refine ⟨fun s y m hburn htime => ?_, fun s y m hburn htime => ?_⟩
  · have hexec := exec_burnCheckRead hburn (passTo_eq htime)
    have hread : (s.tick m).fz.record y = (s.fz.fuses.get y.seg).get y.spare := rfl
    rw [hread] at hexec
    split
    · rename_i hgood
      rw [if_pos hgood] at hexec
      obtain ⟨hnow, hfuses, hentered, hidle, hclass, hmap, hnotice, hrequests, hsame⟩ :=
        endBurn_fields (s.tick m) (.programmed y.primary) _ (makeHard_reroutes _ y.primary y.spare)
      exact ⟨_, hexec, hnow, hfuses, hentered.trans hnow.symm, hidle, hclass, hmap, hnotice, hrequests, hsame⟩
    · rename_i hbad
      rw [if_neg hbad] at hexec
      exact ⟨_, hexec, rfl, rfl, rfl, rfl, rfl, tick_withFz_same ..⟩
  · have hexec := exec_burnRecheckRead hburn (passTo_eq htime)
    have hclass' : (if ((s.tick m).fz.record y).damage ≠ 0 then FuseClass.damaged else .inconsistent) =
        if ((s.fz.fuses.get y.seg).get y.spare).damage = 0 then .inconsistent else .damaged := ite_not ..
    rw [hclass'] at hexec
    obtain ⟨hnow, hfuses, hentered, hidle, hclass, hmap, hnotice, hrequests, hsame⟩ :=
      endBurn_fields (s.tick m) (if ((s.fz.fuses.get y.seg).get y.spare).damage = 0 then .inconsistent else .damaged) _
        (spoil_reroutes _ y.primary y.spare)
    exact ⟨_, hexec, hnow, hfuses, hentered.trans hnow.symm, hidle, hclass, hmap, hnotice, hrequests, hsame⟩

/-- Settles O40. -/
theorem scanRequests : Obligations.ScanRequests := by
  refine ⟨fun k s q rest => ⟨fun h => ?_, fun h => ?_⟩, fun k s q rest h => ?_⟩
  · have hexec : exec (.scan k) s = s.serve k .scan State.startScan := rfl
    split
    · rename_i hmode
      exact refuses_of_own h hexec (if_pos hmode)
    rename_i hmode
    split
    · rename_i hbusy
      exact refuses_of_own h hexec ((if_neg hmode).trans (if_pos (hbusy.imp scan_isRunning_iff.2 burnBusy_eq_true_iff.2)))
    rename_i hidle
    exact exec_withTu h hexec ((if_neg hmode).trans (if_neg fun hbusy => hidle (hbusy.imp scan_isRunning_iff.1 burnBusy_eq_true_iff.1)))
  · have hexec : exec (.scanAbort k) s = s.serve k .scanAbort State.scanAbort := rfl
    split
    · rename_i hidle
      exact refuses_of_own h hexec (if_neg fun hrun => scan_isRunning_iff.1 hrun hidle)
    rename_i hrunning
    have hown : (s.taken k).scanAbort k.req.payload = .ok ((s.taken k).abortScan, [oneByte s.tu.tested]) :=
      if_pos (scan_isRunning_iff.2 hrunning)
    refine ⟨_, hexec.trans (serve_ok h hown), answers_of_keepsRequests h.taking (createNotice_keepsRequests _ _ _ _) rfl rfl, ?_,
      answer_tu .., ?_, answer_same (taken_then_same (abortScan_same _)) (by simp) _ _ _⟩
    · rw [answer_reqDrop]; exact createNotice_reqDrop ..
    · exact createsNotice_congr (createNotice_creates (s.taken k).ru s.li.unit s.ft.counter _) (answer_log ..) (answer_nextNotice ..)
        (answer_lost ..)
  · have hexec : exec (.readScan k) s = s.serve k .readScan State.readScan := rfl
    dsimp only
    split
    · rename_i hcount
      exact refuses_of_own h hexec (if_pos hcount)
    rename_i hcount
    split
    · rename_i hrange
      exact refuses_of_own h hexec ((if_neg hcount).trans (if_pos hrange))
    rename_i hrange
    have hown : (s.taken k).readScan k.req.payload = .ok (s.taken k, s.tu.scanHeader ++
        ((s.tu.findings.drop (byteAt k.req.payload 0).toNat).take (byteAt k.req.payload 1).toNat).flatMap findingBytes) :=
      (if_neg hcount).trans (if_neg hrange)
    rw [funext findingBytes_eq] at hown
    cases hscan : s.tu.scan with
    | idle =>
      rw [scanHeader_of_idle hscan, hscan] at hown
      exact reports_of_own h hexec hown
    | running g =>
      rw [scanHeader_of_running hscan, hscan] at hown
      exact reports_of_own h hexec hown

/-- Settles O41: the test recorded, then the next channel or the end of the scan. -/
theorem scanTestEnds : Obligations.ScanTestEnds := by
  intro s g r hg
  obtain ⟨m, hm⟩ : ∃ m, s.tu.testStart + testTime = m := ⟨_, rfl⟩
  rw [show s.tu.testStart + 400000 = m from hm]
  intro htime
  have hpass : s.passTo (s.tu.testStart + testTime) = s.tick m := hm ▸ passTo_eq (hm ▸ htime)
  obtain ⟨v, hv⟩ : ∃ v, v = ((s.tick m).withRd (s.rd.applyTest g r).1).withTu (s.tu.recordTest g r (s.rd.applyTest g r).2) := ⟨_, rfl⟩
  have hru : v.ru = s.ru := hv ▸ rfl
  have hrd : v.rd = (s.rd.applyTest g r).1 := hv ▸ rfl
  have htu : v.tu = _ := (congrArg State.tu hv).trans (recordTest_eq ..)
  have hnow : v.now = max s.now m := hv ▸ rfl
  have hsame : s.SameExcept v [.ru, .rd, .tu] := by
    rw [hv]
    exact sameExcept_of_untouched
  have hmap := applyTest_replaces s.rd g r
  rw [← hrd] at hmap
  cases hnext : v.rd.scanNext g with
  | some h =>
    refine ⟨_, exec_scanTestEnd_some hg hpass hv hnext, hnow, hmap, hru ▸ keepsRequests_refl _, ?_, fun h' hlt hfree hbetween => ?_,
      fun hskipped => ?_⟩
    · exact sameExcept_trans hsame (withTu_same v _)
    · have hsome : v.rd.scanNext g = some h' := scanNext_eq_some hlt hfree hbetween
      obtain rfl : h = h' := Option.some.inj (hnext.symm.trans hsome)
      refine ⟨?_, hru ▸ ⟨rfl, rfl, rfl⟩⟩
      rw [withTu_tu, htu, hnow]
      rfl
    · have hnone : v.rd.scanNext g = none := scanNext_eq_none hskipped
      rw [hnone] at hnext
      cases hnext
  | none =>
    have hli : v.li = s.li := hv ▸ rfl
    have hft : v.ft = s.ft := hv ▸ rfl
    refine ⟨_, exec_scanTestEnd_none hg hpass hv hnext, hnow, hmap, hru ▸ createNotice_keepsRequests .., ?_,
      fun h hlt hfree hbetween => ?_, fun _ => ⟨?_, ?_⟩⟩
    · exact sameExcept_trans hsame (scanCompletes_same v _)
    · have hsome : v.rd.scanNext g = some h := scanNext_eq_some hlt hfree hbetween
      rw [hnext] at hsome
      cases hsome
    · show ({ v.tu with scan := .idle, outcome := scanOutcome v.rd.darkRows v.tu.findings } : TestUnit) = _
      rw [htu]
      rfl
    · rw [scanCompletes_ru, hru, hli, hft, htu]
      exact createNotice_creates ..

/-- Settles O42. -/
theorem patrolSet : Obligations.PatrolSet := by
  intro k s q rest h
  have hexec : exec (.setPatrol k) s = s.serve k .setPatrol State.setPatrol := rfl
  dsimp only
  generalize hv : byteAt k.req.payload 0 = v
  split
  · rename_i hbad
    refine refuses_of_own h hexec ((if_neg ?_).trans (if_neg ?_)) <;> rw [hv] <;> bv_omega
  rename_i hgood
  have hcases : v = 0 ∨ v = 1 := by bv_omega
  rcases hcases with rfl | rfl
  · have hown : (s.taken k).setPatrol k.req.payload =
        .ok ((s.taken k).withTu { s.tu with patrolOn := false, patrolTest := none }, [0, oneByte s.tu.cursor.val] ++ toLe 2 s.tu.lapCount.toNat) := by
      rw [State.setPatrol, hv]
      rfl
    exact exec_withTu h hexec hown
  · have hown : (s.taken k).setPatrol k.req.payload =
        .ok ((s.taken k).withTu { s.tu with patrolOn := true }, [1, oneByte s.tu.cursor.val] ++ toLe 2 s.tu.lapCount.toNat) := by
      rw [State.setPatrol, hv]
      rfl
    exact exec_withTu h hexec hown

/-- Settles O43: the result on the map, the notice of a firing, the cursor. -/
theorem patrolTestEnds : Obligations.PatrolTestEnds := by
  intro s g r hg
  obtain ⟨m, hm⟩ : ∃ m, s.tu.testStart + testTime = m := ⟨_, rfl⟩
  rw [show s.tu.testStart + 400000 = m from hm]
  intro htime
  have hpass : s.passTo (s.tu.testStart + testTime) = s.tick m := hm ▸ passTo_eq (hm ▸ htime)
  obtain ⟨j, hj, hreach, hlap⟩ := nextAfter_reaches (s.rd.applyTest g r).1 g
  have hadvance : s.tu.patrolAdvance (s.rd.applyTest g r).1 g = { s.tu with
      patrolTest := none
      cursor := ((s.rd.applyTest g r).1.nextAfter g).1
      lapCount := if 108 ≤ g.val + 1 + j then satInc s.tu.lapCount else s.tu.lapCount } := by
    simp only [TestUnit.patrolAdvance, hlap, decide_eq_true_eq]
  by_cases hfired : (s.rd.applyTest g r).2.fired = true
  · refine ⟨_, j, _, exec_patrolTestEnd_fired hg hpass rfl hfired, rfl, applyTest_replaces .., createNotice_keepsRequests ..,
      ?_, hreach, hj, hadvance, ?_⟩
    · refine Eq.mpr (if_pos hfired) ?_
      exact createNotice_creates ..
    · exact sameExcept_of_untouched
  · refine ⟨_, j, _, exec_patrolTestEnd_quiet hg hpass rfl hfired, rfl, applyTest_replaces .., keepsRequests_refl _,
      ?_, hreach, hj, hadvance, ?_⟩
    · refine Eq.mpr (if_neg hfired) ?_
      exact ⟨rfl, rfl, rfl⟩
    · exact sameExcept_of_untouched

end Sys2Proof.Settled
end

section
/-! SUPPORT. The rows of the link (chapter 9) at the event that their symbols make, and the arrival of a request. -/

namespace Sys2Proof.Machine

/-! ## Decisions on UP-in (R154, R155, R158) -/

section ClassFor
variable {x : LinkInterface} {d : Byte}

theorem classFor_allTiles (h : d.toNat = 127) : x.classFor d = some .allTiles := if_pos (show d = 127 by bv_omega)

theorem classFor_group (h : 64 ≤ d.toNat ∧ d.toNat ≤ 79) :
    x.classFor d = if (⟨d.toNat - 64, by omega⟩ : Fin 16) ∈ x.groups then some (.group ⟨d.toNat - 64, by omega⟩) else none :=
  (if_neg (show ¬ d = 127 by bv_omega)).trans (dif_pos h)

theorem classFor_other (hall : d.toNat ≠ 127) (hgroup : ¬ (64 ≤ d.toNat ∧ d.toNat ≤ 79)) :
    x.classFor d = if d = x.unit ∧ d ≠ 0 then some .unit else none :=
  (if_neg (show ¬ d = 127 by bv_omega)).trans (dif_neg hgroup)

end ClassFor

/-- The for-this-tile decision (R154). -/
theorem classFor_iff {x : LinkInterface} {d : Byte} (hunit : x.unit.toNat ≤ 62) :
    (x.classFor d = some .unit ↔ d = x.unit ∧ x.unit ≠ 0) ∧
      (∀ g : Fin 16, x.classFor d = some (.group g) ↔ d.toNat = 64 + g.val ∧ g ∈ x.groups) ∧
      (x.classFor d = some .allTiles ↔ d.toNat = 127) := by
  by_cases hall : d.toNat = 127
  · have hother : d ≠ x.unit := by rintro rfl; omega
    rw [classFor_allTiles hall]
    refine ⟨by simp [hother], fun g => ?_, by simp [hall]⟩
    have := g.isLt
    simp
    omega
  by_cases hgroup : 64 ≤ d.toNat ∧ d.toNat ≤ 79
  · have hother : d ≠ x.unit := by rintro rfl; omega
    rw [classFor_group hgroup]
    refine ⟨by split <;> simp [hother], fun g => ?_, by split <;> simp [hall]⟩
    have hg : (⟨d.toNat - 64, by omega⟩ : Fin 16) = g ↔ d.toNat = 64 + g.val := by
      rw [Fin.ext_iff]
      exact (show d.toNat - 64 = g.val ↔ d.toNat = 64 + g.val by omega)
    constructor
    · split
      · rename_i hmem
        intro heq
        obtain rfl := AddressClass.group.inj (Option.some.inj heq)
        exact ⟨hg.1 rfl, hmem⟩
      · intro heq; cases heq
    · rintro ⟨heq, hmem⟩
      obtain rfl := hg.2 heq
      exact if_pos hmem
  · rw [classFor_other hall hgroup]
    refine ⟨?_, fun g => ?_, by split <;> simp [hall]⟩
    · split
      · rename_i h; exact iff_of_true rfl ⟨h.1, h.1 ▸ h.2⟩
      · rename_i h; exact iff_of_false (by simp) fun hd => h ⟨hd.1, hd.1 ▸ hd.2⟩
    · have := g.isLt
      split <;> simp <;> omega

/-- The decisions on a destination, with the unit number's own zero named (R154, R155). -/
theorem decisions_eq (x : LinkInterface) (d : Byte) :
    x.decisions d = { cls := x.classFor d, stops := decide (d = x.unit ∧ x.unit ≠ 0), held := none } := by
  have hstops : (d = x.unit ∧ d ≠ 0) ↔ (d = x.unit ∧ x.unit ≠ 0) := and_congr_right fun h => by rw [h]
  simp only [LinkInterface.decisions, hstops]

/-- What DOWN-out repeats by cut-through once the third body byte has come (R155). -/
theorem repeating_of_begun {x : LinkInterface} {l : RxLatch} {body : List Byte} {held : Bool}
    (hrx : x.rx = some { l with held := some held }) (hin : x.upIn = some body) :
    x.repeating = if l.stops = true ∨ held = true then none else some body := by
  rw [LinkInterface.repeating, hrx, hin]
  cases held <;> cases l.stops <;> rfl

/-- Three bytes that begin an all-tile ENUMERATE. -/
theorem isEnumerateAll_of_length {body : List Byte} (h : body.length = 3) :
    isEnumerateAll body = decide (byteAt body 0 = 127 ∧ byteAt body 2 = 0x01) := by
  match body, h with
  | [d, q, k], _ =>
    rw [Bool.eq_iff_iff]
    simp [isEnumerateAll, byteAt, Kind.code]

/-! ## DOWNSTREAM_REPEAT -/

section Repeat
variable {s : State} {ys : List Symbol}

theorem exec_repeat_destination (hrun : s.running = true) {r : Receiver} {d : Byte} (h : s.li.onUpIn ys = some (r, .destination d)) :
    exec (.downstreamRepeat .destinationByte ys) s = .next (s.withLi { s.li with upIn := r, rx := some (s.li.decisions d) }) := by
  simp only [exec, execDownstreamRepeat, if_pos hrun, h]

theorem exec_repeat_kindByte (hrun : s.running = true) {r : Receiver} {body : List Byte} (h : s.li.onUpIn ys = some (r, .kindByte body)) :
    exec (.downstreamRepeat .repeatBegins ys) s = .next (s.withLi (s.li.beginRepeat r body (s.mc.startUp == .ready))) := by
  simp only [exec, execDownstreamRepeat, if_pos hrun, h]

theorem exec_repeat_ended (hrun : s.running = true) {r : Receiver} {f : LinkFrame} (h : s.li.onUpIn ys = some (r, .ended f))
    (hother : ¬ (s.li.holds = true ∨ s.li.frameClass ≠ none)) :
    exec (.downstreamRepeat .frameEnds ys) s = .next (s.withLi (s.li.endFrame r f)) := by
  simp only [exec, execDownstreamRepeat, if_pos hrun, h, if_neg hother]

theorem exec_repeat_none (stage : RepeatStage) (h : s.li.onUpIn ys = none) : exec (.downstreamRepeat stage ys) s = .next s := by
  simp only [exec, execDownstreamRepeat, h]
  cases stage <;> exact ite_self _

theorem exec_repeat_held (stage : RepeatStage) (h : ¬ s.running = true) : exec (.downstreamRepeat stage ys) s = .next s := if_neg h

end Repeat

/-- A frame is held store-and-forward when its latch says so. -/
theorem holds_iff {x : LinkInterface} : x.holds = true ↔ ∃ l, x.rx = some l ∧ l.held = some true := by
  simp [LinkInterface.holds, Option.bind_eq_some_iff]

/-! ## The ends of frames for this tile (R157-R160) -/

/-- A frame too short, too long or cut off. -/
theorem malformed_iff {f : LinkFrame} : (f.ending = .cutOff ∨ lengthGood f.body = false) ↔
    (f.ending = .cutOff ∨ f.body.length < 5 ∨ 245 < f.body.length) := by
  simp only [lengthGood, Bool.and_eq_false_iff, decide_eq_false_iff_not, Nat.not_le]

section Tests
variable {x : LinkInterface} {f : LinkFrame}

theorem tests_malformed (h : f.ending = .cutOff ∨ f.body.length < 5 ∨ 245 < f.body.length) :
    x.tests f = some { x with rxMalformed := if x.rxMalformed = 65535 then 65535 else x.rxMalformed + 1 } := by
  rw [LinkInterface.tests, if_pos (malformed_iff.2 h), satInc_half]

theorem tests_badCheck (h : ¬ (f.ending = .cutOff ∨ f.body.length < 5 ∨ 245 < f.body.length)) (hcheck : checkGood f.body = false) :
    x.tests f = some { x with rxBadCheck := if x.rxBadCheck = 65535 then 65535 else x.rxBadCheck + 1 } := by
  rw [LinkInterface.tests, if_neg fun hm => h (malformed_iff.1 hm), if_neg (by simp [hcheck]), satInc_half]

theorem tests_passed (h : ¬ (f.ending = .cutOff ∨ f.body.length < 5 ∨ 245 < f.body.length)) (hcheck : ¬ checkGood f.body = false) :
    x.tests f = none := by
  rw [LinkInterface.tests, if_neg fun hm => h (malformed_iff.1 hm), if_pos (by simpa using hcheck)]

end Tests

section FrameEnds
variable {s : State} {ys : List Symbol} {r : Receiver} {f : LinkFrame}

theorem exec_frameEnd_notOurs (hrun : s.running = true) (h : s.li.onUpIn ys = some (r, .ended f)) (hfree : ¬ s.li.holds = true)
    (hclass : s.li.frameClass = none) : exec (.downstreamFrameEnd ys) s = .next (s.withLi (s.li.afterFrame f r)) := by
  simp only [exec, execDownstreamFrameEnd, if_pos hrun, h, if_neg hfree, hclass, LinkInterface.endFrame_eq]

theorem exec_frameEnd_counted (hrun : s.running = true) (h : s.li.onUpIn ys = some (r, .ended f)) (hfree : ¬ s.li.holds = true)
    {c : AddressClass} (hclass : s.li.frameClass = some c) {x : LinkInterface} (htests : (s.li.afterFrame f r).tests f = some x) :
    exec (.downstreamFrameEnd ys) s = .next (s.withLi x) := by
  simp only [exec, execDownstreamFrameEnd, if_pos hrun, h, if_neg hfree, hclass, LinkInterface.endFrame_eq, withLi_li, htests]
  rfl

theorem exec_frameEnd_handed (hrun : s.running = true) (h : s.li.onUpIn ys = some (r, .ended f)) (hfree : ¬ s.li.holds = true)
    {c : AddressClass} (hclass : s.li.frameClass = some c) (htests : (s.li.afterFrame f r).tests f = none) :
    exec (.downstreamFrameEnd ys) s = .next ((s.withLi (s.li.afterFrame f r)).arrive { cls := c, body := f.body }) := by
  simp only [exec, execDownstreamFrameEnd, if_pos hrun, h, if_neg hfree, hclass, LinkInterface.endFrame_eq, withLi_li, htests]

theorem exec_frameEnd_quiet (h : s.running = false ∨ s.li.onUpIn ys = none) : exec (.downstreamFrameEnd ys) s = .next s := by
  rcases h with hheld | hnone
  · exact if_neg (by simp [hheld])
  · simp only [exec, execDownstreamFrameEnd, hnone]
    exact ite_self _

theorem exec_enumerate_counted (hrun : s.running = true) (h : s.li.onUpIn ys = some (r, .ended f)) (hholds : s.li.holds = true)
    {x : LinkInterface} (htests : ({ s.li with upIn := r, rx := none } : LinkInterface).tests f = some x) :
    exec (.enumerate ys) s = .next (s.withLi x) := by
  simp only [exec, execEnumerate, if_pos hrun, h, if_pos hholds, withLi_li, htests]
  rfl

theorem exec_enumerate_passed (hrun : s.running = true) (h : s.li.onUpIn ys = some (r, .ended f)) (hholds : s.li.holds = true)
    (htests : ({ s.li with upIn := r, rx := none } : LinkInterface).tests f = none) :
    exec (.enumerate ys) s = if f.body.length = 6 then .next ((s.withLi { s.li with upIn := r, rx := none }).enumerateBase f)
      else .next (((s.withLi { s.li with upIn := r, rx := none }).sendDown f).arrive { cls := .allTiles, body := f.body }) := by
  simp only [exec, execEnumerate, if_pos hrun, h, if_pos hholds, withLi_li, htests]

theorem exec_enumerate_quiet (h : s.running = false ∨ s.li.onUpIn ys = none) : exec (.enumerate ys) s = .next s := by
  rcases h with hheld | hnone
  · exact if_neg (by simp [hheld])
  · simp only [exec, execEnumerate, hnone]
    exact ite_self _

end FrameEnds

/-- A unit number taken, then a frame sent down: what ENUMERATE does to the Link Interface and to the Request Unit (R160). -/
theorem takeUnit_fields (s : State) (n : Byte) (g : LinkFrame) :
    ((s.takeUnit n).sendDown g).li = { s.li with unit := n, groups := [], downOut := s.li.downOut ++ [g] } ∧
      s.ru.clearFilter.KeepsRequests ((s.takeUnit n).sendDown g).ru ∧
      s.ru.CreatesNotice ((s.takeUnit n).sendDown g).ru n s.ft.counter (.joined Config.serial n) ∧
      ((s.takeUnit n).sendDown g).now = s.now ∧ s.SameExcept ((s.takeUnit n).sendDown g) [.li, .ru] :=
  ⟨rfl, createNotice_keepsRequests .., createNotice_creates s.ru.clearFilter n s.ft.counter _, rfl,
    fun b hb => by cases b <;> simp at hb <;> rfl, rfl, rfl, rfl, rfl⟩

section Base
variable {s : State} {f : LinkFrame}

theorem enumerateBase_number (h : 1 ≤ (byteAt f.body 3).toNat ∧ (byteAt f.body 3).toNat ≤ 62) :
    s.enumerateBase f = (s.takeUnit (byteAt f.body 3)).sendDown (rebased f.body) := if_pos h

theorem enumerateBase_last (h : (byteAt f.body 3).toNat = 63) : s.enumerateBase f = (s.takeUnit 0).sendDown f :=
  (if_neg (by omega)).trans (if_pos (show byteAt f.body 3 = 63 by bv_omega))

theorem enumerateBase_other (hnumber : ¬ (1 ≤ (byteAt f.body 3).toNat ∧ (byteAt f.body 3).toNat ≤ 62))
    (hlast : (byteAt f.body 3).toNat ≠ 63) : s.enumerateBase f = s.sendDown f :=
  (if_neg hnumber).trans (if_neg (show ¬ byteAt f.body 3 = 63 by bv_omega))

end Base

theorem withLi_same (s : State) (x : LinkInterface) : s.SameExcept (s.withLi x) [.li, .ru] :=
  sameExcept_of_untouched

/-! ## The arrival rule (R170, R178) -/

section Arrival
variable {x : RequestUnit} {unit : Byte} {r : Request}

theorem duplicateOf_some {e : FilterEntry} (hfilter : x.filter = some e) (hcls : r.cls = .unit) (hseq : e.seq = r.seq)
    (hcheck : e.check = r.check) : x.duplicateOf r = some e := by
  simp only [RequestUnit.duplicateOf, hcls, hfilter]
  exact if_pos ⟨hseq, hcheck⟩

theorem duplicateOf_none (h : ∀ e, x.filter = some e → ¬ (r.cls = .unit ∧ e.seq = r.seq ∧ e.check = r.check)) :
    x.duplicateOf r = none := by
  unfold RequestUnit.duplicateOf
  split
  · rename_i e hcls hfilter
    exact if_neg fun hsame => h e hfilter ⟨hcls, hsame⟩
  · rfl

theorem arrive_duplicate {e : FilterEntry} (h : x.duplicateOf r = some e) : x.arrive unit r = x.duplicate e := by
  simp only [RequestUnit.arrive, h]

theorem arrive_joins (h : x.duplicateOf r = none) (hroom : x.queue.length < 8) : x.arrive unit r = x.join r := by
  simp only [RequestUnit.arrive, h, if_pos hroom]

theorem arrive_full_unit (h : x.duplicateOf r = none) (hfull : ¬ x.queue.length < 8) (hcls : r.cls = .unit) :
    x.arrive unit r = x.place (queueFullReply unit r) := by
  simp only [RequestUnit.arrive, h, if_neg hfull, hcls]

theorem arrive_full_other (h : x.duplicateOf r = none) (hfull : ¬ x.queue.length < 8) (hcls : r.cls ≠ .unit) :
    x.arrive unit r = x.dropOne := by
  simp only [RequestUnit.arrive, h, if_neg hfull]
  cases hr : r.cls with
  | unit => exact absurd hr hcls
  | group | allTiles => rfl

/-- A counter of drops one higher. -/
theorem dropOne_eq : x.dropOne = { x with reqDrop := if x.reqDrop = 65535 then 65535 else x.reqDrop + 1 } := by
  rw [RequestUnit.dropOne, satInc_half]

/-- A reply finds a place beside the one that an executing fill will need (R174). -/
theorem place_eq (y : Reply) : x.place y =
    if x.replies.length + (if x.executing.map (fun e => e.entry.req.cls) = some .unit then 1 else 0) < 8 then
      { x with replies := x.replies ++ [y] }
    else { x with reqDrop := if x.reqDrop = 65535 then 65535 else x.reqDrop + 1 } := by
  have hreserved : x.reserved = if x.executing.map (fun e => e.entry.req.cls) = some .unit then 1 else 0 := by
    unfold RequestUnit.reserved
    cases x.executing with
    | none => rfl
    | some e => simp
  rw [RequestUnit.place, RequestUnit.hasPlace, hreserved, dropOne_eq]
  simp only [decide_eq_true_eq]

theorem join_eq : x.join r = { x with
    queue := x.queue ++ [{ req := r, tag := x.nextTag }], nextTag := x.nextTag + 1
    filter := if r.cls = .unit then some { seq := r.seq, check := r.check, tag := x.nextTag, state := .waiting } else x.filter } := by
  unfold RequestUnit.join
  cases r.cls <;> rfl

end Arrival

end Sys2Proof.Machine
end

section
/-! SUPPORT. The statements on the link (chapter 9) and on the arrival of requests (chapter 10) settled. -/

namespace Sys2Proof.Settled

open Sys2Proof.Machine

/-- Settles O44: the decision on a destination; then the row at each of its events. -/
theorem framesDecidedAndRepeated : Obligations.FramesDecidedAndRepeated := by
  refine ⟨fun x d hunit => classFor_iff hunit, fun s hrun => ⟨fun ys d hopens => ?_, fun b bytes l hin hrx hb h3 hl => ?_,
    fun ys f r hends hours => ?_, fun stage ys hnone hstart => exec_repeat_none stage (LinkInterface.onUpIn_outside hnone hstart)⟩,
    fun s stage ys hheld => exec_repeat_held stage (by simp [hheld])⟩
  · rw [exec_repeat_destination hrun (LinkInterface.onUpIn_destination d hopens)]
    rw [decisions_eq]
    rfl
  · have hexec := exec_repeat_kindByte hrun (LinkInterface.onUpIn_kindByte hin hb h3 hl)
    have hlen : (b ++ bytes).length = 3 := by rw [List.length_append, hl]
    have hheld : (isEnumerateAll (b ++ bytes) && (s.mc.startUp == .ready)) =
        decide (byteAt (b ++ bytes) 0 = 127 ∧ byteAt (b ++ bytes) 2 = 0x01 ∧ s.mc.startUp = .ready) := by
      rw [isEnumerateAll_of_length hlen, Bool.eq_iff_iff]
      simp [and_assoc]
    rw [LinkInterface.beginRepeat, hheld, hrx] at hexec
    refine ⟨_, hexec, rfl, rfl, ?_, sameExcept_of_untouched⟩
    exact repeating_of_begun rfl rfl
  · rw [exec_repeat_ended hrun (LinkInterface.onUpIn_ended hends), LinkInterface.endFrame_eq]
    · rfl
    · rintro (hholds | hclass)
      · obtain ⟨l, hl, hheld⟩ := holds_iff.1 hholds
        exact (hours l hl).2 hheld
      · obtain ⟨c, hc⟩ := Option.ne_none_iff_exists'.1 hclass
        obtain ⟨l, hl, hcls⟩ := Option.bind_eq_some_iff.1 hc
        rw [(hours l hl).1] at hcls
        cases hcls

/-- Settles O45: a frame ends, is tested and is handed over. -/
theorem frameForThisTileTested : Obligations.FrameForThisTileTested := by
  refine ⟨fun s ys f r hrun hends hfree => ?_, fun s ys h =>
    exec_frameEnd_quiet (h.imp id fun h => LinkInterface.onUpIn_outside h.1 h.2)⟩
  have hended := LinkInterface.onUpIn_ended hends
  have hnotHeld : ¬ s.li.holds = true := fun h => by
    obtain ⟨l, hl, hheld⟩ := holds_iff.1 h
    exact hfree l hl hheld
  dsimp only
  cases hclass : s.li.rx.bind RxLatch.cls with
  | none =>
    exact ⟨_, exec_frameEnd_notOurs hrun hended hnotHeld hclass, rfl,
      sameExcept_of_untouched, rfl, rfl⟩
  | some c =>
    dsimp only
    by_cases hmalformed : f.ending = .cutOff ∨ f.body.length < 5 ∨ 245 < f.body.length
    · refine ⟨_, exec_frameEnd_counted hrun hended hnotHeld hclass (tests_malformed hmalformed), rfl,
        sameExcept_of_untouched, ?_⟩
      rw [if_pos hmalformed]
      exact ⟨rfl, rfl⟩
    by_cases hcheck : checkGood f.body = false
    · refine ⟨_, exec_frameEnd_counted hrun hended hnotHeld hclass (tests_badCheck hmalformed hcheck), rfl,
        sameExcept_of_untouched, ?_⟩
      rw [if_neg hmalformed, if_pos hcheck]
      exact ⟨rfl, rfl⟩
    · refine ⟨_, exec_frameEnd_handed hrun hended hnotHeld hclass (tests_passed hmalformed hcheck), rfl,
        sameExcept_of_untouched, ?_⟩
      rw [if_neg hmalformed, if_neg hcheck]
      exact ⟨rfl, rfl⟩

/-- Settles O46: a duplicate, a frame that joins, and the full queue. -/
theorem requestArrives : Obligations.RequestArrives := by
  refine fun x unit r => ⟨fun e hfilter hcls hseq hcheck => ?_, fun hother => ?_⟩
  · rw [arrive_duplicate (duplicateOf_some hfilter hcls hseq hcheck), RequestUnit.duplicate]
    cases e.state with
    | waiting | replyQueued => rfl
    | replySent cached => exact place_eq cached
  · have hnone := duplicateOf_none hother
    by_cases hroom : x.queue.length < 8
    · rw [arrive_joins hnone hroom, if_pos hroom, join_eq]
      rfl
    rw [if_neg hroom]
    by_cases hcls : r.cls = .unit
    · rw [arrive_full_unit hnone hroom hcls, if_pos hcls]
      exact place_eq _
    · rw [arrive_full_other hnone hroom hcls, if_neg hcls]
      exact dropOne_eq

/-- Settles O47: a held ENUMERATE ends, is tested and acted on. -/
theorem enumeration : Obligations.Enumeration := by
  refine ⟨fun s ys f r l hrun hends hrx hheld => ?_, fun s ys h =>
    exec_enumerate_quiet (h.imp id fun h => LinkInterface.onUpIn_outside h.1 h.2)⟩
  have hended := LinkInterface.onUpIn_ended hends
  have hholds : s.li.holds = true := holds_iff.2 ⟨l, hrx, hheld⟩
  dsimp only
  by_cases hmalformed : f.ending = .cutOff ∨ f.body.length < 5 ∨ 245 < f.body.length
  · refine ⟨_, exec_enumerate_counted hrun hended hholds (tests_malformed hmalformed), rfl,
      sameExcept_of_untouched, ?_⟩
    rw [if_pos hmalformed]
    exact ⟨rfl, rfl⟩
  by_cases hcheck : checkGood f.body = false
  · refine ⟨_, exec_enumerate_counted hrun hended hholds (tests_badCheck hmalformed hcheck), rfl,
      sameExcept_of_untouched, ?_⟩
    rw [if_neg hmalformed, if_pos hcheck]
    exact ⟨rfl, rfl⟩
  have hexec := exec_enumerate_passed hrun hended hholds (tests_passed hmalformed hcheck)
  simp only [if_neg hmalformed, if_neg hcheck]
  by_cases hlength : f.body.length = 6
  · rw [if_pos hlength] at hexec
    simp only [if_neg (not_not.2 hlength)]
    have taken := takeUnit_fields (s.withLi { s.li with upIn := r, rx := none })
    by_cases hbase : 1 ≤ (byteAt f.body 3).toNat ∧ (byteAt f.body 3).toNat ≤ 62
    · rw [enumerateBase_number hbase] at hexec
      obtain ⟨hli, ⟨hqueue, hexecuting, hreplies, hfilter, hlast, hdrop, htag⟩, hnotice, hnow, hsame⟩ :=
        taken (byteAt f.body 3) (rebased f.body)
      simp only [if_pos hbase]
      exact ⟨_, hexec, hnow, sameExcept_trans (withLi_same s _) hsame, hli, hqueue, hexecuting, hreplies, hfilter, hlast, hdrop, htag, hnotice⟩
    by_cases hlast : (byteAt f.body 3).toNat = 63
    · rw [enumerateBase_last hlast] at hexec
      obtain ⟨hli, ⟨hqueue, hexecuting, hreplies, hfilter, hlast', hdrop, htag⟩, hnotice, hnow, hsame⟩ := taken 0 f
      simp only [if_neg hbase, if_pos hlast]
      exact ⟨_, hexec, hnow, sameExcept_trans (withLi_same s _) hsame, hli, hqueue, hexecuting, hreplies, hfilter, hlast', hdrop, htag, hnotice⟩
    · rw [enumerateBase_other hbase hlast] at hexec
      simp only [if_neg hbase, if_neg hlast]
      exact ⟨_, hexec, rfl, sameExcept_of_untouched, rfl, rfl⟩
  · rw [if_neg hlength] at hexec
    simp only [if_pos hlength]
    exact ⟨_, hexec, rfl, sameExcept_of_untouched, rfl, rfl⟩

end Sys2Proof.Settled
end

section
/-! SUPPORT. The upstream side of the link (chapter 9): the pass-through queue and the arbiter of UP-out; and what a cold reset and a start-up leave
(chapter 8). -/

namespace Sys2Proof.Machine

/-! ## The pass-through queue (R163, R164) -/

theorem completeUpstream_iff {f : LinkFrame} :
    completeUpstream f = true ↔ ¬ (f.ending = .cutOff ∨ f.body = [] ∨ 246 < f.body.length) := by
  have hbody : 1 ≤ f.body.length ↔ f.body ≠ [] := List.length_pos_iff
  cases hending : f.ending <;> simp [completeUpstream, hending, hbody]

theorem isOverrun_iff {n : Notice} : n.isOverrun = true ↔ ∃ v, n.details = .linkOverrun v := by
  unfold Notice.isOverrun
  cases n.details <;> simp

section Upstream
variable {s : State} {ys : List Symbol} {r : Receiver} {f : LinkFrame}

theorem exec_upstream_discarded (hrun : s.running = true) (h : s.li.onDownIn ys = some (r, f)) (hbad : ¬ completeUpstream f = true) :
    exec (.upstreamFrameEnd ys) s = .next (s.withLi { s.li with downIn := r }) := by
  simp only [exec, execUpstreamFrameEnd, if_pos hrun, h, if_neg hbad]

theorem exec_upstream_queued (hrun : s.running = true) (h : s.li.onDownIn ys = some (r, f)) (hgood : completeUpstream f = true)
    (hroom : s.li.passThrough.length < 6) :
    exec (.upstreamFrameEnd ys) s = .next (s.withLi { s.li with downIn := r, passThrough := s.li.passThrough ++ [f.body] }) := by
  simp only [exec, execUpstreamFrameEnd, if_pos hrun, h, if_pos hgood, withLi_li]
  exact if_pos hroom

theorem exec_upstream_dropped (hrun : s.running = true) (h : s.li.onDownIn ys = some (r, f)) (hgood : completeUpstream f = true)
    (hfull : ¬ s.li.passThrough.length < 6) :
    exec (.upstreamFrameEnd ys) s = .next (s.withLi { s.li with downIn := r }).passDropped := by
  simp only [exec, execUpstreamFrameEnd, if_pos hrun, h, if_pos hgood, withLi_li]
  exact if_neg hfull

theorem exec_upstream_quiet (h : s.running = false ∨ s.li.onDownIn ys = none) : exec (.upstreamFrameEnd ys) s = .next s := by
  rcases h with hheld | hnone
  · exact if_neg (by simp [hheld])
  · simp only [exec, execUpstreamFrameEnd, hnone]
    exact ite_self _

end Upstream

section Dropped
variable {s : State}

/-- No notice of a drop is created while one stands in the log or the tile is STARTING. -/
theorem passDropped_silent (h : s.mc.startUp = .starting ∨ ∃ n ∈ s.ru.log, ∃ v, n.details = .linkOverrun v) :
    s.passDropped = s.withLi { s.li with passDrop := if s.li.passDrop = 65535 then 65535 else s.li.passDrop + 1 } := by
  rw [← satInc_half]
  refine if_pos (h.symm.imp (fun ⟨n, hn, hv⟩ => ?_) id)
  exact List.any_eq_true.2 ⟨n, hn, isOverrun_iff.2 hv⟩

theorem passDropped_notified (h : ¬ (s.mc.startUp = .starting ∨ ∃ n ∈ s.ru.log, ∃ v, n.details = .linkOverrun v)) :
    s.passDropped = (s.withLi { s.li with passDrop := if s.li.passDrop = 65535 then 65535 else s.li.passDrop + 1 }).notify
      (.linkOverrun (if s.li.passDrop = 65535 then 65535 else s.li.passDrop + 1)) := by
  rw [← satInc_half]
  refine if_neg fun hany => h (hany.symm.imp id fun hlog => ?_)
  obtain ⟨n, hn, hover⟩ := List.any_eq_true.1 hlog
  exact ⟨n, hn, isOverrun_iff.1 hover⟩

end Dropped

/-! ## The arbiter of UP-out (R165) -/

/-- A log with an UNSENT notice, split at the oldest one (R181). -/
theorem exists_oldest_unsent {l : List Notice} (h : ∃ n ∈ l, n.sent = false) :
    ∃ older n newer, l = older ++ n :: newer ∧ n.sent = false ∧ (∀ x ∈ older, x.sent = true) ∧
      l.find? (fun n => !n.sent) = some n ∧ markOldestSent l = older ++ { n with sent := true } :: newer := by
  induction l with
  | nil => simp at h
  | cons m l ih =>
    by_cases hm : m.sent = true
    · have hrest : ∃ n ∈ l, n.sent = false := by
        obtain ⟨n, hn, hsent⟩ := h
        rcases List.mem_cons.1 hn with rfl | hn
        · rw [hm] at hsent; cases hsent
        · exact ⟨n, hn, hsent⟩
      obtain ⟨older, n, newer, rfl, hn, holder, hfind, hmark⟩ := ih hrest
      refine ⟨m :: older, n, newer, rfl, hn, ?_, ?_, ?_⟩
      · exact List.forall_mem_cons.2 ⟨hm, holder⟩
      · rw [List.find?_cons_of_neg (by simp [hm]), hfind]
      · rw [markOldestSent, if_pos hm, hmark]; rfl
    · have hunsent : m.sent = false := by simpa using hm
      exact ⟨[], m, l, rfl, hunsent, by simp, by simp [hunsent], by rw [markOldestSent, if_neg hm]; rfl⟩

section Candidate
variable {x : RequestUnit}

theorem ownCandidate_of_reply {y : Reply} {ys : List Reply} (h : x.replies = y :: ys) :
    x.ownCandidate = some (y.frameBody, { x with replies := ys, filter := markReplySent y x.filter }) := by
  simp only [RequestUnit.ownCandidate, h]

theorem ownCandidate_of_notice (h : x.replies = []) {n : Notice} (hn : x.log.find? (fun n => !n.sent) = some n) :
    x.ownCandidate = some (n.frameBody, { x with log := markOldestSent x.log }) := by
  simp only [RequestUnit.ownCandidate, h, hn]

theorem ownCandidate_none (h : ¬ (x.replies ≠ [] ∨ ∃ n ∈ x.log, n.sent = false)) : x.ownCandidate = none := by
  obtain ⟨hreplies, hlog⟩ := not_or.1 h
  have hnone : x.log.find? (fun n => !n.sent) = none :=
    List.find?_eq_none.2 fun n hn hsent => hlog ⟨n, hn, by simpa using hsent⟩
  simp only [RequestUnit.ownCandidate, not_not.1 hreplies, hnone]

/-- A sent reply's filter entry becomes REPLY_SENT (R177). -/
theorem markReplySent_eq (y : Reply) (o : Option FilterEntry) :
    markReplySent y o = o.map (fun e => if y.tag = some e.tag then { e with state := .replySent y } else e) := by
  cases o with
  | none => rfl
  | some e => exact (apply_ite some ..).symm

end Candidate

section UpOut
variable {s : State}

theorem exec_upOutBegin_pass (hrun : s.running = true) (hfree : s.li.upOut = none) {b : List Byte} {rest : List (List Byte)}
    (hpass : s.li.passThrough = b :: rest) (hown : s.ru.ownCandidate = none ∨ s.li.lastSide = .own) :
    exec .upOutFrameBegin s = .next (s.beginPass b) := by
  simp only [exec, execUpOutFrameBegin, if_pos (And.intro hrun hfree), hpass]
  rcases hown with hnone | hlast
  · rw [hnone]
  · cases s.ru.ownCandidate with
    | none => rfl
    | some y => simp only [hlast]

theorem exec_upOutBegin_own (hrun : s.running = true) (hfree : s.li.upOut = none) {body : List Byte} {x : RequestUnit}
    (hown : s.ru.ownCandidate = some (body, x)) (hpass : s.li.passThrough = [] ∨ s.li.lastSide = .passThrough) :
    exec .upOutFrameBegin s = .next (s.beginOwn body x) := by
  simp only [exec, execUpOutFrameBegin, if_pos (And.intro hrun hfree), hown]
  cases hqueue : s.li.passThrough with
  | nil => rfl
  | cons b rest =>
    rcases hpass with hempty | hlast
    · rw [hqueue] at hempty; cases hempty
    · simp only [hlast]

theorem exec_upOutBegin_idle (hown : s.ru.ownCandidate = none) (hpass : s.li.passThrough = []) :
    exec .upOutFrameBegin s = .next s := by
  simp only [exec, execUpOutFrameBegin, hown, hpass]
  exact ite_self _

theorem exec_upOutBegin_blocked (h : ¬ (s.running = true ∧ s.li.upOut = none)) : exec .upOutFrameBegin s = .next s := if_neg h

theorem exec_upOutEnd (hrun : s.running = true) {y : Sending} (h : s.li.upOut = some y) :
    exec .upOutFrameEnd s = .next (s.withLi { s.li with
      upOut := none, passThrough := if y.side = .passThrough then s.li.passThrough.drop 1 else s.li.passThrough }) := by
  simp only [exec, execUpOutFrameEnd, if_pos hrun, h]
  cases y.side with
  | own => rfl
  | passThrough => rw [if_pos rfl, List.drop_one]

theorem exec_upOutEnd_idle (h : s.li.upOut = none) : exec .upOutFrameEnd s = .next s := by
  simp only [exec, execUpOutFrameEnd, h]
  exact ite_self _

theorem exec_upOutEnd_held (h : ¬ s.running = true) : exec .upOutFrameEnd s = .next s := if_neg h

end UpOut

/-! ## Cold reset and start-up (R143-R145) -/

/-- A cold reset and the line that caused it. -/
theorem exec_coldReset_eq (s : State) (c : ResetCause) (b : Blows) :
    exec (.coldReset c b) s = .next { s.toCold b with
      powerGood := if c = .powerLost then false else s.powerGood
      resetLine := if c = .lineAsserted then true else s.resetLine } := by
  cases c <;> rfl

/-- The change of the lines that may end the hold. -/
theorem exec_startupBegin_eq (s : State) (c : StartCause) :
    exec (.startupBegin c) s = .next (s.afterLines (if c = .powerGood then true else s.powerGood)
      (if c = .lineReleased then false else s.resetLine)) := by
  cases c <;> rfl

theorem heldBlank_get (g : Fin 6) (k : SpareId) : (heldBlank.get g).get k = .blank := by
  cases k <;> simp [heldBlank, Vector.get_eq_getElem, SparePair.get]

theorem cold_latch (r : Fin 96) : RowDrive.cold.latch.get r = none := by
  simp [RowDrive.cold, Vector.get_eq_getElem]

end Sys2Proof.Machine
end

section
/-! SUPPORT. The statements on the upstream side of the link and on cold reset and start-up settled. -/

namespace Sys2Proof.Settled

open Sys2Proof.Machine

/-- Settles O49: an upstream frame discarded, queued, or dropped. -/
theorem upstreamFrameQueued : Obligations.UpstreamFrameQueued := by
  refine ⟨fun s ys y b e r hrun hopens hends => ?_, fun s ys h =>
    exec_upstream_quiet (h.imp id fun h => LinkInterface.onDownIn_outside h.1 h.2)⟩
  have hended := LinkInterface.onDownIn_ended hopens hends
  dsimp only
  split
  · rename_i hbad
    exact exec_upstream_discarded hrun hended fun hgood => completeUpstream_iff.1 hgood hbad
  rename_i hgood
  split
  · rename_i hroom
    exact exec_upstream_queued hrun hended (completeUpstream_iff.2 hgood) hroom
  rename_i hfull
  have hexec := exec_upstream_dropped hrun hended (completeUpstream_iff.2 hgood) hfull
  by_cases hsilent : s.mc.startUp = .starting ∨ ∃ n ∈ s.ru.log, ∃ v, n.details = .linkOverrun v
  · rw [passDropped_silent (s := s.withLi { s.li with downIn := r }) hsilent] at hexec
    refine ⟨_, hexec, rfl, keepsRequests_refl _, rfl, sameExcept_of_untouched, ?_⟩
    rw [if_pos hsilent]
    exact ⟨rfl, rfl, rfl⟩
  · rw [passDropped_notified (s := s.withLi { s.li with downIn := r }) hsilent] at hexec
    refine ⟨_, hexec, rfl, createNotice_keepsRequests .., rfl,
      sameExcept_of_untouched, ?_⟩
    rw [if_neg hsilent]
    exact createNotice_creates ..

/-- Settles O50: the frame of each side, and the cases of the arbiter. -/
theorem upOutArbitrated : Obligations.UpOutArbitrated := by
  refine ⟨fun s hrun hfree => ?_, fun s y hrun hsending => ⟨exec_upOutBegin_blocked (by simp [hsending]), exec_upOutEnd hrun hsending⟩,
    fun s _ hfree => exec_upOutEnd_idle hfree,
    fun s hheld => ⟨exec_upOutBegin_blocked (by simp [hheld]), exec_upOutEnd_held (by simp [hheld])⟩⟩
  intro pass own passReady ownReady
  have passes : ∀ {b rest}, s.li.passThrough = b :: rest → s.ru.ownCandidate = none ∨ s.li.lastSide = .own → pass := by
    intro b rest hqueue hother
    have hend := exec_upOutEnd (s := s.beginPass b) hrun rfl
    have hrest : (s.beginPass b).li.passThrough.drop 1 = rest := (congrArg (List.drop 1) hqueue).trans rfl
    rw [if_pos rfl, hrest] at hend
    exact ⟨b, rest, _, hqueue, exec_upOutBegin_pass hrun hfree hqueue hother, rfl, rfl,
      sameExcept_of_untouched, _, hend, rfl, rfl,
      sameExcept_of_untouched⟩
  have owns : ownReady → s.li.passThrough = [] ∨ s.li.lastSide = .passThrough → own := by
    intro hready hother
    have hend := fun body x => exec_upOutEnd (s := s.beginOwn body x) hrun rfl
    simp only [reduceCtorEq, if_false] at hend
    cases hreplies : s.ru.replies with
    | cons y ys =>
      have hbegin := exec_upOutBegin_own hrun hfree (ownCandidate_of_reply hreplies) hother
      rw [markReplySent_eq] at hbegin
      refine ⟨_, _, hbegin, rfl, rfl, sameExcept_of_untouched, ?_, _, hend _ _, rfl, rfl,
        sameExcept_of_untouched⟩
      rw [hreplies]
      exact ⟨rfl, rfl⟩
    | nil =>
      obtain ⟨older, n, newer, hlog, hunsent, holder, hfind, hmark⟩ :=
        exists_oldest_unsent (hready.resolve_left fun hne => hne hreplies)
      have hbegin := exec_upOutBegin_own hrun hfree (ownCandidate_of_notice hreplies hfind) hother
      rw [hmark] at hbegin
      refine ⟨_, _, hbegin, rfl, rfl, sameExcept_of_untouched, ?_, _, hend _ _, rfl, rfl,
        sameExcept_of_untouched⟩
      rw [hreplies]
      refine ⟨older, n, newer, hlog, hunsent, holder, rfl, ?_⟩
      rw [← hreplies]
      rfl
  refine ⟨fun hqueue hnone => ?_, fun hqueue hready => owns hready (Or.inl (not_not.1 hqueue)), fun hqueue _ hlast => ?_,
    fun _ hready hlast => owns hready (Or.inr hlast),
    fun hqueue hnone => exec_upOutBegin_idle (ownCandidate_none hnone) (not_not.1 hqueue)⟩
  · obtain ⟨b, rest, hcons⟩ := List.exists_cons_of_ne_nil hqueue
    exact passes hcons (Or.inl (ownCandidate_none hnone))
  · obtain ⟨b, rest, hcons⟩ := List.exists_cons_of_ne_nil hqueue
    exact passes hcons (Or.inr hlast)

/-- Settles O51: the cold values and the fuses; the lines and the start-up state. -/
theorem coldResetAndStartupBegin : Obligations.ColdResetAndStartupBegin := by
  refine ⟨fun s c b => ?_, fun s c => ?_⟩
  · have hexec := exec_coldReset_eq s c b
    refine ⟨_, hexec, rfl, rfl, rfl, rfl, rfl, rfl, rfl, rfl, rfl, rfl, rfl, heldBlank_get, ?_, rfl, rfl, rfl, rfl, rfl⟩
    cases hburn : s.fz.burn with
    | idle | check | recheck =>
      have hkept : s.fz.blow b = s.fz := blow_of_other (by simp [hburn]) (by simp [hburn])
      exact (congrArg FuseStore.fuses hkept :)
    | write y =>
      have hown := (blow_of_write hburn (b := b) y.seg y.spare).trans (if_pos ⟨rfl, rfl⟩)
      refine ⟨fun g k hother => (blow_of_write hburn g k).trans (if_neg hother), ?_⟩
      simp only [State.toCold, FuseStore.coldReset, hown]
      exact ⟨rfl, fun i hi => blowWrite_bits _ _ _ hi⟩
    | mark y =>
      exact ⟨fun g k hother => (blow_of_mark hburn g k).trans (if_neg hother),
        (blow_of_mark hburn y.seg y.spare).trans (if_pos ⟨rfl, rfl⟩)⟩
  · have hexec := exec_startupBegin_eq s c
    generalize (if c = .powerGood then true else s.powerGood) = power at hexec ⊢
    generalize (if c = .lineReleased then false else s.resetLine) = line at hexec ⊢
    by_cases hbegins : s.running = false ∧ (power && !line) = true
    · rw [afterLines_begins hbegins.1 hbegins.2] at hexec
      exact ⟨_, hexec, rfl, rfl, rfl, (if_pos hbegins).symm, rfl, rfl, rfl, rfl, rfl, rfl, rfl, rfl, rfl, rfl, rfl, rfl⟩
    · have hstays : s.running = true ∨ (power && !line) = false := by
        simpa [or_iff_not_imp_left] using hbegins
      rw [afterLines_stays hstays] at hexec
      exact ⟨_, hexec, rfl, rfl, rfl, (if_neg hbegins).symm, rfl, rfl, rfl, rfl, rfl, rfl, rfl, rfl, rfl, rfl, rfl, rfl⟩

/-- Settles O52: the classes read, and the map built from them. -/
theorem startupEnds : Obligations.StartupEnds := by
  intro s m hrun hstarting
  have hexec : exec (.startupEnd m) s = .next (s.finishStartup m) := if_pos ⟨hrun, hstarting⟩
  have hclass := startupRead_classOf s.fz
  have hrecords := fun g => build_records (readPair (s.fz.fuses.get g)) (readPair_differ _)
  have hsegment : ∀ g, (s.finishStartup m).rd.segment g = Segment.build (readPair (s.fz.fuses.get g)) := fun g =>
    (build_segment _ g).trans (congrArg _ (startupRead_held s.fz g))
  have hread : ∀ g x, (s.finishStartup m).fz.classOf g x = (readPair (s.fz.fuses.get g)).get x := fun g x => hclass g x
  refine ⟨_, hexec, rfl, rfl, fun p a => ?_, rfl, rfl, rfl, rfl, fun g => ⟨?_, ?_⟩, rfl, rfl, rfl,
    ⟨rfl, cold_latch, fun g p => ?_, fun g x => ?_⟩, ?_, ?_, sameExcept_of_untouched⟩
  · cases p <;> rfl
  · exact (hclass g .s16).trans (readPair_s16 _)
  · exact (hclass g .s17).trans (readPair_s17 _)
  · obtain ⟨hsound, hhard, hdirect⟩ := (hrecords g).1 p
    rw [hsegment]
    exact ⟨hsound, fun x => (hhard x).trans (by rw [hread]), fun hother => hdirect fun x hx => hother x ((hread g x).trans hx)⟩
  · obtain ⟨hsound, huse⟩ := (hrecords g).2 x
    rw [hsegment]
    refine ⟨hsound, ?_⟩
    rw [hread]
    cases hx : (readPair (s.fz.fuses.get g)).get x <;> rw [hx] at huse <;> exact huse
  · exact createNotice_creates ..
  · exact createNotice_keepsRequests ..

end Sys2Proof.Settled
end
